-- ==== Sys2Proof/Word.lean ====
section
/-! DEFINITION. The word types of the block: 32-bit command words, bytes, 16-bit characters
and 4-bit intensities (spec/00_scope.md R10, 30_encoding.md R110, 42_text.md R240). -/

namespace Sys2Proof

/-- A command word or a register-window word (R48, R110). -/
abbrev Word := BitVec 32

/-- A byte: of the framebuffer, of glyph data, of the transport (R33, R41, R150). -/
abbrev Byte := BitVec 8

/-- A character: one 16-bit unit (R240). -/
abbrev Char16 := BitVec 16

/-- A grayscale intensity, 0 to 15 (R113). -/
abbrev Intensity := BitVec 4

end Sys2Proof
end

