-- ==== Sys2Proof/Config.lean ====
section
/-! DEFINITION. The configuration of the block: the parameters of 00_scope.md R7, their
constraints (R8), the panel command bytes (R160) and the groups of the initialisation sequence (R161).
A configuration is plain data, fixed for the life of a model (R30).
notes/assumptions/1.md says how a machine carries it, 2.md and 3.md name the values of `Config.ref`. -/

namespace Sys2Proof

/-- The panel command bytes `PANEL` (R160): OPEN, so each is a parameter. -/
structure Panel where
  setColumn : Byte
  setRow : Byte
  writeRam : Byte
  displayOff : Byte
  displayOn : Byte
  setContrast : Byte
  deriving DecidableEq, Repr

/-- One panel command byte with its parameter bytes (R159). -/
structure Group where
  cmd : Byte
  params : List Byte
  deriving DecidableEq, Repr

/-- The groups of `INIT_SEQ` whose bytes are OPEN (R161), one field per group of the vps list; the
display-off, column, row and display-on groups are not here, because R161 fixes them. -/
structure InitGroups where
  unlock : Group
  clockDivisor : Group
  muxRatio : Group
  remap : Group
  vdd : Group
  enhancement : Group
  contrast : Group
  grayTable : Group
  phaseLength : Group
  precharge : Group
  vcomh : Group
  displayNormal : Group
  deriving DecidableEq, Repr

/-- The implementation parameters of R7. -/
structure Config where
  /-- `WIDTH`, pixels -/
  width : Nat
  /-- `HEIGHT`, pixels -/
  height : Nat
  /-- `PANEL` -/
  panel : Panel
  /-- the OPEN groups of `INIT_SEQ` -/
  initGroups : InitGroups
  /-- `DC_CMD_LEVEL`: the level of the data/command line in command phase -/
  dcCmdLevel : Bool
  /-- `CMD_FIFO_DEPTH`, words -/
  cmdFifoDepth : Nat
  /-- `RESP_FIFO_DEPTH`, records -/
  respFifoDepth : Nat
  /-- `FF_MAX_CHARS` -/
  ffMaxChars : Nat
  /-- `FF_MAX_BYTES` -/
  ffMaxBytes : Nat
  /-- `HF_MAX_GLYPHS` -/
  hfMaxGlyphs : Nat
  /-- `TEXT_MAX`, 16-bit units -/
  textMax : Nat
  /-- `BASE`: the address of the host register window -/
  base : Nat
  deriving DecidableEq, Repr

/-- `COL_OFFSET`, fixed at 28 by vps (R7). -/
def colOffset : Nat := 28

namespace Config

/-- `HC = WIDTH / 4` (R80). -/
def hc (c : Config) : Nat := c.width / 4

/-- `ROW_BYTES = 2 * HC` (R80). -/
def rowBytes (c : Config) : Nat := 2 * c.hc

/-- `FB_SIZE = 2 * HC * HEIGHT` (R33, R80). -/
def fbSize (c : Config) : Nat := 2 * c.hc * c.height

/-- The constraints of R8 and the lower bounds of R7. The step refuses a machine whose configuration
fails them. -/
abbrev Ok (c : Config) : Prop :=
  (0 < c.width ∧ c.width % 4 = 0) ∧ colOffset + c.hc - 1 ≤ 255 ∧ (1 ≤ c.height ∧ c.height ≤ 256) ∧
    4 ≤ c.cmdFifoDepth ∧ 1 ≤ c.respFifoDepth ∧ 1 ≤ c.ffMaxChars ∧ 1 ≤ c.ffMaxBytes ∧
    1 ≤ c.hfMaxGlyphs ∧ 1 ≤ c.textMax

/-- The default `PANEL` of 93_implementation_defined.md section 4 (PRESUMED: the spec marks it as general knowledge;
notes/assumptions/3.md). -/
def defaultPanel : Panel :=
  { setColumn := 0x15, setRow := 0x75, writeRam := 0x5C, displayOff := 0xAE, displayOn := 0xAF,
    setContrast := 0xC1 }

/-- The default OPEN groups of `INIT_SEQ` of 93_implementation_defined.md section 4 for a raster of
`height` rows (PRESUMED, notes/assumptions/3.md). -/
def defaultInitGroups (height : Nat) : InitGroups :=
  { unlock := ⟨0xFD, [0x12]⟩
    clockDivisor := ⟨0xB3, [0x91]⟩
    muxRatio := ⟨0xCA, [BitVec.ofNat 8 (height - 1)]⟩
    remap := ⟨0xA0, [0x14, 0x11]⟩
    vdd := ⟨0xAB, [0x01]⟩
    enhancement := ⟨0xB4, [0xA0, 0xFD]⟩
    contrast := ⟨0xC1, [0x9F]⟩
    grayTable := ⟨0xB9, []⟩
    phaseLength := ⟨0xB1, [0xE2]⟩
    precharge := ⟨0xBB, [0x1F]⟩
    vcomh := ⟨0xBE, [0x07]⟩
    displayNormal := ⟨0xA6, []⟩ }

/-- A raster of `width` by `height` with the default `PANEL` and `INIT_SEQ`, and depths and capacities so large that no FIFO limit or
capacity is reached (R9): the largest counts that the 16-bit fields of LEVEL and of the operand words hold. R9 names no numbers for them, so
these are DESIGN CHOICE, notes/assumptions/2.md. -/
def ofGeometry (width height : Nat) : Config :=
  { width := width, height := height, panel := defaultPanel, initGroups := defaultInitGroups height,
    dcCmdLevel := false, cmdFifoDepth := 65535, respFifoDepth := 65535, ffMaxChars := 65535,
    ffMaxBytes := 65535 * 255, hfMaxGlyphs := 65536, textMax := 65535, base := 0 }

/-- Configuration REF of R9. -/
def ref : Config := ofGeometry 256 64

/-- Configuration SMALL of R9. -/
def small : Config := ofGeometry 8 4

end Config

end Sys2Proof
end

