-- ==== Sys2Proof/Syntax.lean ====
section
/-! DEFINITION. The commands of the GFB4 command set, one constructor per row of spec/opcode_table.json
(30_encoding.md R118, R130), with the operands each one carries. -/

namespace Sys2Proof

/-- A hex-font glyph record `(KIND, ROWS)` (R42): `KIND = 0` has 8 rows of 8 bits, `KIND = 1` has
16 rows of 16 bits. `Glyph.wf` checks the number of rows. -/
inductive Glyph where
  | g8 (rows : List (BitVec 8))
  | g16 (rows : List (BitVec 16))
  deriving DecidableEq, Repr

/-- A command with its fields (R118). Every command carries its TAG (R116). Coordinates are the raw 16-bit
halves of an XY word (R124); the meanings read them as two's complement. -/
inductive Instr where
  /-- RESET -/
  | reset (tag : Byte)
  /-- BEGIN -/
  | begin (tag : Byte)
  /-- UPDATE -/
  | update (tag : Byte)
  /-- CLEAR -/
  | clear (tag : Byte)
  /-- SET_CONTRAST: `v` is the whole V word (R125) -/
  | contrast (tag : Byte) (v : Word)
  /-- DISPLAY_OFF -/
  | dispoff (tag : Byte)
  /-- DISPLAY_ON -/
  | dispon (tag : Byte)
  /-- TEARDOWN -/
  | teardown (tag : Byte)
  /-- DRAW_PIXEL -/
  | pixel (tag : Byte) (color : Intensity) (bypass : Bool) (x y : BitVec 16)
  /-- DRAW_LINE -/
  | line (tag : Byte) (color : Intensity) (bypass : Bool) (x0 y0 x1 y1 : BitVec 16)
  /-- FILL_RECT: `w` and `h` are unsigned (R126) -/
  | rect (tag : Byte) (color : Intensity) (bypass : Bool) (x y w h : BitVec 16)
  /-- READ_PIXEL -/
  | rdpix (tag : Byte) (x y : BitVec 16)
  /-- SET_CURSOR -/
  | cursor (tag : Byte) (x y : BitVec 16)
  /-- FFONT_DEFINE: `N` is the alphabet's length (R128) -/
  | ffont (tag : Byte) (fw : BitVec 8) (alphabet : List Char16) (data : List Byte)
  /-- WRITE_STRING: `size` is ARG (R117) -/
  | puts (tag : Byte) (color : Intensity) (bypass : Bool) (size : BitVec 8) (text : List Char16)
  /-- HFONT_BEGIN -/
  | hfbegin (tag : Byte)
  /-- HFONT_GLYPH -/
  | hfglyph (tag : Byte) (cp : Char16) (glyph : Glyph)
  /-- HFONT_END -/
  | hfend (tag : Byte)
  /-- CACHE_GLYPHS -/
  | cache (tag : Byte) (text : List Char16)
  /-- WRITE_UNIFONT -/
  | uputs (tag : Byte) (color : Intensity) (bypass : Bool) (text : List Char16)
  deriving DecidableEq, Repr

/-- The operation codes of R130, by name: what a header's `OP` selects. -/
inductive Op where
  | reset | begin | update | clear | contrast | dispoff | dispon | teardown
  | pixel | line | rect | rdpix | cursor
  | ffont | puts | hfbegin | hfglyph | hfend | cache | uputs
  deriving DecidableEq, Repr

/-- The `OP` value of each operation (R130). -/
def Op.code : Op → Byte
  | .reset => 0x01
  | .begin => 0x02
  | .update => 0x03
  | .clear => 0x04
  | .contrast => 0x05
  | .dispoff => 0x06
  | .dispon => 0x07
  | .teardown => 0x08
  | .pixel => 0x10
  | .line => 0x11
  | .rect => 0x12
  | .rdpix => 0x13
  | .cursor => 0x14
  | .ffont => 0x20
  | .puts => 0x21
  | .hfbegin => 0x28
  | .hfglyph => 0x29
  | .hfend => 0x2A
  | .cache => 0x2B
  | .uputs => 0x2C

/-- Every operation, in the order of R130. -/
def Op.all : List Op :=
  [.reset, .begin, .update, .clear, .contrast, .dispoff, .dispon, .teardown, .pixel, .line, .rect,
    .rdpix, .cursor, .ffont, .puts, .hfbegin, .hfglyph, .hfend, .cache, .uputs]

/-- The operation of a command. -/
def Instr.op : Instr → Op
  | .reset _ => .reset
  | .begin _ => .begin
  | .update _ => .update
  | .clear _ => .clear
  | .contrast _ _ => .contrast
  | .dispoff _ => .dispoff
  | .dispon _ => .dispon
  | .teardown _ => .teardown
  | .pixel _ _ _ _ _ => .pixel
  | .line _ _ _ _ _ _ _ => .line
  | .rect _ _ _ _ _ _ _ => .rect
  | .rdpix _ _ _ => .rdpix
  | .cursor _ _ _ => .cursor
  | .ffont _ _ _ _ => .ffont
  | .puts _ _ _ _ _ => .puts
  | .hfbegin _ => .hfbegin
  | .hfglyph _ _ _ => .hfglyph
  | .hfend _ => .hfend
  | .cache _ _ => .cache
  | .uputs _ _ _ _ => .uputs

/-- The TAG of a command (R116). -/
def Instr.tag : Instr → Byte
  | .reset t | .begin t | .update t | .clear t | .contrast t _ | .dispoff t | .dispon t
  | .teardown t | .pixel t _ _ _ _ | .line t _ _ _ _ _ _ | .rect t _ _ _ _ _ _ | .rdpix t _ _
  | .cursor t _ _ | .ffont t _ _ _ | .puts t _ _ _ _ | .hfbegin t | .hfglyph t _ _ | .hfend t
  | .cache t _ | .uputs t _ _ _ => t

/-- The drawing commands: those that have COLOR and B fields (R113, R115, R118). -/
def Op.drawing : Op → Bool
  | .pixel | .line | .rect | .puts | .uputs => true
  | .reset | .begin | .update | .clear | .contrast | .dispoff | .dispon | .teardown | .rdpix
  | .cursor | .ffont | .hfbegin | .hfglyph | .hfend | .cache => false

/-- COLOR and B of a command, 0 and false where it has none (R113, R115). -/
def Instr.colorBypass : Instr → Intensity × Bool
  | .pixel _ c b _ _ | .line _ c b _ _ _ _ | .rect _ c b _ _ _ _ | .puts _ c b _ _
  | .uputs _ c b _ => (c, b)
  | .reset _ | .begin _ | .update _ | .clear _ | .contrast _ _ | .dispoff _ | .dispon _
  | .teardown _ | .rdpix _ _ _ | .cursor _ _ _ | .ffont _ _ _ _ | .hfbegin _ | .hfglyph _ _ _
  | .hfend _ | .cache _ _ => (0, false)

end Sys2Proof
end

