-- ==== Sys2Proof/WellFormed.lean ====
section
/-! DEFINITION. Well-formed commands: the operand checks of 30_encoding.md R117, R119, R126 to R129 that the
types of `Instr` do not already make. A command that fails one is answered ILLEGAL_FIELD (R119) or has no encoding. -/

namespace Sys2Proof

/-- A glyph record has 8 rows of 8 bits or 16 rows of 16 bits (R129). -/
def Glyph.wf : Glyph → Bool
  | .g8 rows => rows.length == 8
  | .g16 rows => rows.length == 16

/-- The checks of R117 (SIZE), R119 (FW), R127 (LEN fits 16 bits), R128 (N fits 16 bits, N*FW data
bytes) and R129 (rows). -/
def Instr.wf : Instr → Bool
  | .ffont _ fw alphabet data =>
    fw != 0 && decide (alphabet.length < 65536) && data.length == alphabet.length * fw.toNat
  | .puts _ _ _ size text => size != 0 && decide (text.length < 65536)
  | .hfglyph _ _ glyph => glyph.wf
  | .cache _ text => decide (text.length < 65536)
  | .uputs _ _ _ text => decide (text.length < 65536)
  | .reset _ | .begin _ | .update _ | .clear _ | .contrast _ _ | .dispoff _ | .dispon _
  | .teardown _ | .pixel _ _ _ _ _ | .line _ _ _ _ _ _ _ | .rect _ _ _ _ _ _ _ | .rdpix _ _ _
  | .cursor _ _ _ | .hfbegin _ | .hfend _ => true

end Sys2Proof
end

