-- ==== Sys2Proof/Decode.lean ====
section
/-! DEFINITION. The command encoding of 30_encoding.md: the header's fields (R111 to R117), the operand words
(R124 to R129), the lengths (R131), the decoder (R119, R132 to R135), and after it the encoder. -/

namespace Sys2Proof

/-! ## Fields of a header word (R111) -/

/-- `OP = H[31:24]` -/
def hOp (h : Word) : Byte := h.extractLsb' 24 8

/-- `COLOR = H[23:20]` -/
def hColor (h : Word) : Intensity := h.extractLsb' 20 4

/-- `RSV = H[19:17]` -/
def hRsv (h : Word) : BitVec 3 := h.extractLsb' 17 3

/-- `B = H[16]` -/
def hBypass (h : Word) : Bool := h.getLsbD 16

/-- `TAG = H[15:8]` -/
def hTag (h : Word) : Byte := h.extractLsb' 8 8

/-- `ARG = H[7:0]` -/
def hArg (h : Word) : BitVec 8 := h.extractLsb' 0 8

/-! ## Halves and bytes of an operand word (R87) -/

/-- Bits [15:0]: the lower 16-bit unit of a word. -/
def lowHalf (w : Word) : BitVec 16 := w.extractLsb' 0 16

/-- Bits [31:16]: the upper 16-bit unit of a word. -/
def highHalf (w : Word) : BitVec 16 := w.extractLsb' 16 16

/-- Byte `j` of a word: bits [8j+7 : 8j]. -/
def byteOf (w : Word) (j : Nat) : Byte := w.extractLsb' (8 * j) 8

/-- The 16-bit units of a list of words, the lowest-numbered in the low half (R87). -/
def unitsOf : List Word → List (BitVec 16)
  | [] => []
  | w :: ws => lowHalf w :: highHalf w :: unitsOf ws

/-- The bytes of a list of words, the lowest-numbered in the least significant bits (R87). -/
def bytesOf : List Word → List Byte
  | [] => []
  | w :: ws => byteOf w 0 :: byteOf w 1 :: byteOf w 2 :: byteOf w 3 :: bytesOf ws

/-- The first `n` 16-bit units: strings, alphabets and 16-bit rows (R127 to R129); padding is dropped. -/
def unpack16 (n : Nat) (ws : List Word) : List (BitVec 16) := (unitsOf ws).take n

/-- The first `n` bytes: glyph data and 8-bit rows (R128, R129); padding is dropped. -/
def unpack8 (n : Nat) (ws : List Word) : List Byte := (bytesOf ws).take n

/-! ## Lengths (R131) -/

/-- `ceil(n / 2)`: the words that hold `n` 16-bit units. -/
def words16 (n : Nat) : Nat := (n + 1) / 2

/-- `ceil(n / 4)`: the words that hold `n` bytes. -/
def words8 (n : Nat) : Nat := (n + 3) / 4

/-- `N` of an FDEF word (R128). -/
def fdefCount (w : Word) : Nat := (highHalf w).toNat

/-- `FW` of an FDEF word (R128). -/
def fdefWidth (w : Word) : BitVec 8 := byteOf w 0

/-- `LEN` of a STR operand's length word (R127). -/
def strLen (w : Word) : Nat := (lowHalf w).toNat

/-- `KIND = ARG[0]` of HFONT_GLYPH (R117). -/
def glyphKind (h : Word) : Bool := (hArg h).getLsbD 0

/-- The command length in words, header included, from the header `h` and the first operand word `w1` (R131).
It does not depend on reserved bits or on any capacity. -/
def commandLength (o : Op) (h w1 : Word) : Nat :=
  match o with
  | .reset | .begin | .update | .clear | .dispoff | .dispon | .teardown | .hfbegin | .hfend => 1
  | .contrast | .pixel | .rdpix | .cursor => 2
  | .line | .rect => 3
  | .ffont => 2 + words16 (fdefCount w1) + words8 (fdefCount w1 * (fdefWidth w1).toNat)
  | .puts | .cache | .uputs => 2 + words16 (strLen w1)
  | .hfglyph => 2 + (if glyphKind h then 8 else 2)

/-! ## The decoder -/

/-- What the words at a position of the command stream are (R135), with the words each one takes. -/
inductive Decoded where
  /-- the words so far are a proper prefix of a command: PROC goes on collecting (R46) -/
  | incomplete
  /-- `OP` is unassigned: one word is consumed, answered ILLEGAL_OPCODE (R132) -/
  | illegalOpcode (op tag : Byte)
  /-- an ill-formed command: its whole length is consumed, answered ILLEGAL_FIELD (R119) -/
  | illegalField (op tag : Byte) (len : Nat)
  /-- a command with its fields -/
  | command (i : Instr) (len : Nat)
  deriving DecidableEq, Repr

/-- The operation an `OP` value selects, by exact match (R112, R130); `none` for an unassigned value (R133). -/
def Op.ofCode (c : Byte) : Option Op := Op.all.find? fun o => o.code == c

/-- The header checks of R119: RSV is 0, and every field that R118 marks "-" is 0. -/
def headerLegal (o : Op) (h : Word) : Bool :=
  hRsv h == 0 && (o.drawing || (hColor h == 0 && !hBypass h)) &&
    match o with
    | .puts => true
    | .hfglyph => (hArg h).extractLsb' 1 7 == 0
    | .reset | .begin | .update | .clear | .contrast | .dispoff | .dispon | .teardown | .pixel
    | .line | .rect | .rdpix | .cursor | .ffont | .hfbegin | .hfend | .cache | .uputs => hArg h == 0

/-- The reserved bits of the first operand word are 0 (R119, R127 to R129). -/
def operandLegal (o : Op) (w1 : Word) : Bool :=
  match o with
  | .ffont => byteOf w1 1 == 0
  | .puts | .cache | .uputs | .hfglyph => highHalf w1 == 0
  | .reset | .begin | .update | .clear | .contrast | .dispoff | .dispon | .teardown | .pixel
  | .line | .rect | .rdpix | .cursor | .hfbegin | .hfend => true

/-- The fields of a command from its header and its operand words (R118, R124 to R129). -/
def readFields (o : Op) (h : Word) (ops : List Word) : Instr :=
  let w1 := ops.getD 0 0
  let w2 := ops.getD 1 0
  let t := hTag h
  match o with
  | .reset => .reset t
  | .begin => .begin t
  | .update => .update t
  | .clear => .clear t
  | .contrast => .contrast t w1
  | .dispoff => .dispoff t
  | .dispon => .dispon t
  | .teardown => .teardown t
  | .pixel => .pixel t (hColor h) (hBypass h) (lowHalf w1) (highHalf w1)
  | .line =>
    .line t (hColor h) (hBypass h) (lowHalf w1) (highHalf w1) (lowHalf w2) (highHalf w2)
  | .rect =>
    .rect t (hColor h) (hBypass h) (lowHalf w1) (highHalf w1) (lowHalf w2) (highHalf w2)
  | .rdpix => .rdpix t (lowHalf w1) (highHalf w1)
  | .cursor => .cursor t (lowHalf w1) (highHalf w1)
  | .ffont =>
    let n := fdefCount w1
    let fw := fdefWidth w1
    .ffont t fw (unpack16 n (ops.drop 1))
      (unpack8 (n * fw.toNat) (ops.drop (1 + words16 n)))
  | .puts => .puts t (hColor h) (hBypass h) (hArg h) (unpack16 (strLen w1) (ops.drop 1))
  | .hfbegin => .hfbegin t
  | .hfglyph =>
    .hfglyph t (lowHalf w1)
      (if glyphKind h then .g16 (unpack16 16 (ops.drop 1)) else .g8 (unpack8 8 (ops.drop 1)))
  | .hfend => .hfend t
  | .cache => .cache t (unpack16 (strLen w1) (ops.drop 1))
  | .uputs => .uputs t (hColor h) (hBypass h) (unpack16 (strLen w1) (ops.drop 1))

/-- The decoder (R135): total on any word list, it reads the command at the head of the list. The values SIZE = 0
and FW = 0 are fields of the decoded command: its meaning answers them ILLEGAL_FIELD (notes/assumptions/10.md). -/
def decode (ws : List Word) : Decoded :=
  match ws with
  | [] => .incomplete
  | h :: ops =>
    match Op.ofCode (hOp h) with
    | none => .illegalOpcode (hOp h) (hTag h)
    | some o =>
      let len := commandLength o h (ops.getD 0 0)
      if ops.length + 1 < len then .incomplete
      else if headerLegal o h && operandLegal o (ops.getD 0 0) then
        .command (readFields o h (ops.take (len - 1))) len
      else .illegalField (hOp h) (hTag h) len

/-- The words that a table row's bit pattern `w` of `nbits` bits stands for: word `k` is bits 32k+31..32k, every bit
above `nbits` is 0, and there are as many words as the command is long (R110, R131). -/
def tableWords (nbits w : Nat) : List Word :=
  let bits := w % 2 ^ nbits
  let word := fun k => BitVec.ofNat 32 (bits >>> (32 * k))
  let h := word 0
  match Op.ofCode (hOp h) with
  | none => [h]
  | some o => (List.range (commandLength o h (word 1))).map word

/-- The command the decoder reads from a table row's bits; `none` where it refuses. -/
def decodeTableWord (nbits w : Nat) : Option Instr :=
  match decode (tableWords nbits w) with
  | .command i _ => some i
  | .incomplete | .illegalOpcode _ _ | .illegalField _ _ _ => none

/-! ## The encoder -/

/-- A header word `{OP, COLOR, 000, B, TAG, ARG}` (R111, R139). -/
def header (o : Op) (color : Intensity) (bypass : Bool) (tag : Byte) (arg : BitVec 8) : Word :=
  o.code ++ color ++ (0 : BitVec 3) ++ BitVec.ofBool bypass ++ tag ++ arg

/-- `{hi, lo}`: a word from its two halves (R124, R126, R137). -/
def wordOfHalves (lo hi : BitVec 16) : Word := hi ++ lo

/-- A word from its four bytes, byte 0 least significant (R87). -/
def wordOfBytes (b0 b1 b2 b3 : Byte) : Word := b3 ++ b2 ++ b1 ++ b0

/-- 16-bit units packed two to a word (R127); the padding of an odd count is 0. -/
def pack16 : List (BitVec 16) → List Word
  | [] => []
  | [a] => [wordOfHalves a 0]
  | a :: b :: rest => wordOfHalves a b :: pack16 rest

/-- Bytes packed four to a word (R128); the padding is 0. -/
def pack8 : List Byte → List Word
  | [] => []
  | [a] => [wordOfBytes a 0 0 0]
  | [a, b] => [wordOfBytes a b 0 0]
  | [a, b, c] => [wordOfBytes a b c 0]
  | a :: b :: c :: d :: rest => wordOfBytes a b c d :: pack8 rest

/-- ARG of a command: SIZE, KIND, or 0 (R117). -/
def Instr.arg : Instr → BitVec 8
  | .puts _ _ _ size _ => size
  | .hfglyph _ _ (.g16 _) => 1
  | .hfglyph _ _ (.g8 _) => 0
  | .reset _ | .begin _ | .update _ | .clear _ | .contrast _ _ | .dispoff _ | .dispon _
  | .teardown _ | .pixel _ _ _ _ _ | .line _ _ _ _ _ _ _ | .rect _ _ _ _ _ _ _ | .rdpix _ _ _
  | .cursor _ _ _ | .ffont _ _ _ _ | .hfbegin _ | .hfend _ | .cache _ _ | .uputs _ _ _ _ => 0

/-- A STR operand: the length word and the string words (R127). -/
def strWords (text : List Char16) : List Word :=
  wordOfHalves (BitVec.ofNat 16 text.length) 0 :: pack16 text

/-- The operand words of a command (R118, R124 to R129). -/
def Instr.operands : Instr → List Word
  | .reset _ | .begin _ | .update _ | .clear _ | .dispoff _ | .dispon _ | .teardown _ | .hfbegin _
  | .hfend _ => []
  | .contrast _ v => [v]
  | .pixel _ _ _ x y | .rdpix _ x y | .cursor _ x y => [wordOfHalves x y]
  | .line _ _ _ x0 y0 x1 y1 => [wordOfHalves x0 y0, wordOfHalves x1 y1]
  | .rect _ _ _ x y w h => [wordOfHalves x y, wordOfHalves w h]
  | .ffont _ fw alphabet data =>
    (BitVec.ofNat 16 alphabet.length ++ (0 : Byte) ++ fw) :: (pack16 alphabet ++ pack8 data)
  | .puts _ _ _ _ text | .cache _ text | .uputs _ _ _ text => strWords text
  | .hfglyph _ cp (.g8 rows) => wordOfHalves cp 0 :: pack8 rows
  | .hfglyph _ cp (.g16 rows) => wordOfHalves cp 0 :: pack16 rows

/-- The words of a well-formed command (R110, R139). -/
def encode (i : Instr) : List Word :=
  header i.op i.colorBypass.1 i.colorBypass.2 i.tag i.arg :: i.operands

end Sys2Proof
end

