-- ==== Sys2Proof/Machine/State.lean ====
section
/-! DEFINITION. The state of the block (10_state.md R30 to R47) as plain data, the reasons a step can be refused, and
the power-on state (R63, R340). Fields marked MODEL are the model's own: the timeline of the other agents and what the
block has handed to them (notes/assumptions/6.md, 11.md). -/

namespace Sys2Proof.Machine

/-- A byte memory: (address, byte) pairs, addresses strictly rising, no pair with the byte an unlisted address reads as
(`Memory.wf` in Ops.lean). -/
abbrev Memory := List Host.Cell

/-- A finite map from 16-bit keys, keys strictly rising (`KeyMap.wf` in Ops.lean). -/
abbrev KeyMap (α : Type) := List (Char16 × α)

/-- `CTRL_STATE` (R36). -/
inductive CtrlState where
  | uninit | resetting | initializing | ready | poweredOff
  deriving DecidableEq, Repr

/-- `PHASE` (R39). -/
inductive Phase where
  | command | data
  deriving DecidableEq, Repr

/-- `HF_STATE` (R42). -/
inductive HfState where
  | empty | loading | loaded
  deriving DecidableEq, Repr

/-- The status codes of R301. -/
inductive Status where
  | ok | okCoalesced | okMissingGlyph
  | illegalOpcode | illegalField | capacity | notReady | fontState | fontNotLoaded | cacheMiss
  | contrastRange | outOfBounds
  | transportFail
  deriving DecidableEq, Repr

/-- A response record by its fields (R305); `Resp.word0` and `Resp.word1` in Flags.lean give its words. -/
structure Resp where
  op : Byte
  tag : Byte
  status : Status
  result : Word
  deriving DecidableEq, Repr

/-- A step of an instruction sequence (R150). `txSnap` is the TX step that carries `SNAP` (R38, R162):
the bytes stand once, in `SNAP` (notes/assumptions/18.md). -/
inductive SeqStep where
  | enterCmd
  | enterData
  | tx (bytes : List Byte)
  | txSnap
  deriving DecidableEq, Repr

/-- A request to the transport (R151). -/
inductive Request where
  | setPhase (p : Phase)
  | write (bytes : List Byte)
  deriving DecidableEq, Repr

/-- `SEQ_DONE`: the completion action PROC attached to a sequence (R38, R156). -/
inductive SeqDone where
  /-- a blocking sequence: the result goes back to PROC -/
  | toProc
  /-- UPDATE or CLEAR (R170, R171) -/
  | update (op tag : Byte)
  /-- SET_CONTRAST (R172) -/
  | contrast (tag : Byte)
  /-- DISPLAY_OFF (R173) -/
  | dispOff (tag : Byte)
  /-- DISPLAY_ON (R174) -/
  | dispOn (tag : Byte)
  deriving DecidableEq, Repr

/-- Where SEQ is. `SEQ_BUSY` (R38) is 0 exactly in `idle` (`State.seqBusy`). -/
inductive SeqStage where
  | idle
  /-- RunSeq is playing the steps (R155) -/
  | playing
  /-- RunSeq has returned; the completion action has not run -/
  | returned (ok : Bool)
  /-- the completion action has done all but its push (R308) -/
  | pushing (r : Resp)
  /-- the completion action has pushed; only a fine SEQ turn stops here (notes/assumptions/9.md) -/
  | pushed
  deriving DecidableEq, Repr

/-- A cache entry `(GW, GH, BITS)` (R43): `bits` has `gh` rows of `gw` bits, `true` for 1. -/
structure CachedGlyph where
  gw : Nat
  gh : Nat
  bits : List (List Bool)
  deriving DecidableEq, Repr

/-- A write of a command's rule to the state: one step of its pseudocode that cannot hold. -/
inductive Effect where
  /-- `CTRL_STATE <- c` -/
  | ctrl (c : CtrlState)
  /-- `IN_FLIGHT <- b` -/
  | inFlight (b : Bool)
  /-- `RESET_OUT <- high` (R163) -/
  | resetOut (high : Bool)
  /-- `FB[i] <- 0 for every i` -/
  | fill
  /-- `SNAP <- FB` (R94) -/
  | snapshot
  /-- `CX <- x; CY <- y` (R219); `cursorX` and `cursorY` are its two writes (R100) -/
  | cursor (x y : BitVec 16)
  | cursorX (x : BitVec 16)
  | cursorY (y : BitVec 16)
  /-- the fixed font is replaced whole (R241) -/
  | font (fw : BitVec 8) (alphabet : List Char16) (data : List Byte)
  /-- `CX <- wrap16(CX + d)`, and one more character is drawn (R246, R262) -/
  | advance (d : Nat)
  /-- `Warn(ch)`, and the command has a missing character (R249); `countWarning` and `lastMissing` are its two writes (R100) -/
  | warn (ch : Char16)
  | countWarning
  | lastMissing (ch : Char16)
  /-- `HF <- empty map; HF_STATE <- LOADING` (R250) -/
  | hfBegin
  /-- `HF[cp] <- g` (R251) -/
  | hfGlyph (cp : Char16) (g : Glyph)
  /-- `HF_STATE <- LOADED` (R252) -/
  | hfEnd
  /-- `CACHE <- m; CACHE_VALID <- 1` (R255) -/
  | install (m : KeyMap CachedGlyph)
  deriving DecidableEq, Repr

/-- One piece of a command's rule. -/
inductive Piece where
  | effect (e : Effect)
  /-- `PixelWrite(x, y, c, B)` with B of the job (R210); under bypass it can hold and can fail (R211) -/
  | plot (x y : Int) (c : Intensity)
  /-- `WaitSeqIdle()` (R157) -/
  | waitIdle
  /-- `WaitHold(RESET_HOLD_MIN)` (R163) -/
  | waitHold
  /-- a blocking `r <- RunSeq(steps)` (R156); on `fail` the command ends with the writes `onFail` and
  TRANSPORT_FAIL -/
  | runSeq (steps : List SeqStep) (onFail : List Effect)
  /-- `if IN_FLIGHT = 1: Respond(.., OK_COALESCED, 0); return` (R170) -/
  | coalesce
  /-- `StartSeq(steps, done)` (R156): PROC goes on with the next command -/
  | startSeq (steps : List SeqStep) (done : SeqDone)
  deriving DecidableEq, Repr

/-- A command under way: what is left of its rule and what its response needs. -/
structure Job where
  op : Byte
  tag : Byte
  bypass : Bool
  todo : List Piece
  /-- the RESULT so far (R306) -/
  result : Nat
  /-- a character was missing (R247, R255) -/
  missing : Bool
  /-- a sequence of the command failed -/
  failed : Bool
  deriving DecidableEq, Repr

/-- Where PROC stands inside a command's rule (R46, EXECUTING). -/
inductive Hold where
  /-- every word is popped and the rule has not begun; only a fine PROC turn stops here (notes/assumptions/9.md) -/
  | start (i : Instr)
  /-- before the next piece of the rule; `WaitSeqIdle` holds here -/
  | job (j : Job)
  /-- in `WaitHold`; the job holds what follows it -/
  | jobTimer (j : Job)
  /-- in a blocking RunSeq; the job holds what follows it -/
  | jobSeq (j : Job) (onFail : List Effect)
  /-- pushing a response, onto a full `RESPQ` (R308) or before a fine PROC turn -/
  | push (r : Resp)
  /-- the response is pushed, or a non-blocking command's sequence is started, and PROC is not back in IDLE; only a fine PROC turn
  stops here -/
  | leaving
  deriving DecidableEq, Repr

/-- The state of PROC (R46). COLLECTING holds the words popped so far, header first. -/
inductive Proc where
  | idle
  | collecting (words : List Word)
  | executing (h : Hold)
  deriving DecidableEq, Repr

/-- MODEL. What happens next on the timeline: a turn of one of the block's agents, or a step of an agent outside it
(R14; notes/assumptions/6.md). -/
inductive Event where
  /-- PROC takes its turn and goes as far as it can -/
  | proc
  /-- PROC takes its turn and does one piece: pops one word, or does one piece of a rule -/
  | procFine
  /-- SEQ takes its turn and goes as far as it can -/
  | seq
  /-- SEQ takes its turn and does one piece of a completion action -/
  | seqFine
  /-- XPORT answers the pending request, `ok` or `fail` (R152) -/
  | answer (ok : Bool)
  /-- TIMER reports that at least RESET_HOLD_MIN has elapsed (R163) -/
  | timer
  /-- HOST reads `bytes` bytes at an address -/
  | hostRead (addr bytes : Nat)
  /-- HOST writes `bytes` bytes at an address -/
  | hostWrite (addr bytes : Nat) (v : Word)
  /-- the platform asserts and releases the reset input; the framebuffer then holds `fb`, zeros after its end (R63, R340) -/
  | powerOn (fb : List Byte)
  deriving DecidableEq, Repr

/-- MODEL. What the block has done at its outputs (R6): transport requests and their answers, and changes of the reset
line. -/
inductive TraceItem where
  | request (r : Request)
  | answered (ok : Bool)
  | resetLine (high : Bool)
  | powerOn
  deriving DecidableEq, Repr

/-- The state of the block (R30), its configuration, and the model's own fields. -/
structure State where
  /-- the configuration, never changed by a step (R30; notes/assumptions/1.md) -/
  cfg : Config
  /-- `FB` (R33): the pixel bytes that are not 0, by index -/
  fb : Memory
  /-- `CX` (R35), two's complement -/
  cx : BitVec 16
  /-- `CY` (R35), two's complement -/
  cy : BitVec 16
  /-- `CTRL_STATE` (R36) -/
  ctrl : CtrlState
  /-- `IN_FLIGHT` (R37) -/
  inFlight : Bool
  /-- where SEQ is, `SEQ_BUSY` among it (R38) -/
  seqStage : SeqStage
  /-- `SEQ_STEPS` (R38) -/
  seqSteps : List SeqStep
  /-- `SEQ_POS` (R38) -/
  seqPos : Nat
  /-- `SEQ_DONE` (R38) -/
  seqDone : Option SeqDone
  /-- the pending transport request (R38) -/
  seqPending : Option Request
  /-- `SNAP` (R38) -/
  snap : List Byte
  /-- `PHASE` (R39) -/
  phase : Phase
  /-- `RESET_OUT` (R40): true is high, released -/
  resetOut : Bool
  /-- `FFONT_VALID` (R41) -/
  ffontValid : Bool
  /-- `FW` (R41) -/
  ffWidth : BitVec 8
  /-- `ALPHA` (R41); `FN` is its length (`State.fn`) -/
  ffAlpha : List Char16
  /-- `FDATA` (R41) -/
  ffData : List Byte
  /-- `HF_STATE` (R42) -/
  hfState : HfState
  /-- `HF` (R42) -/
  hf : KeyMap Glyph
  /-- `CACHE_VALID` (R43) -/
  cacheValid : Bool
  /-- `CACHE` (R43) -/
  cache : KeyMap CachedGlyph
  /-- `WARN_COUNT` (R44) -/
  warnCount : BitVec 16
  /-- `LAST_MISSING` (R44) -/
  lastMissing : Char16
  /-- `CMDQ` (R45), oldest first -/
  cmdq : List Word
  /-- `RESPQ` (R45), oldest first -/
  respq : List Resp
  /-- the PROC state (R46) -/
  proc : Proc
  /-- `RESP_IE` (R47) -/
  respIE : Bool
  /-- MODEL. a host write to CMD that a full `CMDQ` holds (R49) -/
  busWrite : Option Word
  /-- MODEL. the value the host's last read returned -/
  busRead : Word
  /-- MODEL. the timeline: what happens next, first event first -/
  env : List Event
  /-- MODEL. the outputs so far, newest first -/
  trace : List TraceItem
  deriving DecidableEq, Repr

/-- Why a step can stop with a fault: never. The block has no traps and never halts (R300, R311), so there is no fault
reason; every condition the spec names is a response status (notes/assumptions/22.md). -/
inductive Fault
  deriving DecidableEq, Repr

/-- Why a step is refused. Each is safe: nothing can be proved of what the hardware does then. -/
inductive Refusal where
  /-- raised by an arm of `exec` for a command without a meaning; no arm raises it. Safe. -/
  | notModelled (mnemonic : String)
  /-- raised by `step` for a configuration outside R8 and R7. Safe. -/
  | badConfiguration
  /-- raised by a host access that is not an aligned 32-bit access (R89). Safe. -/
  | badBusAccess
  /-- raised by a host access outside the 64-byte window, which is the platform's (R92). Safe. -/
  | outsideWindow
  deriving DecidableEq, Repr

/-- The power-on state of a block with configuration `c` (R63, R340), with a framebuffer of zeros and an empty
timeline; `FB`, `FW`, `ALPHA` and `FDATA` are UNSPECIFIED there (notes/assumptions/4.md, 5.md). -/
def State.powerOn (c : Config) : State :=
  { cfg := c
    fb := []
    cx := 0
    cy := 0
    ctrl := .uninit
    inFlight := false
    seqStage := .idle
    seqSteps := []
    seqPos := 0
    seqDone := none
    seqPending := none
    snap := []
    phase := .command
    resetOut := true
    ffontValid := false
    ffWidth := 0
    ffAlpha := []
    ffData := []
    hfState := .empty
    hf := []
    cacheValid := false
    cache := []
    warnCount := 0
    lastMissing := 0
    cmdq := []
    respq := []
    proc := .idle
    respIE := false
    busWrite := none
    busRead := 0
    env := []
    trace := [] }

/-- The machine right after power-on, in configuration REF (notes/assumptions/2.md). -/
def State.reset : State := State.powerOn Config.ref

end Sys2Proof.Machine
end

