-- ==== Sys2Proof/Machine/Ops.lean ====
section
/-! DEFINITION. The named operations over the framebuffer, the font maps, the responses and the sequencer that every
meaning is made of: 20_memory.md R80 to R85, 40_sequencer_control.md R150 to R163, 42_text.md R249, 60_exceptions.md R305 to
R308. A refusal (R300, R312) is one operation, `refuse`: the block has no trap entry and no trap return. -/

namespace Sys2Proof.Machine

/-! ## Byte memory -/

namespace Memory

/-- The byte an unlisted index reads as: 0 (notes/assumptions/4.md). -/
def unlisted : Byte := 0

/-- The byte at an index. -/
def read : Memory → Nat → Byte
  | [], _ => unlisted
  | (b, w) :: rest, a => if a = b then w else read rest a

/-- The memory with the byte at an index replaced, in canonical form. -/
def write : Memory → Nat → Byte → Memory
  | [], a, v => if v = unlisted then [] else [(a, v)]
  | (b, w) :: rest, a, v =>
    if a < b then (if v = unlisted then (b, w) :: rest else (a, v) :: (b, w) :: rest)
    else if a = b then (if v = unlisted then rest else (a, v) :: rest)
    else (b, w) :: write rest a v

/-- Addresses rise strictly from `lo` on, and no byte listed is the unlisted one. -/
def wfFrom : Nat → Memory → Bool
  | _, [] => true
  | lo, (b, w) :: rest => decide (lo ≤ b) && w != unlisted && wfFrom (b + 1) rest

/-- The canonical form. -/
def wf (m : Memory) : Bool := wfFrom 0 m

/-- Every listed address is below `n`. -/
def below (n : Nat) (m : Memory) : Bool := m.all fun c => decide (c.1 < n)

/-- The memory whose bytes from index `a` on are the given ones. -/
def ofBytesFrom : Nat → List Byte → Memory
  | _, [] => []
  | a, v :: vs => if v = unlisted then ofBytesFrom (a + 1) vs else (a, v) :: ofBytesFrom (a + 1) vs

/-- The first `n` bytes, in index order (R85). -/
def toBytes (n : Nat) (m : Memory) : List Byte := (List.range n).map (read m)

end Memory

/-! ## Maps keyed by a character -/

namespace KeyMap

variable {α : Type}

/-- The value at a key. -/
def find (k : Char16) : KeyMap α → Option α
  | [] => none
  | (j, v) :: rest => if k = j then some v else find k rest

/-- The map with the value at a key set, in canonical form. -/
def insert (k : Char16) (v : α) : KeyMap α → KeyMap α
  | [] => [(k, v)]
  | (j, w) :: rest =>
    if k.toNat < j.toNat then (k, v) :: (j, w) :: rest
    else if k = j then (k, v) :: rest
    else (j, w) :: insert k v rest

/-- Keys rise strictly from `lo` on. -/
def wfFrom : Nat → KeyMap α → Bool
  | _, [] => true
  | lo, (j, _) :: rest => decide (lo ≤ j.toNat) && wfFrom (j.toNat + 1) rest

/-- The canonical form: no key twice. -/
def wf (m : KeyMap α) : Bool := wfFrom 0 m

end KeyMap

/-! ## Pixels (R81 to R84) -/

/-- `idx(x, y) = (x >> 1) + HC * 2 * y` (R81). -/
def idx (c : Config) (x y : Nat) : Nat := x / 2 + c.hc * 2 * y

/-- `0 <= x < WIDTH` and `0 <= y < HEIGHT` (R210, R218). -/
def inBounds (c : Config) (x y : Int) : Bool :=
  decide (0 ≤ x ∧ x < c.width ∧ 0 ≤ y ∧ y < c.height)

/-- The high nibble of a byte, bits [7:4]. -/
def highNibble (b : Byte) : Intensity := b.extractLsb' 4 4

/-- The low nibble of a byte, bits [3:0]. -/
def lowNibble (b : Byte) : Intensity := b.extractLsb' 0 4

/-- The nibble of column `x` in a byte: even columns high, odd columns low (R81, R82). -/
def nibbleOf (b : Byte) (x : Nat) : Intensity := if x % 2 = 0 then highNibble b else lowNibble b

/-- The byte with the nibble of column `x` replaced and the other kept (R83). -/
def putNibble (b : Byte) (x : Nat) (c : Intensity) : Byte :=
  if x % 2 = 0 then c ++ lowNibble b else highNibble b ++ c

/-- `PixRead` (R82). -/
def pixRead (c : Config) (fb : Memory) (x y : Nat) : Intensity :=
  nibbleOf (Memory.read fb (idx c x y)) x

/-- `PixStore` (R83). -/
def pixStore (c : Config) (fb : Memory) (x y : Nat) (v : Intensity) : Memory :=
  Memory.write fb (idx c x y) (putNibble (Memory.read fb (idx c x y)) x v)

/-- The bytes `FB[0], ..., FB[FB_SIZE-1]` (R85). -/
def State.fbBytes (s : State) : List Byte := Memory.toBytes s.cfg.fbSize s.fb

/-- `FN`, the alphabet length (R41). -/
def State.fn (s : State) : Nat := s.ffAlpha.length

/-! ## Responses (R305 to R308) -/

/-- `RESPQ` has room for a record. -/
def State.respRoom (s : State) : Bool := decide (s.respq.length < s.cfg.respFifoDepth)

/-- PROC holds at a point of a rule. -/
def State.hold (h : Hold) (s : State) : State := { s with proc := .executing h }

/-- PROC pushes a record and goes back to IDLE, or holds while `RESPQ` is full (R308, R311). -/
def State.pushProc (r : Resp) (s : State) : State :=
  if s.respRoom then { s with respq := s.respq ++ [r], proc := .idle } else s.hold (.push r)

/-- `Respond(op, tag, status, result)` by PROC (R305). -/
def State.respond (op tag : Byte) (st : Status) (result : Nat) (s : State) : State :=
  s.pushProc { op := op, tag := tag, status := st, result := BitVec.ofNat 32 result }

/-- `raise <STATUS>`: the command ends with no further effect and result 0 (R12, R312). -/
def State.refuse (op tag : Byte) (st : Status) (s : State) : State := s.respond op tag st 0

/-- OK or TRANSPORT_FAIL, from the result of a sequence. -/
def statusOf (ok : Bool) : Status := if ok then .ok else .transportFail

/-! ## Sequences (R150 to R162) -/

/-- `group(c, params)` (R159): each parameter byte is its own TX step. -/
def group (c : Byte) (params : List Byte) : List SeqStep :=
  [.enterCmd, .tx [c]] ++
    if params.isEmpty then [] else .enterData :: params.map fun d => .tx [d]

/-- The steps of a configured group. -/
def Group.steps (g : Group) : List SeqStep := group g.cmd g.params

/-- A byte of an address or size that R8 keeps within 0 to 255. -/
def byteOfNat (n : Nat) : Byte := BitVec.ofNat 8 n

/-- The column window group of a full row, `[COL_OFFSET, COL_OFFSET + HC - 1]` (R161, R162). -/
def columnWindow (c : Config) : List SeqStep :=
  group c.panel.setColumn [byteOfNat colOffset, byteOfNat (colOffset + c.hc - 1)]

/-- The row window group of all rows, `[0, HEIGHT - 1]` (R161, R162). -/
def rowWindow (c : Config) : List SeqStep :=
  group c.panel.setRow [byteOfNat 0, byteOfNat (c.height - 1)]

/-- `INIT_SEQ`: the groups in the vps order (R161). -/
def initSeq (c : Config) : List SeqStep :=
  let g := c.initGroups
  Group.steps g.unlock ++ group c.panel.displayOff [] ++ columnWindow c ++ rowWindow c ++
    Group.steps g.clockDivisor ++ Group.steps g.muxRatio ++ Group.steps g.remap ++
    Group.steps g.vdd ++ Group.steps g.enhancement ++ Group.steps g.contrast ++
    Group.steps g.grayTable ++ Group.steps g.phaseLength ++ Group.steps g.precharge ++
    Group.steps g.vcomh ++ Group.steps g.displayNormal ++ group c.panel.displayOn []

/-- `UPDATE_SEQ(SNAP)` (R162). -/
def updateSeq (c : Config) : List SeqStep :=
  columnWindow c ++ rowWindow c ++ group c.panel.writeRam [] ++ [.enterData, .txSnap]

/-- The two bytes of the column group of pixel `(x, y)`, with that pixel's nibble replaced (R211). -/
def bypassBytes (c : Config) (fb : Memory) (x y : Nat) (v : Intensity) : List Byte :=
  let base := 2 * (x / 4) + c.rowBytes * y
  let g0 := Memory.read fb base
  let g1 := Memory.read fb (base + 1)
  if idx c x y = base then [putNibble g0 x v, g1] else [g0, putNibble g1 x v]

/-- The sequence of a bypass write of an in-bounds pixel (R211). -/
def bypassSeq (c : Config) (fb : Memory) (x y : Nat) (v : Intensity) : List SeqStep :=
  let col := byteOfNat (colOffset + x / 4)
  group c.panel.setColumn [col, col] ++ group c.panel.setRow [byteOfNat y, byteOfNat y] ++
    group c.panel.writeRam [] ++ [.enterData, .tx (bypassBytes c fb x y v)]

/-- The request a step issues (R153, R154): the whole payload in one `Write`. -/
def SeqStep.request (snap : List Byte) : SeqStep → Request
  | .enterCmd => .setPhase .command
  | .enterData => .setPhase .data
  | .tx bytes => .write bytes
  | .txSnap => .write snap

/-- SEQ issues the request of a step and waits for the answer. -/
def State.issue (st : SeqStep) (s : State) : State :=
  let r := st.request s.snap
  { s with seqPending := some r, trace := .request r :: s.trace }

/-- XPORT answers the pending request (R152, R153): on `ok` the phase follows an accepted phase step and SEQ goes on
to the next step; on `fail` RunSeq returns `fail` and the phase stays (R155). -/
def State.answer (ok : Bool) (s : State) : State :=
  match s.seqPending with
  | none => s
  | some r =>
    let s := { s with seqPending := none, trace := .answered ok :: s.trace }
    if ok then
      let s := { s with seqPos := s.seqPos + 1 }
      match r with
      | .setPhase p => { s with phase := p }
      | .write _ => s
    else { s with seqStage := .returned false }

/-- `RunSeq` from a list of steps still to play (R155), for as long as XPORT's answers are next on the timeline. The result is
`none` when SEQ holds for an answer. -/
def playSteps : List SeqStep → State → State × Option Bool
  | [], s => ({ s with seqStage := .returned true }, some true)
  | st :: rest, s =>
    let s := s.issue st
    match s.env with
    | .answer true :: later => playSteps rest ({ s with env := later }.answer true)
    | .answer false :: later => ({ s with env := later }.answer false, some false)
    | _ => (s, none)

/-- `StartSeq(steps, done)` (R156, R158): the sequence is complete when it starts. -/
def State.startSeq (steps : List SeqStep) (done : SeqDone) (s : State) : State :=
  { s with seqStage := .playing, seqSteps := steps, seqPos := 0, seqDone := some done, seqPending := none }

/-- `SEQ_BUSY <- 0`: the sequencer is empty again; `SNAP` stays (notes/assumptions/13.md). -/
def State.releaseSeq (s : State) : State :=
  { s with seqStage := .idle, seqSteps := [], seqPos := 0, seqDone := none, seqPending := none }

/-- A blocking `r <- RunSeq(steps)` by PROC (R156): the result, or `none` when PROC holds. -/
def State.runSeq (steps : List SeqStep) (s : State) : State × Option Bool :=
  match playSteps steps (s.startSeq steps .toProc) with
  | (s', some ok) => (s'.releaseSeq, some ok)
  | (s', none) => (s', none)

/-! ## Warnings (R249) -/

/-- The saturating count of warnings. -/
def warnedOnce (count : BitVec 16) : BitVec 16 := if count = 0xFFFF then 0xFFFF else count + 1

/-- `Warn(ch)`: a saturating count and the last missing character. -/
def State.warn (ch : Char16) (s : State) : State := { s with warnCount := warnedOnce s.warnCount, lastMissing := ch }

end Sys2Proof.Machine
end

