-- ==== Sys2Proof/Machine/Flags.lean ====
section
/-! DEFINITION. The status flags and what is computed from state: 10_state.md R52 to R54, R57, R61, 40_sequencer_control.md R164,
60_exceptions.md R301, R305, R320. The block has no condition codes and no arithmetic flags (R61). -/

namespace Sys2Proof.Machine

/-- The number of a `CTRL_STATE` value (R36). -/
def CtrlState.code : CtrlState → BitVec 3
  | .uninit => 0
  | .resetting => 1
  | .initializing => 2
  | .ready => 3
  | .poweredOff => 4

/-- The number of an `HF_STATE` value (R42). -/
def HfState.code : HfState → BitVec 2
  | .empty => 0
  | .loading => 1
  | .loaded => 2

/-- The number of a `PHASE` value (R39). -/
def Phase.bit : Phase → BitVec 1
  | .command => 0
  | .data => 1

/-- The status codes (R301). -/
def Status.code : Status → Byte
  | .ok => 0x00
  | .okCoalesced => 0x01
  | .okMissingGlyph => 0x02
  | .illegalOpcode => 0x10
  | .illegalField => 0x11
  | .capacity => 0x12
  | .notReady => 0x13
  | .fontState => 0x14
  | .fontNotLoaded => 0x15
  | .cacheMiss => 0x16
  | .contrastRange => 0x17
  | .outOfBounds => 0x18
  | .transportFail => 0x20

/-- Word 0 of a response record (R305). -/
def Resp.word0 (r : Resp) : Word := r.op ++ r.tag ++ (0 : Byte) ++ r.status.code

/-- Word 1 of a response record (R305). -/
def Resp.word1 (r : Resp) : Word := r.result

/-- `SEQ_BUSY` (R38). -/
def State.seqBusy (s : State) : Bool := s.seqStage != .idle

/-- PROC_BUSY: 1 in COLLECTING and EXECUTING (R46). -/
def State.procBusy (s : State) : Bool := s.proc != .idle

/-- `TransmitReady()` (R164). -/
def State.transmitReady (s : State) : Bool := s.ctrl == .ready || s.ctrl == .poweredOff

/-- RESP_PENDING (R57). -/
def State.respPending (s : State) : Bool := !s.respq.isEmpty

/-- The interrupt output `IRQ` (R320). -/
def State.irq (s : State) : Bool := s.respIE && s.respPending

/-- The level of the data/command line (R39). -/
def State.dcLine (s : State) : Bool :=
  match s.phase with
  | .command => s.cfg.dcCmdLevel
  | .data => !s.cfg.dcCmdLevel

/-- The STATUS register (R52). -/
def State.statusWord (s : State) : Word :=
  (0 : BitVec 19) ++ BitVec.ofBool s.resetOut ++ s.phase.bit ++ (0 : BitVec 1) ++
    BitVec.ofBool s.cacheValid ++ BitVec.ofBool s.ffontValid ++ s.hfState.code ++
    BitVec.ofBool s.procBusy ++ BitVec.ofBool s.seqBusy ++ BitVec.ofBool s.inFlight ++ s.ctrl.code

/-- The LEVEL register (R53). -/
def State.levelWord (s : State) : Word :=
  BitVec.ofNat 16 s.respq.length ++ BitVec.ofNat 16 s.cmdq.length

/-- The CURSOR register (R54). -/
def State.cursorWord (s : State) : Word := s.cy ++ s.cx

/-- The WARN register (R55). -/
def State.warnWord (s : State) : Word := s.lastMissing ++ s.warnCount

end Sys2Proof.Machine
end

