-- ==== Sys2Proof/Machine/Operands.lean ====
section
/-! DEFINITION. How a meaning reads the operand forms (30_encoding.md R113, R117, R124 to R129; 00_scope.md R10), and the integer
functions of R10 that act on them. -/

namespace Sys2Proof.Machine

/-- `sext_16`: a coordinate half of an XY word, or the cursor (R124, R35). -/
def coord (v : BitVec 16) : Int := v.toInt

/-- `zext_16`: an extent of a WH word (R126). -/
def extent (v : BitVec 16) : Nat := v.toNat

/-- `sext_32`: the contrast operand V (R125). -/
def contrastOperand (v : Word) : Int := v.toInt

/-- `V[7:0]`: the contrast byte that is sent (R172). -/
def contrastByte (v : Word) : Byte := v.extractLsb' 0 8

/-- SIZE, the scale factor (R117). -/
def scaleOf (size : BitVec 8) : Nat := size.toNat

/-- `trunc_div(a, 2)`: toward zero (R10). -/
def truncHalf (a : Int) : Int := Int.tdiv a 2

/-- `wrap16(CX + d)` on the cursor register (R10, R246, R262). -/
def advanceCursor (cx : BitVec 16) (d : Nat) : BitVec 16 := cx + BitVec.ofNat 16 d

/-- `{y[15:0], x[15:0]}` of integers that fit (R137); the assembler checks that they do. -/
def half (v : Int) : BitVec 16 := BitVec.ofInt 16 v

/-- `Distinct(T)` (R254): the characters in order of first occurrence. `seen` are those already listed. -/
def distinctFrom (seen : List Char16) : List Char16 → List Char16
  | [] => []
  | ch :: rest =>
    if seen.contains ch then distinctFrom seen rest else ch :: distinctFrom (ch :: seen) rest

/-- `Distinct(T)` (R254). -/
def distinct (t : List Char16) : List Char16 := distinctFrom [] t

end Sys2Proof.Machine
end

