-- ==== Sys2Proof/Machine/Jobs.lean ====
section
/-! DEFINITION. How PROC runs a command's rule (10_state.md R46): the rule is a list of pieces in the order of its pseudocode, and PROC
does them until one holds, fails or ends the command (40_sequencer_control.md R155 to R157, R163, R170; 41_raster.md R210, R211, R220).
A plan is what a command's checks (60_exceptions.md R303) leave: a refusal, or a job. -/

namespace Sys2Proof.Machine

/-- What a command does with its operands and the state it finds: a refusal, or work. -/
inductive Plan where
  | refuse (op tag : Byte) (st : Status)
  | run (j : Job)
  deriving DecidableEq, Repr

/-- The job of a command that starts, with a RESULT known in advance. -/
def newJob (op : Op) (tag : Byte) (bypass : Bool) (result : Nat) (todo : List Piece) : Job :=
  { op := op.code, tag := tag, bypass := bypass, todo := todo, result := result, missing := false, failed := false }

/-- What an effect does to the state. -/
def Effect.apply (e : Effect) (s : State) : State :=
  match e with
  | .ctrl c => { s with ctrl := c }
  | .inFlight b => { s with inFlight := b }
  | .resetOut high => { s with resetOut := high, trace := .resetLine high :: s.trace }
  | .fill => { s with fb := [] }
  | .snapshot => { s with snap := s.fbBytes }
  | .cursor x y => { s with cx := x, cy := y }
  | .cursorX x => { s with cx := x }
  | .cursorY y => { s with cy := y }
  | .font fw alphabet data =>
    { s with ffontValid := true, ffWidth := fw, ffAlpha := alphabet, ffData := data }
  | .advance d => { s with cx := advanceCursor s.cx d }
  | .warn ch => s.warn ch
  | .countWarning => { s with warnCount := warnedOnce s.warnCount }
  | .lastMissing ch => { s with lastMissing := ch }
  | .hfBegin => { s with hf := [], hfState := .loading }
  | .hfGlyph cp g => { s with hf := KeyMap.insert cp g s.hf }
  | .hfEnd => { s with hfState := .loaded }
  | .install m => { s with cache := m, cacheValid := true }

/-- What an effect does to the response of its command: an advance counts a character drawn, a warning makes it
OK_MISSING_GLYPH (R247). -/
def Job.note (e : Effect) (j : Job) : Job :=
  match e with
  | .advance _ => { j with result := j.result + 1 }
  | .warn _ | .lastMissing _ => { j with missing := true }
  | .ctrl _ | .inFlight _ | .resetOut _ | .fill | .snapshot | .cursor _ _ | .cursorX _ | .cursorY _ | .font _ _ _
  | .countWarning | .hfBegin | .hfGlyph _ _ | .hfEnd | .install _ => j

/-- The first write of an effect, and the writes after it: an effect that writes two registers a host can read is two writes (R100,
R219, R249). -/
def Effect.firstWrite (e : Effect) : Effect × List Effect :=
  match e with
  | .cursor x y => (.cursorX x, [.cursorY y])
  | .warn ch => (.countWarning, [.lastMissing ch])
  | .ctrl _ | .inFlight _ | .resetOut _ | .fill | .snapshot | .cursorX _ | .cursorY _ | .font _ _ _ | .advance _
  | .countWarning | .lastMissing _ | .hfBegin | .hfGlyph _ _ | .hfEnd | .install _ => (e, [])

/-- The same of a piece. -/
def Piece.firstWrite (p : Piece) : Piece × List Piece :=
  match p with
  | .effect e => (.effect e.firstWrite.1, e.firstWrite.2.map .effect)
  | .plot _ _ _ | .waitIdle | .waitHold | .runSeq _ _ | .coalesce | .startSeq _ _ => (p, [])

/-- Effects in order. -/
def applyAll : List Effect → State → State
  | [], s => s
  | e :: rest, s => applyAll rest (e.apply s)

/-- The response of a command that has done all its pieces (R247, R255, R306). -/
def Job.response (j : Job) : Resp :=
  { op := j.op, tag := j.tag
    status := if j.failed then .transportFail else if j.missing then .okMissingGlyph else .ok
    result := BitVec.ofNat 32 j.result }

/-- The command ends: its response is pushed (R307). -/
def finishJob (j : Job) (s : State) : State := s.pushProc j.response

/-- PROC leaves a non-blocking command and goes on with the next one at once (R156). -/
def State.leave (s : State) : State := { s with proc := .idle }

/-- What one piece leads to: the job goes on; it fails, and ends with some writes; it answers with a record, which ends the command;
PROC leaves the command to SEQ; or PROC holds here. -/
inductive PieceOut where
  | go (j : Job) (s : State)
  | fail (onFail : List Effect) (s : State)
  | answer (r : Resp) (s : State)
  | leave (s : State)
  | stop (s : State)
  deriving DecidableEq, Repr

/-- A blocking RunSeq (R156) of a job with `rest` after it. -/
def blockingSeq (j : Job) (rest : List Piece) (steps : List SeqStep) (onFail : List Effect) (s : State) :
    PieceOut :=
  match s.runSeq steps with
  | (s', some true) => .go j s'
  | (s', some false) => .fail onFail s'
  | (s', none) => .stop (s'.hold (.jobSeq { j with todo := rest } onFail))

/-- One piece `p` of a job, with `rest` after it. -/
def doPiece (j : Job) (p : Piece) (rest : List Piece) (s : State) : PieceOut :=
  match p with
  | .effect e => .go (j.note e) (e.apply s)
  | .plot x y c =>
    if !inBounds s.cfg x y then .go j s
    else if !j.bypass then .go j { s with fb := pixStore s.cfg s.fb x.toNat y.toNat c }
    else if s.seqBusy then .stop (s.hold (.job { j with todo := p :: rest }))
    else blockingSeq j rest (bypassSeq s.cfg s.fb x.toNat y.toNat c) [] s
  | .waitIdle => if s.seqBusy then .stop (s.hold (.job { j with todo := p :: rest })) else .go j s
  | .waitHold =>
    match s.env with
    | .timer :: later => .go j { s with env := later }
    | _ => .stop (s.hold (.jobTimer { j with todo := rest }))
  | .runSeq steps onFail => blockingSeq j rest steps onFail s
  | .coalesce => if s.inFlight then .answer ⟨j.op, j.tag, .okCoalesced, 0⟩ s else .go j s
  | .startSeq steps done => .leave (s.startSeq steps done)

/-- The command ends at a `fail`: its last writes, then TRANSPORT_FAIL (R178, R220). -/
def failJob (onFail : List Effect) (j : Job) (s : State) : State :=
  finishJob { j with failed := true } (applyAll onFail s)

/-- The pieces in order, to the end of the command or to the first stop. -/
def runPieces : List Piece → Job → State → State
  | [], j, s => finishJob j s
  | p :: rest, j, s =>
    match doPiece j p rest s with
    | .go j' s' => runPieces rest j' s'
    | .fail onFail s' => failJob onFail j s'
    | .answer r s' => s'.pushProc r
    | .leave s' => s'.leave
    | .stop s' => s'

/-- A job from where it stands. -/
def runJob (j : Job) (s : State) : State := runPieces j.todo j s

/-- A plan carried out as far as PROC can go. -/
def runPlan (p : Plan) (s : State) : State :=
  match p with
  | .refuse op tag st => s.refuse op tag st
  | .run j => runJob j s

/-- One piece of a job, or the first write of one, for a fine PROC turn (notes/assumptions/9.md): the test of a coalescing command and
the push of its answer are turns of their own, and so are the start of a sequence and the return to IDLE (R322). -/
def jobPiece (j : Job) (s : State) : State :=
  match j.todo with
  | [] => s.hold (.push j.response)
  | p :: rest =>
    let todo := p.firstWrite.2 ++ rest
    match doPiece j p.firstWrite.1 todo s with
    | .go j' s' => s'.hold (.job { j' with todo := todo })
    | .fail onFail s' => s'.hold (.job { j with todo := onFail.map .effect, failed := true })
    | .answer r s' => s'.hold (.push r)
    | .leave s' => s'.hold .leaving
    | .stop s' => s'

/-- The bypass precondition of every drawing command (R220). -/
def notReadyFor (bypass : Bool) (s : State) : Bool := bypass && !s.transmitReady

end Sys2Proof.Machine
end

