-- ==== Sys2Proof/Machine/Control.lean ====
section
/-! DEFINITION. The sequencer and display-control commands (40_sequencer_control.md R163 to R178), each a plan that follows its pseudocode
line by line, and the completion actions and turns of SEQ (R156). -/

namespace Sys2Proof.Machine

/-! ## Plans -/

/-- `ResetPulse()` (R163). -/
def resetPulse : List Piece := [.effect (.resetOut false), .waitHold, .effect (.resetOut true)]

/-- RESET (R165). -/
def planReset (tag : Byte) (_ : State) : Plan :=
  .run <| newJob .reset tag false 0 <|
    [.waitIdle, .effect (.ctrl .resetting)] ++ resetPulse ++ [.effect (.ctrl .uninit)]

/-- BEGIN (R166). -/
def planBegin (tag : Byte) (s : State) : Plan :=
  .run <| newJob .begin tag false 0 <|
    [.waitIdle, .effect (.ctrl .resetting)] ++ resetPulse ++
      [.effect (.ctrl .initializing), .runSeq (initSeq s.cfg) [.ctrl .uninit], .effect (.ctrl .ready),
        .effect .fill, .effect (.inFlight true), .effect .snapshot,
        .runSeq (updateSeq s.cfg) [.inFlight false], .effect (.inFlight false)]

/-- The UPDATE pseudocode from its IN_FLIGHT test on (R170). -/
def updatePieces (op : Op) (tag : Byte) (s : State) : List Piece :=
  [.coalesce, .waitIdle, .effect .snapshot, .effect (.inFlight true),
    .startSeq (updateSeq s.cfg) (.update op.code tag)]

/-- A command that transmits: NOT_READY unless the controller is READY or POWERED_OFF (R164). -/
def planTransmit (op : Op) (tag : Byte) (pieces : List Piece) (s : State) : Plan :=
  if !s.transmitReady then .refuse op.code tag .notReady else .run (newJob op tag false 0 pieces)

/-- UPDATE (R170). -/
def planUpdate (tag : Byte) (s : State) : Plan := planTransmit .update tag (updatePieces .update tag s) s

/-- CLEAR (R171): the fill, then the update. -/
def planClear (tag : Byte) (s : State) : Plan :=
  planTransmit .clear tag (.effect .fill :: updatePieces .clear tag s) s

/-- SET_CONTRAST (R172). -/
def planContrast (tag : Byte) (v : Word) (s : State) : Plan :=
  if !s.transmitReady then .refuse Op.contrast.code tag .notReady
  else if contrastOperand v < 0 ∨ contrastOperand v > 255 then
    .refuse Op.contrast.code tag .contrastRange
  else
    .run <| newJob .contrast tag false 0 <|
      [.waitIdle, .startSeq (group s.cfg.panel.setContrast [contrastByte v]) (.contrast tag)]

/-- DISPLAY_OFF (R173): the fill comes before WaitSeqIdle. -/
def planDispoff (tag : Byte) (s : State) : Plan :=
  planTransmit .dispoff tag
    [.effect .fill, .waitIdle, .startSeq (group s.cfg.panel.displayOff []) (.dispOff tag)] s

/-- DISPLAY_ON (R174). -/
def planDispon (tag : Byte) (s : State) : Plan :=
  planTransmit .dispon tag [.waitIdle, .startSeq (group s.cfg.panel.displayOn []) (.dispOn tag)] s

/-- TEARDOWN (R177). -/
def planTeardown (tag : Byte) (s : State) : Plan :=
  planTransmit .teardown tag
    [.waitIdle, .effect .fill, .effect (.inFlight true), .effect .snapshot,
      .runSeq (updateSeq s.cfg) [.inFlight false, .ctrl .uninit], .effect (.inFlight false),
      .runSeq (group s.cfg.panel.displayOff []) [.ctrl .uninit], .effect (.ctrl .uninit)] s

/-! ## The completion actions of SEQ (R156, R170 to R174) -/

/-- SEQ pushes a record and then `SEQ_BUSY <- 0`, or holds while `RESPQ` is full (R156, R308). -/
def State.pushSeq (r : Resp) (s : State) : State :=
  if s.respRoom then { s.releaseSeq with respq := s.respq ++ [r] } else { s with seqStage := .pushing r }

/-- The record of a completion action. -/
def doneResp (op tag : Byte) (ok : Bool) : Resp :=
  { op := op, tag := tag, status := statusOf ok, result := 0 }

/-- The writes of `done(r)` before its push: the state after them, and the record to push. A sequence PROC waits for
has no action of its own: PROC takes its result. -/
def SeqDone.act (d : SeqDone) (ok : Bool) (s : State) : State × Option Resp :=
  match d with
  | .toProc => (s, none)
  | .update op tag => ({ s with inFlight := false }, some (doneResp op tag ok))
  | .contrast tag => (s, some (doneResp Op.contrast.code tag ok))
  | .dispOff tag =>
    ({ s with ctrl := if ok then .poweredOff else s.ctrl }, some (doneResp Op.dispoff.code tag ok))
  | .dispOn tag =>
    ({ s with ctrl := if ok then .ready else s.ctrl }, some (doneResp Op.dispon.code tag ok))

/-- The completion action of the running sequence, `push` being how its record is pushed. -/
def seqComplete (push : Resp → State → State) (ok : Bool) (s : State) : State :=
  match s.seqDone with
  | none => s
  | some d =>
    match d.act ok s with
    | (s', some r) => push r s'
    | (s', none) => s'

/-- SEQ's turn: it plays on, completes, or pushes; it has no step while it is idle or waits for XPORT or PROC. -/
def seqTurn (s : State) : State :=
  match s.seqStage with
  | .idle => s
  | .playing =>
    match s.seqPending with
    | some _ => s
    | none => (playSteps (s.seqSteps.drop s.seqPos) s).1
  | .returned ok => seqComplete State.pushSeq ok s
  | .pushing r => s.pushSeq r
  | .pushed => s.releaseSeq

/-- SEQ's turn of one piece (notes/assumptions/9.md): the writes of a completion action, its push, and the end of `SEQ_BUSY` are
turns of their own. -/
def seqFineTurn (s : State) : State :=
  match s.seqStage with
  | .returned ok => seqComplete (fun r s' => { s' with seqStage := .pushing r }) ok s
  | .pushing r => if s.respRoom then { s with respq := s.respq ++ [r], seqStage := .pushed } else s
  | .idle | .playing | .pushed => seqTurn s

/-- SEQ has a step of its own. -/
def seqEnabled (s : State) : Bool :=
  match s.seqStage with
  | .idle => false
  | .playing => s.seqPending.isNone
  | .returned _ => s.seqDone.isSome && s.seqDone != some .toProc
  | .pushing _ => s.respRoom
  | .pushed => true

/-! ## The meanings -/

/-- RESET (R165). -/
def execReset (tag : Byte) (s : State) : Host.Outcome State Fault Refusal := .next (runPlan (planReset tag s) s)

/-- BEGIN (R166). -/
def execBegin (tag : Byte) (s : State) : Host.Outcome State Fault Refusal := .next (runPlan (planBegin tag s) s)

/-- UPDATE (R170). -/
def execUpdate (tag : Byte) (s : State) : Host.Outcome State Fault Refusal := .next (runPlan (planUpdate tag s) s)

/-- CLEAR (R171). -/
def execClear (tag : Byte) (s : State) : Host.Outcome State Fault Refusal := .next (runPlan (planClear tag s) s)

/-- SET_CONTRAST (R172). -/
def execContrast (tag : Byte) (v : Word) (s : State) : Host.Outcome State Fault Refusal :=
  .next (runPlan (planContrast tag v s) s)

/-- DISPLAY_OFF (R173). -/
def execDispoff (tag : Byte) (s : State) : Host.Outcome State Fault Refusal :=
  .next (runPlan (planDispoff tag s) s)

/-- DISPLAY_ON (R174). -/
def execDispon (tag : Byte) (s : State) : Host.Outcome State Fault Refusal :=
  .next (runPlan (planDispon tag s) s)

/-- TEARDOWN (R177). -/
def execTeardown (tag : Byte) (s : State) : Host.Outcome State Fault Refusal :=
  .next (runPlan (planTeardown tag s) s)

end Sys2Proof.Machine
end

