-- ==== Sys2Proof/Machine/Raster.lean ====
section
/-! DEFINITION. The rasteriser (41_raster.md R212 to R219): pixels, Bresenham lines, rectangles, the pixel read and the cursor. -/

namespace Sys2Proof.Machine

/-- One pass of the loop of R213 after the pixel is written: `(x, y, err)` for the next pixel. -/
def lineStep (dx dy sx sy x y err : Int) : Int × Int × Int :=
  let e2 := err
  let (err, x) := if e2 > -dx then (err - dy, x + sx) else (err, x)
  let (err, y) := if e2 < dy then (err + dx, y + sy) else (err, y)
  (x, y, err)

/-- The pixels from `(x, y)` on, at most `n` more than one, ending at `(x1, y1)` (R213). -/
def lineFrom : Nat → (dx dy sx sy x1 y1 x y err : Int) → List (Int × Int)
  | 0, _, _, _, _, _, _, x, y, _ => [(x, y)]
  | n + 1, dx, dy, sx, sy, x1, y1, x, y, err =>
    if x = x1 ∧ y = y1 then [(x, y)]
    else
      let (x', y', err') := lineStep dx dy sx sy x y err
      (x, y) :: lineFrom n dx dy sx sy x1 y1 x' y' err'

/-- The pixels `DrawLine` visits, in visiting order (R213). The loop ends after `max(dx, dy) + 1` pixels
(R214), so that many passes are enough. -/
def linePoints (x0 y0 x1 y1 : Int) : List (Int × Int) :=
  let dx := (x1 - x0).natAbs
  let dy := (y1 - y0).natAbs
  let sx : Int := if x0 < x1 then 1 else -1
  let sy : Int := if y0 < y1 then 1 else -1
  let err := truncHalf (if dy ≤ dx then (dx : Int) else -(dy : Int))
  lineFrom (max dx dy) dx dy sx sy x1 y1 x0 y0 err

/-- The pixels `FillRect` touches, in touching order: columns left to right, each a vertical line; nothing when
the height is 0 (R216). -/
def rectPoints (x y : Int) (w h : Nat) : List (Int × Int) :=
  if h = 0 then []
  else (List.range w).flatMap fun (i : Nat) => linePoints (x + i) y (x + i) (y + h - 1)

/-- Pixel writes of one intensity at a list of points. -/
def plots (c : Intensity) (ps : List (Int × Int)) : List Piece := ps.map fun p => .plot p.1 p.2 c

/-- A drawing command's plan: NOT_READY under bypass before any pixel (R220), else the pixels. -/
def planDraw (op : Op) (tag : Byte) (bypass : Bool) (todo : List Piece) (s : State) : Plan :=
  if notReadyFor bypass s then .refuse op.code tag .notReady else .run (newJob op tag bypass 0 todo)

/-- DRAW_PIXEL (R212). -/
def planPixel (tag : Byte) (c : Intensity) (bypass : Bool) (x y : BitVec 16) (s : State) : Plan :=
  planDraw .pixel tag bypass [.plot (coord x) (coord y) c] s

/-- DRAW_LINE (R215). -/
def planLine (tag : Byte) (c : Intensity) (bypass : Bool) (x0 y0 x1 y1 : BitVec 16) (s : State) : Plan :=
  planDraw .line tag bypass (plots c (linePoints (coord x0) (coord y0) (coord x1) (coord y1))) s

/-- FILL_RECT (R217). -/
def planRect (tag : Byte) (c : Intensity) (bypass : Bool) (x y w h : BitVec 16) (s : State) : Plan :=
  planDraw .rect tag bypass (plots c (rectPoints (coord x) (coord y) (extent w) (extent h))) s

/-- READ_PIXEL (R218): from `FB`, never the panel; the RESULT is the pixel. -/
def planRdpix (tag : Byte) (x y : BitVec 16) (s : State) : Plan :=
  if !inBounds s.cfg (coord x) (coord y) then .refuse Op.rdpix.code tag .outOfBounds
  else
    .run (newJob .rdpix tag false (pixRead s.cfg s.fb (coord x).toNat (coord y).toNat).toNat [])

/-- SET_CURSOR (R219). -/
def planCursor (tag : Byte) (x y : BitVec 16) (_ : State) : Plan :=
  .run (newJob .cursor tag false 0 [.effect (.cursor x y)])

/-! ## The meanings -/

/-- DRAW_PIXEL (R212). -/
def execPixel (tag : Byte) (c : Intensity) (bypass : Bool) (x y : BitVec 16) (s : State) :
    Host.Outcome State Fault Refusal := .next (runPlan (planPixel tag c bypass x y s) s)

/-- DRAW_LINE (R215). -/
def execLine (tag : Byte) (c : Intensity) (bypass : Bool) (x0 y0 x1 y1 : BitVec 16) (s : State) :
    Host.Outcome State Fault Refusal := .next (runPlan (planLine tag c bypass x0 y0 x1 y1 s) s)

/-- FILL_RECT (R217). -/
def execRect (tag : Byte) (c : Intensity) (bypass : Bool) (x y w h : BitVec 16) (s : State) :
    Host.Outcome State Fault Refusal := .next (runPlan (planRect tag c bypass x y w h s) s)

/-- READ_PIXEL (R218). -/
def execRdpix (tag : Byte) (x y : BitVec 16) (s : State) : Host.Outcome State Fault Refusal :=
  .next (runPlan (planRdpix tag x y s) s)

/-- SET_CURSOR (R219). -/
def execCursor (tag : Byte) (x y : BitVec 16) (s : State) : Host.Outcome State Fault Refusal :=
  .next (runPlan (planCursor tag x y s) s)

end Sys2Proof.Machine
end

