-- ==== Sys2Proof/Machine/HexFont.lean ====
section
/-! DEFINITION. The hex font, the glyph cache and variable-width text (42_text.md R250 to R264). -/

namespace Sys2Proof.Machine

/-- The bits of a row, most significant first: column `c` of a row of `w` bits is bit `w - 1 - c` (R253). -/
def rowBits {w : Nat} (row : BitVec w) : List Bool :=
  (List.range w).map fun c => row.getLsbD (w - 1 - c)

/-- `Expand((KIND, R))` (R253). -/
def expand : Glyph → CachedGlyph
  | .g8 rows => { gw := 8, gh := 8, bits := rows.map rowBits }
  | .g16 rows => { gw := 16, gh := 16, bits := rows.map rowBits }

/-- The new cache of CACHE_GLYPHS: the expansion of every listed character the font has (R255). -/
def buildCache (hf : KeyMap Glyph) : List Char16 → KeyMap CachedGlyph → KeyMap CachedGlyph
  | [], m => m
  | ch :: rest, m =>
    match KeyMap.find ch hf with
    | some g => buildCache hf rest (KeyMap.insert ch (expand g) m)
    | none => buildCache hf rest m

/-- The characters of a list that the font lacks, in order (R255). -/
def missingChars (hf : KeyMap Glyph) (t : List Char16) : List Char16 :=
  t.filter fun ch => (KeyMap.find ch hf).isNone

/-- `Covers(T)` (R256). -/
def covers (s : State) (t : List Char16) : Bool :=
  s.cacheValid && t.all fun ch => (KeyMap.find ch s.cache).isSome

/-- The on bits of one row, left to right from column `col` on (R261). -/
def rowPieces (x y : Int) (c : Intensity) : Nat → List Bool → List Piece
  | _, [] => []
  | col, b :: rest =>
    if b then .plot (x + col) y c :: rowPieces x y c (col + 1) rest else rowPieces x y c (col + 1) rest

/-- `DrawCachedGlyph` (R261): rows outer, top to bottom, from row `r` on; only on bits, with or without bypass. -/
def cachedGlyphPieces (x y : Int) (c : Intensity) : Nat → List (List Bool) → List Piece
  | _, [] => []
  | r, bits :: rest => rowPieces x (y + r) c 0 bits ++ cachedGlyphPieces x y c (r + 1) rest

/-- The work of WRITE_UNIFONT's loop (R260) with the cursor at `cx`: it stops at the first character that would start
at or past WIDTH (R263). `s` gives the cache, which the command does not change and which covers the text. -/
def unifontPieces (s : State) (c : Intensity) : BitVec 16 → List Char16 → List Piece
  | _, [] => []
  | cx, ch :: rest =>
    if coord cx ≥ s.cfg.width then []
    else
      match KeyMap.find ch s.cache with
      | none => []
      | some g =>
        cachedGlyphPieces (coord cx) (coord s.cy) c 0 g.bits ++
          .effect (.advance g.gw) :: unifontPieces s c (advanceCursor cx g.gw) rest

/-- CACHE_GLYPHS (R255), its checks in the order of R303. -/
def planCache (tag : Byte) (text : List Char16) (s : State) : Plan :=
  if !(Instr.cache tag text).wf then .refuse Op.cache.code tag .illegalField
  else if text.length > s.cfg.textMax then .refuse Op.cache.code tag .capacity
  else if s.hfState ≠ .loaded then .refuse Op.cache.code tag .fontNotLoaded
  else
    let m := buildCache s.hf (distinct text) []
    .run <| newJob .cache tag false m.length <|
      (missingChars s.hf (distinct text)).map (fun ch => .effect (.warn ch)) ++ [.effect (.install m)]

/-- WRITE_UNIFONT (R260), its checks in the order of R303. -/
def planUputs (tag : Byte) (c : Intensity) (bypass : Bool) (text : List Char16) (s : State) : Plan :=
  if !(Instr.uputs tag c bypass text).wf then .refuse Op.uputs.code tag .illegalField
  else if text.length > s.cfg.textMax then .refuse Op.uputs.code tag .capacity
  else if notReadyFor bypass s then .refuse Op.uputs.code tag .notReady
  else if s.hfState ≠ .loaded then .refuse Op.uputs.code tag .fontNotLoaded
  else if !covers s text then .refuse Op.uputs.code tag .cacheMiss
  else .run (newJob .uputs tag bypass 0 (unifontPieces s c s.cx text))

/-- HFONT_BEGIN (R250): the cache is not touched. -/
def planHfbegin (tag : Byte) (_ : State) : Plan := .run (newJob .hfbegin tag false 0 [.effect .hfBegin])

/-- HFONT_GLYPH (R251): FONT_STATE comes before the map's CAPACITY (R303). -/
def planHfglyph (tag : Byte) (cp : Char16) (glyph : Glyph) (s : State) : Plan :=
  if !(Instr.hfglyph tag cp glyph).wf then .refuse Op.hfglyph.code tag .illegalField
  else if s.hfState ≠ .loading then .refuse Op.hfglyph.code tag .fontState
  else if (KeyMap.find cp s.hf).isNone ∧ s.hf.length = s.cfg.hfMaxGlyphs then
    .refuse Op.hfglyph.code tag .capacity
  else .run (newJob .hfglyph tag false 0 [.effect (.hfGlyph cp glyph)])

/-- HFONT_END (R252): the RESULT is the number of glyphs. -/
def planHfend (tag : Byte) (s : State) : Plan :=
  if s.hfState ≠ .loading then .refuse Op.hfend.code tag .fontState
  else .run (newJob .hfend tag false s.hf.length [.effect .hfEnd])

/-! ## The meanings -/

/-- HFONT_BEGIN (R250). -/
def execHfbegin (tag : Byte) (s : State) : Host.Outcome State Fault Refusal :=
  .next (runPlan (planHfbegin tag s) s)

/-- HFONT_GLYPH (R251). -/
def execHfglyph (tag : Byte) (cp : Char16) (glyph : Glyph) (s : State) :
    Host.Outcome State Fault Refusal := .next (runPlan (planHfglyph tag cp glyph s) s)

/-- HFONT_END (R252). -/
def execHfend (tag : Byte) (s : State) : Host.Outcome State Fault Refusal :=
  .next (runPlan (planHfend tag s) s)

/-- CACHE_GLYPHS (R255). -/
def execCache (tag : Byte) (text : List Char16) (s : State) : Host.Outcome State Fault Refusal :=
  .next (runPlan (planCache tag text s) s)

/-- WRITE_UNIFONT (R260). -/
def execUputs (tag : Byte) (c : Intensity) (bypass : Bool) (text : List Char16) (s : State) :
    Host.Outcome State Fault Refusal := .next (runPlan (planUputs tag c bypass text s) s)

end Sys2Proof.Machine
end

