-- ==== Sys2Proof/Machine/Text.lean ====
section
/-! DEFINITION. The fixed-width font and text (42_text.md R240 to R249). -/

namespace Sys2Proof.Machine

/-- `Locate(ch)`: the least index of a character in the alphabet (R242). -/
def locate (ch : Char16) : List Char16 → Option Nat
  | [] => none
  | a :: rest => if a = ch then some 0 else (locate ch rest).map (· + 1)

/-- The `FW` bytes of glyph `j`, one per column (R242, R243). -/
def glyphColumns (fw j : Nat) (data : List Byte) : List Byte := (data.drop (j * fw)).take fw

/-- `Paint`: one bit cell at scale `n` (R244). -/
def paint (px py : Int) (n : Nat) (c : Intensity) : List Piece :=
  if n = 1 then [.plot px py c] else plots c (rectPoints px py n n)

/-- The cells of column `col` of a glyph at `(x, y)`, rows top to bottom: an on bit is painted, an off bit only under
bypass, with intensity 0 (R243, R245, R248). -/
def columnPieces (x y : Int) (n : Nat) (c : Intensity) (bypass : Bool) (col : Nat) (bits : Byte) : List Piece :=
  (List.range 8).flatMap fun (row : Nat) =>
    if bits.getLsbD row then paint (x + col * n) (y + row * n) n c
    else if bypass then paint (x + col * n) (y + row * n) n 0
    else []

/-- `DrawFixedGlyph` (R245): columns outer, left to right, from column `col` on. -/
def fixedGlyphPieces (x y : Int) (n : Nat) (c : Intensity) (bypass : Bool) : Nat → List Byte → List Piece
  | _, [] => []
  | col, bits :: rest =>
    columnPieces x y n c bypass col bits ++ fixedGlyphPieces x y n c bypass (col + 1) rest

/-- The advance of a located character, `FW*s + s` (R246). -/
def fixedAdvance (fw n : Nat) : Nat := fw * n + n

/-- The work of WRITE_STRING's loop (R247) with the cursor at `cx`: a located character is drawn and advances, another
warns. `s` gives the font, which the command does not change. -/
def textPieces (s : State) (n : Nat) (c : Intensity) (bypass : Bool) : BitVec 16 → List Char16 → List Piece
  | _, [] => []
  | cx, ch :: rest =>
    match locate ch s.ffAlpha with
    | none => .effect (.warn ch) :: textPieces s n c bypass cx rest
    | some j =>
      fixedGlyphPieces (coord cx) (coord s.cy) n c bypass 0 (glyphColumns s.ffWidth.toNat j s.ffData) ++
        .effect (.advance (fixedAdvance s.ffWidth.toNat n)) ::
          textPieces s n c bypass (advanceCursor cx (fixedAdvance s.ffWidth.toNat n)) rest

/-- WRITE_STRING (R247), its checks in the order of R303. -/
def planPuts (tag : Byte) (c : Intensity) (bypass : Bool) (size : BitVec 8) (text : List Char16)
    (s : State) : Plan :=
  if !(Instr.puts tag c bypass size text).wf then .refuse Op.puts.code tag .illegalField
  else if text.length > s.cfg.textMax then .refuse Op.puts.code tag .capacity
  else if notReadyFor bypass s then .refuse Op.puts.code tag .notReady
  else if !s.ffontValid then .refuse Op.puts.code tag .fontNotLoaded
  else .run (newJob .puts tag bypass 0 (textPieces s (scaleOf size) c bypass s.cx text))

/-- FFONT_DEFINE (R241): the font is replaced whole. -/
def planFfont (tag : Byte) (fw : BitVec 8) (alphabet : List Char16) (data : List Byte) (s : State) : Plan :=
  if !(Instr.ffont tag fw alphabet data).wf then .refuse Op.ffont.code tag .illegalField
  else if alphabet.length > s.cfg.ffMaxChars ∨ alphabet.length * fw.toNat > s.cfg.ffMaxBytes then
    .refuse Op.ffont.code tag .capacity
  else .run (newJob .ffont tag false 0 [.effect (.font fw alphabet data)])

/-! ## The meanings -/

/-- FFONT_DEFINE (R241). -/
def execFfont (tag : Byte) (fw : BitVec 8) (alphabet : List Char16) (data : List Byte) (s : State) :
    Host.Outcome State Fault Refusal := .next (runPlan (planFfont tag fw alphabet data s) s)

/-- WRITE_STRING (R247). -/
def execPuts (tag : Byte) (c : Intensity) (bypass : Bool) (size : BitVec 8) (text : List Char16)
    (s : State) : Host.Outcome State Fault Refusal :=
  .next (runPlan (planPuts tag c bypass size text s) s)

end Sys2Proof.Machine
end

