-- ==== Sys2Proof/Machine/Dispatch.lean ====
section
/-! DEFINITION. The dispatch: one arm per command, each a direct call of its meaning. -/

namespace Sys2Proof.Machine

/-- What a command does when PROC has collected all its words (R46, R95). -/
def exec (i : Instr) (s : State) : Host.Outcome State Fault Refusal :=
  match i with
  | .reset tag => Sys2Proof.Machine.execReset tag s
  | .begin tag => Sys2Proof.Machine.execBegin tag s
  | .update tag => Sys2Proof.Machine.execUpdate tag s
  | .clear tag => Sys2Proof.Machine.execClear tag s
  | .contrast tag v => Sys2Proof.Machine.execContrast tag v s
  | .dispoff tag => Sys2Proof.Machine.execDispoff tag s
  | .dispon tag => Sys2Proof.Machine.execDispon tag s
  | .teardown tag => Sys2Proof.Machine.execTeardown tag s
  | .pixel tag color bypass x y => Sys2Proof.Machine.execPixel tag color bypass x y s
  | .line tag color bypass x0 y0 x1 y1 => Sys2Proof.Machine.execLine tag color bypass x0 y0 x1 y1 s
  | .rect tag color bypass x y w h => Sys2Proof.Machine.execRect tag color bypass x y w h s
  | .rdpix tag x y => Sys2Proof.Machine.execRdpix tag x y s
  | .cursor tag x y => Sys2Proof.Machine.execCursor tag x y s
  | .ffont tag fw alphabet data => Sys2Proof.Machine.execFfont tag fw alphabet data s
  | .puts tag color bypass size text => Sys2Proof.Machine.execPuts tag color bypass size text s
  | .hfbegin tag => Sys2Proof.Machine.execHfbegin tag s
  | .hfglyph tag cp glyph => Sys2Proof.Machine.execHfglyph tag cp glyph s
  | .hfend tag => Sys2Proof.Machine.execHfend tag s
  | .cache tag text => Sys2Proof.Machine.execCache tag text s
  | .uputs tag color bypass text => Sys2Proof.Machine.execUputs tag color bypass text s

end Sys2Proof.Machine
end

