-- ==== Sys2Proof/Machine/Window.lean ====
section
/-! DEFINITION. The host register window (10_state.md R48 to R60, 20_memory.md R89 to R92). -/

namespace Sys2Proof.Machine

/-- The register at a byte offset of the window (R48). -/
inductive Register where
  | cmd | resp0 | resp1 | respPop | status | level | cursor | warn | irqEn | irqStat | geometry | id
  | reserved
  deriving DecidableEq, Repr

/-- The register at word `k` of the window, offset `4 * k` (R48, R60). -/
def Register.ofIndex : Nat → Register
  | 0 => .cmd
  | 1 => .resp0
  | 2 => .resp1
  | 3 => .respPop
  | 4 => .status
  | 5 => .level
  | 6 => .cursor
  | 7 => .warn
  | 8 => .irqEn
  | 9 => .irqStat
  | 10 => .geometry
  | 11 => .id
  | _ => .reserved

/-- The value a read of a register returns (R49 to R60); no read has a side effect (R91). -/
def readRegister (r : Register) (s : State) : Word :=
  match r with
  | .cmd | .respPop | .reserved => 0
  | .resp0 => (s.respq.head?.map Resp.word0).getD 0
  | .resp1 => (s.respq.head?.map Resp.word1).getD 0
  | .status => s.statusWord
  | .level => s.levelWord
  | .cursor => s.cursorWord
  | .warn => s.warnWord
  | .irqEn => (0 : BitVec 31) ++ BitVec.ofBool s.respIE
  | .irqStat => (0 : BitVec 31) ++ BitVec.ofBool s.respPending
  | .geometry => BitVec.ofNat 16 s.cfg.height ++ BitVec.ofNat 16 s.cfg.width
  | .id => 0x56470001

/-- A warning that PROC has counted is over: if PROC has not written its `LAST_MISSING` yet (R249), it does not write it any more. -/
def Proc.warningOver : Proc → Proc
  | .executing (.job j) =>
    match j.todo with
    | .effect (.lastMissing _) :: rest => .executing (.job { j with todo := rest, missing := true })
    | _ => .executing (.job j)
  | p => p

/-- What a write to a register does (R49 to R60). A write to WARN between the two writes of a warning comes after the warning, which the host may
have read as counted: R55 admits that order, and both registers are 0 then (DESIGN CHOICE, notes/assumptions/20.md). A write to CMD while `CMDQ` is
full holds: it waits in `busWrite` until PROC pops a word (R49). -/
def writeRegister (r : Register) (v : Word) (s : State) : State :=
  match r with
  | .cmd =>
    if s.cmdq.length < s.cfg.cmdFifoDepth then { s with cmdq := s.cmdq ++ [v] }
    else { s with busWrite := some v }
  | .respPop => { s with respq := s.respq.tail }
  | .warn => { s with warnCount := 0, lastMissing := 0, proc := s.proc.warningOver }
  | .irqEn => { s with respIE := v.getLsbD 0 }
  | .resp0 | .resp1 | .status | .level | .cursor | .irqStat | .geometry | .id | .reserved => s

/-- How the window takes an access of `bytes` bytes at an address: the register it names, or a refusal (R89, R92). R7 and R8 put no alignment on
BASE; the model judges an access by its offset from BASE, the registers being at offsets that are multiples of 4 (R48): DESIGN CHOICE,
notes/assumptions/23.md. -/
def registerAt (base addr bytes : Nat) : Except Refusal Register :=
  if addr < base ∨ base + 64 ≤ addr then .error .outsideWindow
  else if bytes ≠ 4 ∨ (addr - base) % 4 ≠ 0 then .error .badBusAccess
  else .ok (Register.ofIndex ((addr - base) / 4))

/-- HOST reads (R90). A host whose earlier write is held has no access to make (R13, R49;
notes/assumptions/12.md). -/
def hostReadTurn (addr bytes : Nat) (s : State) : Host.Outcome State Fault Refusal :=
  if s.busWrite.isSome then .next s
  else
    match registerAt s.cfg.base addr bytes with
    | .error e => .refused e
    | .ok r => .next { s with busRead := readRegister r s }

/-- HOST writes (R90). -/
def hostWriteTurn (addr bytes : Nat) (v : Word) (s : State) : Host.Outcome State Fault Refusal :=
  if s.busWrite.isSome then .next s
  else
    match registerAt s.cfg.base addr bytes with
    | .error e => .refused e
    | .ok r => .next (writeRegister r v s)

end Sys2Proof.Machine
end

