-- ==== Sys2Proof/Machine/Agents.lean ====
section
/-! DEFINITION. The turns of the agents (00_scope.md R13, R14): PROC's fetch, its resumption from a hold and its fine turn
(10_state.md R46, 30_encoding.md R135), TIMER, the power-on reset (70_reset_and_hazards.md R340) and the turn taken when the timeline is
empty. SEQ's turn stands in Control.lean, HOST's in Window.lean. -/

namespace Sys2Proof.Machine

/-! ## Fetch (R32, R46, R135) -/

/-- What popping words leads to: the words end before the command does, or the command is complete. -/
inductive Fetched where
  | needMore (collected : List Word)
  | complete (d : Decoded) (rest : List Word)
  deriving DecidableEq, Repr

/-- PROC pops words from a queue, `collected` being those it has, until they make a command or the queue is empty.
-/
def fetchWords (collected : List Word) : List Word → Fetched
  | [] => .needMore collected
  | w :: rest =>
    match decode (collected ++ [w]) with
    | .incomplete => fetchWords (collected ++ [w]) rest
    | d => .complete d rest

/-- The words PROC has collected; none when it is not collecting. -/
def State.collected (s : State) : List Word :=
  match s.proc with
  | .collecting ws => ws
  | .idle | .executing _ => []

/-- The words PROC can pop: `CMDQ`, and behind it a held host write, which completes at the first pop (R49). -/
def State.queue (s : State) : List Word := s.cmdq ++ s.busWrite.toList

/-- PROC pops the whole of the queue but `rest`. -/
def State.popTo (rest : List Word) (s : State) : State := { s with cmdq := rest, busWrite := none }

/-- The words so far are part of a command (R46). -/
def collectingOrIdle (ws : List Word) : Proc := if ws.isEmpty then .idle else .collecting ws

/-- PROC carries out what it has fetched: a refusal by the decoder is answered like any other (R119, R132, R307). -/
def runDecoded (d : Decoded) (s : State) : Host.Outcome State Fault Refusal :=
  match d with
  | .incomplete => .next s
  | .illegalOpcode op tag => .next (s.refuse op tag .illegalOpcode)
  | .illegalField op tag _ => .next (s.refuse op tag .illegalField)
  | .command i _ => exec i s

/-- PROC collects words and, when a command is complete, carries it out. -/
def fetchTurn (s : State) : Host.Outcome State Fault Refusal :=
  match fetchWords s.collected s.queue with
  | .needMore ws => .next { s.popTo [] with proc := collectingOrIdle ws }
  | .complete d rest => runDecoded d (s.popTo rest)

/-! ## Resumption from a hold (R13) -/

/-- PROC resumes from a RunSeq that has returned; else it still holds. -/
def State.whenReturned (goOn : Bool → State → State) (s : State) : State :=
  match s.seqStage with
  | .returned ok => goOn ok s.releaseSeq
  | .idle | .playing | .pushing _ | .pushed => s

/-- PROC goes on from where it holds, as far as it can; it stays where the hold is not lifted. -/
def resume (h : Hold) (s : State) : Host.Outcome State Fault Refusal :=
  match h with
  | .start i => exec i s
  | .job j => .next (runJob j s)
  | .jobTimer _ => .next s
  | .jobSeq j onFail =>
    .next (s.whenReturned fun ok s' => if ok then runJob j s' else failJob onFail j s')
  | .push r => .next (s.pushProc r)
  | .leaving => .next s.leave

/-- PROC's turn: it fetches, or goes on from its hold. -/
def procTurn (s : State) : Host.Outcome State Fault Refusal :=
  match s.proc with
  | .idle | .collecting _ => fetchTurn s
  | .executing h => resume h s

/-! ## The fine turn of PROC (notes/assumptions/9.md) -/

/-- The plan of a command: what its meaning carries out. -/
def planOf (i : Instr) (s : State) : Plan :=
  match i with
  | .reset tag => planReset tag s
  | .begin tag => planBegin tag s
  | .update tag => planUpdate tag s
  | .clear tag => planClear tag s
  | .contrast tag v => planContrast tag v s
  | .dispoff tag => planDispoff tag s
  | .dispon tag => planDispon tag s
  | .teardown tag => planTeardown tag s
  | .pixel tag color bypass x y => planPixel tag color bypass x y s
  | .line tag color bypass x0 y0 x1 y1 => planLine tag color bypass x0 y0 x1 y1 s
  | .rect tag color bypass x y w h => planRect tag color bypass x y w h s
  | .rdpix tag x y => planRdpix tag x y s
  | .cursor tag x y => planCursor tag x y s
  | .ffont tag fw alphabet data => planFfont tag fw alphabet data s
  | .puts tag color bypass size text => planPuts tag color bypass size text s
  | .hfbegin tag => planHfbegin tag s
  | .hfglyph tag cp glyph => planHfglyph tag cp glyph s
  | .hfend tag => planHfend tag s
  | .cache tag text => planCache tag text s
  | .uputs tag color bypass text => planUputs tag color bypass text s

/-- PROC pops one word; a complete command waits, all its words popped (R46, EXECUTING). -/
def fetchOne (s : State) : State :=
  match s.queue with
  | [] => s
  | w :: rest =>
    let s' := s.popTo rest
    match decode (s.collected ++ [w]) with
    | .incomplete => { s' with proc := .collecting (s.collected ++ [w]) }
    | .illegalOpcode op tag => s'.hold (.push ⟨op, tag, .illegalOpcode, 0⟩)
    | .illegalField op tag _ => s'.hold (.push ⟨op, tag, .illegalField, 0⟩)
    | .command i _ => s'.hold (.start i)

/-- PROC's turn of one piece: one word, the checks of a command, one piece of its rule, the push of its response, the
return to IDLE, or a resumption. -/
def procFineTurn (s : State) : State :=
  match s.proc with
  | .idle | .collecting _ => fetchOne s
  | .executing (.start i) =>
    match planOf i s with
    | .run j => s.hold (.job j)
    | .refuse op tag st => s.hold (.push ⟨op, tag, st, 0⟩)
  | .executing (.job j) => jobPiece j s
  | .executing (.jobTimer _) => s
  | .executing (.jobSeq j onFail) =>
    s.whenReturned fun ok s' =>
      s'.hold (.job (if ok then j else { j with todo := onFail.map .effect, failed := true }))
  | .executing (.push r) =>
    if s.respRoom then State.hold .leaving { s with respq := s.respq ++ [r] } else s
  | .executing .leaving => s.leave

/-! ## TIMER and the power-on reset -/

/-- TIMER's report lifts a reset hold (R163), and PROC goes on in its own turn; else there is none to lift. -/
def timerTurn (s : State) : State :=
  match s.proc with
  | .executing (.jobTimer j) => s.hold (.job j)
  | .idle | .collecting _ | .executing _ => s

/-- The power-on reset (R63, R340): every piece of block state takes its reset value, the framebuffer holds what it
holds, a pending request is never answered. The configuration, the timeline and the outputs so far stay. -/
def powerOnTurn (fb : List Byte) (s : State) : State :=
  { State.powerOn s.cfg with
    fb := Memory.ofBytesFrom 0 (fb.take s.cfg.fbSize), env := s.env, busRead := s.busRead, trace := .powerOn :: s.trace }

/-! ## Who moves -/

/-- The turn taken while the timeline is empty: SEQ if it has a step, else PROC (notes/assumptions/6.md). -/
def defaultTurn (s : State) : Host.Outcome State Fault Refusal :=
  if seqEnabled s then .next (seqTurn s) else procTurn s

/-- One event of the timeline. A turn given to an agent that has no step changes nothing (R13). -/
def eventTurn (e : Event) (s : State) : Host.Outcome State Fault Refusal :=
  match e with
  | .proc => procTurn s
  | .procFine => .next (procFineTurn s)
  | .seq => .next (seqTurn s)
  | .seqFine => .next (seqFineTurn s)
  | .answer ok => .next (s.answer ok)
  | .timer => .next (timerTurn s)
  | .hostRead addr bytes => hostReadTurn addr bytes s
  | .hostWrite addr bytes v => hostWriteTurn addr bytes v s
  | .powerOn fb => .next (powerOnTurn fb s)

/-- The next turn of a machine with a configuration in order. -/
def turn (s : State) : Host.Outcome State Fault Refusal :=
  match s.env with
  | [] => defaultTurn s
  | e :: later => eventTurn e { s with env := later }

end Sys2Proof.Machine
end

