-- ==== Sys2Proof/Machine/Step.lean ====
section
/-! DEFINITION. One step: the next turn of the timeline, in a configuration within R8; and the placing of an instruction
where PROC fetches. -/

namespace Sys2Proof.Machine

/-- One step. A configuration outside the constraints of R8 and R7 is refused. -/
def step (s : State) : Host.Outcome State Fault Refusal :=
  if s.cfg.Ok then turn s else .refused .badConfiguration

/-- The state with a table row's words in `CMDQ`, PROC idle, and PROC's turn next: the very next step runs that
instruction (notes/assumptions/15.md). -/
def State.withFetchWord (s : State) (nbits w : Nat) : State :=
  { s with cmdq := tableWords nbits w, busWrite := none, proc := .idle, env := .proc :: s.env }

end Sys2Proof.Machine
end

