-- ==== Sys2Proof/Machine/HostProcedures.lean ====
section
/-! DEFINITION. The host procedures of 43_host_procedures.md (R280 to R286): what the host issues for the contents of a hex-font file and of a
logo file. A file is its list of characters, or `none` when the read fails; a procedure answers the commands it issues in
order, or `none` when it reports an error to its caller and issues nothing. Each command carries TAG 0 (notes/assumptions/16.md). -/

namespace Sys2Proof.Machine

/-! ## Lines and numbers -/

/-- The lines of a text, split at LF. -/
def splitLines : List Char → List (List Char)
  | [] => [[]]
  | ch :: rest =>
    if ch = '\n' then [] :: splitLines rest
    else
      match splitLines rest with
      | [] => [[ch]]
      | line :: lines => (ch :: line) :: lines

/-- A line without one trailing CR. -/
def stripCR (line : List Char) : List Char := if line.getLast? = some '\r' then line.dropLast else line

/-- The value of a hex digit `0-9`, `a-f`, `A-F`. -/
def hexDigit (ch : Char) : Option Nat :=
  let n := ch.toNat
  if 48 ≤ n ∧ n ≤ 57 then some (n - 48)
  else if 97 ≤ n ∧ n ≤ 102 then some (n - 87)
  else if 65 ≤ n ∧ n ≤ 70 then some (n - 55)
  else none

/-- The value of a decimal digit. -/
def decimalDigit (ch : Char) : Option Nat :=
  let n := ch.toNat
  if 48 ≤ n ∧ n ≤ 57 then some (n - 48) else none

/-- The values of digits, `none` when a character is not one. -/
def digitsOf (digit : Char → Option Nat) : List Char → Option (List Nat)
  | [] => some []
  | ch :: rest =>
    match digit ch, digitsOf digit rest with
    | some d, some ds => some (d :: ds)
    | _, _ => none

/-- The number digits stand for, most significant first; 0 for no digits. -/
def numberOf (radix : Nat) (ds : List Nat) : Nat := ds.foldl (fun n d => n * radix + d) 0

/-! ## The hex-font loader -/

/-- Row extraction (R282): 64 digits are 16 rows of 4, any other payload is 8 rows of its first 16 digits, 0 past its end. -/
def glyphOfDigits (ds : List Nat) : Glyph :=
  if ds.length = 64 then
    .g16 ((List.range 16).map fun r => BitVec.ofNat 16 (numberOf 16 ((ds.drop (4 * r)).take 4)))
  else .g8 ((List.range 8).map fun r => BitVec.ofNat 8 (numberOf 16 ((ds.drop (2 * r)).take 2)))

/-- An accepted line's code point and glyph, `none` for a line that is skipped (R281). The fifth character is the separator and may
be any. A character of the file is one character of its text, also one above U+FFFF (which R15 and R240 would make two 16-bit units): R281 leaves
that open (DESIGN CHOICE, notes/assumptions/16.md). -/
def hexFontLine : List Char → Option (Char16 × Glyph)
  | a :: b :: c :: d :: _ :: payload =>
    match digitsOf hexDigit [a, b, c, d], digitsOf hexDigit payload with
    | some cp, some ds =>
      if numberOf 16 cp = 0 then none
      else some (BitVec.ofNat 16 (numberOf 16 cp), glyphOfDigits ds)
    | _, _ => none
  | _ => none

/-- The commands of `LoadHexFont(file)` (R280). -/
def loadHexFont (file : Option (List Char)) : Option (List Instr) :=
  file.map fun text =>
    [.hfbegin 0] ++
      ((splitLines text).filterMap fun line => hexFontLine (stripCR line)).map
        (fun g => Instr.hfglyph 0 g.1 g.2) ++
      [.hfend 0]

/-! ## The logo painter -/

/-- The parameters of the logo painter (R285). -/
structure Logo where
  /-- `LOGO_FIRST_ON` -/
  firstOn : Bool
  /-- `LOGO_ON_COLOR` -/
  onColor : Intensity
  /-- `LOGO_OFF_PAINT` -/
  offPaint : Bool
  deriving DecidableEq, Repr

/-- The defaults of R285. -/
def defaultLogo : Logo := { firstOn := true, onColor := 15, offPaint := false }

/-- The runs of a logo file: every line that is not empty is a decimal integer (R284): digits `0-9` and nothing else. R284 leaves open whether a
sign or blanks may stand in it; such a line is an error here (DESIGN CHOICE, notes/assumptions/16.md). -/
def logoRuns : List (List Char) → Option (List Nat)
  | [] => some []
  | line :: rest =>
    if line.isEmpty then logoRuns rest
    else
      match digitsOf decimalDigit line, logoRuns rest with
      | some ds, some ns => some (numberOf 10 ds :: ns)
      | _, _ => none

/-- DRAW_PIXEL at position `q` of the raster, row-major (R285). -/
def logoPixel (c : Config) (q : Nat) (color : Intensity) : Instr :=
  .pixel 0 color false (BitVec.ofNat 16 (q % c.width)) (BitVec.ofNat 16 (q / c.width))

/-- The pixels of a run of `n` positions from `p` on; those past the raster's end are dropped (R285). -/
def runPixels (c : Config) (l : Logo) (isOn : Bool) (p n : Nat) : List Instr :=
  let ps := (List.range (min n (c.width * c.height - p))).map (p + ·)
  if isOn then ps.map fun q => logoPixel c q l.onColor
  else if l.offPaint then ps.map fun q => logoPixel c q 0
  else []

/-- The pixels of the runs from position `p` on, the runs alternating (R285). -/
def paintRuns (c : Config) (l : Logo) : Bool → Nat → List Nat → List Instr
  | _, _, [] => []
  | isOn, p, n :: rest => runPixels c l isOn p n ++ paintRuns c l (!isOn) (p + n) rest

/-- The commands of `PaintLogo(file)` (R284, R285). -/
def paintLogo (c : Config) (l : Logo) (file : Option (List Char)) : Option (List Instr) :=
  match file with
  | none => none
  | some text =>
    (logoRuns ((splitLines text).map stripCR)).map fun runs =>
      paintRuns c l l.firstOn 0 runs ++ [.update 0]

/-! ## What HOST does with a command -/

/-- HOST pushes the words of a command through CMD (R49, R110), PROC popping each before HOST writes the next: no write stalls, at any
`CMD_FIFO_DEPTH`, and PROC carries the command out at its last word. -/
def hostPush (c : Config) (i : Instr) : List Event := (encode i).flatMap fun w => [.hostWrite c.base 4 w, .proc]

/-- HOST issues a command, waits for its response, and reads and pops it before it goes on (R280): the schedule of a command
that waits for no other agent, as those of `LoadHexFont` are. -/
def hostCall (c : Config) (i : Instr) : List Event :=
  hostPush c i ++ [.hostRead (c.base + 4) 4, .hostRead (c.base + 8) 4, .hostWrite (c.base + 12) 4 0]

/-- HOST issues commands in order, each after the response of the one before (R280). -/
def hostRun (c : Config) (is : List Instr) : List Event := is.flatMap (hostCall c)

/-- `LoadHexFont(file)` at the window: what HOST does with the commands of the file (R280). -/
def loadHexFontEvents (c : Config) (file : Option (List Char)) : Option (List Event) := (loadHexFont file).map (hostRun c)

/-- What the host owes the block when it ends its use of the display (R286). -/
def teardownHook : Instr := .teardown 0

end Sys2Proof.Machine
end

