-- ==== Sys2Proof/Safety.lean ====
section
/-! DEFINITION. The terms claims are made in: what a completed command leaves (`State.done`), what an accepted sequence leaves on the trace,
where text puts ink, and the invariant `Inv` that every step keeps. A run is safe when each of its states satisfies `Inv`. -/

namespace Sys2Proof.Machine

/-! ## Outcomes of a command -/

/-- The state of a completed command: its record is pushed and PROC is idle (R305, R311). -/
def State.done (o : Op) (tag : Byte) (st : Status) (result : Word) (s : State) : State :=
  { s with respq := s.respq ++ [{ op := o.code, tag := tag, status := st, result := result }], proc := .idle }

/-- SEQ is idle and holds nothing of a sequence (R38). -/
def State.seqIdle (s : State) : Prop :=
  s.seqStage = .idle ∧ s.seqSteps = [] ∧ s.seqPos = 0 ∧ s.seqDone = none ∧ s.seqPending = none

/-- XPORT answers the next `n` requests `ok`. -/
def oks (n : Nat) : List Event := List.replicate n (.answer true)

/-- What steps that XPORT accepts add to the trace, newest first. -/
def okTrace (snap : List Byte) (steps : List SeqStep) : List TraceItem :=
  (steps.flatMap fun st => [.request (st.request snap), .answered true]).reverse

/-- The phase a step leaves when XPORT accepts it (R153). -/
def SeqStep.phaseAfter (p : Phase) : SeqStep → Phase
  | .enterCmd => .command
  | .enterData => .data
  | .tx _ | .txSnap => p

/-- The phase that accepted steps leave. -/
def phaseAfter (p : Phase) (steps : List SeqStep) : Phase := steps.foldl SeqStep.phaseAfter p

/-- The phase a request leaves when XPORT accepts it (R153). -/
def Request.phaseAfter (p : Phase) : Request → Phase
  | .setPhase q => q
  | .write _ => p

/-- The request of a trace item. -/
def TraceItem.requested : TraceItem → Option Request
  | .request r => some r
  | .answered _ | .resetLine _ | .powerOn => none

/-- The requests of a trace, oldest first: what XPORT sees (R96). -/
def requestsOf (trace : List TraceItem) : List Request := trace.reverse.filterMap TraceItem.requested

/-- The bytes a request carries. -/
def Request.bytes : Request → List Byte
  | .setPhase _ => []
  | .write bytes => bytes

/-- A request is a SetPhase, not a Write (R151). -/
def Request.isPhase : Request → Bool
  | .setPhase _ => true
  | .write _ => false

/-- `n` steps. -/
def stepN : Nat → State → Host.Outcome State Fault Refusal
  | 0, s => .next s
  | n + 1, s =>
    match step s with
    | .next t => stepN n t
    | .fault f => .fault f
    | .refused r => .refused r

/-! ## Pixels -/

/-- The intensity of a pixel of the raster. -/
def State.pixel (s : State) (x y : Nat) : Intensity := pixRead s.cfg s.fb x y

/-- A set of pixels is painted with one intensity, and everything else in the framebuffer is as before: the pixels of the
raster in the set have it, the others are unchanged, and so is every byte without a pixel of the set. -/
def Painted (c : Config) (fb fb' : Memory) (color : Intensity) (ink : Int → Int → Prop) : Prop :=
  (∀ x y : Nat, x < c.width → y < c.height → ink x y → pixRead c fb' x y = color) ∧
    (∀ x y : Nat, x < c.width → y < c.height → ¬ ink x y → pixRead c fb' x y = pixRead c fb x y) ∧
    ∀ a : Nat, (∀ x y : Nat, x < c.width → y < c.height → ink x y → idx c x y ≠ a) → Memory.read fb' a = Memory.read fb a

/-- Where WRITE_STRING puts ink at scale `n` with `B = 0`, the cursor at `cx` (R243 to R248): the squares of the on bits of
the located characters. -/
def TextInk (s : State) (n : Nat) : BitVec 16 → List Char16 → Int → Int → Prop
  | _, [], _, _ => False
  | cx, ch :: rest, x, y =>
    match locate ch s.ffAlpha with
    | none => TextInk s n cx rest x y
    | some j =>
      (∃ col row : Nat, col < s.ffWidth.toNat ∧ row < 8 ∧
        (s.ffData.getD (j * s.ffWidth.toNat + col) 0).getLsbD row = true ∧
        cx.toInt + col * n ≤ x ∧ x < cx.toInt + col * n + n ∧ s.cy.toInt + row * n ≤ y ∧
        y < s.cy.toInt + row * n + n) ∨
      TextInk s n (advanceCursor cx (s.ffWidth.toNat * n + n)) rest x y

/-- The characters of a text that the fixed font has (R242). -/
def located (s : State) (text : List Char16) : List Char16 := text.filter fun ch => (locate ch s.ffAlpha).isSome

/-- The characters of a text that the fixed font lacks (R249). -/
def unlocated (s : State) (text : List Char16) : List Char16 := text.filter fun ch => (locate ch s.ffAlpha).isNone

/-- `WARN_COUNT` after `n` warnings (R249). -/
def warnedBy (count : BitVec 16) (n : Nat) : BitVec 16 := BitVec.ofNat 16 (min (count.toNat + n) 0xFFFF)

/-- The characters WRITE_UNIFONT draws, each with the cursor it is drawn at and its cached glyph (R260, R263). -/
def unifontDraws (s : State) : BitVec 16 → List Char16 → List (BitVec 16 × CachedGlyph)
  | _, [] => []
  | cx, ch :: rest =>
    if cx.toInt ≥ s.cfg.width then []
    else
      match KeyMap.find ch s.cache with
      | none => []
      | some g => (cx, g) :: unifontDraws s (advanceCursor cx g.gw) rest

/-- The cursor after the drawn characters (R262). -/
def cursorAfter (cx : BitVec 16) (draws : List (BitVec 16 × CachedGlyph)) : BitVec 16 :=
  draws.foldl (fun c d => advanceCursor c d.2.gw) cx

/-- Where WRITE_UNIFONT puts ink: the on bits of the drawn glyphs (R261). -/
def UnifontInk (s : State) (draws : List (BitVec 16 × CachedGlyph)) (x y : Int) : Prop :=
  ∃ d ∈ draws, ∃ r col : Nat, ((d.2.bits.getD r []).getD col false) = true ∧ x = d.1.toInt + col ∧ y = s.cy.toInt + r

/-! ## The cells of text under bypass, in the order they are sent -/

/-- A bit cell at scale `n`: the square of `n` by `n` pixels at `(x, y)`, columns left to right, each top to bottom (R216, R244). -/
def cellSquare (x y : Int) (n : Nat) (v : Intensity) : List (Int × Int × Intensity) :=
  (List.range n).flatMap fun (i : Nat) => (List.range n).map fun (k : Nat) => (x + (i : Int), y + (k : Int), v)

/-- The cells of glyph `j` of the fixed font at `(x, y)`: columns outer, left to right, rows inner, top to bottom; an on bit in the command's
intensity, an off bit in intensity 0 (R243, R245, R248). -/
def fixedCells (s : State) (j n : Nat) (v : Intensity) (x y : Int) : List (Int × Int × Intensity) :=
  (List.range s.ffWidth.toNat).flatMap fun (col : Nat) => (List.range 8).flatMap fun (row : Nat) =>
    cellSquare (x + col * n) (y + row * n) n
      (if (s.ffData.getD (j * s.ffWidth.toNat + col) 0).getLsbD row then v else 0)

/-- The cells of a text in the fixed font at scale `n`, the cursor at `cx`: those of each located character, at the cursor that the ones before
it leave (R246, R247). -/
def textCells (s : State) (n : Nat) (v : Intensity) : BitVec 16 → List Char16 → List (Int × Int × Intensity)
  | _, [] => []
  | cx, ch :: rest =>
    match locate ch s.ffAlpha with
    | none => textCells s n v cx rest
    | some j =>
      fixedCells s j n v cx.toInt s.cy.toInt ++ textCells s n v (cx + BitVec.ofNat 16 (s.ffWidth.toNat * n + n)) rest

/-- The cells of a cached glyph at `(x, y)`: rows outer, top to bottom, columns inner, left to right, on bits only (R261). -/
def glyphCells (g : CachedGlyph) (v : Intensity) (x y : Int) : List (Int × Int × Intensity) :=
  (List.range g.gh).flatMap fun (r : Nat) => (List.range g.gw).flatMap fun (col : Nat) =>
    if (g.bits.getD r []).getD col false then [(x + (col : Int), y + (r : Int), v)] else []

/-- The cells of drawn characters, each at its cursor (R260). -/
def unifontCells (s : State) (v : Intensity) (draws : List (BitVec 16 × CachedGlyph)) : List (Int × Int × Intensity) :=
  draws.flatMap fun d => glyphCells d.2 v d.1.toInt s.cy.toInt

/-- The pixel write of a piece. -/
def Piece.plotted : Piece → Option (Int × Int × Intensity)
  | .plot x y c => some (x, y, c)
  | .effect _ | .waitIdle | .waitHold | .runSeq _ _ | .coalesce | .startSeq _ _ => none

/-- The pixel writes of a rule, in order. -/
def plotsOf (ps : List Piece) : List (Int × Int × Intensity) := ps.filterMap Piece.plotted

/-- The steps that bypass writes send, pixel by pixel; pixels off the raster send nothing (R210, R211). -/
def bypassSteps (c : Config) (fb : Memory) (ps : List (Int × Int × Intensity)) : List SeqStep :=
  ps.flatMap fun p =>
    if inBounds c p.1 p.2.1 then bypassSeq c fb p.1.toNat p.2.1.toNat p.2.2 else []

/-- The dots of one intensity at a list of points. -/
def dots (color : Intensity) (ps : List (Int × Int)) : List (Int × Int × Intensity) := ps.map fun p => (p.1, p.2, color)

/-- What the first `k` steps, accepted, and step `k`, refused, add to the trace, newest first (R155). -/
def failTrace (snap : List Byte) (steps : List SeqStep) (k : Nat) : List TraceItem :=
  (steps[k]?.toList.flatMap fun st => [.answered false, .request (st.request snap)]) ++ okTrace snap (steps.take k)

/-! ## Refusals and outcomes -/

/-- The status of the first check that fails. -/
def firstFailing : List (Bool × Status) → Option Status
  | [] => none
  | (failing, st) :: rest => if failing then some st else firstFailing rest

/-- An operand exceeds a capacity parameter (R303, check 3). -/
def tooLarge (c : Config) : Instr → Bool
  | .ffont _ fw alphabet _ =>
    decide (c.ffMaxChars < alphabet.length) || decide (c.ffMaxBytes < alphabet.length * fw.toNat)
  | .puts _ _ _ _ text | .cache _ text | .uputs _ _ _ text => decide (c.textMax < text.length)
  | .reset _ | .begin _ | .update _ | .clear _ | .contrast _ _ | .dispoff _ | .dispon _ | .teardown _ | .pixel _ _ _ _ _
  | .line _ _ _ _ _ _ _ | .rect _ _ _ _ _ _ _ | .rdpix _ _ _ | .cursor _ _ _ | .hfbegin _ | .hfglyph _ _ _ | .hfend _ => false

/-- The commands that check TransmitReady (R164). -/
def transmits : Instr → Bool
  | .update _ | .clear _ | .contrast _ _ | .dispoff _ | .dispon _ | .teardown _ => true
  | .pixel _ _ b _ _ | .line _ _ b _ _ _ _ | .rect _ _ b _ _ _ _ | .puts _ _ b _ _ | .uputs _ _ b _ => b
  | .reset _ | .begin _ | .rdpix _ _ _ | .cursor _ _ _ | .ffont _ _ _ _ | .hfbegin _ | .hfglyph _ _ _ | .hfend _ | .cache _ _ => false

/-- The command's own preconditions, in the order of R303, check 5. -/
def preconditions (s : State) : Instr → List (Bool × Status)
  | .contrast _ v => [(decide (v.toInt < 0) || decide (255 < v.toInt), .contrastRange)]
  | .rdpix _ x y => [(!inBounds s.cfg x.toInt y.toInt, .outOfBounds)]
  | .hfglyph _ cp _ =>
    [(s.hfState != .loading, .fontState), ((KeyMap.find cp s.hf).isNone && s.hf.length == s.cfg.hfMaxGlyphs, .capacity)]
  | .hfend _ => [(s.hfState != .loading, .fontState)]
  | .puts _ _ _ _ _ => [(!s.ffontValid, .fontNotLoaded)]
  | .cache _ _ => [(s.hfState != .loaded, .fontNotLoaded)]
  | .uputs _ _ _ text =>
    [(s.hfState != .loaded, .fontNotLoaded),
      (!(s.cacheValid && text.all fun ch => (KeyMap.find ch s.cache).isSome), .cacheMiss)]
  | .reset _ | .begin _ | .update _ | .clear _ | .dispoff _ | .dispon _ | .teardown _ | .pixel _ _ _ _ _ | .line _ _ _ _ _ _ _
  | .rect _ _ _ _ _ _ _ | .cursor _ _ _ | .ffont _ _ _ _ | .hfbegin _ => []

/-- The status a command is refused with, by the first of the checks 2 to 5 of R303 that fails; `none` when it executes. -/
def refusalOf (i : Instr) (s : State) : Option Status :=
  firstFailing <|
    (!i.wf, .illegalField) :: (tooLarge s.cfg i, .capacity) :: (transmits i && !s.transmitReady, .notReady) ::
      preconditions s i

/-- The statuses an executed command can end with (R304). -/
def outcomes : Instr → List Status
  | .reset _ | .rdpix _ _ _ | .cursor _ _ _ | .ffont _ _ _ _ | .hfbegin _ | .hfglyph _ _ _ | .hfend _ => [.ok]
  | .begin _ | .contrast _ _ | .dispoff _ | .dispon _ | .teardown _ => [.ok, .transportFail]
  | .update _ | .clear _ => [.ok, .okCoalesced, .transportFail]
  | .pixel _ _ b _ _ | .line _ _ b _ _ _ _ | .rect _ _ b _ _ _ _ | .uputs _ _ b _ =>
    if b then [.ok, .transportFail] else [.ok]
  | .puts _ _ b _ _ => if b then [.ok, .okMissingGlyph, .transportFail] else [.ok, .okMissingGlyph]
  | .cache _ _ => [.ok, .okMissingGlyph]

/-- The completion action that a non-blocking command leaves to SEQ (R170 to R174). -/
def completion : Instr → Option SeqDone
  | .update t => some (.update Op.update.code t)
  | .clear t => some (.update Op.clear.code t)
  | .contrast t _ => some (.contrast t)
  | .dispoff t => some (.dispOff t)
  | .dispon t => some (.dispOn t)
  | .reset _ | .begin _ | .teardown _ | .pixel _ _ _ _ _ | .line _ _ _ _ _ _ _ | .rect _ _ _ _ _ _ _ | .rdpix _ _ _ | .cursor _ _ _
  | .ffont _ _ _ _ | .puts _ _ _ _ _ | .hfbegin _ | .hfglyph _ _ _ | .hfend _ | .cache _ _ | .uputs _ _ _ _ => none

/-- A command writes `FB` (R33). -/
def writesFb : Instr → Bool
  | .begin _ | .clear _ | .dispoff _ | .teardown _ => true
  | .pixel _ _ b _ _ | .line _ _ b _ _ _ _ | .rect _ _ b _ _ _ _ | .puts _ _ b _ _ | .uputs _ _ b _ => !b
  | .reset _ | .update _ | .contrast _ _ | .dispon _ | .rdpix _ _ _ | .cursor _ _ _ | .ffont _ _ _ _ | .hfbegin _ | .hfglyph _ _ _
  | .hfend _ | .cache _ _ => false

/-- Two states agree on what a command reads and only PROC, or a host write to WARN, changes (R33, R35, R41 to R44). -/
structure SameInputs (s t : State) : Prop where
  cfg : t.cfg = s.cfg
  fb : t.fb = s.fb
  cx : t.cx = s.cx
  cy : t.cy = s.cy
  ffontValid : t.ffontValid = s.ffontValid
  ffWidth : t.ffWidth = s.ffWidth
  ffAlpha : t.ffAlpha = s.ffAlpha
  ffData : t.ffData = s.ffData
  hfState : t.hfState = s.hfState
  cacheValid : t.cacheValid = s.cacheValid
  cache : t.cache = s.cache
  warnCount : t.warnCount = s.warnCount
  lastMissing : t.lastMissing = s.lastMissing

/-- PROC holds in `WaitSeqIdle` inside a command (R157): the state is `s'` there, and PROC's turn changes nothing. Once SEQ is idle, in a state `t`
in which no update is in flight, PROC's turn does the rest of the command: what the whole command does in `t` with the framebuffer, cursor and
warnings it began with, so that what it did before the hold is not done twice. -/
def HoldsForSeq (i : Instr) (s s' : State) : Prop :=
  ∃ j, exec i s = .next (s'.hold (.job j)) ∧ procTurn (s'.hold (.job j)) = .next (s'.hold (.job j)) ∧
    ∀ t : State, t.seqBusy = false → t.inFlight = false → (transmits i = true → t.transmitReady = true) → SameInputs s' t →
      procTurn (t.hold (.job j)) =
        exec i { t with fb := s.fb, cx := s.cx, warnCount := s.warnCount, lastMissing := s.lastMissing }

/-- A command holds in a blocking RunSeq for the answer to its request (R155, R156), with nothing left on the timeline: the state is `t` there. When
the answer, SEQ's turn and PROC's turn are events of their own, the command goes on as if the answer had stood next on the timeline. A refusal: SEQ
returns `fail`, PROC does the rest. The last step accepted: SEQ returns `ok`, PROC does the rest. An earlier step accepted: SEQ issues the next
one, and PROC still holds. -/
def GoesOnWhenAnswered (i : Instr) (s t : State) : Prop :=
  (t.seqStage = .playing ∧ ∃ st, t.seqSteps[t.seqPos]? = some st ∧ t.seqPending = some (st.request t.snap)) ∧
    (∀ later, stepN 2 { t with env := .answer false :: .proc :: later } = exec i { s with env := s.env ++ .answer false :: later }) ∧
    (t.seqPos + 1 = t.seqSteps.length → ∀ later,
      stepN 3 { t with env := .answer true :: .seq :: .proc :: later } = exec i { s with env := s.env ++ .answer true :: later }) ∧
    (t.seqPos + 1 < t.seqSteps.length → ∀ later, (∀ ok, later.head? ≠ some (.answer ok)) →
      stepN 2 { t with env := .answer true :: .seq :: later } = exec i { s with env := s.env ++ .answer true :: later })

/-- A command whose blocking sequences have `n` steps in all holds for the answer to each of them (R155, R156): when the timeline ends behind the
answers to the first `k`, the requests before it being accepted, PROC holds in the run of a sequence, and no response is pushed. `before` is what the
command takes from the timeline first. -/
def HoldsForAnswers (i : Instr) (s : State) (before : List Event) (n : Nat) : Prop :=
  ∀ k : Nat, k < n →
    ∃ t j onFail, exec i { s with env := before ++ oks k } = .next t ∧ t.env = [] ∧ t.proc = .executing (.jobSeq j onFail) ∧
      t.respq = s.respq

/-! ## The invariant -/

/-- A fixed font as R41 and the capacities allow it. -/
def FontOk (c : Config) (fw : BitVec 8) (alphabet : List Char16) (data : List Byte) : Bool :=
  fw != 0 && decide (alphabet.length ≤ c.ffMaxChars) && decide (alphabet.length * fw.toNat ≤ c.ffMaxBytes) &&
    data.length == alphabet.length * fw.toNat

/-- A cache entry as R43 has it: 8 by 8 or 16 by 16. -/
def CachedGlyph.wf (g : CachedGlyph) : Bool :=
  (g.gw == 8 || g.gw == 16) && g.gh == g.gw && g.bits.length == g.gh && g.bits.all fun row => row.length == g.gw

/-- A cache as R43 and R88 have it. -/
def CacheOk (c : Config) (m : KeyMap CachedGlyph) : Bool :=
  KeyMap.wf m && decide (m.length ≤ c.textMax) && m.all fun e => e.2.wf

/-- What is known where PROC stands in a job: SEQ is idle, PROC has set IN_FLIGHT, the reset line is low. -/
structure Knows where
  idle : Bool
  flight : Bool
  low : Bool
  deriving DecidableEq, Repr

/-- A job respects the rules about the sequencer and the reset line from a point on: it starts a sequence, takes a snapshot and
sets IN_FLIGHT only when SEQ is idle (R94, R157, R170), issues no request while the reset line is low (R163, R350), clears what
it sets, and stores only fonts, glyphs and caches of the right shape. -/
def jobSafe (c : Config) : Knows → List Piece → Bool
  | k, [] => !k.flight && !k.low
  | k, .effect e :: rest =>
    match e with
    | .ctrl _ | .fill | .cursor _ _ | .cursorX _ | .cursorY _ | .advance _ | .warn _ | .countWarning | .lastMissing _ | .hfBegin | .hfEnd =>
      jobSafe c k rest
    | .inFlight b => k.idle && jobSafe c { k with flight := b } rest
    | .resetOut high => k.idle && jobSafe c { k with low := !high } rest
    | .snapshot => k.idle && jobSafe c k rest
    | .font fw alphabet data => FontOk c fw alphabet data && jobSafe c k rest
    | .hfGlyph _ g => g.wf && jobSafe c k rest
    | .install m => CacheOk c m && jobSafe c k rest
  | k, .plot _ _ _ :: rest => !k.flight && !k.low && jobSafe c k rest
  | k, .waitIdle :: rest => jobSafe c { k with idle := true } rest
  | k, .waitHold :: rest => k.idle && k.low && jobSafe c k rest
  | k, .runSeq _ onFail :: rest =>
    k.idle && !k.low && onFail.all (fun e => match e with | .ctrl _ | .inFlight false => true | _ => false) &&
      (!k.flight || onFail.contains (.inFlight false)) && jobSafe c k rest
  | k, .coalesce :: rest => !k.flight && !k.low && jobSafe c k rest
  | k, .startSeq _ done :: _ =>
    k.idle && !k.low && match done with
      | .update _ _ => k.flight
      | .contrast _ | .dispOff _ | .dispOn _ => !k.flight
      | .toProc => false

/-- A glyph that is about to be stored has a place in the map (R251). -/
def glyphRoom (s : State) (todo : List Piece) : Bool :=
  todo.all fun p =>
    match p with
    | .effect (.hfGlyph cp _) =>
      todo.length == 1 && ((KeyMap.find cp s.hf).isSome || decide (s.hf.length < s.cfg.hfMaxGlyphs))
    | _ => true

/-- What is known where PROC stands. -/
def Hold.safe (s : State) (k : Knows) : Hold → Prop
  | .start _ | .push _ | .leaving => k = ⟨false, false, false⟩
  | .job j => jobSafe s.cfg k j.todo = true ∧ glyphRoom s j.todo = true
  | .jobTimer j =>
    k.idle = true ∧ k.low = true ∧ jobSafe s.cfg k j.todo = true ∧ glyphRoom s j.todo = true
  | .jobSeq j onFail =>
    k.idle = false ∧ k.low = false ∧ jobSafe s.cfg { k with idle := true } j.todo = true ∧
      glyphRoom s j.todo = true ∧ jobSafe s.cfg { k with idle := true } (onFail.map .effect) = true ∧
      glyphRoom s (onFail.map .effect) = true

/-- What is known of PROC: a collected prefix is a proper one (R46). -/
def Proc.safe (s : State) (k : Knows) : Proc → Prop
  | .idle => k = ⟨false, false, false⟩
  | .collecting ws => k = ⟨false, false, false⟩ ∧ ws ≠ [] ∧ decode ws = .incomplete
  | .executing h => h.safe s k

/-- The sequencer's registers fit its stage (R38, R155, R156). -/
def SeqOk (s : State) : Prop :=
  match s.seqStage with
  | .idle => s.seqSteps = [] ∧ s.seqPos = 0 ∧ s.seqDone = none ∧ s.seqPending = none
  | .playing =>
    s.seqDone.isSome = true ∧ s.seqPos ≤ s.seqSteps.length ∧
      ∀ r, s.seqPending = some r → ∃ st, s.seqSteps[s.seqPos]? = some st ∧ r = st.request s.snap
  | .returned _ => s.seqDone.isSome = true ∧ s.seqPending = none
  | .pushing _ | .pushed => s.seqDone.isSome = true ∧ s.seqDone ≠ some .toProc ∧ s.seqPending = none

/-- A sequence whose end clears IN_FLIGHT is running (R37, R170). -/
def State.updateRunning (s : State) : Bool :=
  match s.seqStage, s.seqDone with
  | .playing, some (.update _ _) | .returned _, some (.update _ _) => true
  | _, _ => false

/-- PROC waits for the running sequence (R156). -/
def State.procWaits (s : State) : Bool :=
  match s.proc with
  | .executing (.jobSeq _ _) => true
  | .executing (.start _) | .executing (.job _) | .executing (.jobTimer _) | .executing (.push _)
  | .executing .leaving | .idle | .collecting _ => false

/-- The reset line is low after a trace, newest item first. -/
def traceLow : List TraceItem → Bool
  | [] => false
  | .resetLine high :: _ => !high
  | .powerOn :: _ => false
  | .request _ :: rest | .answered _ :: rest => traceLow rest

/-- No request of a trace was issued while the reset line was low (R163, R350). -/
def traceQuiet : List TraceItem → Bool
  | [] => true
  | .request _ :: rest => !traceLow rest && traceQuiet rest
  | .resetLine _ :: rest | .powerOn :: rest | .answered _ :: rest => traceQuiet rest

/-- The memories and queues are in canonical form and within their sizes (R33, R41 to R45, R49). -/
structure DataOk (s : State) : Prop where
  cfg_ok : s.cfg.Ok
  fb_wf : Memory.wf s.fb = true
  fb_below : Memory.below s.cfg.fbSize s.fb = true
  cmdq_le : s.cmdq.length ≤ s.cfg.cmdFifoDepth
  held_full : s.busWrite.isSome = true → s.cmdq.length = s.cfg.cmdFifoDepth
  respq_le : s.respq.length ≤ s.cfg.respFifoDepth
  hf_wf : KeyMap.wf s.hf = true
  hf_le : s.hf.length ≤ s.cfg.hfMaxGlyphs
  hf_glyphs : ∀ e ∈ s.hf, e.2.wf = true
  cache_ok : CacheOk s.cfg s.cache = true
  font_ok : s.ffontValid = true → FontOk s.cfg s.ffWidth s.ffAlpha s.ffData = true

/-- PROC and SEQ fit together: one sequence at a time (R157), IN_FLIGHT exactly while an update sequence of PROC or SEQ is
under way (R37), the reset line low exactly in a reset pulse, and no request then (R163). -/
structure AgentsOk (s : State) (k : Knows) : Prop where
  seq_ok : SeqOk s
  proc_ok : s.proc.safe s k
  idle_ok : k.idle = true → s.seqStage = .idle
  low_idle : k.low = true → k.idle = true
  wait_ok : s.procWaits = true ↔ s.seqDone = some .toProc
  flight_ok : s.inFlight = (s.updateRunning || k.flight)
  once_ok : (s.updateRunning && k.flight) = false
  line_ok : s.resetOut = !k.low
  low_ok : traceLow s.trace = k.low
  quiet_ok : traceQuiet s.trace = true

/-- The invariant. -/
def Inv (s : State) : Prop := DataOk s ∧ ∃ k, AgentsOk s k

end Sys2Proof.Machine
end

