-- ==== Sys2Proof/Certificates/Slice0/Obligations.lean ====
section
/-! DEFINITION. The statements for the provers. Each docstring names the rule of spec/ it formalises. A state is any state, reached by a run or
not; `s.respq.length < s.cfg.respFifoDepth` says that the response FIFO has room. A premise on `s.env` says what comes next on the model's
timeline: whose turn it is, what XPORT answers, that TIMER reports (notes/assumptions/6.md, 7.md, 8.md). -/

section

open Sys2Proof Sys2Proof.Machine

/-! ## Reset -/

/-- R63, R340: a power-on reset gives every piece of block state its reset value, whatever the state before and whatever bytes `FB` then
holds; a pending request is never answered. -/
def Obligations.PowerOnReset : Prop :=
  ∀ (s : State) (fb : List Byte) (later : List Event),
    s.cfg.Ok → fb.length = s.cfg.fbSize → s.env = .powerOn fb :: later →
    ∃ t, step s = .next t ∧ t.cfg = s.cfg ∧ (∀ a : Nat, a < s.cfg.fbSize → Memory.read t.fb a = fb.getD a 0) ∧
      t.cx = 0 ∧ t.cy = 0 ∧ t.ctrl = .uninit ∧ t.inFlight = false ∧ t.seqBusy = false ∧ t.seqSteps = [] ∧ t.seqPos = 0 ∧
      t.seqDone = none ∧ t.snap = [] ∧ t.seqPending = none ∧ t.phase = .command ∧ t.resetOut = true ∧
      t.ffontValid = false ∧ t.hfState = .empty ∧ t.hf = [] ∧ t.cacheValid = false ∧ t.cache = [] ∧
      t.warnCount = 0 ∧ t.lastMissing = 0 ∧ t.cmdq = [] ∧ t.respq = [] ∧ t.proc = .idle ∧ t.respIE = false ∧
      t.env = later ∧ ∀ ok, t.answer ok = t

/-- R63: the reset state has the values the spec gives (what `FB`, `FW`, `ALPHA` and `FDATA` hold there is the model's choice,
notes/assumptions/4.md and 5.md, and is not stated). -/
def Obligations.ResetState : Prop :=
  State.reset.cx = 0 ∧ State.reset.cy = 0 ∧ State.reset.ctrl = .uninit ∧ State.reset.inFlight = false ∧
    State.reset.seqIdle ∧ State.reset.snap = [] ∧ State.reset.phase = .command ∧ State.reset.resetOut = true ∧
    State.reset.ffontValid = false ∧ State.reset.hfState = .empty ∧ State.reset.hf = [] ∧ State.reset.cacheValid = false ∧
    State.reset.cache = [] ∧ State.reset.warnCount = 0 ∧ State.reset.lastMissing = 0 ∧ State.reset.cmdq = [] ∧
    State.reset.respq = [] ∧ State.reset.proc = .idle ∧ State.reset.respIE = false

/-- The invariant holds at reset. -/
def Obligations.InvariantAtReset : Prop := Inv State.reset

/-- The invariant is kept by every step: memories in canonical form and within their sizes (R33, R41 to R45), SEQ's registers in order and
one sequence at a time (R38, R157), IN_FLIGHT exactly while an update sequence is under way (R37), the reset line low exactly inside a
reset pulse, with no request issued then (R163). -/
def Obligations.InvariantKept : Prop := ∀ s s' : State, Inv s → step s = .next s' → Inv s'

/-! ## Encoding, fetch and decode -/

/-- R118, R131: the decoder reads back every well-formed command from its words, whatever words follow. -/
def Obligations.DecodeOfEncode : Prop :=
  ∀ (i : Instr) (rest : List Word), i.wf = true → decode (encode i ++ rest) = .command i (encode i).length

/-- R131, R139: where the encoding has no padding, the words of a decoded command are the words of its fields: no bit is read twice
or dropped. -/
def Obligations.EncodeOfDecode : Prop :=
  ∀ (ws : List Word) (i : Instr) (n : Nat), decode ws = .command i n →
    i.op ≠ .ffont → i.op ≠ .puts → i.op ≠ .cache → i.op ≠ .uputs → i.wf = true ∧ n ≤ ws.length ∧ encode i = ws.take n

/-- R111, R139: words written out from the encoding, and what they decode to. -/
def Obligations.DecodedWords : Prop :=
  decode [0x10900500, 0x00010003] = .command (.pixel 5 9 false 3 1) 2 ∧
    decode [0x05000000, 0x00000080] = .command (.contrast 0 128) 2 ∧
    decode [0x11F10700, 0x00020001, 0xFFFF0004] = .command (.line 7 15 true 1 2 4 0xFFFF) 3 ∧
    decode [0x20000000, 0x00020001, 0x00420041, 0x0000010F] = .command (.ffont 0 1 [0x41, 0x42] [0x0F, 0x01]) 4 ∧
    decode [0x21F00001, 0x00000003, 0x00780041, 0x00000042] = .command (.puts 0 15 false 1 [0x41, 0x78, 0x42]) 4 ∧
    decode [0x29000000, 0x00000041, 0x7E422418, 0x00004242] =
      .command (.hfglyph 0 0x41 (.g8 [0x18, 0x24, 0x42, 0x7E, 0x42, 0x42, 0, 0])) 4 ∧
    decode [0x03000001] = .illegalField 3 0 1 ∧ decode [0x00000000] = .illegalOpcode 0 0

/-- A step of PROC runs the decoded command: when the words PROC has and the words in its queue make a command, PROC's step
pops them and is the command's meaning (R46, R135; MODEL: the turn is PROC's, notes/assumptions/6.md). -/
def Obligations.StepRunsDecoded : Prop :=
  ∀ (s : State) (later : List Event) (i : Instr) (n : Nat) (rest : List Word),
    s.cfg.Ok → s.env = .proc :: later → (∀ h, s.proc ≠ .executing h) →
    fetchWords s.collected s.queue = .complete (.command i n) rest →
    step s = exec i ({ s with env := later }.popTo rest)

/-- R32, R46, R131: PROC, in IDLE or COLLECTING with a proper prefix of the command popped, fetches a well-formed command from `CMDQ` by its whole
length and carries it out; the words behind it stay. -/
def Obligations.StepRunsEncoded : Prop :=
  ∀ (s : State) (later : List Event) (i : Instr) (rest : List Word),
    s.cfg.Ok → s.env = .proc :: later → (∀ h, s.proc ≠ .executing h) → s.busWrite = none → i.wf = true →
    s.collected ++ s.cmdq = encode i ++ rest → s.collected.length < (encode i).length →
    step s = exec i { s with env := later, cmdq := rest }

/-- R46, R307: while the words PROC has are no whole command, PROC collects them and no response is pushed; nothing else
changes. -/
def Obligations.PartialCommandCollected : Prop :=
  ∀ (s : State) (later : List Event) (i : Instr) (k : Nat),
    s.cfg.Ok → s.env = .proc :: later → s.proc = .idle → s.busWrite = none → i.wf = true →
    0 < k → k < (encode i).length → s.cmdq = (encode i).take k →
    step s = .next { s with env := later, cmdq := [], proc := .collecting ((encode i).take k) }

/-- R132, R133: which `OP` values are unassigned, and that such a header is consumed alone and answered ILLEGAL_OPCODE with its own
`OP` and `TAG`, with no other effect. -/
def Obligations.UnassignedOpcode : Prop :=
  ∀ (s : State) (later : List Event) (h : Word) (rest : List Word),
    s.cfg.Ok → s.env = .proc :: later → s.proc = .idle → s.busWrite = none → s.cmdq = h :: rest →
    s.respq.length < s.cfg.respFifoDepth →
    (hOp h = 0 ∨ (0x09 ≤ (hOp h).toNat ∧ (hOp h).toNat ≤ 0x0F) ∨ (0x15 ≤ (hOp h).toNat ∧ (hOp h).toNat ≤ 0x1F) ∨
      (0x22 ≤ (hOp h).toNat ∧ (hOp h).toNat ≤ 0x27) ∨ 0x2D ≤ (hOp h).toNat) →
    step s = .next { s with
      env := later, cmdq := rest
      respq := s.respq ++ [{ op := hOp h, tag := hTag h, status := .illegalOpcode, result := 0 }] }

/-- R119: an ill-formed command is consumed whole, with the length of R131, and has no effect but its ILLEGAL_FIELD response. -/
def Obligations.IllFormedCommand : Prop :=
  ∀ (s : State) (later : List Event) (o : Op) (h : Word) (ops rest : List Word),
    s.cfg.Ok → s.env = .proc :: later → s.proc = .idle → s.busWrite = none → s.cmdq = h :: ops ++ rest →
    s.respq.length < s.cfg.respFifoDepth → hOp h = o.code → ops.length + 1 = commandLength o h (ops.getD 0 0) →
    (hRsv h ≠ 0 ∨ (o.drawing = false ∧ (hColor h ≠ 0 ∨ hBypass h = true)) ∨
      (o ≠ .puts ∧ o ≠ .hfglyph ∧ hArg h ≠ 0) ∨ (o = .puts ∧ hArg h = 0) ∨
      (o = .hfglyph ∧ (hArg h).extractLsb' 1 7 ≠ 0) ∨
      ((o = .puts ∨ o = .cache ∨ o = .uputs ∨ o = .hfglyph) ∧ highHalf (ops.getD 0 0) ≠ 0) ∨
      (o = .ffont ∧ (byteOf (ops.getD 0 0) 1 ≠ 0 ∨ byteOf (ops.getD 0 0) 0 = 0))) →
    step s = .next { s with
      env := later, cmdq := rest
      respq := s.respq ++ [{ op := hOp h, tag := hTag h, status := .illegalField, result := 0 }] }

/-! ## Refusals and responses -/

/-- R303, R309: a refused command reports the first failing check of R303 and changes nothing but `RESPQ`. -/
def Obligations.RefusalsInOrder : Prop :=
  ∀ (i : Instr) (s : State) (st : Status), s.respq.length < s.cfg.respFifoDepth → refusalOf i s = some st →
    exec i s = .next (s.done i.op i.tag st 0)

/-- R304, R305, R307: what a command does to `RESPQ`. It appends one record, with its own OP and TAG and a status that R304
gives it; or it has not answered yet, and then PROC is inside it or SEQ has its completion action. -/
def Obligations.OneResponse : Prop :=
  ∀ (i : Instr) (s t : State), exec i s = .next t →
    (∃ r, t.respq = s.respq ++ [r] ∧ t.proc = .idle ∧ r.op = i.op.code ∧ r.tag = i.tag ∧
        (refusalOf i s = some r.status ∨ (refusalOf i s = none ∧ r.status ∈ outcomes i))) ∨
      (t.respq = s.respq ∧ ((∃ h, t.proc = .executing h) ∨ (completion i).isSome = true ∧ t.seqDone = completion i))

/-- R308: a push onto a full `RESPQ` holds PROC, or SEQ with `SEQ_BUSY` 1, and nothing is dropped or overwritten; after the host pops
a record the push goes on. What SEQ's registers hold then (`releaseSeq`) is the
model's choice (notes/assumptions/13.md). -/
def Obligations.FullResponseQueue : Prop :=
  (∀ (s : State) (op tag : Byte) (st : Status) (v : Nat), s.cfg.respFifoDepth ≤ s.respq.length →
      s.respond op tag st v = s.hold (.push { op := op, tag := tag, status := st, result := BitVec.ofNat 32 v })) ∧
    (∀ (s : State) (r : Resp), s.cfg.respFifoDepth ≤ s.respq.length →
      procTurn (s.hold (.push r)) = .next (s.hold (.push r)) ∧
        seqTurn { s with seqStage := .pushing r } = { s with seqStage := .pushing r } ∧
        State.seqBusy { s with seqStage := .pushing r } = true) ∧
    ∀ (s : State) (r : Resp), s.respq.length < s.cfg.respFifoDepth →
      procTurn (s.hold (.push r)) = .next { s with respq := s.respq ++ [r], proc := .idle } ∧
        seqTurn { s with seqStage := .pushing r } = { s.releaseSeq with respq := s.respq ++ [r] }

/-- R31, R33, R35, R37 to R44, R64: which state a command can write, also while it holds: the frame of every command. `CMDQ`, the held bus write and
`RESP_IE` are never written. `IN_FLIGHT` and `SNAP` only by the commands that send a frame; SEQ's registers, `PHASE` and the requests to XPORT only by
those that transmit. -/
def Obligations.WhoWritesWhat : Prop :=
  ∀ (i : Instr) (s t : State), exec i s = .next t →
    (t.cfg = s.cfg ∧ t.cmdq = s.cmdq ∧ t.busWrite = s.busWrite ∧ t.respIE = s.respIE ∧ t.busRead = s.busRead) ∧
      (writesFb i = false → t.fb = s.fb) ∧
      (i.op ≠ .cursor → t.cy = s.cy) ∧
      (i.op ≠ .cursor → i.op ≠ .puts → i.op ≠ .uputs → t.cx = s.cx) ∧
      (i.op ≠ .ffont →
        t.ffontValid = s.ffontValid ∧ t.ffWidth = s.ffWidth ∧ t.ffAlpha = s.ffAlpha ∧ t.ffData = s.ffData) ∧
      (i.op ≠ .hfbegin → i.op ≠ .hfglyph → t.hf = s.hf) ∧
      (i.op ≠ .hfbegin → i.op ≠ .hfend → t.hfState = s.hfState) ∧
      (i.op ≠ .cache → t.cacheValid = s.cacheValid ∧ t.cache = s.cache) ∧
      (i.op ≠ .puts → i.op ≠ .cache → t.warnCount = s.warnCount ∧ t.lastMissing = s.lastMissing) ∧
      (i.op ≠ .reset → i.op ≠ .begin → t.resetOut = s.resetOut) ∧
      (i.op ≠ .reset → i.op ≠ .begin → i.op ≠ .teardown → t.ctrl = s.ctrl) ∧
      (i.op ≠ .begin → i.op ≠ .update → i.op ≠ .clear → i.op ≠ .teardown → t.inFlight = s.inFlight ∧ t.snap = s.snap) ∧
      (i.op ≠ .begin → transmits i = false →
        t.phase = s.phase ∧ t.seqStage = s.seqStage ∧ t.seqSteps = s.seqSteps ∧ t.seqPos = s.seqPos ∧ t.seqDone = s.seqDone ∧
          t.seqPending = s.seqPending ∧ requestsOf t.trace = requestsOf s.trace ∧
          (i.op ≠ .reset → t.trace = s.trace ∧ t.env = s.env))

/-! ## Pixels, lines, rectangles, the pixel read and the cursor -/

/-- R81: `idx` maps the pixel pairs of the raster one to one onto the bytes of the framebuffer. -/
def Obligations.PixelIndexBijection : Prop :=
  ∀ c : Config, c.Ok →
    (∀ x y : Nat, x < c.width → y < c.height → idx c x y < c.fbSize) ∧
      ∀ a : Nat, a < c.fbSize →
        ∃ k y : Nat, 2 * k + 1 < c.width ∧ y < c.height ∧ idx c (2 * k) y = a ∧ idx c (2 * k + 1) y = a ∧
          ∀ k' y' : Nat, 2 * k' + 1 < c.width → y' < c.height → idx c (2 * k') y' = a → k' = k ∧ y' = y

/-- R82, R83: a pixel store sets the nibble of its pixel, high for an even column and low for an odd one, and leaves every other
pixel and every other byte. -/
def Obligations.PixelStore : Prop :=
  ∀ (c : Config) (fb : Memory) (x y : Nat) (v : Intensity),
    c.Ok → Memory.wf fb = true → x < c.width → y < c.height →
    pixRead c (pixStore c fb x y v) x y = v ∧
      (∀ x' y' : Nat, x' < c.width → y' < c.height → ¬ (x' = x ∧ y' = y) →
        pixRead c (pixStore c fb x y v) x' y' = pixRead c fb x' y') ∧
      (∀ a : Nat, a ≠ idx c x y → Memory.read (pixStore c fb x y v) a = Memory.read fb a) ∧
      (if x % 2 = 0 then
        (Memory.read (pixStore c fb x y v) (idx c x y)).extractLsb' 4 4 = v ∧
          (Memory.read (pixStore c fb x y v) (idx c x y)).extractLsb' 0 4 = (Memory.read fb (idx c x y)).extractLsb' 0 4
      else
        (Memory.read (pixStore c fb x y v) (idx c x y)).extractLsb' 0 4 = v ∧
          (Memory.read (pixStore c fb x y v) (idx c x y)).extractLsb' 4 4 = (Memory.read fb (idx c x y)).extractLsb' 4 4)

/-- R210, R212: DRAW_PIXEL without bypass writes its pixel, or drops it silently when it is off the raster; legal in every
`CTRL_STATE`. -/
def Obligations.DrawPixel : Prop :=
  ∀ (s : State) (tag : Byte) (v : Intensity) (x y : BitVec 16), s.respq.length < s.cfg.respFifoDepth →
    exec (.pixel tag v false x y) s =
      .next (State.done .pixel tag .ok 0
        (if 0 ≤ x.toInt ∧ x.toInt < s.cfg.width ∧ 0 ≤ y.toInt ∧ y.toInt < s.cfg.height then
          { s with fb := pixStore s.cfg s.fb x.toInt.toNat y.toInt.toNat v }
        else s))

/-- R213, R215: DRAW_LINE without bypass paints exactly the pixels of the Bresenham line that lie on the raster. -/
def Obligations.DrawLine : Prop :=
  ∀ (s : State) (tag : Byte) (v : Intensity) (x0 y0 x1 y1 : BitVec 16),
    s.cfg.Ok → Memory.wf s.fb = true → s.respq.length < s.cfg.respFifoDepth →
    ∃ fb', exec (.line tag v false x0 y0 x1 y1) s = .next (State.done .line tag .ok 0 { s with fb := fb' }) ∧
      Painted s.cfg s.fb fb' v fun x y => (x, y) ∈ linePoints x0.toInt y0.toInt x1.toInt y1.toInt

/-- R213, R214: the line has `max(dx, dy) + 1` pixels, all different, from the start to the end; each step moves by one along the major axis, and by one
or not along the other. Along the other axis point `k` stands within half a pixel of the line through the two ends, and where two pixels are equally
near it stands on the one nearer the start: what the initial error term of R213, its truncation and its two comparisons give (the comparisons with
`e2` are what the spec marks as its own general knowledge, notes/assumptions/19.md). -/
def Obligations.LineProperties : Prop :=
  ∀ x0 y0 x1 y1 : Int,
    (linePoints x0 y0 x1 y1).length = max (x1 - x0).natAbs (y1 - y0).natAbs + 1 ∧
      (linePoints x0 y0 x1 y1).head? = some (x0, y0) ∧ (linePoints x0 y0 x1 y1).getLast? = some (x1, y1) ∧
      (linePoints x0 y0 x1 y1).Nodup ∧
      (∀ (k : Nat) (p q : Int × Int), (linePoints x0 y0 x1 y1)[k]? = some p → (linePoints x0 y0 x1 y1)[k + 1]? = some q →
        (q.1 = p.1 ∨ q.1 = p.1 + (if x0 < x1 then 1 else -1)) ∧ (q.2 = p.2 ∨ q.2 = p.2 + (if y0 < y1 then 1 else -1)) ∧
          (if (y1 - y0).natAbs ≤ (x1 - x0).natAbs then q.1 = p.1 + (if x0 < x1 then 1 else -1)
          else q.2 = p.2 + (if y0 < y1 then 1 else -1))) ∧
      ∀ (k : Nat) (p : Int × Int) (sx sy dx dy : Int),
        (linePoints x0 y0 x1 y1)[k]? = some p → sx = (if x0 < x1 then 1 else -1) → sy = (if y0 < y1 then 1 else -1) →
        dx = (x1 - x0).natAbs → dy = (y1 - y0).natAbs →
        (dy ≤ dx → ∃ m : Int, p = (x0 + sx * k, y0 + sy * m) ∧
          2 * (k * dy - m * dx) ≤ dx ∧ (0 < dx → -dx < 2 * (k * dy - m * dx))) ∧
          (dx < dy → ∃ m : Int, p = (x0 + sx * m, y0 + sy * k) ∧
            2 * (k * dx - m * dy) ≤ dy ∧ -dy < 2 * (k * dx - m * dy))

/-- R216, R217: FILL_RECT without bypass paints exactly the pixels of `[x, x+w) × [y, y+h)` that lie on the raster; its touch order is
columns left to right, each top to bottom. -/
def Obligations.FillRect : Prop :=
  (∀ (s : State) (tag : Byte) (v : Intensity) (x y w h : BitVec 16),
      s.cfg.Ok → Memory.wf s.fb = true → s.respq.length < s.cfg.respFifoDepth →
      ∃ fb', exec (.rect tag v false x y w h) s = .next (State.done .rect tag .ok 0 { s with fb := fb' }) ∧
        Painted s.cfg s.fb fb' v fun px py =>
          x.toInt ≤ px ∧ px < x.toInt + w.toNat ∧ y.toInt ≤ py ∧ py < y.toInt + h.toNat) ∧
    ∀ (x y : Int) (w h : Nat),
      rectPoints x y w h =
        (List.range w).flatMap fun (i : Nat) => (List.range h).map fun (j : Nat) => (x + (i : Int), y + (j : Int))

/-- R218: READ_PIXEL returns the pixel of `FB`, or refuses a pixel off the raster; it changes nothing else. -/
def Obligations.ReadPixel : Prop :=
  ∀ (s : State) (tag : Byte) (x y : BitVec 16), s.respq.length < s.cfg.respFifoDepth →
    exec (.rdpix tag x y) s =
      if 0 ≤ x.toInt ∧ x.toInt < s.cfg.width ∧ 0 ≤ y.toInt ∧ y.toInt < s.cfg.height then
        .next (s.done .rdpix tag .ok ((pixRead s.cfg s.fb x.toInt.toNat y.toInt.toNat).setWidth 32))
      else .next (s.done .rdpix tag .outOfBounds 0)

/-- R219: SET_CURSOR sets the cursor to any 16-bit values. -/
def Obligations.SetCursor : Prop :=
  ∀ (s : State) (tag : Byte) (x y : BitVec 16), s.respq.length < s.cfg.respFifoDepth →
    exec (.cursor tag x y) s = .next (State.done .cursor tag .ok 0 { s with cx := x, cy := y })

/-! ## Bypass -/

/-- R211, R220: the drawing commands under bypass, XPORT accepting every step. For each pixel on the raster, in visiting order, its
14 steps reach XPORT; `FB` is not written. -/
def Obligations.BypassDrawing : Prop :=
  ∀ (s : State) (tag : Byte) (v : Intensity) (later : List Event) (i : Instr) (ps : List (Int × Int)),
    s.respq.length < s.cfg.respFifoDepth → s.transmitReady = true → s.seqIdle →
    ((∃ x y, i = .pixel tag v true x y ∧ ps = [(x.toInt, y.toInt)]) ∨
      (∃ x0 y0 x1 y1, i = .line tag v true x0 y0 x1 y1 ∧ ps = linePoints x0.toInt y0.toInt x1.toInt y1.toInt) ∨
      ∃ x y w h, i = .rect tag v true x y w h ∧ ps = rectPoints x.toInt y.toInt w.toNat h.toNat) →
    s.env = oks (bypassSteps s.cfg s.fb (dots v ps)).length ++ later →
    exec i s = .next (State.done i.op tag .ok 0 { s with
      env := later, phase := phaseAfter s.phase (bypassSteps s.cfg s.fb (dots v ps))
      trace := okTrace s.snap (bypassSteps s.cfg s.fb (dots v ps)) ++ s.trace })

/-- R220, R155: the first step that XPORT refuses ends DRAW_PIXEL, DRAW_LINE or FILL_RECT under bypass: nothing more is sent, what was sent stays, and
the command answers TRANSPORT_FAIL (the text commands: `TextBypassFailure`). -/
def Obligations.BypassFailure : Prop :=
  ∀ (s : State) (tag : Byte) (v : Intensity) (later : List Event) (i : Instr) (ps : List (Int × Int)) (k : Nat),
    s.respq.length < s.cfg.respFifoDepth → s.transmitReady = true → s.seqIdle →
    ((∃ x y, i = .pixel tag v true x y ∧ ps = [(x.toInt, y.toInt)]) ∨
      (∃ x0 y0 x1 y1, i = .line tag v true x0 y0 x1 y1 ∧ ps = linePoints x0.toInt y0.toInt x1.toInt y1.toInt) ∨
      ∃ x y w h, i = .rect tag v true x y w h ∧ ps = rectPoints x.toInt y.toInt w.toNat h.toNat) →
    k < (bypassSteps s.cfg s.fb (dots v ps)).length → s.env = oks k ++ .answer false :: later →
    exec i s = .next (State.done i.op tag .transportFail 0 { s with
      env := later, phase := phaseAfter s.phase ((bypassSteps s.cfg s.fb (dots v ps)).take k)
      trace := failTrace s.snap (bypassSteps s.cfg s.fb (dots v ps)) k ++ s.trace })

/-- R84, R211: the steps of one bypass pixel: its column group's address, its row, and the group's two bytes with the pixel's
nibble replaced. -/
def Obligations.BypassPixelSteps : Prop :=
  ∀ (c : Config) (fb : Memory) (x y : Nat) (v : Intensity), c.Ok → x < c.width → y < c.height →
    ∃ g0 g1 : Byte,
      bypassSeq c fb x y v =
          [.enterCmd, .tx [c.panel.setColumn], .enterData, .tx [BitVec.ofNat 8 (28 + x / 4)], .tx [BitVec.ofNat 8 (28 + x / 4)],
            .enterCmd, .tx [c.panel.setRow], .enterData, .tx [BitVec.ofNat 8 y], .tx [BitVec.ofNat 8 y],
            .enterCmd, .tx [c.panel.writeRam], .enterData, .tx [g0, g1]] ∧
        (∀ j : Nat, j < 4 →
          nibbleOf (if j < 2 then g0 else g1) j = if j = x % 4 then v else pixRead c fb (4 * (x / 4) + j) y)

/-! ## The sequencer -/

/-- R152 to R156: at any place of a sequence SEQ's turn plays the steps that are left in order, each after the one before was accepted, and the phase
follows; at the first refused step it returns `fail` and issues no further step; without an answer the next request stands and SEQ waits. An answer
that is an event of its own ends the request: `ok` moves SEQ to the next step, with the phase that a phase request asked for, any failure returns
`fail`. A command that holds in a blocking RunSeq goes on with later answers as with answers that stand next (`GoesOnWhenAnswered`), and the commands
that play blocking sequences do hold for each answer (`HoldsForAnswers`). The timeline, the answers as events of it, TIMER's report that ends BEGIN's
reset hold at once, and SEQ's fine turn are the model's choice (notes/assumptions/6.md, 7.md, 8.md, 9.md). -/
def Obligations.SequencePlays : Prop :=
  (∀ (s : State) (later : List Event) (e : Event) (steps : List SeqStep),
      s.cfg.Ok → s.seqStage = .playing → s.seqPending = none → s.seqPos ≤ s.seqSteps.length → steps = s.seqSteps.drop s.seqPos →
      (e = .seq ∨ e = .seqFine) →
      (s.env = e :: (oks steps.length ++ later) →
        step s = .next { s with
          env := later, seqStage := .returned true, seqPos := s.seqSteps.length
          phase := phaseAfter s.phase steps, trace := okTrace s.snap steps ++ s.trace }) ∧
      (∀ k : Nat, k < steps.length → s.env = e :: (oks k ++ .answer false :: later) →
        step s = .next { s with
          env := later, seqStage := .returned false, seqPos := s.seqPos + k
          phase := phaseAfter s.phase (steps.take k), trace := failTrace s.snap steps k ++ s.trace }) ∧
      ∀ (k : Nat) (st : SeqStep), steps[k]? = some st → s.env = e :: (oks k ++ later) → (∀ ok, later.head? ≠ some (.answer ok)) →
        step s = .next { s with
          env := later, seqPos := s.seqPos + k, seqPending := some (st.request s.snap), phase := phaseAfter s.phase (steps.take k)
          trace := .request (st.request s.snap) :: (okTrace s.snap (steps.take k) ++ s.trace) }) ∧
    (∀ (s : State) (later : List Event) (r : Request), s.cfg.Ok → s.seqPending = some r →
      (s.env = .answer true :: later →
        step s = .next { s with
          env := later, seqPending := none, seqPos := s.seqPos + 1, trace := .answered true :: s.trace
          phase := match r with | .setPhase p => p | .write _ => s.phase }) ∧
      (s.env = .answer false :: later →
        step s = .next { s with
          env := later, seqPending := none, seqStage := .returned false, trace := .answered false :: s.trace })) ∧
    (∀ (i : Instr) (s t : State) (j : Job) (onFail : List Effect), s.cfg.Ok → exec i s = .next t → t.env = [] →
      t.proc = .executing (.jobSeq j onFail) → GoesOnWhenAnswered i s t) ∧
    (∀ (s : State) (tag : Byte), s.seqIdle →
      HoldsForAnswers (.begin tag) s [.timer] ((initSeq s.cfg).length + (updateSeq s.cfg).length) ∧
        (s.transmitReady = true → HoldsForAnswers (.teardown tag) s [] 16)) ∧
    ∀ (s : State) (tag : Byte) (v : Intensity), Inv s → s.transmitReady = true → s.seqIdle →
      (∀ x y : BitVec 16,
        HoldsForAnswers (.pixel tag v true x y) s [] (bypassSteps s.cfg s.fb (dots v [(x.toInt, y.toInt)])).length) ∧
      (∀ x0 y0 x1 y1 : BitVec 16,
        HoldsForAnswers (.line tag v true x0 y0 x1 y1) s []
          (bypassSteps s.cfg s.fb (dots v (linePoints x0.toInt y0.toInt x1.toInt y1.toInt))).length) ∧
      (∀ x y w h : BitVec 16,
        HoldsForAnswers (.rect tag v true x y w h) s []
          (bypassSteps s.cfg s.fb (dots v (rectPoints x.toInt y.toInt w.toNat h.toNat))).length) ∧
      ∀ text : List Char16, text.length < 65536 → text.length ≤ s.cfg.textMax →
        (∀ size : BitVec 8, size ≠ 0 → s.ffontValid = true →
          HoldsForAnswers (.puts tag v true size text) s []
            (bypassSteps s.cfg s.fb (textCells s size.toNat v s.cx text)).length) ∧
        (s.hfState = .loaded → s.cacheValid = true → (∀ ch ∈ text, (KeyMap.find ch s.cache).isSome = true) →
          HoldsForAnswers (.uputs tag v true text) s []
            (bypassSteps s.cfg s.fb (unifontCells s v (unifontDraws s s.cx text))).length)

/-- R156, R170 to R174, R178, R308: what each completion action does, with the result of its sequence. With room in `RESPQ` the response is pushed and
`SEQ_BUSY` becomes 0 (what SEQ's registers hold then is the model's choice, notes/assumptions/13.md); onto a full `RESPQ` nothing is pushed: the
action's writes are done, SEQ holds the record, and `SEQ_BUSY` stays 1. -/
def Obligations.CompletionActions : Prop :=
  ∀ (s : State) (later : List Event) (ok : Bool) (tag : Byte) (op : Op), s.cfg.Ok → s.env = .seq :: later → s.seqStage = .returned ok →
    (s.respq.length < s.cfg.respFifoDepth →
      (s.seqDone = some (.update op.code tag) →
        step s = .next { s with
          env := later, inFlight := false, seqStage := .idle, seqSteps := [], seqPos := 0, seqDone := none, seqPending := none
          respq := s.respq ++ [⟨op.code, tag, if ok then .ok else .transportFail, 0⟩] }) ∧
      (s.seqDone = some (.contrast tag) →
        step s = .next { s with
          env := later, seqStage := .idle, seqSteps := [], seqPos := 0, seqDone := none, seqPending := none
          respq := s.respq ++ [⟨0x05, tag, if ok then .ok else .transportFail, 0⟩] }) ∧
      (s.seqDone = some (.dispOff tag) →
        step s = .next { s with
          env := later, seqStage := .idle, seqSteps := [], seqPos := 0, seqDone := none, seqPending := none
          ctrl := if ok then .poweredOff else s.ctrl
          respq := s.respq ++ [⟨0x06, tag, if ok then .ok else .transportFail, 0⟩] }) ∧
      (s.seqDone = some (.dispOn tag) →
        step s = .next { s with
          env := later, seqStage := .idle, seqSteps := [], seqPos := 0, seqDone := none, seqPending := none
          ctrl := if ok then .ready else s.ctrl
          respq := s.respq ++ [⟨0x07, tag, if ok then .ok else .transportFail, 0⟩] })) ∧
    (s.cfg.respFifoDepth ≤ s.respq.length →
      (s.seqDone = some (.update op.code tag) →
        step s = .next { s with
          env := later, inFlight := false, seqStage := .pushing ⟨op.code, tag, if ok then .ok else .transportFail, 0⟩ }) ∧
      (s.seqDone = some (.contrast tag) →
        step s = .next { s with env := later, seqStage := .pushing ⟨0x05, tag, if ok then .ok else .transportFail, 0⟩ }) ∧
      (s.seqDone = some (.dispOff tag) →
        step s = .next { s with
          env := later, ctrl := if ok then .poweredOff else s.ctrl
          seqStage := .pushing ⟨0x06, tag, if ok then .ok else .transportFail, 0⟩ }) ∧
      (s.seqDone = some (.dispOn tag) →
        step s = .next { s with
          env := later, ctrl := if ok then .ready else s.ctrl
          seqStage := .pushing ⟨0x07, tag, if ok then .ok else .transportFail, 0⟩ }) ∧
      ∀ r : Resp, State.seqBusy { s with seqStage := .pushing r } = true)

/-- R157: a command that starts a sequence, or pulses the reset line, holds while a sequence runs, and leaves the sequence alone; once SEQ is idle it
does what is left of it (`HoldsForSeq`). The fills of CLEAR and DISPLAY_OFF come before the hold (R171, R173); a drawing command under bypass holds at
its first pixel on the raster (R211, R220), text with the cursor and the warnings of the characters before it. -/
def Obligations.WaitsForSequencer : Prop :=
  ∀ (s : State) (tag : Byte), Inv s → s.seqBusy = true →
    HoldsForSeq (.reset tag) s s ∧ HoldsForSeq (.begin tag) s s ∧
      (s.transmitReady = true →
        HoldsForSeq (.teardown tag) s s ∧ HoldsForSeq (.dispon tag) s s ∧ HoldsForSeq (.dispoff tag) s { s with fb := [] } ∧
          (s.inFlight = false → HoldsForSeq (.update tag) s s ∧ HoldsForSeq (.clear tag) s { s with fb := [] }) ∧
          (∀ v : Word, 0 ≤ v.toInt → v.toInt ≤ 255 → HoldsForSeq (.contrast tag v) s s) ∧
          (∀ (v : Intensity) (x y : BitVec 16), inBounds s.cfg x.toInt y.toInt = true → HoldsForSeq (.pixel tag v true x y) s s) ∧
          (∀ (v : Intensity) (x0 y0 x1 y1 : BitVec 16),
            (∃ p ∈ linePoints x0.toInt y0.toInt x1.toInt y1.toInt, inBounds s.cfg p.1 p.2 = true) →
            HoldsForSeq (.line tag v true x0 y0 x1 y1) s s) ∧
          (∀ (v : Intensity) (x y w h : BitVec 16),
            (∃ p ∈ rectPoints x.toInt y.toInt w.toNat h.toNat, inBounds s.cfg p.1 p.2 = true) →
            HoldsForSeq (.rect tag v true x y w h) s s) ∧
          (∀ (v : Intensity) (size : BitVec 8) (text pre post : List Char16) (ch : Char16) (cx : BitVec 16),
            size ≠ 0 → text.length < 65536 → text.length ≤ s.cfg.textMax → s.ffontValid = true → text = pre ++ ch :: post →
            cx = s.cx + BitVec.ofNat 16 ((located s pre).length * (s.ffWidth.toNat * size.toNat + size.toNat)) →
            (∀ p ∈ textCells s size.toNat v s.cx pre, inBounds s.cfg p.1 p.2.1 = false) →
            (∃ p ∈ textCells s size.toNat v cx [ch], inBounds s.cfg p.1 p.2.1 = true) →
            HoldsForSeq (.puts tag v true size text) s { s with
              cx := cx
              warnCount := BitVec.ofNat 16 (min (s.warnCount.toNat + (unlocated s pre).length) 0xFFFF)
              lastMissing := (unlocated s pre).getLastD s.lastMissing }) ∧
          ∀ (v : Intensity) (text : List Char16) (pre post : List (BitVec 16 × CachedGlyph)) (d : BitVec 16 × CachedGlyph),
            text.length < 65536 → text.length ≤ s.cfg.textMax → s.hfState = .loaded → s.cacheValid = true →
            (∀ ch ∈ text, (KeyMap.find ch s.cache).isSome = true) → unifontDraws s s.cx text = pre ++ d :: post →
            (∀ p ∈ unifontCells s v pre, inBounds s.cfg p.1 p.2.1 = false) →
            (∃ p ∈ unifontCells s v [d], inBounds s.cfg p.1 p.2.1 = true) →
            HoldsForSeq (.uputs tag v true text) s { s with cx := cursorAfter s.cx pre })

/-- R162, R180: the steps of the update sequence: the column window from 28, the row window from 0, write-RAM, the snapshot. It makes 14 requests, 6
SetPhase and 8 Write, and carries `FB_SIZE + 7` bytes; contrast makes 4 and carries 2, display-on and display-off 2 and 1, a bypass pixel 14 and 9
(R211). -/
def Obligations.SequenceCounts : Prop :=
  ∀ (c : Config) (snap : List Byte) (fb : Memory) (x y : Nat) (v : Intensity) (b : Byte), snap.length = c.fbSize →
    updateSeq c =
        [.enterCmd, .tx [c.panel.setColumn], .enterData, .tx [28], .tx [BitVec.ofNat 8 (27 + c.width / 4)],
          .enterCmd, .tx [c.panel.setRow], .enterData, .tx [0], .tx [BitVec.ofNat 8 (c.height - 1)],
          .enterCmd, .tx [c.panel.writeRam], .enterData, .txSnap] ∧
      (((updateSeq c).map (SeqStep.request snap)).length = 14 ∧
        (((updateSeq c).map (SeqStep.request snap)).filter Request.isPhase).length = 6 ∧
        (((updateSeq c).map (SeqStep.request snap)).filter fun r => !r.isPhase).length = 8 ∧
        (((updateSeq c).map (SeqStep.request snap)).flatMap Request.bytes).length = c.fbSize + 7) ∧
      (((group c.panel.setContrast [b]).map (SeqStep.request snap)).length = 4 ∧
        (((group c.panel.setContrast [b]).map (SeqStep.request snap)).flatMap Request.bytes).length = 2) ∧
      (((group c.panel.displayOff []).map (SeqStep.request snap)).length = 2 ∧
        (((group c.panel.displayOff []).map (SeqStep.request snap)).flatMap Request.bytes).length = 1 ∧
        ((group c.panel.displayOn []).map (SeqStep.request snap)).length = 2 ∧
        (((group c.panel.displayOn []).map (SeqStep.request snap)).flatMap Request.bytes).length = 1) ∧
      ((bypassSeq c fb x y v).map (SeqStep.request snap)).length = 14 ∧
        (((bypassSeq c fb x y v).map (SeqStep.request snap)).flatMap Request.bytes).length = 9

/-- R94, R151, R158, R355: while SEQ plays a sequence nothing but the power-on reset changes the sequence, its completion action or its
snapshot, whatever PROC and the host do; and without an answer the pending request stays pending, the phase stays, and nothing more
is requested. -/
def Obligations.SequenceUndisturbed : Prop :=
  ∀ s t : State, Inv s → s.seqStage = .playing → (∀ fb, s.env.head? ≠ some (.powerOn fb)) → step s = .next t →
    t.snap = s.snap ∧ t.seqSteps = s.seqSteps ∧ t.seqDone = s.seqDone ∧ s.seqPos ≤ t.seqPos ∧
      ∀ r, s.seqPending = some r → (∀ ok, s.env.head? ≠ some (.answer ok)) →
        t.seqStage = .playing ∧ t.seqPending = some r ∧ t.seqPos = s.seqPos ∧ t.phase = s.phase ∧ t.trace = s.trace

/-- R93: SEQ does not depend on `FB`: with another framebuffer it takes the same turn, and leaves that framebuffer. -/
def Obligations.SequencerIgnoresFb : Prop :=
  ∀ (s : State) (fb : Memory) (ok : Bool),
    seqTurn { s with fb := fb } = { seqTurn s with fb := fb } ∧ seqFineTurn { s with fb := fb } = { seqFineTurn s with fb := fb } ∧
      State.answer ok { s with fb := fb } = { s.answer ok with fb := fb }

/-! ## Display control -/

/-- R163, R165: RESET with SEQ idle and the hold over at once: the line goes low, then high, and the controller is UNINIT. -/
def Obligations.ResetCommand : Prop :=
  ∀ (s : State) (tag : Byte) (later : List Event),
    s.respq.length < s.cfg.respFifoDepth → s.seqIdle → s.env = .timer :: later →
    exec (.reset tag) s = .next (State.done .reset tag .ok 0 { s with
      env := later, ctrl := .uninit, resetOut := true, trace := .resetLine true :: .resetLine false :: s.trace })

/-- R163, R350: the reset pulse of RESET and BEGIN drives the line low and holds; in the hold only TIMER, or the power-on reset, goes on: until then PROC
holds, the line stays low and no request is issued. TIMER's report lifts the hold: with PROC's turn after it, the command goes on as if the report had
stood next on the timeline. The timeline is the model's choice (notes/assumptions/6.md), and so is that TIMER's report is an event of it, one that
stands next when the hold begins ending the hold in the same turn (notes/assumptions/8.md). -/
def Obligations.ResetHold : Prop :=
  (∀ (s t : State) (j : Job), Inv s → s.proc = .executing (.jobTimer j) → s.env.head? ≠ some .timer →
      (∀ fb, s.env.head? ≠ some (.powerOn fb)) → step s = .next t →
      s.resetOut = false ∧ t.proc = s.proc ∧ t.resetOut = false ∧ t.trace = s.trace ∧ t.ctrl = s.ctrl) ∧
    (∀ (s : State) (tag : Byte) (i : Instr), (i = .reset tag ∨ i = .begin tag) → s.seqIdle → s.env.head? ≠ some .timer →
      ∃ j, exec i s = .next { s with
        ctrl := .resetting, resetOut := false, trace := .resetLine false :: s.trace, proc := .executing (.jobTimer j) }) ∧
    ∀ (i : Instr) (s t : State) (j : Job) (later : List Event), s.cfg.Ok → exec i s = .next t → t.env = [] →
      t.proc = .executing (.jobTimer j) →
      stepN 2 { t with env := .timer :: .proc :: later } = exec i { s with env := s.env ++ .timer :: later }

/-- R166: BEGIN with SEQ idle, the hold over at once and every step accepted: reset pulse, `INIT_SEQ`, then a zero frame; READY. That
`SNAP` stays is the model's choice (notes/assumptions/13.md). -/
def Obligations.BeginCommand : Prop :=
  ∀ (s : State) (tag : Byte) (later : List Event),
    s.respq.length < s.cfg.respFifoDepth → s.seqIdle →
    s.env = .timer :: (oks ((initSeq s.cfg).length + (updateSeq s.cfg).length) ++ later) →
    exec (.begin tag) s = .next (State.done .begin tag .ok 0 { s with
      env := later, ctrl := .ready, fb := [], inFlight := false, snap := List.replicate s.cfg.fbSize 0, resetOut := true, phase := .data
      trace := okTrace (List.replicate s.cfg.fbSize 0) (updateSeq s.cfg) ++ okTrace s.snap (initSeq s.cfg) ++
        .resetLine true :: .resetLine false :: s.trace })

/-- R161: the groups of `INIT_SEQ` that geometry fixes, and their places: the display-off, column-window and row-window groups follow the
first group, and the display-on group is last. -/
def Obligations.InitSequenceGroups : Prop :=
  ∀ c : Config, c.Ok →
    ∃ middle : List SeqStep,
      initSeq c =
        Group.steps c.initGroups.unlock ++ [.enterCmd, .tx [c.panel.displayOff]] ++
          [.enterCmd, .tx [c.panel.setColumn], .enterData, .tx [28], .tx [BitVec.ofNat 8 (27 + c.width / 4)]] ++
          [.enterCmd, .tx [c.panel.setRow], .enterData, .tx [0], .tx [BitVec.ofNat 8 (c.height - 1)]] ++ middle ++
          [.enterCmd, .tx [c.panel.displayOn]]

/-- R166, R177, R178: what BEGIN and TEARDOWN leave when XPORT refuses a step of `INIT_SEQ`, of the zero frame, or of display-off. -/
def Obligations.BlockingFailures : Prop :=
  ∀ (s : State) (tag : Byte) (later : List Event) (k : Nat), s.respq.length < s.cfg.respFifoDepth → s.seqIdle →
    (k < (initSeq s.cfg).length → s.env = .timer :: (oks k ++ .answer false :: later) →
        exec (.begin tag) s = .next (State.done .begin tag .transportFail 0 { s with
          env := later, ctrl := .uninit, resetOut := true, phase := phaseAfter s.phase ((initSeq s.cfg).take k)
          trace := failTrace s.snap (initSeq s.cfg) k ++ .resetLine true :: .resetLine false :: s.trace })) ∧
      (k < 14 → s.env = .timer :: (oks ((initSeq s.cfg).length + k) ++ .answer false :: later) →
        exec (.begin tag) s = .next (State.done .begin tag .transportFail 0 { s with
          env := later, ctrl := .ready, fb := [], inFlight := false, snap := List.replicate s.cfg.fbSize 0, resetOut := true
          phase := phaseAfter s.phase (initSeq s.cfg ++ (updateSeq s.cfg).take k)
          trace := failTrace (List.replicate s.cfg.fbSize 0) (updateSeq s.cfg) k ++ okTrace s.snap (initSeq s.cfg) ++
            .resetLine true :: .resetLine false :: s.trace })) ∧
      (s.transmitReady = true → k < 14 → s.env = oks k ++ .answer false :: later →
        exec (.teardown tag) s = .next (State.done .teardown tag .transportFail 0 { s with
          env := later, ctrl := .uninit, fb := [], inFlight := false, snap := List.replicate s.cfg.fbSize 0
          phase := phaseAfter s.phase ((updateSeq s.cfg).take k)
          trace := failTrace (List.replicate s.cfg.fbSize 0) (updateSeq s.cfg) k ++ s.trace })) ∧
      (s.transmitReady = true → k < 2 → s.env = oks (14 + k) ++ .answer false :: later →
        exec (.teardown tag) s = .next (State.done .teardown tag .transportFail 0 { s with
          env := later, ctrl := .uninit, fb := [], inFlight := false, snap := List.replicate s.cfg.fbSize 0
          phase := if k = 0 then .data else .command
          trace := failTrace [] [.enterCmd, .tx [s.cfg.panel.displayOff]] k ++
            okTrace (List.replicate s.cfg.fbSize 0) (updateSeq s.cfg) ++ s.trace }))

/-- R177: TEARDOWN with SEQ idle and every step accepted: a zero frame, display-off, UNINIT. That `SNAP` stays is
the model's choice (notes/assumptions/13.md). -/
def Obligations.TeardownCommand : Prop :=
  ∀ (s : State) (tag : Byte) (later : List Event),
    s.respq.length < s.cfg.respFifoDepth → s.transmitReady = true → s.seqIdle → s.env = oks 16 ++ later →
    exec (.teardown tag) s = .next (State.done .teardown tag .ok 0 { s with
      env := later, ctrl := .uninit, fb := [], inFlight := false, snap := List.replicate s.cfg.fbSize 0, phase := .command
      trace := okTrace [] [.enterCmd, .tx [s.cfg.panel.displayOff]] ++
        okTrace (List.replicate s.cfg.fbSize 0) (updateSeq s.cfg) ++ s.trace })

/-- R162, R170, R171: UPDATE with no update in flight and SEQ idle: the frame is captured, `IN_FLIGHT` is set, the update sequence starts, and PROC
goes on at once; CLEAR is the fill, then an update of the zero frame. -/
def Obligations.UpdateStarts : Prop :=
  ∀ (s : State) (tag : Byte), s.transmitReady = true → s.inFlight = false → s.seqBusy = false →
    exec (.update tag) s = .next { s with
        snap := (List.range s.cfg.fbSize).map fun (a : Nat) => Memory.read s.fb a, inFlight := true, seqStage := .playing
        seqSteps := updateSeq s.cfg, seqPos := 0, seqDone := some (.update 0x03 tag), seqPending := none, proc := .idle } ∧
      exec (.clear tag) s = .next { s with
        fb := [], snap := List.replicate s.cfg.fbSize 0, inFlight := true, seqStage := .playing
        seqSteps := updateSeq s.cfg, seqPos := 0, seqDone := some (.update 0x04 tag), seqPending := none, proc := .idle }

/-- R170, R171, R351, R352: an UPDATE or CLEAR while an update is in flight answers OK_COALESCED and transmits nothing; CLEAR's fill
happens. -/
def Obligations.UpdateCoalesces : Prop :=
  ∀ (s : State) (tag : Byte), s.respq.length < s.cfg.respFifoDepth → s.transmitReady = true → s.inFlight = true →
    exec (.update tag) s = .next (s.done .update tag .okCoalesced 0) ∧
      exec (.clear tag) s = .next (State.done .clear tag .okCoalesced 0 { s with fb := [] })

/-- R172: SET_CONTRAST of a value from 0 to 255 starts the contrast sequence; no copy of the value is kept. -/
def Obligations.SetContrast : Prop :=
  ∀ (s : State) (tag : Byte) (v : Word),
    s.transmitReady = true → s.seqBusy = false → 0 ≤ v.toInt → v.toInt ≤ 255 →
    exec (.contrast tag v) s = .next { s with
      seqStage := .playing
      seqSteps := [.enterCmd, .tx [s.cfg.panel.setContrast], .enterData, .tx [BitVec.ofInt 8 v.toInt]]
      seqPos := 0, seqDone := some (.contrast tag), seqPending := none, proc := .idle }

/-- R173, R174: DISPLAY_OFF fills `FB` with 0 and starts the display-off sequence; DISPLAY_ON starts the display-on sequence and leaves
`FB`. -/
def Obligations.DisplayPower : Prop :=
  ∀ (s : State) (tag : Byte), s.transmitReady = true → s.seqBusy = false →
    exec (.dispoff tag) s = .next { s with
        fb := [], seqStage := .playing, seqSteps := [.enterCmd, .tx [s.cfg.panel.displayOff]]
        seqPos := 0, seqDone := some (.dispOff tag), seqPending := none, proc := .idle } ∧
      exec (.dispon tag) s = .next { s with
        seqStage := .playing, seqSteps := [.enterCmd, .tx [s.cfg.panel.displayOn]]
        seqPos := 0, seqDone := some (.dispOn tag), seqPending := none, proc := .idle }

/-! ## The fixed font and text -/

/-- R241: FFONT_DEFINE within the capacities replaces the fixed font whole; past one of them it is refused with CAPACITY and the old
font is kept. -/
def Obligations.DefineFont : Prop :=
  ∀ (s : State) (tag : Byte) (fw : BitVec 8) (alphabet : List Char16) (data : List Byte),
    s.respq.length < s.cfg.respFifoDepth → (Instr.ffont tag fw alphabet data).wf = true →
    exec (.ffont tag fw alphabet data) s =
      if alphabet.length ≤ s.cfg.ffMaxChars ∧ alphabet.length * fw.toNat ≤ s.cfg.ffMaxBytes then
        .next (State.done .ffont tag .ok 0 { s with ffontValid := true, ffWidth := fw, ffAlpha := alphabet, ffData := data })
      else .next (s.done .ffont tag .capacity 0)

/-- R242: `Locate` gives the least index of a character in the alphabet, or none when it is not there. -/
def Obligations.LocateFirst : Prop :=
  ∀ (ch : Char16) (alphabet : List Char16),
    (∀ j, locate ch alphabet = some j ↔ alphabet[j]? = some ch ∧ ∀ k, k < j → alphabet[k]? ≠ some ch) ∧
      (locate ch alphabet = none ↔ ch ∉ alphabet)

/-- R243 to R249: WRITE_STRING without bypass: the on bits of the located characters are painted and nothing else is, the cursor advances by
`FW*s + s` for each, each missing occurrence warns, and the RESULT is the number of characters drawn. -/
def Obligations.WriteString : Prop :=
  ∀ (s : State) (tag : Byte) (v : Intensity) (size : BitVec 8) (text : List Char16),
    s.cfg.Ok → Memory.wf s.fb = true → s.respq.length < s.cfg.respFifoDepth → size ≠ 0 → text.length < 65536 →
    text.length ≤ s.cfg.textMax → s.ffontValid = true →
    ∃ fb', exec (.puts tag v false size text) s =
        .next (State.done .puts tag (if (unlocated s text).isEmpty then .ok else .okMissingGlyph)
          (BitVec.ofNat 32 (located s text).length) { s with
            fb := fb'
            cx := s.cx + BitVec.ofNat 16 ((located s text).length * (s.ffWidth.toNat * size.toNat + size.toNat))
            warnCount := BitVec.ofNat 16 (min (s.warnCount.toNat + (unlocated s text).length) 0xFFFF)
            lastMissing := (unlocated s text).getLastD s.lastMissing }) ∧
      Painted s.cfg s.fb fb' v (TextInk s size.toNat s.cx text)

/-! ## The hex font and the cache -/

/-- R250, R252: HFONT_BEGIN empties the font and starts a load in every `HF_STATE`, and the cache is not touched; HFONT_END in a load ends it,
and its RESULT is the number of glyphs; outside a load it is refused with FONT_STATE. -/
def Obligations.HexFontLoad : Prop :=
  ∀ (s : State) (tag : Byte), s.respq.length < s.cfg.respFifoDepth →
    exec (.hfbegin tag) s = .next (State.done .hfbegin tag .ok 0 { s with hf := [], hfState := .loading }) ∧
      exec (.hfend tag) s =
        if s.hfState = .loading then
          .next (State.done .hfend tag .ok (BitVec.ofNat 32 s.hf.length) { s with hfState := .loaded })
        else .next (s.done .hfend tag .fontState 0)

/-- R251: HFONT_GLYPH in a load stores its glyph: the last glyph of a code point is the one the font has. Outside a load it is refused with
FONT_STATE, and a new code point past `HF_MAX_GLYPHS` with CAPACITY. -/
def Obligations.HexFontGlyph : Prop :=
  ∀ (s : State) (tag : Byte) (cp : Char16) (g : Glyph), s.respq.length < s.cfg.respFifoDepth → g.wf = true →
    (s.hfState ≠ .loading → exec (.hfglyph tag cp g) s = .next (s.done .hfglyph tag .fontState 0)) ∧
      (s.hfState = .loading → KeyMap.find cp s.hf = none → s.hf.length = s.cfg.hfMaxGlyphs →
        exec (.hfglyph tag cp g) s = .next (s.done .hfglyph tag .capacity 0)) ∧
      (s.hfState = .loading → ((KeyMap.find cp s.hf).isSome = true ∨ s.hf.length ≠ s.cfg.hfMaxGlyphs) →
        ∃ hf', exec (.hfglyph tag cp g) s = .next (State.done .hfglyph tag .ok 0 { s with hf := hf' }) ∧
          ∀ ch, KeyMap.find ch hf' = if ch = cp then some g else KeyMap.find ch s.hf)

/-- R253: the expansion of a glyph: column 0 is the most significant bit of a row. -/
def Obligations.GlyphExpansion : Prop :=
  (∀ rows : List (BitVec 8), rows.length = 8 →
      (expand (.g8 rows)).gw = 8 ∧ (expand (.g8 rows)).gh = 8 ∧ (expand (.g8 rows)).bits.length = 8 ∧
        ∀ r c : Nat, r < 8 → c < 8 →
          ((expand (.g8 rows)).bits.getD r []).getD c false = (rows.getD r 0).getLsbD (7 - c)) ∧
    ∀ rows : List (BitVec 16), rows.length = 16 →
      (expand (.g16 rows)).gw = 16 ∧ (expand (.g16 rows)).gh = 16 ∧ (expand (.g16 rows)).bits.length = 16 ∧
        ∀ r c : Nat, r < 16 → c < 16 →
          ((expand (.g16 rows)).bits.getD r []).getD c false = (rows.getD r 0).getLsbD (15 - c)

/-- R254: `Distinct` lists each character of the text once, in order of first occurrence. -/
def Obligations.DistinctCharacters : Prop :=
  ∀ t : List Char16, (distinct t).Nodup ∧ (∀ ch, ch ∈ distinct t ↔ ch ∈ t) ∧
    ∀ a b, a ∈ t → b ∈ t → ((distinct t).idxOf a < (distinct t).idxOf b ↔ t.idxOf a < t.idxOf b)

/-- R255: CACHE_GLYPHS with a loaded font replaces the cache by the expansions of the characters of the text that the font has; each
distinct missing character warns once, in order, and the RESULT is the number of entries. A text past `TEXT_MAX` is refused with CAPACITY, and
without a loaded font the command is refused with FONT_NOT_LOADED; both keep the cache. -/
def Obligations.CacheGlyphs : Prop :=
  ∀ (s : State) (tag : Byte) (text missing : List Char16), s.respq.length < s.cfg.respFifoDepth → text.length < 65536 →
    missing = (distinct text).filter (fun ch => (KeyMap.find ch s.hf).isNone) →
    (s.cfg.textMax < text.length → exec (.cache tag text) s = .next (s.done .cache tag .capacity 0)) ∧
      (text.length ≤ s.cfg.textMax → s.hfState ≠ .loaded →
        exec (.cache tag text) s = .next (s.done .cache tag .fontNotLoaded 0)) ∧
      (text.length ≤ s.cfg.textMax → s.hfState = .loaded →
        ∃ m, exec (.cache tag text) s =
            .next (State.done .cache tag (if missing.isEmpty then .ok else .okMissingGlyph) (BitVec.ofNat 32 m.length) { s with
              cache := m, cacheValid := true
              warnCount := BitVec.ofNat 16 (min (s.warnCount.toNat + missing.length) 0xFFFF)
              lastMissing := missing.getLastD s.lastMissing }) ∧
          (∀ ch, KeyMap.find ch m = if ch ∈ text then (KeyMap.find ch s.hf).map expand else none) ∧
          m.length + missing.length = (distinct text).length)

/-- R256, R260 to R263: WRITE_UNIFONT without bypass: with a font loaded and a cache that covers the text, the on bits of the drawn glyphs are
painted and nothing else is; it stops at the first character that would start at or past WIDTH, and the RESULT is the number
drawn. -/
def Obligations.WriteUnifont : Prop :=
  ∀ (s : State) (tag : Byte) (v : Intensity) (text : List Char16),
    s.cfg.Ok → Memory.wf s.fb = true → s.respq.length < s.cfg.respFifoDepth → text.length < 65536 →
    text.length ≤ s.cfg.textMax → s.hfState = .loaded → s.cacheValid = true →
    (∀ ch ∈ text, (KeyMap.find ch s.cache).isSome = true) →
    ∃ fb', exec (.uputs tag v false text) s =
        .next (State.done .uputs tag .ok (BitVec.ofNat 32 (unifontDraws s s.cx text).length)
          { s with fb := fb', cx := cursorAfter s.cx (unifontDraws s s.cx text) }) ∧
      Painted s.cfg s.fb fb' v (UnifontInk s (unifontDraws s s.cx text))

/-- R211, R245, R248, R261: both text commands under bypass, every step accepted: the cells go to the panel in order (`textCells`, `unifontCells`), off
cells of the fixed font with intensity 0, and `FB` is not written; cursor, warnings and RESULT are as without bypass. -/
def Obligations.TextUnderBypass : Prop :=
  ∀ (s : State) (tag : Byte) (v : Intensity) (size : BitVec 8) (text : List Char16) (later : List Event),
    Inv s → s.respq.length < s.cfg.respFifoDepth → s.transmitReady = true → s.seqIdle → text.length < 65536 → text.length ≤ s.cfg.textMax →
    (∀ steps : List SeqStep,
      size ≠ 0 → s.ffontValid = true →
      steps = bypassSteps s.cfg s.fb (textCells s size.toNat v s.cx text) → s.env = oks steps.length ++ later →
      exec (.puts tag v true size text) s =
        .next (State.done .puts tag (if (unlocated s text).isEmpty then .ok else .okMissingGlyph)
          (BitVec.ofNat 32 (located s text).length) { s with
            env := later, phase := phaseAfter s.phase steps, trace := okTrace s.snap steps ++ s.trace
            cx := s.cx + BitVec.ofNat 16 ((located s text).length * (s.ffWidth.toNat * size.toNat + size.toNat))
            warnCount := BitVec.ofNat 16 (min (s.warnCount.toNat + (unlocated s text).length) 0xFFFF)
            lastMissing := (unlocated s text).getLastD s.lastMissing })) ∧
      ∀ steps : List SeqStep,
        s.hfState = .loaded → s.cacheValid = true → (∀ ch ∈ text, (KeyMap.find ch s.cache).isSome = true) →
        steps = bypassSteps s.cfg s.fb (unifontCells s v (unifontDraws s s.cx text)) → s.env = oks steps.length ++ later →
        exec (.uputs tag v true text) s =
          .next (State.done .uputs tag .ok (BitVec.ofNat 32 (unifontDraws s s.cx text).length) { s with
            env := later, phase := phaseAfter s.phase steps, trace := okTrace s.snap steps ++ s.trace
            cx := cursorAfter s.cx (unifontDraws s s.cx text) })

/-- R220, R247, R260, R306: the first step that XPORT refuses ends a text command under bypass, in the cells of a character `ch` (or drawn character `d`):
nothing more is sent, what was sent stays, the command answers TRANSPORT_FAIL, its RESULT is the number of characters drawn before, and the cursor
and the warnings are as those before it leave them. -/
def Obligations.TextBypassFailure : Prop :=
  ∀ (s : State) (tag : Byte) (v : Intensity) (size : BitVec 8) (text : List Char16) (later : List Event) (k : Nat),
    Inv s → s.respq.length < s.cfg.respFifoDepth → s.transmitReady = true → s.seqIdle → text.length < 65536 → text.length ≤ s.cfg.textMax →
    (∀ (pre post : List Char16) (ch : Char16) (cx : BitVec 16) (before here : List SeqStep),
      size ≠ 0 → s.ffontValid = true → text = pre ++ ch :: post →
      cx = s.cx + BitVec.ofNat 16 ((located s pre).length * (s.ffWidth.toNat * size.toNat + size.toNat)) →
      before = bypassSteps s.cfg s.fb (textCells s size.toNat v s.cx pre) →
      here = bypassSteps s.cfg s.fb (textCells s size.toNat v cx [ch]) → k < here.length →
      s.env = oks (before.length + k) ++ .answer false :: later →
      exec (.puts tag v true size text) s =
        .next (State.done .puts tag .transportFail (BitVec.ofNat 32 (located s pre).length) { s with
          env := later, phase := phaseAfter s.phase (before ++ here.take k)
          trace := failTrace s.snap (before ++ here) (before.length + k) ++ s.trace
          cx := cx
          warnCount := BitVec.ofNat 16 (min (s.warnCount.toNat + (unlocated s pre).length) 0xFFFF)
          lastMissing := (unlocated s pre).getLastD s.lastMissing })) ∧
      ∀ (pre post : List (BitVec 16 × CachedGlyph)) (d : BitVec 16 × CachedGlyph) (before here : List SeqStep),
        s.hfState = .loaded → s.cacheValid = true → (∀ ch ∈ text, (KeyMap.find ch s.cache).isSome = true) →
        unifontDraws s s.cx text = pre ++ d :: post →
        before = bypassSteps s.cfg s.fb (unifontCells s v pre) → here = bypassSteps s.cfg s.fb (unifontCells s v [d]) → k < here.length →
        s.env = oks (before.length + k) ++ .answer false :: later →
        exec (.uputs tag v true text) s =
          .next (State.done .uputs tag .transportFail (BitVec.ofNat 32 pre.length) { s with
            env := later, phase := phaseAfter s.phase (before ++ here.take k)
            trace := failTrace s.snap (before ++ here) (before.length + k) ++ s.trace
            cx := cursorAfter s.cx pre })

/-! ## The register window, the interrupt and the host -/

/-- R49 to R60, R91, R301, R305: what a read of each register returns, and the numbers of the status codes in RESP0; a read changes nothing of the block.
The fields of LEVEL are the counts modulo 2 to the 16, which is the model's reading (DEDUCED, notes/assumptions/14.md). `BASE` is any address; that the
read has its meaning where `BASE` is no multiple of 4 is the model's choice (notes/assumptions/23.md). -/
def Obligations.WindowReads : Prop :=
  (Status.ok.code = 0x00 ∧ Status.okCoalesced.code = 0x01 ∧ Status.okMissingGlyph.code = 0x02 ∧ Status.illegalOpcode.code = 0x10 ∧
    Status.illegalField.code = 0x11 ∧ Status.capacity.code = 0x12 ∧ Status.notReady.code = 0x13 ∧ Status.fontState.code = 0x14 ∧
    Status.fontNotLoaded.code = 0x15 ∧ Status.cacheMiss.code = 0x16 ∧ Status.contrastRange.code = 0x17 ∧
    Status.outOfBounds.code = 0x18 ∧ Status.transportFail.code = 0x20) ∧
  ∀ (s : State) (later : List Event) (k : Nat), s.cfg.Ok → s.busWrite = none → k < 16 →
    s.env = .hostRead (s.cfg.base + 4 * k) 4 :: later →
    ∃ v, step s = .next { s with env := later, busRead := v } ∧
      (k = 0 ∨ k = 3 ∨ 12 ≤ k → v = 0) ∧
      (k = 1 → v = match s.respq with | [] => 0 | r :: _ => r.op ++ r.tag ++ (0 : Byte) ++ r.status.code) ∧
      (k = 2 → v = match s.respq with | [] => 0 | r :: _ => r.result) ∧
      (k = 4 → v = s.statusWord) ∧
      (k = 5 → v = BitVec.ofNat 16 s.respq.length ++ BitVec.ofNat 16 s.cmdq.length) ∧
      (k = 6 → v = s.cy ++ s.cx) ∧ (k = 7 → v = s.lastMissing ++ s.warnCount) ∧
      (k = 8 → v = if s.respIE then 1 else 0) ∧ (k = 9 → v = if s.respq = [] then 0 else 1) ∧
      (k = 10 → v = BitVec.ofNat 16 s.cfg.height ++ BitVec.ofNat 16 s.cfg.width) ∧ (k = 11 → v = 0x56470001)

/-- R36, R39, R42, R52, R320: the fields of STATUS, with the numbers of `CTRL_STATE`, `PHASE` and `HF_STATE`, the interrupt output, and the level of the
data/command line in each phase. -/
def Obligations.StatusAndInterrupt : Prop :=
  (CtrlState.uninit.code = 0 ∧ CtrlState.resetting.code = 1 ∧ CtrlState.initializing.code = 2 ∧ CtrlState.ready.code = 3 ∧
    CtrlState.poweredOff.code = 4 ∧ Phase.command.bit = 0 ∧ Phase.data.bit = 1 ∧ HfState.empty.code = 0 ∧ HfState.loading.code = 1 ∧
    HfState.loaded.code = 2) ∧
  ∀ s : State,
    s.statusWord.extractLsb' 0 3 = s.ctrl.code ∧ s.statusWord.getLsbD 3 = s.inFlight ∧
      s.statusWord.getLsbD 4 = decide (s.seqStage ≠ .idle) ∧ s.statusWord.getLsbD 5 = decide (s.proc ≠ .idle) ∧
      s.statusWord.extractLsb' 6 2 = s.hfState.code ∧ s.statusWord.getLsbD 8 = s.ffontValid ∧
      s.statusWord.getLsbD 9 = s.cacheValid ∧ s.statusWord.getLsbD 10 = false ∧
      s.statusWord.extractLsb' 11 1 = s.phase.bit ∧ s.statusWord.getLsbD 12 = s.resetOut ∧
      s.statusWord.extractLsb' 13 19 = 0 ∧ (s.irq = true ↔ s.respIE = true ∧ s.respq ≠ []) ∧
      (s.phase = .command → s.dcLine = s.cfg.dcCmdLevel) ∧ (s.phase = .data → s.dcLine = !s.cfg.dcCmdLevel)

/-- R49, R51, R55, R56, R91: what a write to each register does. A write to WARN sets both its fields to 0; that a warning which PROC is in the middle of
then counts as before the write, PROC writing nothing more of it, is the model's choice of an order (notes/assumptions/20.md). At every place of a
write to WARN around the two turns of a warning (notes/assumptions/9.md) the two are in one of the two orders of R55: the write first, with the warning
alone counted behind it, or the warning first, with both fields 0. `BASE` is any address; that the write has its effect where `BASE` is no multiple of 4 is
the model's choice (notes/assumptions/23.md). -/
def Obligations.WindowWrites : Prop :=
  (∀ (s : State) (later : List Event) (k : Nat) (v : Word), s.cfg.Ok → s.busWrite = none → k < 16 →
    s.env = .hostWrite (s.cfg.base + 4 * k) 4 v :: later →
    (k = 0 → s.cmdq.length < s.cfg.cmdFifoDepth → step s = .next { s with env := later, cmdq := s.cmdq ++ [v] }) ∧
      (k = 3 → step s = .next { s with env := later, respq := s.respq.drop 1 }) ∧
      (k = 7 → (∀ j ch rest, s.proc = .executing (.job j) → j.todo ≠ .effect (.lastMissing ch) :: rest) →
        step s = .next { s with env := later, warnCount := 0, lastMissing := 0 }) ∧
      (k = 7 → ∀ (j : Job) (ch : Char16) (rest : List Piece), s.proc = .executing (.job j) → j.todo = .effect (.lastMissing ch) :: rest →
        step s = .next { s with
          env := later, warnCount := 0, lastMissing := 0, proc := .executing (.job { j with todo := rest, missing := true }) }) ∧
      (k = 8 → step s = .next { s with env := later, respIE := v.getLsbD 0 }) ∧
      (k ≠ 0 → k ≠ 3 → k ≠ 7 → k ≠ 8 → step s = .next { s with env := later })) ∧
  ∀ (s : State) (later : List Event) (v : Word) (j : Job) (ch : Char16) (rest : List Piece) (write : Event),
    s.cfg.Ok → s.busWrite = none → s.proc = .executing (.job j) → j.todo = .effect (.warn ch) :: rest →
    (∀ ch' rest', rest ≠ .effect (.lastMissing ch') :: rest') → write = .hostWrite (s.cfg.base + 28) 4 v →
    (∃ t, stepN 3 { s with env := write :: .procFine :: .procFine :: later } = .next t ∧ t.warnCount = 1 ∧ t.lastMissing = ch) ∧
      ∃ t, stepN 2 { s with env := .procFine :: write :: later } = .next t ∧
        stepN 3 { s with env := .procFine :: .procFine :: write :: later } = .next t ∧ t.warnCount = 0 ∧ t.lastMissing = 0

/-- R49: a write to CMD while `CMDQ` is full holds, with nothing lost and nothing else changed; when PROC pops a word, the held word
enters `CMDQ` behind the others. The held word in `busWrite` and PROC's turn of one word are the model's (notes/assumptions/9.md, 11.md), and so is that the
write has its meaning where `BASE` is no multiple of 4 (notes/assumptions/23.md). -/
def Obligations.StalledWrite : Prop :=
  (∀ (s : State) (later : List Event) (v : Word), s.cfg.Ok → s.busWrite = none → s.cfg.cmdFifoDepth ≤ s.cmdq.length →
      s.env = .hostWrite s.cfg.base 4 v :: later → step s = .next { s with env := later, busWrite := some v }) ∧
    ∀ (s : State) (later : List Event) (v w : Word) (q : List Word), s.cfg.Ok → s.busWrite = some v → s.cmdq = w :: q →
      (∀ h, s.proc ≠ .executing h) → s.env = .procFine :: later →
      ∃ p, step s = .next { s with env := later, cmdq := q ++ [v], busWrite := none, proc := p }

/-- R89, R92: an access that is not an aligned 32-bit access of the window is refused (by which name is the model's choice,
notes/assumptions/23.md). -/
def Obligations.BadAccesses : Prop :=
  ∀ (s : State) (later : List Event) (addr bytes : Nat) (v : Word), s.cfg.Ok → s.busWrite = none →
    (s.env = .hostRead addr bytes :: later ∨ s.env = .hostWrite addr bytes v :: later) →
    ((addr < s.cfg.base ∨ s.cfg.base + 64 ≤ addr) → step s = .refused .outsideWindow) ∧
      (s.cfg.base ≤ addr → addr < s.cfg.base + 64 → (bytes ≠ 4 ∨ (addr - s.cfg.base) % 4 ≠ 0) →
        step s = .refused .badBusAccess)

/-- R280 to R283: the hex-font loader: the value of a hexadecimal digit in either case, the lines that give no glyph, and the code point, kind and rows that
a line gives, digit by digit (a lone last digit is its row's value, a row past the payload's end is 0; that a separator above U+FFFF counts as one
character is the model's choice, notes/assumptions/16.md), the commands of a file without an accepted line (with TAG 0, the model's choice,
notes/assumptions/16.md), that a failed read issues nothing, and what a file leaves when HOST waits for each response, at any
`CMD_FIFO_DEPTH`: the last glyph of each code point, `LOADED`, and empty queues (the schedule is the model's, notes/assumptions/16.md; that HOST's
accesses have their meaning where `BASE` is no multiple of 4 is too, notes/assumptions/23.md). -/
def Obligations.HexFontLoader : Prop :=
  ("0123456789abcdef".toList.map hexDigit = (List.range 16).map some ∧
      "0123456789ABCDEF".toList.map hexDigit = (List.range 16).map some ∧
      ∀ ch : Char, ch ∉ "0123456789abcdefABCDEF".toList → hexDigit ch = none) ∧
    (∀ line : List Char, (line.length < 5 ∨ (∃ ch ∈ line.take 4 ++ line.drop 5, hexDigit ch = none)) → hexFontLine line = none) ∧
    (∀ (line : List Char) (ns ds : List Nat) (cp : Nat),
      (line.take 4).map hexDigit = ns.map some → (line.drop 5).map hexDigit = ds.map some → 5 ≤ line.length →
      cp = 4096 * ns.getD 0 0 + 256 * ns.getD 1 0 + 16 * ns.getD 2 0 + ns.getD 3 0 →
      (cp = 0 → hexFontLine line = none) ∧
      (cp ≠ 0 → ds.length = 64 →
        ∃ rows, hexFontLine line = some (BitVec.ofNat 16 cp, .g16 rows) ∧ rows.length = 16 ∧
          ∀ r : Nat, r < 16 → rows.getD r 0 = BitVec.ofNat 16
            (4096 * ds.getD (4 * r) 0 + 256 * ds.getD (4 * r + 1) 0 + 16 * ds.getD (4 * r + 2) 0 + ds.getD (4 * r + 3) 0)) ∧
      (cp ≠ 0 → ds.length ≠ 64 →
        ∃ rows, hexFontLine line = some (BitVec.ofNat 16 cp, .g8 rows) ∧ rows.length = 8 ∧
          ∀ r : Nat, r < 8 → rows.getD r 0 = BitVec.ofNat 8
            (if 2 * r + 1 < ds.length then 16 * ds.getD (2 * r) 0 + ds.getD (2 * r + 1) 0 else ds.getD (2 * r) 0))) ∧
    (∀ text : List Char, (∀ line ∈ splitLines text, hexFontLine (stripCR line) = none) →
      loadHexFont (some text) = some [.hfbegin 0, .hfend 0]) ∧
    (∀ c : Config, loadHexFontEvents c none = none) ∧
    ∀ (s : State) (text : List Char) (glyphs : List (Char16 × Glyph)) (events later : List Event),
      s.cfg.Ok → s.proc = .idle → s.busWrite = none → s.cmdq = [] → s.respq = [] →
      glyphs = (splitLines text).filterMap (fun line => hexFontLine (stripCR line)) → glyphs.length ≤ s.cfg.hfMaxGlyphs →
      loadHexFontEvents s.cfg (some text) = some events → s.env = events ++ later →
      ∃ m, stepN events.length s = .next { s with env := later, hf := m, hfState := .loaded, busRead := BitVec.ofNat 32 m.length } ∧
        ∀ cp, KeyMap.find cp m = ((glyphs.filter fun g => g.1 == cp).getLast?).map Prod.snd

end
end

