-- ==== Sys2Proof/Laws/Memory.lean ====
section
/-! SUPPORT. The laws of the byte memory: reads after writes, the canonical form, which every operation keeps, and that memories in
canonical form that read alike are equal. -/

namespace Sys2Proof.Machine.Memory

@[simp] theorem read_nil (a : Nat) : read [] a = unlisted := rfl

theorem read_write_same (m : Memory) (a : Nat) (v : Byte) (lo : Nat) (hw : wfFrom lo m = true) : read (write m a v) a = v := by
  induction m generalizing lo with
  | nil => by_cases h : v = unlisted <;> simp [write, read, h]
  | cons c rest ih =>
    obtain ⟨b, w⟩ := c
    simp only [wfFrom, Bool.and_eq_true, decide_eq_true_eq] at hw
    have hbelow : ∀ (k : Nat) (n : Memory), wfFrom k n = true → ∀ x, x < k → read n x = unlisted := by
      intro k n
      induction n generalizing k with
      | nil => simp [read]
      | cons d t iht =>
        obtain ⟨e, u⟩ := d
        intro h x hx
        simp only [wfFrom, Bool.and_eq_true, decide_eq_true_eq] at h
        simp only [read]
        rw [if_neg (by omega)]
        exact iht (e + 1) h.2 x (by omega)
    unfold write
    split
    · split
      · rename_i h1 h2
        subst h2
        simp only [read]
        rw [if_neg (by omega)]
        exact hbelow (b + 1) rest hw.2 a (by omega)
      · simp [read]
    · split
      · split
        · rename_i h1 h2 h3
          subst h3
          exact hbelow (b + 1) rest hw.2 a (by omega)
        · simp [read]
      · rename_i h1 h2
        simp only [read, if_neg h2]
        exact ih (b + 1) hw.2

/-- Below the first address everything is unlisted. -/
theorem read_below {m : Memory} {lo a : Nat} (hw : wfFrom lo m = true) (ha : a < lo) : read m a = unlisted := by
  induction m generalizing lo with
  | nil => rfl
  | cons c rest ih =>
    obtain ⟨b, w⟩ := c
    simp only [wfFrom, Bool.and_eq_true, decide_eq_true_eq] at hw
    simp only [read]
    rw [if_neg (by omega)]
    exact ih hw.2 (by omega)

theorem read_write_other (m : Memory) (a x : Nat) (v : Byte) (lo : Nat) (hw : wfFrom lo m = true) (hx : x ≠ a) :
    read (write m a v) x = read m x := by
  induction m generalizing lo with
  | nil => by_cases h : v = unlisted <;> simp [write, read, h, hx]
  | cons c rest ih =>
    obtain ⟨b, w⟩ := c
    simp only [wfFrom, Bool.and_eq_true, decide_eq_true_eq] at hw
    unfold write
    split
    · split
      · rfl
      · simp [read, hx]
    · split
      · rename_i h1 h2
        subst h2
        split
        · simp [read, hx]
        · simp [read, hx]
      · simp only [read]
        split
        · rfl
        · exact ih (b + 1) hw.2

theorem wfFrom_mono {m : Memory} {lo hi : Nat} (h : lo ≤ hi) (hw : wfFrom hi m = true) : wfFrom lo m = true := by
  cases m with
  | nil => rfl
  | cons c rest =>
    simp only [wfFrom, Bool.and_eq_true, decide_eq_true_eq] at hw ⊢
    exact ⟨⟨by omega, hw.1.2⟩, hw.2⟩

theorem wfFrom_write {m : Memory} {lo a : Nat} {v : Byte} (hw : wfFrom lo m = true) (ha : lo ≤ a) :
    wfFrom lo (write m a v) = true := by
  induction m generalizing lo with
  | nil => by_cases h : v = unlisted <;> simp [write, wfFrom, h, ha]
  | cons c rest ih =>
    obtain ⟨b, w⟩ := c
    have hw' := hw
    simp only [wfFrom, Bool.and_eq_true, decide_eq_true_eq] at hw
    unfold write
    split
    · split
      · exact hw'
      · rename_i h1 h2
        simp only [wfFrom, Bool.and_eq_true, decide_eq_true_eq, bne_iff_ne]
        refine ⟨⟨ha, h2⟩, ⟨by omega, by simpa using hw.1.2⟩, hw.2⟩
    · split
      · split
        · exact wfFrom_mono (by omega) hw.2
        · rename_i h1 h2 h3
          subst h2
          simp only [wfFrom, Bool.and_eq_true, decide_eq_true_eq, bne_iff_ne]
          exact ⟨⟨ha, h3⟩, hw.2⟩
      · simp only [wfFrom, Bool.and_eq_true, decide_eq_true_eq]
        exact ⟨hw.1, ih hw.2 (by omega)⟩

/-- A write keeps the canonical form. -/
theorem wf_write {m : Memory} (a : Nat) (v : Byte) (hw : wf m = true) : wf (write m a v) = true :=
  wfFrom_write hw (Nat.zero_le a)

theorem wf_nil : wf [] = true := rfl

/-- A read after a write: the value written, or what was there. -/
theorem read_write {m : Memory} (a x : Nat) (v : Byte) (hw : wf m = true) :
    read (write m a v) x = if x = a then v else read m x := by
  split
  · rename_i h; subst h; exact read_write_same m x v 0 hw
  · rename_i h; exact read_write_other m a x v 0 hw h

theorem wfFrom_ofBytesFrom (a : Nat) (vs : List Byte) : wfFrom a (ofBytesFrom a vs) = true := by
  induction vs generalizing a with
  | nil => rfl
  | cons v vs ih =>
    unfold ofBytesFrom
    split
    · exact wfFrom_mono (Nat.le_succ a) (ih (a + 1))
    · rename_i h
      simp only [wfFrom, Bool.and_eq_true, decide_eq_true_eq, bne_iff_ne]
      exact ⟨⟨Nat.le_refl a, h⟩, ih (a + 1)⟩

/-- The memory of a list of bytes is in canonical form. -/
theorem wf_ofBytesFrom (vs : List Byte) : wf (ofBytesFrom 0 vs) = true := wfFrom_ofBytesFrom 0 vs

theorem read_ofBytesFrom (a x : Nat) (vs : List Byte) (h : a ≤ x) : read (ofBytesFrom a vs) x = vs.getD (x - a) 0 := by
  induction vs generalizing a with
  | nil => simp [ofBytesFrom, unlisted]
  | cons v vs ih =>
    by_cases hx : x = a
    · subst hx
      unfold ofBytesFrom
      split
      · rename_i hv
        rw [read_below (wfFrom_ofBytesFrom (x + 1) vs) (Nat.lt_succ_self x)]
        simp [hv]
      · simp [read]
    · have hs : x - a = (x - (a + 1)) + 1 := by omega
      unfold ofBytesFrom
      split
      · rw [ih (a + 1) (by omega), hs]; simp
      · simp only [read, if_neg hx]
        rw [ih (a + 1) (by omega), hs]; simp

theorem below_write {m : Memory} {n a : Nat} {v : Byte} (hm : below n m = true) (ha : a < n) :
    below n (write m a v) = true := by
  induction m with
  | nil => by_cases h : v = unlisted <;> simp [write, below, h, ha]
  | cons c rest ih =>
    obtain ⟨b, w⟩ := c
    simp only [below, List.all_cons, Bool.and_eq_true, decide_eq_true_eq] at hm ih ⊢
    unfold write
    split
    · split
      · simp only [List.all_cons, Bool.and_eq_true, decide_eq_true_eq]; exact hm
      · simp only [List.all_cons, Bool.and_eq_true, decide_eq_true_eq]; exact ⟨ha, hm⟩
    · split
      · split
        · exact hm.2
        · simp only [List.all_cons, Bool.and_eq_true, decide_eq_true_eq]; exact ⟨ha, hm.2⟩
      · simp only [List.all_cons, Bool.and_eq_true, decide_eq_true_eq]
        exact ⟨hm.1, ih hm.2⟩

theorem below_ofBytesFrom (a n : Nat) (vs : List Byte) (h : a + vs.length ≤ n) : below n (ofBytesFrom a vs) = true := by
  induction vs generalizing a with
  | nil => rfl
  | cons v vs ih =>
    simp only [List.length_cons] at h
    have := ih (a + 1) (by omega)
    unfold ofBytesFrom
    split
    · exact this
    · simp only [below, List.all_cons, Bool.and_eq_true, decide_eq_true_eq] at this ⊢
      exact ⟨by omega, this⟩

theorem read_of_below {m : Memory} {n a : Nat} (hm : below n m = true) (ha : n ≤ a) : read m a = unlisted := by
  induction m with
  | nil => rfl
  | cons c rest ih =>
    obtain ⟨b, w⟩ := c
    simp only [below, List.all_cons, Bool.and_eq_true, decide_eq_true_eq] at hm ih
    simp only [read]
    rw [if_neg (by omega)]
    exact ih hm.2

theorem ext_from {m m' : Memory} {lo : Nat} (hw : wfFrom lo m = true) (hw' : wfFrom lo m' = true)
    (h : ∀ a, read m a = read m' a) : m = m' := by
  induction m generalizing lo m' with
  | nil =>
    cases m' with
    | nil => rfl
    | cons c rest =>
      obtain ⟨b, w⟩ := c
      simp only [wfFrom, Bool.and_eq_true, bne_iff_ne] at hw'
      have := h b
      simp only [read, if_true] at this
      exact absurd this.symm hw'.1.2
  | cons c rest ih =>
    obtain ⟨b, w⟩ := c
    simp only [wfFrom, Bool.and_eq_true, decide_eq_true_eq, bne_iff_ne] at hw
    cases m' with
    | nil =>
      have := h b
      simp only [read, if_true] at this
      exact absurd this hw.1.2
    | cons c' rest' =>
      obtain ⟨b', w'⟩ := c'
      simp only [wfFrom, Bool.and_eq_true, decide_eq_true_eq, bne_iff_ne] at hw'
      have hb : b = b' := by
        rcases Nat.lt_trichotomy b b' with hlt | heq | hgt
        · have := h b
          simp only [read, if_true, if_neg (Nat.ne_of_lt hlt)] at this
          rw [read_below hw'.2 (by omega)] at this
          exact absurd this hw.1.2
        · exact heq
        · have := h b'
          simp only [read, if_true, if_neg (Nat.ne_of_lt hgt)] at this
          rw [read_below hw.2 (by omega)] at this
          exact absurd this.symm hw'.1.2
      subst hb
      have hv : w = w' := by simpa [read] using h b
      subst hv
      congr 1
      refine ih hw.2 hw'.2 fun a => ?_
      by_cases ha : a = b
      · subst ha
        rw [read_below hw.2 (Nat.lt_succ_self a), read_below hw'.2 (Nat.lt_succ_self a)]
      · simpa [read, ha] using h a

/-- Memories in canonical form that read alike are equal data. -/
theorem ext {m m' : Memory} (hw : wf m = true) (hw' : wf m' = true) (h : ∀ a, read m a = read m' a) : m = m' :=
  ext_from hw hw' h

@[simp] theorem length_toBytes (n : Nat) (m : Memory) : (toBytes n m).length = n := by simp [toBytes]

theorem getD_toBytes {n i : Nat} (m : Memory) (h : i < n) : (toBytes n m).getD i 0 = read m i := by
  simp [toBytes, List.getD_eq_getElem?_getD, h]

theorem toBytes_nil (n : Nat) : toBytes n [] = List.replicate n 0 := by
  simp [toBytes, read, unlisted, List.map_const']

/-- The reset memory lists nothing and is in canonical form. -/
theorem wf_reset : wf State.reset.fb = true := rfl

end Sys2Proof.Machine.Memory
end

