-- ==== Sys2Proof/Laws/Pixel.lean ====
section
/-! SUPPORT. The laws of the pixels (20_memory.md R81 to R83): the two nibbles of a byte, the index of a pixel, and reads after stores. -/

namespace Sys2Proof.Machine

theorem highNibble_append (c d : Intensity) : highNibble (c ++ d) = c := by
  revert c d; decide

theorem lowNibble_append (c d : Intensity) : lowNibble (c ++ d) = d := by
  revert c d; decide

/-- The nibble written is read back; the nibble of the other column parity is kept. -/
theorem nibbleOf_putNibble (b : Byte) (x y : Nat) (c : Intensity) :
    nibbleOf (putNibble b x c) y = if x % 2 = y % 2 then c else nibbleOf b y := by
  unfold nibbleOf putNibble
  rcases Nat.mod_two_eq_zero_or_one x with hx | hx <;> rcases Nat.mod_two_eq_zero_or_one y with hy | hy <;>
    simp [hx, hy, highNibble_append, lowNibble_append]

/-- Four columns to a group. -/
theorem width_eq {c : Config} (h : c.Ok) : c.width = 4 * c.hc := by
  have := h.1.2
  unfold Config.hc
  omega

theorem hc_pos {c : Config} (h : c.Ok) : 0 < c.hc := by
  have h1 := width_eq h
  have := h.1.1
  omega

/-- A pixel of the raster by its coordinates. -/
theorem inBounds_iff {c : Config} {x y : Int} :
    inBounds c x y = true ↔ 0 ≤ x ∧ x < c.width ∧ 0 ≤ y ∧ y < c.height := by simp [inBounds]

/-- The index of a pixel of the raster is an index of the framebuffer. -/
theorem idx_lt {c : Config} (h : c.Ok) {x y : Nat} (hx : x < c.width) (hy : y < c.height) : idx c x y < c.fbSize := by
  have h1 := width_eq h
  have h2 : x / 2 < 2 * c.hc := by omega
  have h3 : 2 * c.hc * (y + 1) ≤ 2 * c.hc * c.height := Nat.mul_le_mul_left _ hy
  unfold idx Config.fbSize
  rw [Nat.mul_comm c.hc 2]
  rw [Nat.mul_add] at h3
  omega

/-- Two pixels share a byte exactly when they are a pair of one row. -/
theorem idx_inj {c : Config} (h : c.Ok) {x y x' y' : Nat} (hx : x < c.width) (hx' : x' < c.width) :
    idx c x y = idx c x' y' ↔ x / 2 = x' / 2 ∧ y = y' := by
  have h1 := width_eq h
  have h2 : x / 2 < c.hc * 2 := by omega
  have h2' : x' / 2 < c.hc * 2 := by omega
  have hpos : 0 < c.hc * 2 := by have := hc_pos h; omega
  constructor
  · intro he
    unfold idx at he
    have hd := congrArg (· / (c.hc * 2)) he
    simp only [Nat.add_mul_div_left _ _ hpos, Nat.div_eq_of_lt h2, Nat.div_eq_of_lt h2', Nat.zero_add] at hd
    subst hd
    exact ⟨by omega, rfl⟩
  · rintro ⟨ha, rfl⟩
    simp [idx, ha]

/-- A byte read after a pixel store. -/
theorem read_pixStore {c : Config} {fb : Memory} (hw : Memory.wf fb = true) (x y a : Nat) (v : Intensity) :
    Memory.read (pixStore c fb x y v) a =
      if a = idx c x y then putNibble (Memory.read fb (idx c x y)) x v else Memory.read fb a := by
  unfold pixStore; exact Memory.read_write _ _ _ hw

/-- A pixel read after a pixel store: the value stored, or what was there. -/
theorem pixRead_pixStore {c : Config} (h : c.Ok) {fb : Memory} (hw : Memory.wf fb = true) {x y x' y' : Nat}
    (hx : x < c.width) (hx' : x' < c.width) (v : Intensity) :
    pixRead c (pixStore c fb x y v) x' y' = if x' = x ∧ y' = y then v else pixRead c fb x' y' := by
  unfold pixRead
  rw [read_pixStore hw]
  by_cases hi : idx c x' y' = idx c x y
  · rw [if_pos hi, nibbleOf_putNibble, hi]
    obtain ⟨h1, h2⟩ := (idx_inj h hx' hx).mp hi
    by_cases hp : x % 2 = x' % 2
    · rw [if_pos hp, if_pos ⟨by omega, h2⟩]
    · rw [if_neg hp, if_neg (fun hh => hp (by rw [hh.1]))]
  · rw [if_neg hi, if_neg]
    rintro ⟨rfl, rfl⟩
    exact hi rfl

theorem wf_pixStore {c : Config} {fb : Memory} (hw : Memory.wf fb = true) (x y : Nat) (v : Intensity) :
    Memory.wf (pixStore c fb x y v) = true := Memory.wf_write _ _ hw

theorem below_pixStore {c : Config} (h : c.Ok) {fb : Memory} (hb : Memory.below c.fbSize fb = true) {x y : Nat}
    (hx : x < c.width) (hy : y < c.height) (v : Intensity) : Memory.below c.fbSize (pixStore c fb x y v) = true :=
  Memory.below_write hb (idx_lt h hx hy)

end Sys2Proof.Machine
end

