-- ==== Sys2Proof/Laws/State.lean ====
section
/-! SUPPORT. What each named update of `State` does to each field, one lemma per field per update, so that a proof about a
meaning never unfolds one; and the same for the pushes of a response, whose record and destination depend on the room in `RESPQ`. -/

namespace Sys2Proof.Machine.State

/-! ### `State.hold` -/

@[simp] theorem hold_cfg (h : Hold) (s : State) : (s.hold h).cfg = s.cfg := rfl
@[simp] theorem hold_fb (h : Hold) (s : State) : (s.hold h).fb = s.fb := rfl
@[simp] theorem hold_cx (h : Hold) (s : State) : (s.hold h).cx = s.cx := rfl
@[simp] theorem hold_cy (h : Hold) (s : State) : (s.hold h).cy = s.cy := rfl
@[simp] theorem hold_ctrl (h : Hold) (s : State) : (s.hold h).ctrl = s.ctrl := rfl
@[simp] theorem hold_inFlight (h : Hold) (s : State) : (s.hold h).inFlight = s.inFlight := rfl
@[simp] theorem hold_seqStage (h : Hold) (s : State) : (s.hold h).seqStage = s.seqStage := rfl
@[simp] theorem hold_seqSteps (h : Hold) (s : State) : (s.hold h).seqSteps = s.seqSteps := rfl
@[simp] theorem hold_seqPos (h : Hold) (s : State) : (s.hold h).seqPos = s.seqPos := rfl
@[simp] theorem hold_seqDone (h : Hold) (s : State) : (s.hold h).seqDone = s.seqDone := rfl
@[simp] theorem hold_seqPending (h : Hold) (s : State) : (s.hold h).seqPending = s.seqPending := rfl
@[simp] theorem hold_snap (h : Hold) (s : State) : (s.hold h).snap = s.snap := rfl
@[simp] theorem hold_phase (h : Hold) (s : State) : (s.hold h).phase = s.phase := rfl
@[simp] theorem hold_resetOut (h : Hold) (s : State) : (s.hold h).resetOut = s.resetOut := rfl
@[simp] theorem hold_ffontValid (h : Hold) (s : State) : (s.hold h).ffontValid = s.ffontValid := rfl
@[simp] theorem hold_ffWidth (h : Hold) (s : State) : (s.hold h).ffWidth = s.ffWidth := rfl
@[simp] theorem hold_ffAlpha (h : Hold) (s : State) : (s.hold h).ffAlpha = s.ffAlpha := rfl
@[simp] theorem hold_ffData (h : Hold) (s : State) : (s.hold h).ffData = s.ffData := rfl
@[simp] theorem hold_hfState (h : Hold) (s : State) : (s.hold h).hfState = s.hfState := rfl
@[simp] theorem hold_hf (h : Hold) (s : State) : (s.hold h).hf = s.hf := rfl
@[simp] theorem hold_cacheValid (h : Hold) (s : State) : (s.hold h).cacheValid = s.cacheValid := rfl
@[simp] theorem hold_cache (h : Hold) (s : State) : (s.hold h).cache = s.cache := rfl
@[simp] theorem hold_warnCount (h : Hold) (s : State) : (s.hold h).warnCount = s.warnCount := rfl
@[simp] theorem hold_lastMissing (h : Hold) (s : State) : (s.hold h).lastMissing = s.lastMissing := rfl
@[simp] theorem hold_cmdq (h : Hold) (s : State) : (s.hold h).cmdq = s.cmdq := rfl
@[simp] theorem hold_respq (h : Hold) (s : State) : (s.hold h).respq = s.respq := rfl
@[simp] theorem hold_proc (h : Hold) (s : State) : (s.hold h).proc = .executing h := rfl
@[simp] theorem hold_respIE (h : Hold) (s : State) : (s.hold h).respIE = s.respIE := rfl
@[simp] theorem hold_busWrite (h : Hold) (s : State) : (s.hold h).busWrite = s.busWrite := rfl
@[simp] theorem hold_busRead (h : Hold) (s : State) : (s.hold h).busRead = s.busRead := rfl
@[simp] theorem hold_env (h : Hold) (s : State) : (s.hold h).env = s.env := rfl
@[simp] theorem hold_trace (h : Hold) (s : State) : (s.hold h).trace = s.trace := rfl

/-! ### `State.leave` -/

@[simp] theorem leave_cfg (s : State) : (s.leave).cfg = s.cfg := rfl
@[simp] theorem leave_fb (s : State) : (s.leave).fb = s.fb := rfl
@[simp] theorem leave_cx (s : State) : (s.leave).cx = s.cx := rfl
@[simp] theorem leave_cy (s : State) : (s.leave).cy = s.cy := rfl
@[simp] theorem leave_ctrl (s : State) : (s.leave).ctrl = s.ctrl := rfl
@[simp] theorem leave_inFlight (s : State) : (s.leave).inFlight = s.inFlight := rfl
@[simp] theorem leave_seqStage (s : State) : (s.leave).seqStage = s.seqStage := rfl
@[simp] theorem leave_seqSteps (s : State) : (s.leave).seqSteps = s.seqSteps := rfl
@[simp] theorem leave_seqPos (s : State) : (s.leave).seqPos = s.seqPos := rfl
@[simp] theorem leave_seqDone (s : State) : (s.leave).seqDone = s.seqDone := rfl
@[simp] theorem leave_seqPending (s : State) : (s.leave).seqPending = s.seqPending := rfl
@[simp] theorem leave_snap (s : State) : (s.leave).snap = s.snap := rfl
@[simp] theorem leave_phase (s : State) : (s.leave).phase = s.phase := rfl
@[simp] theorem leave_resetOut (s : State) : (s.leave).resetOut = s.resetOut := rfl
@[simp] theorem leave_ffontValid (s : State) : (s.leave).ffontValid = s.ffontValid := rfl
@[simp] theorem leave_ffWidth (s : State) : (s.leave).ffWidth = s.ffWidth := rfl
@[simp] theorem leave_ffAlpha (s : State) : (s.leave).ffAlpha = s.ffAlpha := rfl
@[simp] theorem leave_ffData (s : State) : (s.leave).ffData = s.ffData := rfl
@[simp] theorem leave_hfState (s : State) : (s.leave).hfState = s.hfState := rfl
@[simp] theorem leave_hf (s : State) : (s.leave).hf = s.hf := rfl
@[simp] theorem leave_cacheValid (s : State) : (s.leave).cacheValid = s.cacheValid := rfl
@[simp] theorem leave_cache (s : State) : (s.leave).cache = s.cache := rfl
@[simp] theorem leave_warnCount (s : State) : (s.leave).warnCount = s.warnCount := rfl
@[simp] theorem leave_lastMissing (s : State) : (s.leave).lastMissing = s.lastMissing := rfl
@[simp] theorem leave_cmdq (s : State) : (s.leave).cmdq = s.cmdq := rfl
@[simp] theorem leave_respq (s : State) : (s.leave).respq = s.respq := rfl
@[simp] theorem leave_proc (s : State) : (s.leave).proc = .idle := rfl
@[simp] theorem leave_respIE (s : State) : (s.leave).respIE = s.respIE := rfl
@[simp] theorem leave_busWrite (s : State) : (s.leave).busWrite = s.busWrite := rfl
@[simp] theorem leave_busRead (s : State) : (s.leave).busRead = s.busRead := rfl
@[simp] theorem leave_env (s : State) : (s.leave).env = s.env := rfl
@[simp] theorem leave_trace (s : State) : (s.leave).trace = s.trace := rfl

/-! ### `State.popTo` -/

@[simp] theorem popTo_cfg (rest : List Word) (s : State) : (s.popTo rest).cfg = s.cfg := rfl
@[simp] theorem popTo_fb (rest : List Word) (s : State) : (s.popTo rest).fb = s.fb := rfl
@[simp] theorem popTo_cx (rest : List Word) (s : State) : (s.popTo rest).cx = s.cx := rfl
@[simp] theorem popTo_cy (rest : List Word) (s : State) : (s.popTo rest).cy = s.cy := rfl
@[simp] theorem popTo_ctrl (rest : List Word) (s : State) : (s.popTo rest).ctrl = s.ctrl := rfl
@[simp] theorem popTo_inFlight (rest : List Word) (s : State) : (s.popTo rest).inFlight = s.inFlight := rfl
@[simp] theorem popTo_seqStage (rest : List Word) (s : State) : (s.popTo rest).seqStage = s.seqStage := rfl
@[simp] theorem popTo_seqSteps (rest : List Word) (s : State) : (s.popTo rest).seqSteps = s.seqSteps := rfl
@[simp] theorem popTo_seqPos (rest : List Word) (s : State) : (s.popTo rest).seqPos = s.seqPos := rfl
@[simp] theorem popTo_seqDone (rest : List Word) (s : State) : (s.popTo rest).seqDone = s.seqDone := rfl
@[simp] theorem popTo_seqPending (rest : List Word) (s : State) : (s.popTo rest).seqPending = s.seqPending := rfl
@[simp] theorem popTo_snap (rest : List Word) (s : State) : (s.popTo rest).snap = s.snap := rfl
@[simp] theorem popTo_phase (rest : List Word) (s : State) : (s.popTo rest).phase = s.phase := rfl
@[simp] theorem popTo_resetOut (rest : List Word) (s : State) : (s.popTo rest).resetOut = s.resetOut := rfl
@[simp] theorem popTo_ffontValid (rest : List Word) (s : State) : (s.popTo rest).ffontValid = s.ffontValid := rfl
@[simp] theorem popTo_ffWidth (rest : List Word) (s : State) : (s.popTo rest).ffWidth = s.ffWidth := rfl
@[simp] theorem popTo_ffAlpha (rest : List Word) (s : State) : (s.popTo rest).ffAlpha = s.ffAlpha := rfl
@[simp] theorem popTo_ffData (rest : List Word) (s : State) : (s.popTo rest).ffData = s.ffData := rfl
@[simp] theorem popTo_hfState (rest : List Word) (s : State) : (s.popTo rest).hfState = s.hfState := rfl
@[simp] theorem popTo_hf (rest : List Word) (s : State) : (s.popTo rest).hf = s.hf := rfl
@[simp] theorem popTo_cacheValid (rest : List Word) (s : State) : (s.popTo rest).cacheValid = s.cacheValid := rfl
@[simp] theorem popTo_cache (rest : List Word) (s : State) : (s.popTo rest).cache = s.cache := rfl
@[simp] theorem popTo_warnCount (rest : List Word) (s : State) : (s.popTo rest).warnCount = s.warnCount := rfl
@[simp] theorem popTo_lastMissing (rest : List Word) (s : State) : (s.popTo rest).lastMissing = s.lastMissing := rfl
@[simp] theorem popTo_cmdq (rest : List Word) (s : State) : (s.popTo rest).cmdq = rest := rfl
@[simp] theorem popTo_respq (rest : List Word) (s : State) : (s.popTo rest).respq = s.respq := rfl
@[simp] theorem popTo_proc (rest : List Word) (s : State) : (s.popTo rest).proc = s.proc := rfl
@[simp] theorem popTo_respIE (rest : List Word) (s : State) : (s.popTo rest).respIE = s.respIE := rfl
@[simp] theorem popTo_busWrite (rest : List Word) (s : State) : (s.popTo rest).busWrite = none := rfl
@[simp] theorem popTo_busRead (rest : List Word) (s : State) : (s.popTo rest).busRead = s.busRead := rfl
@[simp] theorem popTo_env (rest : List Word) (s : State) : (s.popTo rest).env = s.env := rfl
@[simp] theorem popTo_trace (rest : List Word) (s : State) : (s.popTo rest).trace = s.trace := rfl

/-! ### `State.startSeq` -/

@[simp] theorem startSeq_cfg (steps : List SeqStep) (d : SeqDone) (s : State) :
    (s.startSeq steps d).cfg = s.cfg := rfl
@[simp] theorem startSeq_fb (steps : List SeqStep) (d : SeqDone) (s : State) : (s.startSeq steps d).fb = s.fb := rfl
@[simp] theorem startSeq_cx (steps : List SeqStep) (d : SeqDone) (s : State) : (s.startSeq steps d).cx = s.cx := rfl
@[simp] theorem startSeq_cy (steps : List SeqStep) (d : SeqDone) (s : State) : (s.startSeq steps d).cy = s.cy := rfl
@[simp] theorem startSeq_ctrl (steps : List SeqStep) (d : SeqDone) (s : State) :
    (s.startSeq steps d).ctrl = s.ctrl := rfl
@[simp] theorem startSeq_inFlight (steps : List SeqStep) (d : SeqDone) (s : State) :
    (s.startSeq steps d).inFlight = s.inFlight := rfl
@[simp] theorem startSeq_seqStage (steps : List SeqStep) (d : SeqDone) (s : State) :
    (s.startSeq steps d).seqStage = .playing := rfl
@[simp] theorem startSeq_seqSteps (steps : List SeqStep) (d : SeqDone) (s : State) :
    (s.startSeq steps d).seqSteps = steps := rfl
@[simp] theorem startSeq_seqPos (steps : List SeqStep) (d : SeqDone) (s : State) :
    (s.startSeq steps d).seqPos = 0 := rfl
@[simp] theorem startSeq_seqDone (steps : List SeqStep) (d : SeqDone) (s : State) :
    (s.startSeq steps d).seqDone = some d := rfl
@[simp] theorem startSeq_seqPending (steps : List SeqStep) (d : SeqDone) (s : State) :
    (s.startSeq steps d).seqPending = none := rfl
@[simp] theorem startSeq_snap (steps : List SeqStep) (d : SeqDone) (s : State) :
    (s.startSeq steps d).snap = s.snap := rfl
@[simp] theorem startSeq_phase (steps : List SeqStep) (d : SeqDone) (s : State) :
    (s.startSeq steps d).phase = s.phase := rfl
@[simp] theorem startSeq_resetOut (steps : List SeqStep) (d : SeqDone) (s : State) :
    (s.startSeq steps d).resetOut = s.resetOut := rfl
@[simp] theorem startSeq_ffontValid (steps : List SeqStep) (d : SeqDone) (s : State) :
    (s.startSeq steps d).ffontValid = s.ffontValid := rfl
@[simp] theorem startSeq_ffWidth (steps : List SeqStep) (d : SeqDone) (s : State) :
    (s.startSeq steps d).ffWidth = s.ffWidth := rfl
@[simp] theorem startSeq_ffAlpha (steps : List SeqStep) (d : SeqDone) (s : State) :
    (s.startSeq steps d).ffAlpha = s.ffAlpha := rfl
@[simp] theorem startSeq_ffData (steps : List SeqStep) (d : SeqDone) (s : State) :
    (s.startSeq steps d).ffData = s.ffData := rfl
@[simp] theorem startSeq_hfState (steps : List SeqStep) (d : SeqDone) (s : State) :
    (s.startSeq steps d).hfState = s.hfState := rfl
@[simp] theorem startSeq_hf (steps : List SeqStep) (d : SeqDone) (s : State) : (s.startSeq steps d).hf = s.hf := rfl
@[simp] theorem startSeq_cacheValid (steps : List SeqStep) (d : SeqDone) (s : State) :
    (s.startSeq steps d).cacheValid = s.cacheValid := rfl
@[simp] theorem startSeq_cache (steps : List SeqStep) (d : SeqDone) (s : State) :
    (s.startSeq steps d).cache = s.cache := rfl
@[simp] theorem startSeq_warnCount (steps : List SeqStep) (d : SeqDone) (s : State) :
    (s.startSeq steps d).warnCount = s.warnCount := rfl
@[simp] theorem startSeq_lastMissing (steps : List SeqStep) (d : SeqDone) (s : State) :
    (s.startSeq steps d).lastMissing = s.lastMissing := rfl
@[simp] theorem startSeq_cmdq (steps : List SeqStep) (d : SeqDone) (s : State) :
    (s.startSeq steps d).cmdq = s.cmdq := rfl
@[simp] theorem startSeq_respq (steps : List SeqStep) (d : SeqDone) (s : State) :
    (s.startSeq steps d).respq = s.respq := rfl
@[simp] theorem startSeq_proc (steps : List SeqStep) (d : SeqDone) (s : State) :
    (s.startSeq steps d).proc = s.proc := rfl
@[simp] theorem startSeq_respIE (steps : List SeqStep) (d : SeqDone) (s : State) :
    (s.startSeq steps d).respIE = s.respIE := rfl
@[simp] theorem startSeq_busWrite (steps : List SeqStep) (d : SeqDone) (s : State) :
    (s.startSeq steps d).busWrite = s.busWrite := rfl
@[simp] theorem startSeq_busRead (steps : List SeqStep) (d : SeqDone) (s : State) :
    (s.startSeq steps d).busRead = s.busRead := rfl
@[simp] theorem startSeq_env (steps : List SeqStep) (d : SeqDone) (s : State) :
    (s.startSeq steps d).env = s.env := rfl
@[simp] theorem startSeq_trace (steps : List SeqStep) (d : SeqDone) (s : State) :
    (s.startSeq steps d).trace = s.trace := rfl

/-! ### `State.releaseSeq` -/

@[simp] theorem releaseSeq_cfg (s : State) : (s.releaseSeq).cfg = s.cfg := rfl
@[simp] theorem releaseSeq_fb (s : State) : (s.releaseSeq).fb = s.fb := rfl
@[simp] theorem releaseSeq_cx (s : State) : (s.releaseSeq).cx = s.cx := rfl
@[simp] theorem releaseSeq_cy (s : State) : (s.releaseSeq).cy = s.cy := rfl
@[simp] theorem releaseSeq_ctrl (s : State) : (s.releaseSeq).ctrl = s.ctrl := rfl
@[simp] theorem releaseSeq_inFlight (s : State) : (s.releaseSeq).inFlight = s.inFlight := rfl
@[simp] theorem releaseSeq_seqStage (s : State) : (s.releaseSeq).seqStage = .idle := rfl
@[simp] theorem releaseSeq_seqSteps (s : State) : (s.releaseSeq).seqSteps = [] := rfl
@[simp] theorem releaseSeq_seqPos (s : State) : (s.releaseSeq).seqPos = 0 := rfl
@[simp] theorem releaseSeq_seqDone (s : State) : (s.releaseSeq).seqDone = none := rfl
@[simp] theorem releaseSeq_seqPending (s : State) : (s.releaseSeq).seqPending = none := rfl
@[simp] theorem releaseSeq_snap (s : State) : (s.releaseSeq).snap = s.snap := rfl
@[simp] theorem releaseSeq_phase (s : State) : (s.releaseSeq).phase = s.phase := rfl
@[simp] theorem releaseSeq_resetOut (s : State) : (s.releaseSeq).resetOut = s.resetOut := rfl
@[simp] theorem releaseSeq_ffontValid (s : State) : (s.releaseSeq).ffontValid = s.ffontValid := rfl
@[simp] theorem releaseSeq_ffWidth (s : State) : (s.releaseSeq).ffWidth = s.ffWidth := rfl
@[simp] theorem releaseSeq_ffAlpha (s : State) : (s.releaseSeq).ffAlpha = s.ffAlpha := rfl
@[simp] theorem releaseSeq_ffData (s : State) : (s.releaseSeq).ffData = s.ffData := rfl
@[simp] theorem releaseSeq_hfState (s : State) : (s.releaseSeq).hfState = s.hfState := rfl
@[simp] theorem releaseSeq_hf (s : State) : (s.releaseSeq).hf = s.hf := rfl
@[simp] theorem releaseSeq_cacheValid (s : State) : (s.releaseSeq).cacheValid = s.cacheValid := rfl
@[simp] theorem releaseSeq_cache (s : State) : (s.releaseSeq).cache = s.cache := rfl
@[simp] theorem releaseSeq_warnCount (s : State) : (s.releaseSeq).warnCount = s.warnCount := rfl
@[simp] theorem releaseSeq_lastMissing (s : State) : (s.releaseSeq).lastMissing = s.lastMissing := rfl
@[simp] theorem releaseSeq_cmdq (s : State) : (s.releaseSeq).cmdq = s.cmdq := rfl
@[simp] theorem releaseSeq_respq (s : State) : (s.releaseSeq).respq = s.respq := rfl
@[simp] theorem releaseSeq_proc (s : State) : (s.releaseSeq).proc = s.proc := rfl
@[simp] theorem releaseSeq_respIE (s : State) : (s.releaseSeq).respIE = s.respIE := rfl
@[simp] theorem releaseSeq_busWrite (s : State) : (s.releaseSeq).busWrite = s.busWrite := rfl
@[simp] theorem releaseSeq_busRead (s : State) : (s.releaseSeq).busRead = s.busRead := rfl
@[simp] theorem releaseSeq_env (s : State) : (s.releaseSeq).env = s.env := rfl
@[simp] theorem releaseSeq_trace (s : State) : (s.releaseSeq).trace = s.trace := rfl

/-! ### `State.issue` -/

@[simp] theorem issue_cfg (st : SeqStep) (s : State) : (s.issue st).cfg = s.cfg := rfl
@[simp] theorem issue_fb (st : SeqStep) (s : State) : (s.issue st).fb = s.fb := rfl
@[simp] theorem issue_cx (st : SeqStep) (s : State) : (s.issue st).cx = s.cx := rfl
@[simp] theorem issue_cy (st : SeqStep) (s : State) : (s.issue st).cy = s.cy := rfl
@[simp] theorem issue_ctrl (st : SeqStep) (s : State) : (s.issue st).ctrl = s.ctrl := rfl
@[simp] theorem issue_inFlight (st : SeqStep) (s : State) : (s.issue st).inFlight = s.inFlight := rfl
@[simp] theorem issue_seqStage (st : SeqStep) (s : State) : (s.issue st).seqStage = s.seqStage := rfl
@[simp] theorem issue_seqSteps (st : SeqStep) (s : State) : (s.issue st).seqSteps = s.seqSteps := rfl
@[simp] theorem issue_seqPos (st : SeqStep) (s : State) : (s.issue st).seqPos = s.seqPos := rfl
@[simp] theorem issue_seqDone (st : SeqStep) (s : State) : (s.issue st).seqDone = s.seqDone := rfl
@[simp] theorem issue_seqPending (st : SeqStep) (s : State) :
    (s.issue st).seqPending = some (st.request s.snap) := rfl
@[simp] theorem issue_snap (st : SeqStep) (s : State) : (s.issue st).snap = s.snap := rfl
@[simp] theorem issue_phase (st : SeqStep) (s : State) : (s.issue st).phase = s.phase := rfl
@[simp] theorem issue_resetOut (st : SeqStep) (s : State) : (s.issue st).resetOut = s.resetOut := rfl
@[simp] theorem issue_ffontValid (st : SeqStep) (s : State) : (s.issue st).ffontValid = s.ffontValid := rfl
@[simp] theorem issue_ffWidth (st : SeqStep) (s : State) : (s.issue st).ffWidth = s.ffWidth := rfl
@[simp] theorem issue_ffAlpha (st : SeqStep) (s : State) : (s.issue st).ffAlpha = s.ffAlpha := rfl
@[simp] theorem issue_ffData (st : SeqStep) (s : State) : (s.issue st).ffData = s.ffData := rfl
@[simp] theorem issue_hfState (st : SeqStep) (s : State) : (s.issue st).hfState = s.hfState := rfl
@[simp] theorem issue_hf (st : SeqStep) (s : State) : (s.issue st).hf = s.hf := rfl
@[simp] theorem issue_cacheValid (st : SeqStep) (s : State) : (s.issue st).cacheValid = s.cacheValid := rfl
@[simp] theorem issue_cache (st : SeqStep) (s : State) : (s.issue st).cache = s.cache := rfl
@[simp] theorem issue_warnCount (st : SeqStep) (s : State) : (s.issue st).warnCount = s.warnCount := rfl
@[simp] theorem issue_lastMissing (st : SeqStep) (s : State) : (s.issue st).lastMissing = s.lastMissing := rfl
@[simp] theorem issue_cmdq (st : SeqStep) (s : State) : (s.issue st).cmdq = s.cmdq := rfl
@[simp] theorem issue_respq (st : SeqStep) (s : State) : (s.issue st).respq = s.respq := rfl
@[simp] theorem issue_proc (st : SeqStep) (s : State) : (s.issue st).proc = s.proc := rfl
@[simp] theorem issue_respIE (st : SeqStep) (s : State) : (s.issue st).respIE = s.respIE := rfl
@[simp] theorem issue_busWrite (st : SeqStep) (s : State) : (s.issue st).busWrite = s.busWrite := rfl
@[simp] theorem issue_busRead (st : SeqStep) (s : State) : (s.issue st).busRead = s.busRead := rfl
@[simp] theorem issue_env (st : SeqStep) (s : State) : (s.issue st).env = s.env := rfl
@[simp] theorem issue_trace (st : SeqStep) (s : State) :
    (s.issue st).trace = .request (st.request s.snap) :: s.trace := rfl

/-! ### `State.warn` -/

@[simp] theorem warn_cfg (ch : Char16) (s : State) : (s.warn ch).cfg = s.cfg := rfl
@[simp] theorem warn_fb (ch : Char16) (s : State) : (s.warn ch).fb = s.fb := rfl
@[simp] theorem warn_cx (ch : Char16) (s : State) : (s.warn ch).cx = s.cx := rfl
@[simp] theorem warn_cy (ch : Char16) (s : State) : (s.warn ch).cy = s.cy := rfl
@[simp] theorem warn_ctrl (ch : Char16) (s : State) : (s.warn ch).ctrl = s.ctrl := rfl
@[simp] theorem warn_inFlight (ch : Char16) (s : State) : (s.warn ch).inFlight = s.inFlight := rfl
@[simp] theorem warn_seqStage (ch : Char16) (s : State) : (s.warn ch).seqStage = s.seqStage := rfl
@[simp] theorem warn_seqSteps (ch : Char16) (s : State) : (s.warn ch).seqSteps = s.seqSteps := rfl
@[simp] theorem warn_seqPos (ch : Char16) (s : State) : (s.warn ch).seqPos = s.seqPos := rfl
@[simp] theorem warn_seqDone (ch : Char16) (s : State) : (s.warn ch).seqDone = s.seqDone := rfl
@[simp] theorem warn_seqPending (ch : Char16) (s : State) : (s.warn ch).seqPending = s.seqPending := rfl
@[simp] theorem warn_snap (ch : Char16) (s : State) : (s.warn ch).snap = s.snap := rfl
@[simp] theorem warn_phase (ch : Char16) (s : State) : (s.warn ch).phase = s.phase := rfl
@[simp] theorem warn_resetOut (ch : Char16) (s : State) : (s.warn ch).resetOut = s.resetOut := rfl
@[simp] theorem warn_ffontValid (ch : Char16) (s : State) : (s.warn ch).ffontValid = s.ffontValid := rfl
@[simp] theorem warn_ffWidth (ch : Char16) (s : State) : (s.warn ch).ffWidth = s.ffWidth := rfl
@[simp] theorem warn_ffAlpha (ch : Char16) (s : State) : (s.warn ch).ffAlpha = s.ffAlpha := rfl
@[simp] theorem warn_ffData (ch : Char16) (s : State) : (s.warn ch).ffData = s.ffData := rfl
@[simp] theorem warn_hfState (ch : Char16) (s : State) : (s.warn ch).hfState = s.hfState := rfl
@[simp] theorem warn_hf (ch : Char16) (s : State) : (s.warn ch).hf = s.hf := rfl
@[simp] theorem warn_cacheValid (ch : Char16) (s : State) : (s.warn ch).cacheValid = s.cacheValid := rfl
@[simp] theorem warn_cache (ch : Char16) (s : State) : (s.warn ch).cache = s.cache := rfl
@[simp] theorem warn_warnCount (ch : Char16) (s : State) :
    (s.warn ch).warnCount = warnedOnce s.warnCount := rfl
@[simp] theorem warn_lastMissing (ch : Char16) (s : State) : (s.warn ch).lastMissing = ch := rfl
@[simp] theorem warn_cmdq (ch : Char16) (s : State) : (s.warn ch).cmdq = s.cmdq := rfl
@[simp] theorem warn_respq (ch : Char16) (s : State) : (s.warn ch).respq = s.respq := rfl
@[simp] theorem warn_proc (ch : Char16) (s : State) : (s.warn ch).proc = s.proc := rfl
@[simp] theorem warn_respIE (ch : Char16) (s : State) : (s.warn ch).respIE = s.respIE := rfl
@[simp] theorem warn_busWrite (ch : Char16) (s : State) : (s.warn ch).busWrite = s.busWrite := rfl
@[simp] theorem warn_busRead (ch : Char16) (s : State) : (s.warn ch).busRead = s.busRead := rfl
@[simp] theorem warn_env (ch : Char16) (s : State) : (s.warn ch).env = s.env := rfl
@[simp] theorem warn_trace (ch : Char16) (s : State) : (s.warn ch).trace = s.trace := rfl

/-! ### `State.pushProc` and `State.pushSeq`: the fields a push never writes -/

@[simp] theorem pushProc_cfg (r : Resp) (s : State) : (s.pushProc r).cfg = s.cfg := by
  unfold pushProc; split <;> rfl
@[simp] theorem pushProc_fb (r : Resp) (s : State) : (s.pushProc r).fb = s.fb := by
  unfold pushProc; split <;> rfl
@[simp] theorem pushProc_cx (r : Resp) (s : State) : (s.pushProc r).cx = s.cx := by
  unfold pushProc; split <;> rfl
@[simp] theorem pushProc_cy (r : Resp) (s : State) : (s.pushProc r).cy = s.cy := by
  unfold pushProc; split <;> rfl
@[simp] theorem pushProc_ctrl (r : Resp) (s : State) : (s.pushProc r).ctrl = s.ctrl := by
  unfold pushProc; split <;> rfl
@[simp] theorem pushProc_inFlight (r : Resp) (s : State) : (s.pushProc r).inFlight = s.inFlight := by
  unfold pushProc; split <;> rfl
@[simp] theorem pushProc_seqStage (r : Resp) (s : State) : (s.pushProc r).seqStage = s.seqStage := by
  unfold pushProc; split <;> rfl
@[simp] theorem pushProc_seqSteps (r : Resp) (s : State) : (s.pushProc r).seqSteps = s.seqSteps := by
  unfold pushProc; split <;> rfl
@[simp] theorem pushProc_seqPos (r : Resp) (s : State) : (s.pushProc r).seqPos = s.seqPos := by
  unfold pushProc; split <;> rfl
@[simp] theorem pushProc_seqDone (r : Resp) (s : State) : (s.pushProc r).seqDone = s.seqDone := by
  unfold pushProc; split <;> rfl
@[simp] theorem pushProc_seqPending (r : Resp) (s : State) : (s.pushProc r).seqPending = s.seqPending := by
  unfold pushProc; split <;> rfl
@[simp] theorem pushProc_snap (r : Resp) (s : State) : (s.pushProc r).snap = s.snap := by
  unfold pushProc; split <;> rfl
@[simp] theorem pushProc_phase (r : Resp) (s : State) : (s.pushProc r).phase = s.phase := by
  unfold pushProc; split <;> rfl
@[simp] theorem pushProc_resetOut (r : Resp) (s : State) : (s.pushProc r).resetOut = s.resetOut := by
  unfold pushProc; split <;> rfl
@[simp] theorem pushProc_ffontValid (r : Resp) (s : State) : (s.pushProc r).ffontValid = s.ffontValid := by
  unfold pushProc; split <;> rfl
@[simp] theorem pushProc_ffWidth (r : Resp) (s : State) : (s.pushProc r).ffWidth = s.ffWidth := by
  unfold pushProc; split <;> rfl
@[simp] theorem pushProc_ffAlpha (r : Resp) (s : State) : (s.pushProc r).ffAlpha = s.ffAlpha := by
  unfold pushProc; split <;> rfl
@[simp] theorem pushProc_ffData (r : Resp) (s : State) : (s.pushProc r).ffData = s.ffData := by
  unfold pushProc; split <;> rfl
@[simp] theorem pushProc_hfState (r : Resp) (s : State) : (s.pushProc r).hfState = s.hfState := by
  unfold pushProc; split <;> rfl
@[simp] theorem pushProc_hf (r : Resp) (s : State) : (s.pushProc r).hf = s.hf := by
  unfold pushProc; split <;> rfl
@[simp] theorem pushProc_cacheValid (r : Resp) (s : State) : (s.pushProc r).cacheValid = s.cacheValid := by
  unfold pushProc; split <;> rfl
@[simp] theorem pushProc_cache (r : Resp) (s : State) : (s.pushProc r).cache = s.cache := by
  unfold pushProc; split <;> rfl
@[simp] theorem pushProc_warnCount (r : Resp) (s : State) : (s.pushProc r).warnCount = s.warnCount := by
  unfold pushProc; split <;> rfl
@[simp] theorem pushProc_lastMissing (r : Resp) (s : State) : (s.pushProc r).lastMissing = s.lastMissing := by
  unfold pushProc; split <;> rfl
@[simp] theorem pushProc_cmdq (r : Resp) (s : State) : (s.pushProc r).cmdq = s.cmdq := by
  unfold pushProc; split <;> rfl
@[simp] theorem pushProc_respIE (r : Resp) (s : State) : (s.pushProc r).respIE = s.respIE := by
  unfold pushProc; split <;> rfl
@[simp] theorem pushProc_busWrite (r : Resp) (s : State) : (s.pushProc r).busWrite = s.busWrite := by
  unfold pushProc; split <;> rfl
@[simp] theorem pushProc_busRead (r : Resp) (s : State) : (s.pushProc r).busRead = s.busRead := by
  unfold pushProc; split <;> rfl
@[simp] theorem pushProc_env (r : Resp) (s : State) : (s.pushProc r).env = s.env := by
  unfold pushProc; split <;> rfl
@[simp] theorem pushProc_trace (r : Resp) (s : State) : (s.pushProc r).trace = s.trace := by
  unfold pushProc; split <;> rfl

@[simp] theorem pushSeq_cfg (r : Resp) (s : State) : (s.pushSeq r).cfg = s.cfg := by
  unfold pushSeq; split <;> rfl
@[simp] theorem pushSeq_fb (r : Resp) (s : State) : (s.pushSeq r).fb = s.fb := by
  unfold pushSeq; split <;> rfl
@[simp] theorem pushSeq_cx (r : Resp) (s : State) : (s.pushSeq r).cx = s.cx := by
  unfold pushSeq; split <;> rfl
@[simp] theorem pushSeq_cy (r : Resp) (s : State) : (s.pushSeq r).cy = s.cy := by
  unfold pushSeq; split <;> rfl
@[simp] theorem pushSeq_ctrl (r : Resp) (s : State) : (s.pushSeq r).ctrl = s.ctrl := by
  unfold pushSeq; split <;> rfl
@[simp] theorem pushSeq_inFlight (r : Resp) (s : State) : (s.pushSeq r).inFlight = s.inFlight := by
  unfold pushSeq; split <;> rfl
@[simp] theorem pushSeq_snap (r : Resp) (s : State) : (s.pushSeq r).snap = s.snap := by
  unfold pushSeq; split <;> rfl
@[simp] theorem pushSeq_phase (r : Resp) (s : State) : (s.pushSeq r).phase = s.phase := by
  unfold pushSeq; split <;> rfl
@[simp] theorem pushSeq_resetOut (r : Resp) (s : State) : (s.pushSeq r).resetOut = s.resetOut := by
  unfold pushSeq; split <;> rfl
@[simp] theorem pushSeq_ffontValid (r : Resp) (s : State) : (s.pushSeq r).ffontValid = s.ffontValid := by
  unfold pushSeq; split <;> rfl
@[simp] theorem pushSeq_ffWidth (r : Resp) (s : State) : (s.pushSeq r).ffWidth = s.ffWidth := by
  unfold pushSeq; split <;> rfl
@[simp] theorem pushSeq_ffAlpha (r : Resp) (s : State) : (s.pushSeq r).ffAlpha = s.ffAlpha := by
  unfold pushSeq; split <;> rfl
@[simp] theorem pushSeq_ffData (r : Resp) (s : State) : (s.pushSeq r).ffData = s.ffData := by
  unfold pushSeq; split <;> rfl
@[simp] theorem pushSeq_hfState (r : Resp) (s : State) : (s.pushSeq r).hfState = s.hfState := by
  unfold pushSeq; split <;> rfl
@[simp] theorem pushSeq_hf (r : Resp) (s : State) : (s.pushSeq r).hf = s.hf := by
  unfold pushSeq; split <;> rfl
@[simp] theorem pushSeq_cacheValid (r : Resp) (s : State) : (s.pushSeq r).cacheValid = s.cacheValid := by
  unfold pushSeq; split <;> rfl
@[simp] theorem pushSeq_cache (r : Resp) (s : State) : (s.pushSeq r).cache = s.cache := by
  unfold pushSeq; split <;> rfl
@[simp] theorem pushSeq_warnCount (r : Resp) (s : State) : (s.pushSeq r).warnCount = s.warnCount := by
  unfold pushSeq; split <;> rfl
@[simp] theorem pushSeq_lastMissing (r : Resp) (s : State) : (s.pushSeq r).lastMissing = s.lastMissing := by
  unfold pushSeq; split <;> rfl
@[simp] theorem pushSeq_cmdq (r : Resp) (s : State) : (s.pushSeq r).cmdq = s.cmdq := by
  unfold pushSeq; split <;> rfl
@[simp] theorem pushSeq_proc (r : Resp) (s : State) : (s.pushSeq r).proc = s.proc := by
  unfold pushSeq; split <;> rfl
@[simp] theorem pushSeq_respIE (r : Resp) (s : State) : (s.pushSeq r).respIE = s.respIE := by
  unfold pushSeq; split <;> rfl
@[simp] theorem pushSeq_busWrite (r : Resp) (s : State) : (s.pushSeq r).busWrite = s.busWrite := by
  unfold pushSeq; split <;> rfl
@[simp] theorem pushSeq_busRead (r : Resp) (s : State) : (s.pushSeq r).busRead = s.busRead := by
  unfold pushSeq; split <;> rfl
@[simp] theorem pushSeq_env (r : Resp) (s : State) : (s.pushSeq r).env = s.env := by
  unfold pushSeq; split <;> rfl
@[simp] theorem pushSeq_trace (r : Resp) (s : State) : (s.pushSeq r).trace = s.trace := by
  unfold pushSeq; split <;> rfl

/-- What a push by PROC can do: the record is queued and PROC is idle, or `RESPQ` is full and PROC holds. -/
theorem pushProc_cases (r : Resp) (s : State) :
    (s.respRoom = true ∧ s.pushProc r = { s with respq := s.respq ++ [r], proc := .idle }) ∨
      (s.respRoom = false ∧ s.pushProc r = s.hold (.push r)) := by
  unfold pushProc; cases h : s.respRoom <;> simp

/-- A push by PROC with room. -/
theorem pushProc_room {r : Resp} {s : State} (h : s.respRoom = true) :
    s.pushProc r = { s with respq := s.respq ++ [r], proc := .idle } := by simp [pushProc, h]

/-- A push by PROC onto a full `RESPQ`. -/
theorem pushProc_full {r : Resp} {s : State} (h : s.respRoom = false) : s.pushProc r = s.hold (.push r) := by
  simp [pushProc, h]

/-- What a push by SEQ can do: the record is queued and SEQ is idle, or `RESPQ` is full and SEQ holds. -/
theorem pushSeq_cases (r : Resp) (s : State) :
    (s.respRoom = true ∧ s.pushSeq r = { s.releaseSeq with respq := s.respq ++ [r] }) ∨
      (s.respRoom = false ∧ s.pushSeq r = { s with seqStage := .pushing r }) := by
  unfold pushSeq; cases h : s.respRoom <;> simp

/-- The room in `RESPQ` depends on `RESPQ` and its depth alone. -/
theorem respRoom_congr {s t : State} (hq : t.respq = s.respq) (hc : t.cfg = s.cfg) : t.respRoom = s.respRoom := by
  simp [respRoom, hq, hc]

@[simp] theorem refuse_eq (op tag : Byte) (st : Status) (s : State) :
    s.refuse op tag st = s.pushProc ⟨op, tag, st, 0⟩ := rfl

end Sys2Proof.Machine.State
end

