-- ==== Sys2Proof/Laws/Sequencer.lean ====
section
/-! SUPPORT. What the sequencer can do (40_sequencer_control.md R153 to R158): an answer, a run of steps under any answers, a run of steps
that XPORT accepts, and the traces they leave. -/

namespace Sys2Proof.Machine

/-! ## An answer of XPORT -/

/-- An answer with no request pending changes nothing. -/
theorem answer_none {s : State} (ok : Bool) (h : s.seqPending = none) : s.answer ok = s := by
  unfold State.answer; rw [h]

/-- A request that fails: RunSeq returns `fail`, the phase stays (R153, R155). -/
theorem answer_fail {s : State} {r : Request} (h : s.seqPending = some r) :
    s.answer false =
      { s with seqPending := none, trace := .answered false :: s.trace, seqStage := .returned false } := by
  unfold State.answer; rw [h]; rfl

/-- A request that is accepted: SEQ goes on to the next step, the phase follows a phase step (R153, R155). -/
theorem answer_ok {s : State} {r : Request} (h : s.seqPending = some r) :
    s.answer true =
      { s with
        seqPending := none, trace := .answered true :: s.trace, seqPos := s.seqPos + 1
        phase := r.phaseAfter s.phase } := by
  unfold State.answer; rw [h]; cases r <;> rfl

/-- The phase after an accepted step. -/
theorem phase_of_request (st : SeqStep) (snap : List Byte) (p : Phase) :
    (st.request snap).phaseAfter p = st.phaseAfter p := by cases st <;> rfl

/-- A step that is issued and accepted at once. -/
theorem issue_answer_ok (st : SeqStep) (s : State) (later : List Event) :
    ({ s.issue st with env := later } : State).answer true =
      { s with
        env := later, seqPending := none, seqPos := s.seqPos + 1, phase := st.phaseAfter s.phase
        trace := .answered true :: .request (st.request s.snap) :: s.trace } := by
  rw [answer_ok (r := st.request s.snap) rfl]
  simp only [State.issue, phase_of_request]

/-- A step that is issued and fails at once. -/
theorem issue_answer_fail (st : SeqStep) (s : State) (later : List Event) :
    ({ s.issue st with env := later } : State).answer false =
      { s with
        env := later, seqPending := none, seqStage := .returned false
        trace := .answered false :: .request (st.request s.snap) :: s.trace } := by
  rw [answer_fail (r := st.request s.snap) rfl]
  simp only [State.issue]

/-! ## A run of steps -/

theorem playSteps_nil (s : State) : playSteps [] s = ({ s with seqStage := .returned true }, some true) := rfl

theorem playSteps_cons_ok {st : SeqStep} {rest : List SeqStep} {s : State} {later : List Event}
    (h : s.env = .answer true :: later) :
    playSteps (st :: rest) s =
      playSteps rest
        { s with
          env := later, seqPending := none, seqPos := s.seqPos + 1, phase := st.phaseAfter s.phase
          trace := .answered true :: .request (st.request s.snap) :: s.trace } := by
  rw [← issue_answer_ok, playSteps]
  simp only [State.issue_env, h]

theorem playSteps_cons_fail {st : SeqStep} {rest : List SeqStep} {s : State} {later : List Event}
    (h : s.env = .answer false :: later) :
    playSteps (st :: rest) s =
      ({ s with
          env := later, seqPending := none, seqStage := .returned false
          trace := .answered false :: .request (st.request s.snap) :: s.trace }, some false) := by
  rw [← issue_answer_fail, playSteps]
  simp only [State.issue_env, h]

theorem playSteps_cons_wait {st : SeqStep} {rest : List SeqStep} {s : State}
    (h : ∀ ok later, s.env ≠ .answer ok :: later) : playSteps (st :: rest) s = (s.issue st, none) := by
  unfold playSteps
  simp only [State.issue_env]
  split
  · rename_i later he; exact absurd he (h true later)
  · rename_i later he; exact absurd he (h false later)
  · rfl

/-- The head of the timeline, as a run of steps sees it. -/
theorem env_cases (s : State) :
    (∃ later, s.env = .answer true :: later) ∨ (∃ later, s.env = .answer false :: later) ∨
      ∀ ok later, s.env ≠ .answer ok :: later := by
  cases he : s.env with
  | nil => right; right; intro ok later; simp
  | cons e later =>
    cases e with
    | answer ok =>
      cases ok
      · right; left; exact ⟨later, rfl⟩
      · left; exact ⟨later, rfl⟩
    | _ => right; right; intro ok later'; simp

/-- A run of steps writes only SEQ's registers, the phase, the timeline and the trace. -/
theorem playSteps_frame (steps : List SeqStep) (s : State) :
    (playSteps steps s).1 =
      { s with
        env := (playSteps steps s).1.env, seqStage := (playSteps steps s).1.seqStage
        seqPos := (playSteps steps s).1.seqPos, seqPending := (playSteps steps s).1.seqPending
        phase := (playSteps steps s).1.phase, trace := (playSteps steps s).1.trace } := by
  induction steps generalizing s with
  | nil => rfl
  | cons st rest ih =>
    rcases env_cases s with ⟨later, h⟩ | ⟨later, h⟩ | h
    · rw [playSteps_cons_ok h, ih]
    · rw [playSteps_cons_fail h]
    · rw [playSteps_cons_wait h]; rfl

/-- What a run of steps leaves: it returned, or it waits for the answer to the step it issued. -/
theorem playSteps_stage (steps : List SeqStep) (s : State) (hs : s.seqStage = .playing) (hp : s.seqPending = none)
    (hr : s.seqSteps.drop s.seqPos = steps) (hl : s.seqPos ≤ s.seqSteps.length) :
    (∃ ok, (playSteps steps s).2 = some ok ∧ (playSteps steps s).1.seqStage = .returned ok ∧
        (playSteps steps s).1.seqPending = none) ∨
      ((playSteps steps s).2 = none ∧ (playSteps steps s).1.seqStage = .playing ∧
        (playSteps steps s).1.seqPos ≤ s.seqSteps.length ∧
        ∃ st, s.seqSteps[(playSteps steps s).1.seqPos]? = some st ∧
          (playSteps steps s).1.seqPending = some (st.request s.snap)) := by
  induction steps generalizing s with
  | nil => left; exact ⟨true, rfl, rfl, hp⟩
  | cons st rest ih =>
    have hlt : s.seqPos < s.seqSteps.length := by
      rcases Nat.lt_or_ge s.seqPos s.seqSteps.length with h | h
      · exact h
      · rw [List.drop_eq_nil_of_le h] at hr; cases hr
    have hget : s.seqSteps[s.seqPos]? = some st := by
      have := congrArg List.head? hr
      simpa [List.head?_drop] using this
    have hdrop : s.seqSteps.drop (s.seqPos + 1) = rest := by
      have := congrArg List.tail hr
      simpa [List.tail_drop] using this
    rcases env_cases s with ⟨later, h⟩ | ⟨later, h⟩ | h
    · rw [playSteps_cons_ok h]
      exact ih _ hs rfl hdrop hlt
    · rw [playSteps_cons_fail h]
      left; exact ⟨false, rfl, rfl, rfl⟩
    · rw [playSteps_cons_wait h]
      right; exact ⟨rfl, hs, hl, st, hget, rfl⟩

/-- A run of steps does not move the reset line, and is quiet where the line is high. -/
theorem playSteps_trace (steps : List SeqStep) (s : State) :
    traceLow (playSteps steps s).1.trace = traceLow s.trace ∧
      (traceLow s.trace = false → traceQuiet s.trace = true → traceQuiet (playSteps steps s).1.trace = true) := by
  induction steps generalizing s with
  | nil => exact ⟨rfl, fun _ h => h⟩
  | cons st rest ih =>
    rcases env_cases s with ⟨later, h⟩ | ⟨later, h⟩ | h
    · rw [playSteps_cons_ok h]
      refine ⟨(ih _).1.trans rfl, fun hl hq => (ih _).2 (by simpa [traceLow] using hl) ?_⟩
      simpa [traceQuiet, hl] using hq
    · rw [playSteps_cons_fail h]
      exact ⟨rfl, fun hl hq => by simpa [traceQuiet, hl] using hq⟩
    · rw [playSteps_cons_wait h]
      exact ⟨rfl, fun hl hq => by simpa [State.issue, traceQuiet, hl] using hq⟩

/-! ## A run of steps that XPORT accepts -/

theorem okTrace_cons (snap : List Byte) (st : SeqStep) (rest : List SeqStep) :
    okTrace snap (st :: rest) = okTrace snap rest ++ [.answered true, .request (st.request snap)] := by
  simp [okTrace]

theorem okTrace_append (snap : List Byte) (a b : List SeqStep) :
    okTrace snap (a ++ b) = okTrace snap b ++ okTrace snap a := by
  simp [okTrace]

theorem phaseAfter_append (p : Phase) (a b : List SeqStep) : phaseAfter p (a ++ b) = phaseAfter (phaseAfter p a) b := by
  simp [phaseAfter]

theorem oks_succ (n : Nat) : oks (n + 1) = .answer true :: oks n := rfl

theorem oks_add (m n : Nat) : oks (m + n) = oks m ++ oks n := by simp [oks]

/-- Every step accepted: the sequence returns `ok`, with every request in order on the trace. -/
theorem playSteps_ok (steps : List SeqStep) (s : State) (later : List Event) (h : s.env = oks steps.length ++ later)
    (hp : s.seqPending = none) :
    playSteps steps s =
      ({ s with
          env := later, seqStage := .returned true, seqPos := s.seqPos + steps.length
          phase := phaseAfter s.phase steps, trace := okTrace s.snap steps ++ s.trace }, some true) := by
  induction steps generalizing s with
  | nil =>
    simp only [List.length_nil, oks, List.replicate_zero, List.nil_append] at h
    rw [playSteps_nil]
    simp [h.symm, phaseAfter, okTrace]
  | cons st rest ih =>
    simp only [List.length_cons, oks_succ, List.cons_append] at h
    rw [playSteps_cons_ok h, ih _ rfl rfl]
    simp only [List.length_cons, okTrace_cons, List.append_assoc, List.cons_append, List.nil_append,
      Nat.add_assoc, Nat.add_comm 1, ← hp]
    rfl

/-- A blocking sequence that XPORT accepts. -/
theorem runSeq_ok (steps : List SeqStep) (s : State) (later : List Event) (h : s.env = oks steps.length ++ later) :
    s.runSeq steps =
      ({ s.releaseSeq with
          env := later, phase := phaseAfter s.phase steps, trace := okTrace s.snap steps ++ s.trace }, some true) := by
  unfold State.runSeq
  rw [playSteps_ok steps (s.startSeq steps .toProc) later h rfl]
  rfl

/-! ## A run of steps that XPORT ends -/

theorem failTrace_zero (snap : List Byte) (st : SeqStep) (rest : List SeqStep) :
    failTrace snap (st :: rest) 0 = [.answered false, .request (st.request snap)] := by simp [failTrace, okTrace]

theorem failTrace_succ (snap : List Byte) (st : SeqStep) (rest : List SeqStep) (k : Nat) :
    failTrace snap (st :: rest) (k + 1) = failTrace snap rest k ++ [.answered true, .request (st.request snap)] := by
  simp [failTrace, okTrace_cons]

/-- A sequence that fails behind accepted steps. -/
theorem failTrace_append (snap : List Byte) (a b : List SeqStep) (k : Nat) :
    failTrace snap (a ++ b) (a.length + k) = failTrace snap b k ++ okTrace snap a := by
  induction a with
  | nil => simp [okTrace]
  | cons st a ih =>
    rw [List.cons_append, List.length_cons, Nat.add_right_comm, failTrace_succ, ih, okTrace_cons, List.append_assoc]

/-- A sequence that fails within its first part. -/
theorem failTrace_left (snap : List Byte) (a b : List SeqStep) (k : Nat) (h : k < a.length) :
    failTrace snap (a ++ b) k = failTrace snap a k := by
  unfold failTrace
  rw [List.getElem?_append_left h, List.take_append_of_le_length (by omega)]

/-- The first refused step ends the sequence: the requests up to it are on the trace. -/
theorem playSteps_fail (steps : List SeqStep) (k : Nat) (hk : k < steps.length) (s : State) (later : List Event)
    (h : s.env = oks k ++ .answer false :: later) :
    playSteps steps s =
      ({ s with
          env := later, seqStage := .returned false, seqPos := s.seqPos + k, seqPending := none
          phase := phaseAfter s.phase (steps.take k), trace := failTrace s.snap steps k ++ s.trace }, some false) := by
  induction steps generalizing s k with
  | nil => cases hk
  | cons st rest ih =>
    cases k with
    | zero =>
      rw [playSteps_cons_fail (show s.env = .answer false :: later from h), failTrace_zero]
      rfl
    | succ k =>
      simp only [oks_succ, List.cons_append] at h
      rw [playSteps_cons_ok h, ih k (Nat.lt_of_succ_lt_succ hk) _ rfl]
      simp only [failTrace_succ, List.append_assoc, List.cons_append, List.nil_append, Nat.add_assoc, Nat.add_comm 1,
        List.take_succ_cons]
      rfl

/-- XPORT answers the first steps and no more: SEQ holds for the answer to the next one. -/
theorem playSteps_wait {steps : List SeqStep} {k : Nat} {st : SeqStep} (hk : steps[k]? = some st) (s : State) {later : List Event}
    (h : s.env = oks k ++ later) (hl : ∀ ok, later.head? ≠ some (.answer ok)) (hp : s.seqPending = none) :
    playSteps steps s =
      ({ s with
          env := later, seqPos := s.seqPos + k, seqPending := some (st.request s.snap), phase := phaseAfter s.phase (steps.take k)
          trace := .request (st.request s.snap) :: (okTrace s.snap (steps.take k) ++ s.trace) }, none) := by
  induction steps generalizing s k with
  | nil => cases hk
  | cons a rest ih =>
    cases k with
    | zero =>
      cases hk
      have h' : s.env = later := h
      rw [playSteps_cons_wait fun ok l hx => hl ok (by rw [← h', hx]; rfl), ← h']
      rfl
    | succ k =>
      simp only [oks_succ, List.cons_append] at h
      rw [playSteps_cons_ok h, ih hk _ rfl rfl]
      simp only [List.take_succ_cons, okTrace_cons, List.append_assoc, List.cons_append, List.nil_append, Nat.add_assoc, Nat.add_comm 1]
      rfl

/-- A blocking sequence that XPORT ends. -/
theorem runSeq_fail (steps : List SeqStep) (k : Nat) (hk : k < steps.length) (s : State) (later : List Event)
    (h : s.env = oks k ++ .answer false :: later) :
    s.runSeq steps =
      ({ s.releaseSeq with
          env := later, phase := phaseAfter s.phase (steps.take k), trace := failTrace s.snap steps k ++ s.trace }, some false) := by
  unfold State.runSeq
  rw [playSteps_fail steps k hk (s.startSeq steps .toProc) later h]
  rfl

/-- An idle sequencer has nothing to release. -/
theorem releaseSeq_of_idle {s : State} (h : s.seqIdle) : s.releaseSeq = s := by
  obtain ⟨h1, h2, h3, h4, h5⟩ := h
  unfold State.releaseSeq
  rw [← h1, ← h2, ← h3, ← h4, ← h5]

theorem seqBusy_of_idle {s : State} (h : s.seqIdle) : s.seqBusy = false := by simp [State.seqBusy, h.1]

theorem requestsOf_okTrace (snap : List Byte) (steps : List SeqStep) (trace : List TraceItem) :
    requestsOf (okTrace snap steps ++ trace) = requestsOf trace ++ steps.map (SeqStep.request snap) := by
  have : (steps.flatMap fun st => [TraceItem.request (st.request snap), .answered true]).filterMap
      TraceItem.requested = steps.map (SeqStep.request snap) := by
    induction steps with
    | nil => rfl
    | cons a l ih => simpa [List.flatMap_cons, TraceItem.requested, List.filterMap_cons] using ih
  simp only [requestsOf, okTrace, List.reverse_append, List.reverse_reverse, List.filterMap_append, this]

/-- Playing steps does not read or write `FB` (R93). -/
theorem playSteps_fb (steps : List SeqStep) (s : State) (fb : Memory) :
    playSteps steps { s with fb := fb } = ({ (playSteps steps s).1 with fb := fb }, (playSteps steps s).2) := by
  induction steps generalizing s with
  | nil => rfl
  | cons st rest ih =>
    rcases env_cases s with ⟨l, h⟩ | ⟨l, h⟩ | h
    · rw [playSteps_cons_ok h, playSteps_cons_ok (s := { s with fb := fb }) h, ← ih]
    · rw [playSteps_cons_fail h, playSteps_cons_fail (s := { s with fb := fb }) h]
    · rw [playSteps_cons_wait h, playSteps_cons_wait (s := { s with fb := fb }) h]; rfl

end Sys2Proof.Machine
end

