-- ==== Sys2Proof/Laws/Jobs.lean ====
section
/-! SUPPORT. How the pieces of a command's rule run (Machine/Jobs.lean): the effects and what they leave alone, pieces that cannot hold, pixel
writes to the framebuffer and pixel writes under bypass. -/

namespace Sys2Proof.Machine

/-! ## Effects -/

namespace Effect

@[simp] theorem apply_cfg (e : Effect) (s : State) : (e.apply s).cfg = s.cfg := by cases e <;> rfl
@[simp] theorem apply_seqStage (e : Effect) (s : State) : (e.apply s).seqStage = s.seqStage := by cases e <;> rfl
@[simp] theorem apply_seqSteps (e : Effect) (s : State) : (e.apply s).seqSteps = s.seqSteps := by cases e <;> rfl
@[simp] theorem apply_seqPos (e : Effect) (s : State) : (e.apply s).seqPos = s.seqPos := by cases e <;> rfl
@[simp] theorem apply_seqDone (e : Effect) (s : State) : (e.apply s).seqDone = s.seqDone := by cases e <;> rfl
@[simp] theorem apply_seqPending (e : Effect) (s : State) : (e.apply s).seqPending = s.seqPending := by cases e <;> rfl
@[simp] theorem apply_phase (e : Effect) (s : State) : (e.apply s).phase = s.phase := by cases e <;> rfl
@[simp] theorem apply_cmdq (e : Effect) (s : State) : (e.apply s).cmdq = s.cmdq := by cases e <;> rfl
@[simp] theorem apply_respq (e : Effect) (s : State) : (e.apply s).respq = s.respq := by cases e <;> rfl
@[simp] theorem apply_proc (e : Effect) (s : State) : (e.apply s).proc = s.proc := by cases e <;> rfl
@[simp] theorem apply_respIE (e : Effect) (s : State) : (e.apply s).respIE = s.respIE := by cases e <;> rfl
@[simp] theorem apply_busWrite (e : Effect) (s : State) : (e.apply s).busWrite = s.busWrite := by cases e <;> rfl
@[simp] theorem apply_busRead (e : Effect) (s : State) : (e.apply s).busRead = s.busRead := by cases e <;> rfl
@[simp] theorem apply_env (e : Effect) (s : State) : (e.apply s).env = s.env := by cases e <;> rfl

end Effect

namespace Job

@[simp] theorem note_op (e : Effect) (j : Job) : (j.note e).op = j.op := by cases e <;> rfl
@[simp] theorem note_tag (e : Effect) (j : Job) : (j.note e).tag = j.tag := by cases e <;> rfl
@[simp] theorem note_bypass (e : Effect) (j : Job) : (j.note e).bypass = j.bypass := by cases e <;> rfl
@[simp] theorem note_todo (e : Effect) (j : Job) : (j.note e).todo = j.todo := by cases e <;> rfl
@[simp] theorem note_failed (e : Effect) (j : Job) : (j.note e).failed = j.failed := by cases e <;> rfl

end Job

/-- The writes of an effect, one after another, are the effect. -/
theorem Effect.writes_apply (e : Effect) (s : State) :
    e.firstWrite.2.foldl (fun t w => Effect.apply w t) (e.firstWrite.1.apply s) = e.apply s := by cases e <;> rfl

/-- They do to the response what the effect does. -/
theorem Effect.writes_note (e : Effect) (j : Job) :
    e.firstWrite.2.foldl (fun i w => Job.note w i) (j.note e.firstWrite.1) = j.note e := by cases e <;> rfl

@[simp] theorem applyAll_nil (s : State) : applyAll [] s = s := rfl

@[simp] theorem applyAll_cons (e : Effect) (rest : List Effect) (s : State) :
    applyAll (e :: rest) s = applyAll rest (e.apply s) := rfl

/-! ## Pieces -/

@[simp] theorem runPieces_nil (j : Job) (s : State) : runPieces [] j s = finishJob j s := rfl

@[simp] theorem runPieces_effect (e : Effect) (rest : List Piece) (j : Job) (s : State) :
    runPieces (.effect e :: rest) j s = runPieces rest (j.note e) (e.apply s) := rfl

theorem runPieces_waitIdle {s : State} (h : s.seqBusy = false) (rest : List Piece) (j : Job) :
    runPieces (.waitIdle :: rest) j s = runPieces rest j s := by simp [runPieces, doPiece, h]

theorem runPieces_coalesce {s : State} (h : s.inFlight = false) (rest : List Piece) (j : Job) :
    runPieces (.coalesce :: rest) j s = runPieces rest j s := by simp [runPieces, doPiece, h]

theorem runPieces_startSeq (steps : List SeqStep) (done : SeqDone) (rest : List Piece) (j : Job) (s : State) :
    runPieces (.startSeq steps done :: rest) j s = (s.startSeq steps done).leave := rfl

theorem runPieces_waitHold {s : State} {later : List Event} (h : s.env = .timer :: later) (rest : List Piece) (j : Job) :
    runPieces (.waitHold :: rest) j s = runPieces rest j { s with env := later } := by
  simp [runPieces, doPiece, h]

theorem runPieces_runSeq_ok {s : State} {later : List Event} {steps : List SeqStep}
    (h : s.env = oks steps.length ++ later) (onFail : List Effect) (rest : List Piece) (j : Job) :
    runPieces (.runSeq steps onFail :: rest) j s =
      runPieces rest j
        { s.releaseSeq with
          env := later, phase := phaseAfter s.phase steps, trace := okTrace s.snap steps ++ s.trace } := by
  simp [runPieces, doPiece, blockingSeq, runSeq_ok steps s later h]

/-- A piece that cannot hold, fail or transmit when `B = 0`. -/
def Piece.quiet : Piece → Bool
  | .effect _ | .plot _ _ _ => true
  | .waitIdle | .waitHold | .runSeq _ _ | .coalesce | .startSeq _ _ => false

/-- What a quiet piece does to the state when `B = 0`. -/
def Piece.store (s : State) : Piece → State
  | .effect e => e.apply s
  | .plot x y c =>
    if inBounds s.cfg x y then { s with fb := pixStore s.cfg s.fb x.toNat y.toNat c } else s
  | .waitIdle | .waitHold | .runSeq _ _ | .coalesce | .startSeq _ _ => s

/-- What a piece does to the response of its command. -/
def Piece.noted (j : Job) : Piece → Job
  | .effect e => j.note e
  | .plot _ _ _ | .waitIdle | .waitHold | .runSeq _ _ | .coalesce | .startSeq _ _ => j

theorem Piece.noted_bypass (j : Job) (p : Piece) : (p.noted j).bypass = j.bypass := by
  cases p <;> simp [Piece.noted]

/-- Quiet pieces run to their end when `B = 0` (R220). -/
theorem runPieces_quiet {ps : List Piece} (hq : ∀ p ∈ ps, p.quiet = true) (rest : List Piece) {j : Job}
    (hb : j.bypass = false) (s : State) :
    runPieces (ps ++ rest) j s = runPieces rest (ps.foldl Piece.noted j) (ps.foldl Piece.store s) := by
  induction ps generalizing j s with
  | nil => rfl
  | cons p ps ih =>
    have hp := hq p List.mem_cons_self
    have hps := fun q hq' => hq q (List.mem_cons_of_mem _ hq')
    simp only [List.cons_append, List.foldl_cons]
    cases p with
    | effect e =>
      rw [runPieces_effect, ih hps (by simpa using hb)]; rfl
    | plot x y c =>
      rw [← ih hps (by simpa [Piece.noted] using hb)]
      simp only [runPieces, doPiece, hb, Piece.store, Piece.noted]
      cases inBounds s.cfg x y <;> rfl
    | _ => simp [Piece.quiet] at hp

/-- A job of quiet pieces with `B = 0` completes. -/
theorem runJob_quiet {j : Job} (hq : ∀ p ∈ j.todo, p.quiet = true) (hb : j.bypass = false) (s : State) :
    runJob j s = finishJob (j.todo.foldl Piece.noted j) (j.todo.foldl Piece.store s) := by
  have := runPieces_quiet hq [] hb s
  rw [List.append_nil] at this
  exact this

/-! ## Pixel writes to the framebuffer -/

/-- The framebuffer after pixel writes of one intensity. -/
def storePoints (c : Config) (color : Intensity) (fb : Memory) (ps : List (Int × Int)) : Memory :=
  ps.foldl (fun m p => if inBounds c p.1 p.2 then pixStore c m p.1.toNat p.2.toNat color else m) fb

theorem plots_quiet (color : Intensity) (ps : List (Int × Int)) : ∀ p ∈ plots color ps, p.quiet = true := by
  intro p hp
  obtain ⟨q, _, rfl⟩ := List.mem_map.mp hp
  rfl

theorem noted_plots (color : Intensity) (ps : List (Int × Int)) (j : Job) :
    (plots color ps).foldl Piece.noted j = j := by
  induction ps with
  | nil => rfl
  | cons p ps ih => exact ih

/-- Pixel writes with `B = 0` change the framebuffer and nothing else. -/
theorem store_plots (color : Intensity) (ps : List (Int × Int)) (s : State) :
    (plots color ps).foldl Piece.store s = { s with fb := storePoints s.cfg color s.fb ps } := by
  induction ps generalizing s with
  | nil => rfl
  | cons p ps ih =>
    have hstep : Piece.store s (.plot p.1 p.2 color) =
        { s with fb := if inBounds s.cfg p.1 p.2 then pixStore s.cfg s.fb p.1.toNat p.2.toNat color else s.fb } := by
      simp only [Piece.store]; split <;> rfl
    simp only [plots, List.map_cons, List.foldl_cons] at ih ⊢
    rw [hstep, ih]
    rfl

theorem storePoints_wf {c : Config} {fb : Memory} (color : Intensity) (hw : Memory.wf fb = true)
    (ps : List (Int × Int)) : Memory.wf (storePoints c color fb ps) = true := by
  induction ps generalizing fb with
  | nil => exact hw
  | cons p ps ih =>
    simp only [storePoints, List.foldl_cons] at ih ⊢
    split
    · exact ih (wf_pixStore hw _ _ _)
    · exact ih hw

theorem toNat_inBounds {c : Config} {x y : Int} (h : inBounds c x y = true) :
    x.toNat < c.width ∧ y.toNat < c.height ∧ (x.toNat : Int) = x ∧ (y.toNat : Int) = y := by
  have := inBounds_iff.mp h
  omega

theorem storePoints_below {c : Config} (h : c.Ok) {fb : Memory} (color : Intensity)
    (hb : Memory.below c.fbSize fb = true) (ps : List (Int × Int)) :
    Memory.below c.fbSize (storePoints c color fb ps) = true := by
  induction ps generalizing fb with
  | nil => exact hb
  | cons p ps ih =>
    simp only [storePoints, List.foldl_cons] at ih ⊢
    split
    · rename_i hi
      obtain ⟨h1, h2, -⟩ := toNat_inBounds hi
      exact ih (below_pixStore h hb h1 h2 _)
    · exact ih hb

/-- Pixel writes of one intensity paint the points they are given. -/
theorem storePoints_painted {c : Config} (h : c.Ok) {fb : Memory} (color : Intensity) (hw : Memory.wf fb = true)
    (ps : List (Int × Int)) : Painted c fb (storePoints c color fb ps) color fun x y => (x, y) ∈ ps := by
  induction ps generalizing fb with
  | nil => exact ⟨fun x y _ _ hm => (List.not_mem_nil hm).elim, fun x y _ _ _ => rfl, fun a _ => rfl⟩
  | cons p ps ih =>
    obtain ⟨px, py⟩ := p
    have hstep : storePoints c color fb ((px, py) :: ps) =
        storePoints c color (if inBounds c px py then pixStore c fb px.toNat py.toNat color else fb) ps := rfl
    rw [hstep]
    split
    · rename_i hi
      obtain ⟨h1, h2, h3, h4⟩ := toNat_inBounds hi
      obtain ⟨i1, i2, i3⟩ := ih (wf_pixStore hw px.toNat py.toNat color)
      refine ⟨fun x y hx hy hm => ?_, fun x y hx hy hm => ?_, fun a ha => ?_⟩
      · by_cases hps : ((x : Int), (y : Int)) ∈ ps
        · exact i1 x y hx hy hps
        · rw [i2 x y hx hy hps, pixRead_pixStore h hw h1 hx]
          rcases List.mem_cons.mp hm with he | he
          · simp only [Prod.mk.injEq] at he
            rw [if_pos (by omega)]
          · exact absurd he hps
      · have hps : ((x : Int), (y : Int)) ∉ ps := fun hh => hm (List.mem_cons_of_mem _ hh)
        have hne : ¬ (x = px.toNat ∧ y = py.toNat) := fun hh =>
          hm (List.mem_cons.mpr (.inl (by simp only [Prod.mk.injEq]; omega)))
        rw [i2 x y hx hy hps, pixRead_pixStore h hw h1 hx, if_neg hne]
      · rw [i3 a fun x y hx hy hm => ha x y hx hy (List.mem_cons_of_mem _ hm), read_pixStore hw, if_neg]
        rintro rfl
        exact ha px.toNat py.toNat h1 h2 (List.mem_cons.mpr (.inl (by rw [h3, h4]))) rfl
    · rename_i hi
      obtain ⟨i1, i2, i3⟩ := ih hw
      have hout : ∀ x y : Nat, x < c.width → y < c.height → ((x : Int), (y : Int)) ≠ (px, py) := by
        rintro x y hx hy he
        simp only [Prod.mk.injEq] at he
        exact hi (inBounds_iff.mpr (by omega))
      refine ⟨fun x y hx hy hm => i1 x y hx hy ?_, fun x y hx hy hm => i2 x y hx hy fun hh => hm (List.mem_cons_of_mem _ hh),
        fun a ha => i3 a fun x y hx hy hm => ha x y hx hy (List.mem_cons_of_mem _ hm)⟩
      rcases List.mem_cons.mp hm with he | he
      · exact absurd he (hout x y hx hy)
      · exact he

/-- Painting depends on the pixels of the set alone. -/
theorem Painted.congr {c : Config} {fb fb' : Memory} {color : Intensity} {ink ink' : Int → Int → Prop}
    (h : Painted c fb fb' color ink) (hi : ∀ x y, ink x y ↔ ink' x y) : Painted c fb fb' color ink' := by
  have : ink = ink' := funext fun x => funext fun y => propext (hi x y)
  exact this ▸ h

/-- Nothing painted: the framebuffer reads as before. -/
theorem Painted.refl (c : Config) (fb : Memory) (color : Intensity) : Painted c fb fb color fun _ _ => False :=
  ⟨fun _ _ _ _ h => h.elim, fun _ _ _ _ _ => rfl, fun _ _ => rfl⟩

/-- Painting twice with one intensity paints both sets. -/
theorem Painted.trans {c : Config} {fb fb' fb'' : Memory} {color : Intensity} {ink ink' : Int → Int → Prop}
    (h : Painted c fb fb' color ink) (h' : Painted c fb' fb'' color ink') :
    Painted c fb fb'' color fun x y => ink x y ∨ ink' x y := by
  obtain ⟨h1, h2, h3⟩ := h
  obtain ⟨g1, g2, g3⟩ := h'
  refine ⟨fun x y hx hy hm => ?_, fun x y hx hy hm => ?_, fun a ha => ?_⟩
  · by_cases hk : ink' x y
    · exact g1 x y hx hy hk
    · rw [g2 x y hx hy hk]; exact h1 x y hx hy (hm.resolve_right hk)
  · rw [g2 x y hx hy fun hk => hm (.inr hk), h2 x y hx hy fun hk => hm (.inl hk)]
  · rw [g3 a fun x y hx hy hk => ha x y hx hy (.inr hk), h3 a fun x y hx hy hk => ha x y hx hy (.inl hk)]

/-! ## Pixel writes under bypass -/

/-- The steps of a bypass write (R211): 14, and the bus ends in the data phase. -/
theorem length_bypassSeq (c : Config) (fb : Memory) (x y : Nat) (v : Intensity) :
    (bypassSeq c fb x y v).length = 14 := rfl

theorem phaseAfter_bypassSeq (c : Config) (fb : Memory) (x y : Nat) (v : Intensity) (p : Phase) :
    phaseAfter p (bypassSeq c fb x y v) = .data := rfl

/-- A pixel write off the raster is dropped, with or without bypass (R210). -/
theorem runPieces_plot_out {x y : Int} {s : State} (h : inBounds s.cfg x y = false) (v : Intensity)
    (rest : List Piece) (j : Job) : runPieces (.plot x y v :: rest) j s = runPieces rest j s := by
  simp [runPieces, doPiece, h]

/-- A bypass write of a pixel of the raster that XPORT accepts (R211): the framebuffer is unchanged, and the pixel's 14 requests are on
the trace. -/
theorem runPieces_plot_bypass {x y : Int} {s : State} {later : List Event} {j : Job} (hi : inBounds s.cfg x y = true)
    (hb : j.bypass = true) (hs : s.seqIdle) (h : s.env = oks 14 ++ later) (v : Intensity) (rest : List Piece) :
    runPieces (.plot x y v :: rest) j s =
      runPieces rest j
        { s with
          env := later, phase := .data
          trace := okTrace s.snap (bypassSeq s.cfg s.fb x.toNat y.toNat v) ++ s.trace } := by
  simp only [runPieces, doPiece, hi, hb, seqBusy_of_idle hs, blockingSeq]
  rw [runSeq_ok (bypassSeq s.cfg s.fb x.toNat y.toNat v) s later h, releaseSeq_of_idle hs]
  rfl

end Sys2Proof.Machine
end

