-- ==== Sys2Proof/Laws/KeyMap.lean ====
section
/-! SUPPORT. The laws of the maps keyed by a character: lookups after insertions, the canonical form and the size. -/

namespace Sys2Proof.Machine.KeyMap

variable {α : Type}

@[simp] theorem find_nil (k : Char16) : find k ([] : KeyMap α) = none := rfl

theorem find_insert_same (k : Char16) (v : α) (m : KeyMap α) : find k (insert k v m) = some v := by
  induction m with
  | nil => simp [insert, find]
  | cons c rest ih =>
    obtain ⟨j, w⟩ := c
    unfold insert
    split
    · simp [find]
    · split
      · simp [find]
      · rename_i h
        simp only [find, if_neg h]
        exact ih

theorem find_insert_other {k x : Char16} (v : α) (m : KeyMap α) (hx : x ≠ k) : find x (insert k v m) = find x m := by
  induction m with
  | nil => simp [insert, find, hx]
  | cons c rest ih =>
    obtain ⟨j, w⟩ := c
    unfold insert
    split
    · simp [find, hx]
    · split
      · rename_i h; subst h; simp [find, hx]
      · simp only [find, ih]

/-- A lookup after an insertion. -/
theorem find_insert (k x : Char16) (v : α) (m : KeyMap α) :
    find x (insert k v m) = if x = k then some v else find x m := by
  split
  · rename_i h; subst h; exact find_insert_same x v m
  · rename_i h; exact find_insert_other v m h

theorem wfFrom_mono {m : KeyMap α} {lo hi : Nat} (h : lo ≤ hi) (hw : wfFrom hi m = true) : wfFrom lo m = true := by
  cases m with
  | nil => rfl
  | cons c rest =>
    simp only [wfFrom, Bool.and_eq_true, decide_eq_true_eq] at hw ⊢
    exact ⟨by omega, hw.2⟩

theorem wfFrom_insert {m : KeyMap α} {lo : Nat} {k : Char16} {v : α} (hw : wfFrom lo m = true) (hk : lo ≤ k.toNat) :
    wfFrom lo (insert k v m) = true := by
  induction m generalizing lo with
  | nil => simp [insert, wfFrom, hk]
  | cons c rest ih =>
    obtain ⟨j, w⟩ := c
    simp only [wfFrom, Bool.and_eq_true, decide_eq_true_eq] at hw
    unfold insert
    split
    · simp only [wfFrom, Bool.and_eq_true, decide_eq_true_eq]
      exact ⟨hk, by omega, hw.2⟩
    · split
      · rename_i h; subst h
        simp only [wfFrom, Bool.and_eq_true, decide_eq_true_eq]
        exact hw
      · rename_i h1 h2
        have : k.toNat ≠ j.toNat := fun h => h2 (BitVec.eq_of_toNat_eq h)
        simp only [wfFrom, Bool.and_eq_true, decide_eq_true_eq]
        exact ⟨hw.1, ih hw.2 (by omega)⟩

/-- An insertion keeps the canonical form. -/
theorem wf_insert {m : KeyMap α} (k : Char16) (v : α) (hw : wf m = true) : wf (insert k v m) = true :=
  wfFrom_insert hw (Nat.zero_le _)

theorem find_below {m : KeyMap α} {lo : Nat} {k : Char16} (hw : wfFrom lo m = true) (hk : k.toNat < lo) :
    find k m = none := by
  induction m generalizing lo with
  | nil => rfl
  | cons c rest ih =>
    obtain ⟨j, w⟩ := c
    simp only [wfFrom, Bool.and_eq_true, decide_eq_true_eq] at hw
    have : k ≠ j := by rintro rfl; omega
    simp only [find, if_neg this]
    exact ih hw.2 (by omega)

theorem length_insert_from {m : KeyMap α} {lo : Nat} (k : Char16) (v : α) (hw : wfFrom lo m = true) :
    (insert k v m).length = m.length + if (find k m).isNone then 1 else 0 := by
  induction m generalizing lo with
  | nil => simp [insert, find]
  | cons c rest ih =>
    obtain ⟨j, w⟩ := c
    simp only [wfFrom, Bool.and_eq_true, decide_eq_true_eq] at hw
    unfold insert
    split
    · rename_i h
      have hne : k ≠ j := by rintro rfl; omega
      simp [find, hne, find_below hw.2 (by omega : k.toNat < j.toNat + 1)]
    · split
      · rename_i h; simp [find, h]
      · rename_i h
        simp only [find, if_neg h, List.length_cons, ih hw.2]
        omega

/-- An insertion of a new key adds one entry, of a listed key none. -/
theorem length_insert {m : KeyMap α} (k : Char16) (v : α) (hw : wf m = true) :
    (insert k v m).length = m.length + if (find k m).isNone then 1 else 0 := length_insert_from k v hw

theorem mem_of_find {m : KeyMap α} {k : Char16} {v : α} (h : find k m = some v) : (k, v) ∈ m := by
  induction m with
  | nil => simp at h
  | cons c rest ih =>
    obtain ⟨j, w⟩ := c
    simp only [find] at h
    split at h
    · rename_i hk; subst hk; cases h; exact List.mem_cons_self
    · exact List.mem_cons_of_mem _ (ih h)

theorem mem_insert {m : KeyMap α} {k : Char16} {v : α} {e : Char16 × α} (h : e ∈ insert k v m) : e = (k, v) ∨ e ∈ m := by
  induction m with
  | nil => simpa [insert] using h
  | cons c rest ih =>
    obtain ⟨j, w⟩ := c
    unfold insert at h
    split at h
    · rcases List.mem_cons.mp h with h | h
      · exact .inl h
      · exact .inr h
    · split at h
      · rcases List.mem_cons.mp h with h | h
        · exact .inl h
        · exact .inr (List.mem_cons_of_mem _ h)
      · rcases List.mem_cons.mp h with h | h
        · exact .inr (h ▸ List.mem_cons_self)
        · rcases ih h with h | h
          · exact .inl h
          · exact .inr (List.mem_cons_of_mem _ h)

/-- What every entry of a map satisfies, every lookup satisfies. -/
theorem forall_insert {m : KeyMap α} {P : α → Prop} {k : Char16} {v : α} (hm : ∀ e ∈ m, P e.2) (hv : P v) :
    ∀ e ∈ insert k v m, P e.2 := by
  intro e he
  rcases mem_insert he with h | h
  · subst h; exact hv
  · exact hm e h

end Sys2Proof.Machine.KeyMap
end

