-- ==== Sys2Proof/Laws/Raster.lean ====
section
/-! SUPPORT. The points of a vertical line and of a rectangle (41_raster.md R213, R216). -/

namespace Sys2Proof.Machine

/-- A vertical line with rows left to go: they are visited one after another. -/
theorem lineFrom_vertical (n : Nat) (dy sx x y1 y err : Int) (hy : y1 = y + n) (he : err ≤ 0) (hd : n = 0 ∨ err < dy) :
    lineFrom n 0 dy sx 1 x y1 x y err = (List.range (n + 1)).map fun (i : Nat) => (x, y + (i : Int)) := by
  induction n generalizing y with
  | zero => simp [lineFrom]
  | succ n ih =>
    have hlt : err < dy := by rcases hd with h | h; · omega
                              · exact h
    unfold lineFrom
    rw [if_neg (by omega)]
    simp only [lineStep, Int.neg_zero, if_neg (show ¬ err > 0 by omega), if_pos hlt, Int.add_zero]
    rw [ih (y + 1) (by omega) (.inr hlt), List.range_succ_eq_map (n := n + 1)]
    rw [List.map_cons, List.map_map]
    refine List.cons_eq_cons.mpr ⟨by simp, List.map_congr_left fun i _ => ?_⟩
    simp only [Function.comp_apply, Prod.mk.injEq, true_and]
    omega

/-- The vertical line of one column of a rectangle: its rows from top to bottom. -/
theorem linePoints_vertical (x y : Int) (h : Nat) (hh : 0 < h) :
    linePoints x y x (y + h - 1) = (List.range h).map fun (i : Nat) => (x, y + (i : Int)) := by
  obtain ⟨m, rfl⟩ : ∃ m, h = m + 1 := ⟨h - 1, by omega⟩
  have e1 : (y + ((m + 1 : Nat) : Int) - 1 - y).natAbs = m := by omega
  unfold linePoints
  simp only [Int.sub_self, Int.natAbs_zero, e1, Nat.zero_max, Int.natCast_zero]
  by_cases hm : m = 0
  · subst hm; simp [lineFrom]
  · rw [if_neg (by omega), if_pos (by omega), if_neg (by omega)]
    apply lineFrom_vertical
    · omega
    · unfold truncHalf; rw [Int.neg_tdiv]; have := Int.tdiv_nonneg (a := (m : Int)) (b := 2) (by omega) (by omega); omega
    · right; unfold truncHalf; rw [Int.neg_tdiv]
      have := Int.tdiv_nonneg (a := (m : Int)) (b := 2) (by omega) (by omega); omega

/-- A rectangle's points: columns left to right, each from top to bottom. -/
theorem rectPoints_eq (x y : Int) (w h : Nat) :
    rectPoints x y w h =
      (List.range w).flatMap fun (i : Nat) => (List.range h).map fun (j : Nat) => (x + (i : Int), y + (j : Int)) := by
  unfold rectPoints
  split
  · rename_i h0; subst h0; simp
  · rename_i h0
    congr 1
    funext i
    exact linePoints_vertical _ _ _ (by omega)

/-- The points of a rectangle are the pixels of `[x, x+w) × [y, y+h)`. -/
theorem mem_rectPoints {x y px py : Int} {w h : Nat} :
    (px, py) ∈ rectPoints x y w h ↔ x ≤ px ∧ px < x + w ∧ y ≤ py ∧ py < y + h := by
  rw [rectPoints_eq]
  simp only [List.mem_flatMap, List.mem_range, List.mem_map, Prod.mk.injEq]
  constructor
  · rintro ⟨i, hi, j, hj, rfl, rfl⟩; omega
  · rintro ⟨h1, h2, h3, h4⟩
    exact ⟨(px - x).toNat, by omega, (py - y).toNat, by omega, by omega, by omega⟩

end Sys2Proof.Machine
end

