-- ==== Sys2Proof/Laws/Text.lean ====
section
/-! SUPPORT. What the pieces of WRITE_STRING do (42_text.md R242 to R249): their shape, the ink they put into the framebuffer, the cursor, the
warnings and the response; and pieces of text under bypass. -/

namespace Sys2Proof.Machine

/-! ## Cells and glyphs -/

/-- A cell at scale `n` is the square of `n` by `n` pixels (R244). -/
theorem paint_eq (px py : Int) (n : Nat) (c : Intensity) : paint px py n c = plots c (rectPoints px py n n) := by
  unfold paint
  split
  · rename_i h; subst h; rw [rectPoints_eq]; simp [plots]
  · rfl

/-- The pixels of the on bits of a column. -/
def columnPoints (x y : Int) (n col : Nat) (bits : Byte) : List (Int × Int) :=
  (List.range 8).flatMap fun (row : Nat) =>
    if bits.getLsbD row then rectPoints (x + col * n) (y + row * n) n n else []

theorem columnPieces_eq (x y : Int) (n : Nat) (c : Intensity) (col : Nat) (bits : Byte) :
    columnPieces x y n c false col bits = plots c (columnPoints x y n col bits) := by
  unfold columnPieces columnPoints plots
  rw [List.map_flatMap]
  congr 1
  funext row
  split
  · rw [paint_eq]; rfl
  · rfl

/-- The pixels of the on bits of a glyph's columns. -/
def glyphPoints (x y : Int) (n : Nat) : Nat → List Byte → List (Int × Int)
  | _, [] => []
  | col, bits :: rest => columnPoints x y n col bits ++ glyphPoints x y n (col + 1) rest

theorem fixedGlyphPieces_eq (x y : Int) (n : Nat) (c : Intensity) (col : Nat) (cols : List Byte) :
    fixedGlyphPieces x y n c false col cols = plots c (glyphPoints x y n col cols) := by
  induction cols generalizing col with
  | nil => rfl
  | cons bits rest ih =>
    simp only [fixedGlyphPieces, glyphPoints, ih, columnPieces_eq]
    simp only [plots, List.map_append]

theorem mem_columnPoints {x y px py : Int} {n col : Nat} {bits : Byte} :
    (px, py) ∈ columnPoints x y n col bits ↔
      ∃ row : Nat, row < 8 ∧ bits.getLsbD row = true ∧ x + col * n ≤ px ∧ px < x + col * n + n ∧
        y + row * n ≤ py ∧ py < y + row * n + n := by
  unfold columnPoints
  simp only [List.mem_flatMap, List.mem_range]
  constructor
  · rintro ⟨row, hr, hm⟩
    split at hm
    · rename_i hb
      exact ⟨row, hr, hb, mem_rectPoints.mp hm⟩
    · cases hm
  · rintro ⟨row, hr, hb, hm⟩
    exact ⟨row, hr, by rw [if_pos hb]; exact mem_rectPoints.mpr hm⟩

theorem mem_glyphPoints {x y px py : Int} {n col : Nat} {cols : List Byte} :
    (px, py) ∈ glyphPoints x y n col cols ↔
      ∃ i row : Nat, i < cols.length ∧ row < 8 ∧ (cols.getD i 0).getLsbD row = true ∧
        x + ((col + i : Nat) : Int) * n ≤ px ∧ px < x + ((col + i : Nat) : Int) * n + n ∧
        y + row * n ≤ py ∧ py < y + row * n + n := by
  induction cols generalizing col with
  | nil => simp [glyphPoints]
  | cons bits rest ih =>
    simp only [glyphPoints, List.mem_append, mem_columnPoints, ih, List.length_cons]
    constructor
    · rintro (⟨row, h⟩ | ⟨i, row, h1, h2⟩)
      · exact ⟨0, row, by omega, h.1, by simpa using h.2⟩
      · refine ⟨i + 1, row, by omega, h2.1, by simpa using h2.2.1, ?_⟩
        rw [show col + (i + 1) = col + 1 + i by omega]
        exact h2.2.2
    · rintro ⟨i, row, h1, h2⟩
      cases i with
      | zero => exact .inl ⟨row, h2.1, by simpa using h2.2⟩
      | succ i =>
        refine .inr ⟨i, row, by omega, h2.1, by simpa using h2.2.1, ?_⟩
        rw [show col + 1 + i = col + (i + 1) by omega]
        exact h2.2.2

/-- A glyph's columns are bytes of the glyph data; past its end no bit is on. -/
theorem getD_glyphColumns (fw j i : Nat) (data : List Byte) (h : i < fw) :
    (glyphColumns fw j data).getD i 0 = data.getD (j * fw + i) 0 := by
  unfold glyphColumns
  simp only [List.getD_eq_getElem?_getD, List.getElem?_take, if_pos h, List.getElem?_drop]

theorem length_glyphColumns_le (fw j : Nat) (data : List Byte) : (glyphColumns fw j data).length ≤ fw := by
  simp [glyphColumns]

/-- The ink of one located character. -/
theorem mem_glyph {x y px py : Int} {n fw j : Nat} {data : List Byte} :
    (px, py) ∈ glyphPoints x y n 0 (glyphColumns fw j data) ↔
      ∃ col row : Nat, col < fw ∧ row < 8 ∧ (data.getD (j * fw + col) 0).getLsbD row = true ∧
        x + col * n ≤ px ∧ px < x + col * n + n ∧ y + row * n ≤ py ∧ py < y + row * n + n := by
  rw [mem_glyphPoints]
  constructor
  · rintro ⟨i, row, h1, h2, h3, h4⟩
    have hi : i < fw := Nat.lt_of_lt_of_le h1 (length_glyphColumns_le fw j data)
    rw [getD_glyphColumns fw j i data hi] at h3
    exact ⟨i, row, hi, h2, h3, by simpa using h4⟩
  · rintro ⟨i, row, h1, h2, h3, h4⟩
    rw [← getD_glyphColumns fw j i data h1] at h3
    refine ⟨i, row, ?_, h2, h3, by simpa using h4⟩
    rcases Nat.lt_or_ge i (glyphColumns fw j data).length with h | h
    · exact h
    · rw [List.getD_eq_getElem?_getD, List.getElem?_eq_none h] at h3
      simp at h3

/-! ## Warnings and the cursor over a text -/

theorem warnedBy_zero (c : BitVec 16) : warnedBy c 0 = c := by
  apply BitVec.eq_of_toNat_eq
  have := c.isLt
  simp only [warnedBy, Nat.add_zero, BitVec.toNat_ofNat]
  omega

theorem warnedBy_add (c : BitVec 16) (m n : Nat) : warnedBy (warnedBy c m) n = warnedBy c (m + n) := by
  apply BitVec.eq_of_toNat_eq
  have := c.isLt
  simp only [warnedBy, BitVec.toNat_ofNat]
  omega

/-- One warning (R249). -/
theorem warn_eq (ch : Char16) (s : State) :
    s.warn ch = { s with warnCount := warnedBy s.warnCount 1, lastMissing := ch } := by
  have : warnedOnce s.warnCount = warnedBy s.warnCount 1 := by
    apply BitVec.eq_of_toNat_eq
    have h := s.warnCount.isLt
    unfold warnedOnce warnedBy
    split
    · rename_i h; rw [h]; rfl
    · rename_i hn
      have : s.warnCount.toNat ≠ 65535 := fun hh => hn (BitVec.eq_of_toNat_eq hh)
      have h1 : (1 : BitVec 16).toNat = 1 := rfl
      rw [BitVec.toNat_add, BitVec.toNat_ofNat, h1]
      omega
  unfold State.warn
  rw [this]

theorem advance_add (cx : BitVec 16) (d m : Nat) :
    advanceCursor cx d + BitVec.ofNat 16 m = cx + BitVec.ofNat 16 (m + d) := by
  apply BitVec.eq_of_toNat_eq
  simp only [advanceCursor, BitVec.toNat_add, BitVec.toNat_ofNat]
  omega

theorem getLast_cons (ch : Char16) (l : List Char16) (d : Char16) :
    ((ch :: l).getLast?).getD d = (l.getLast?).getD ch := by
  cases l with
  | nil => rfl
  | cons a l => simp [List.getLast?_cons]

/-! ## The whole text -/

theorem textPieces_quiet (s : State) (n : Nat) (c : Intensity) (cx : BitVec 16) (text : List Char16) :
    ∀ p ∈ textPieces s n c false cx text, p.quiet = true := by
  induction text generalizing cx with
  | nil => intro p hp; cases hp
  | cons ch rest ih =>
    intro p hp
    unfold textPieces at hp
    split at hp
    · rcases List.mem_cons.mp hp with rfl | hp
      · rfl
      · exact ih cx p hp
    · rcases List.mem_append.mp hp with hp | hp
      · rw [fixedGlyphPieces_eq] at hp; exact plots_quiet _ _ p hp
      · rcases List.mem_cons.mp hp with rfl | hp
        · rfl
        · exact ih _ p hp

/-- What WRITE_STRING's pieces do to the state when `B = 0`: the ink, the cursor over the located characters, a warning for
each of the others (R246 to R249). -/
theorem textPieces_store (s : State) (n : Nat) (c : Intensity) (text : List Char16) (t : State) (hc : t.cfg.Ok)
    (hw : Memory.wf t.fb = true) :
    ∃ fb', (textPieces s n c false t.cx text).foldl Piece.store t =
        { t with
          fb := fb', cx := t.cx + BitVec.ofNat 16 ((located s text).length * fixedAdvance s.ffWidth.toNat n)
          warnCount := warnedBy t.warnCount (unlocated s text).length
          lastMissing := ((unlocated s text).getLast?).getD t.lastMissing } ∧
      Memory.wf fb' = true ∧ Painted t.cfg t.fb fb' c (TextInk s n t.cx text) := by
  induction text generalizing t with
  | nil =>
    refine ⟨t.fb, ?_, hw, Painted.refl _ _ _⟩
    simp [textPieces, located, unlocated, warnedBy_zero]
  | cons ch rest ih =>
    unfold textPieces
    split
    · rename_i hl
      have hloc : located s (ch :: rest) = located s rest := by simp [located, hl]
      have hun : unlocated s (ch :: rest) = ch :: unlocated s rest := by simp [unlocated, hl]
      simp only [List.foldl_cons, Piece.store, Effect.apply]
      obtain ⟨fb', h1, h2, h3⟩ := ih (t.warn ch) hc hw
      simp only [State.warn_cx, State.warn_cfg, State.warn_fb] at h1 h3
      refine ⟨fb', ?_, h2, ?_⟩
      · rw [h1, warn_eq, hloc, hun, getLast_cons]
        simp only [warnedBy_add, List.length_cons, Nat.add_comm 1]
      · refine h3.congr fun x y => ?_
        simp only [TextInk, hl]
    · rename_i j hl
      have hloc : located s (ch :: rest) = ch :: located s rest := by simp [located, hl]
      have hun : unlocated s (ch :: rest) = unlocated s rest := by simp [unlocated, hl]
      rw [fixedGlyphPieces_eq, List.foldl_append, store_plots, List.foldl_cons]
      have hp := storePoints_painted hc c hw
        (glyphPoints (coord t.cx) (coord s.cy) n 0 (glyphColumns s.ffWidth.toNat j s.ffData))
      have hw1 := storePoints_wf (c := t.cfg) c hw
        (glyphPoints (coord t.cx) (coord s.cy) n 0 (glyphColumns s.ffWidth.toNat j s.ffData))
      generalize hfb : storePoints t.cfg c t.fb
        (glyphPoints (coord t.cx) (coord s.cy) n 0 (glyphColumns s.ffWidth.toNat j s.ffData)) = fb1 at hp hw1 ⊢
      obtain ⟨fb', h1, h2, h3⟩ := ih
        { t with fb := fb1, cx := advanceCursor t.cx (fixedAdvance s.ffWidth.toNat n) } hc hw1
      refine ⟨fb', ?_, h2, ?_⟩
      · refine Eq.trans ?_ (h1.trans ?_)
        · rfl
        · rw [hloc, hun]
          simp only [List.length_cons, advance_add, Nat.add_mul, Nat.one_mul]
      · refine (hp.trans h3).congr fun x y => ?_
        simp only [TextInk, hl, mem_glyph, coord, fixedAdvance]

/-- What WRITE_STRING's pieces do to its response (R247): the located characters are counted, another one is noted. -/
theorem textPieces_noted (s : State) (n : Nat) (c : Intensity) (cx : BitVec 16) (text : List Char16) (j : Job) :
    (textPieces s n c false cx text).foldl Piece.noted j =
      { j with
        result := j.result + (located s text).length, missing := j.missing || !(unlocated s text).isEmpty } := by
  induction text generalizing cx j with
  | nil => simp [textPieces, located, unlocated]
  | cons ch rest ih =>
    unfold textPieces
    split
    · rename_i hl
      have hloc : located s (ch :: rest) = located s rest := by simp [located, hl]
      have hun : unlocated s (ch :: rest) = ch :: unlocated s rest := by simp [unlocated, hl]
      simp only [List.foldl_cons, Piece.noted, Job.note, ih, hloc, hun]
      simp
    · rename_i k hl
      have hloc : located s (ch :: rest) = ch :: located s rest := by simp [located, hl]
      have hun : unlocated s (ch :: rest) = unlocated s rest := by simp [unlocated, hl]
      rw [fixedGlyphPieces_eq, List.foldl_append, noted_plots, List.foldl_cons, ih, hloc, hun]
      simp only [Piece.noted, Job.note, List.length_cons, Nat.add_assoc, Nat.add_comm 1]

end Sys2Proof.Machine
end

