-- ==== Sys2Proof/Laws/HexFont.lean ====
section
/-! SUPPORT. What the pieces of the hex-font commands do (42_text.md R253 to R263): expansion, the distinct characters, the new cache and its
warnings, and the ink, cursor and count of WRITE_UNIFONT. -/

namespace Sys2Proof.Machine

/-! ## Expansion (R253) -/

@[simp] theorem length_rowBits {w : Nat} (row : BitVec w) : (rowBits row).length = w := by simp [rowBits]

/-- Column `c` of a row is its bit `w - 1 - c`. -/
theorem getD_rowBits {w : Nat} (row : BitVec w) (c : Nat) (h : c < w) :
    (rowBits row).getD c false = row.getLsbD (w - 1 - c) := by
  simp [rowBits, List.getD_eq_getElem?_getD, h]

/-- The expansion of a well-formed glyph is a cache entry of the right shape. -/
theorem expand_wf {g : Glyph} (h : g.wf = true) : (expand g).wf = true := by
  cases g with
  | g8 rows =>
    simp only [Glyph.wf, beq_iff_eq] at h
    simp [expand, CachedGlyph.wf, h]
  | g16 rows =>
    simp only [Glyph.wf, beq_iff_eq] at h
    simp [expand, CachedGlyph.wf, h]

/-! ## Distinct characters (R254) -/

theorem mem_distinctFrom {seen : List Char16} {t : List Char16} {ch : Char16} :
    ch ∈ distinctFrom seen t ↔ ch ∈ t ∧ ch ∉ seen := by
  induction t generalizing seen with
  | nil => simp [distinctFrom]
  | cons a rest ih =>
    unfold distinctFrom
    split
    · rename_i h
      have ha : a ∈ seen := by simpa using h
      rw [ih, List.mem_cons]
      constructor
      · rintro ⟨h1, h2⟩; exact ⟨.inr h1, h2⟩
      · rintro ⟨rfl | h1, h2⟩
        · exact absurd ha h2
        · exact ⟨h1, h2⟩
    · rename_i h
      have ha : a ∉ seen := by simpa using h
      rw [List.mem_cons, ih, List.mem_cons, List.mem_cons]
      constructor
      · rintro (rfl | ⟨h1, h2⟩)
        · exact ⟨.inl rfl, ha⟩
        · exact ⟨.inr h1, fun hh => h2 (.inr hh)⟩
      · rintro ⟨h1, h2⟩
        by_cases hc : ch = a
        · exact .inl hc
        · exact .inr ⟨h1.resolve_left hc, fun hh => hh.elim hc h2⟩

theorem mem_distinct {t : List Char16} {ch : Char16} : ch ∈ distinct t ↔ ch ∈ t := by
  simp [distinct, mem_distinctFrom]

theorem nodup_distinctFrom (seen t : List Char16) : (distinctFrom seen t).Nodup := by
  induction t generalizing seen with
  | nil => simp [distinctFrom]
  | cons a rest ih =>
    unfold distinctFrom
    split
    · exact ih seen
    · refine List.nodup_cons.mpr ⟨fun hm => ?_, ih _⟩
      exact (mem_distinctFrom.mp hm).2 List.mem_cons_self

theorem length_distinctFrom_le (seen t : List Char16) : (distinctFrom seen t).length ≤ t.length := by
  induction t generalizing seen with
  | nil => simp [distinctFrom]
  | cons a rest ih =>
    unfold distinctFrom
    split
    · exact Nat.le_succ_of_le (ih seen)
    · simp only [List.length_cons]; exact Nat.succ_le_succ (ih _)

/-! ## The new cache (R255) -/

/-- A lookup in the new cache: the expansion of the glyph of a listed character, else what was there. -/
theorem find_buildCache (hf : KeyMap Glyph) (l : List Char16) (m : KeyMap CachedGlyph) (ch : Char16) :
    KeyMap.find ch (buildCache hf l m) =
      if ch ∈ l ∧ (KeyMap.find ch hf).isSome then (KeyMap.find ch hf).map expand else KeyMap.find ch m := by
  induction l generalizing m with
  | nil => simp [buildCache]
  | cons a rest ih =>
    unfold buildCache
    split
    · rename_i g hg
      rw [ih, KeyMap.find_insert]
      by_cases hc : ch = a
      · subst hc
        simp [hg]
      · simp [hc]
    · rename_i hg
      rw [ih]
      by_cases hc : ch = a
      · subst hc
        simp [hg]
      · simp [hc]

theorem wf_buildCache {hf : KeyMap Glyph} {l : List Char16} {m : KeyMap CachedGlyph} (h : KeyMap.wf m = true) :
    KeyMap.wf (buildCache hf l m) = true := by
  induction l generalizing m with
  | nil => exact h
  | cons a rest ih =>
    unfold buildCache
    split
    · exact ih (KeyMap.wf_insert _ _ h)
    · exact ih h

theorem length_buildCache_le {hf : KeyMap Glyph} {l : List Char16} {m : KeyMap CachedGlyph} (h : KeyMap.wf m = true) :
    (buildCache hf l m).length ≤ m.length + l.length := by
  induction l generalizing m with
  | nil => simp [buildCache]
  | cons a rest ih =>
    unfold buildCache
    split
    · rename_i g _
      have h1 := ih (KeyMap.wf_insert a (expand g) h)
      have h2 := KeyMap.length_insert a (expand g) h
      simp only [List.length_cons]
      split at h2 <;> omega
    · have := ih h
      simp only [List.length_cons]; omega

theorem forall_buildCache {hf : KeyMap Glyph} {l : List Char16} {m : KeyMap CachedGlyph}
    (hf' : ∀ e ∈ hf, e.2.wf = true) (hm : ∀ e ∈ m, e.2.wf = true) : ∀ e ∈ buildCache hf l m, e.2.wf = true := by
  induction l generalizing m with
  | nil => exact hm
  | cons a rest ih =>
    unfold buildCache
    split
    · rename_i g hg
      exact ih (KeyMap.forall_insert (P := fun (e : CachedGlyph) => e.wf = true) hm (expand_wf (hf' _ (KeyMap.mem_of_find hg))))
    · exact ih hm

/-- The warnings of a list of characters change the warning registers alone. -/
theorem store_warns (l : List Char16) (s : State) :
    (l.map fun ch => Piece.effect (.warn ch)).foldl Piece.store s =
      { s with
        warnCount := warnedBy s.warnCount l.length, lastMissing := (l.getLast?).getD s.lastMissing } := by
  induction l generalizing s with
  | nil => simp [warnedBy_zero]
  | cons ch rest ih =>
    simp only [List.map_cons, List.foldl_cons, Piece.store, Effect.apply, ih, getLast_cons]
    rw [warn_eq]
    simp only [warnedBy_add, List.length_cons, Nat.add_comm 1]

theorem noted_warns (l : List Char16) (j : Job) :
    (l.map fun ch => Piece.effect (.warn ch)).foldl Piece.noted j =
      { j with missing := j.missing || !l.isEmpty } := by
  induction l generalizing j with
  | nil => simp
  | cons ch rest ih =>
    simp only [List.map_cons, List.foldl_cons, Piece.noted, Job.note, ih]
    simp

/-! ## WRITE_UNIFONT -/

/-- The pixels of the on bits of a row. -/
def rowPoints (x y : Int) : Nat → List Bool → List (Int × Int)
  | _, [] => []
  | col, b :: rest => if b then (x + col, y) :: rowPoints x y (col + 1) rest else rowPoints x y (col + 1) rest

theorem rowPieces_eq (x y : Int) (c : Intensity) (col : Nat) (bits : List Bool) :
    rowPieces x y c col bits = plots c (rowPoints x y col bits) := by
  induction bits generalizing col with
  | nil => rfl
  | cons b rest ih => cases b <;> simp [rowPieces, rowPoints, ih, plots]

theorem mem_rowPoints {x y px py : Int} {col : Nat} {bits : List Bool} :
    (px, py) ∈ rowPoints x y col bits ↔
      ∃ i : Nat, bits.getD i false = true ∧ px = x + ((col + i : Nat) : Int) ∧ py = y := by
  induction bits generalizing col with
  | nil => simp [rowPoints]
  | cons b rest ih =>
    have hmem : (px, py) ∈ rowPoints x y col (b :: rest) ↔
        (b = true ∧ px = x + (col : Int) ∧ py = y) ∨ (px, py) ∈ rowPoints x y (col + 1) rest := by
      cases b <;> simp [rowPoints]
    rw [hmem, ih]
    constructor
    · rintro (⟨h1, h2, h3⟩ | ⟨i, h1, h2, h3⟩)
      · exact ⟨0, by simpa using h1, by simpa using h2, h3⟩
      · exact ⟨i + 1, by simpa using h1, by rw [h2]; congr 2; omega, h3⟩
    · rintro ⟨i, h1, h2, h3⟩
      cases i with
      | zero => exact .inl ⟨by simpa using h1, by simpa using h2, h3⟩
      | succ i => exact .inr ⟨i, by simpa using h1, by rw [h2]; congr 2; omega, h3⟩

/-- The pixels of the on bits of a cached glyph. -/
def cachedPoints (x y : Int) : Nat → List (List Bool) → List (Int × Int)
  | _, [] => []
  | r, bits :: rest => rowPoints x (y + r) 0 bits ++ cachedPoints x y (r + 1) rest

theorem cachedGlyphPieces_eq (x y : Int) (c : Intensity) (r : Nat) (rows : List (List Bool)) :
    cachedGlyphPieces x y c r rows = plots c (cachedPoints x y r rows) := by
  induction rows generalizing r with
  | nil => rfl
  | cons bits rest ih =>
    simp only [cachedGlyphPieces, cachedPoints, ih, rowPieces_eq]
    simp only [plots, List.map_append]

theorem mem_cachedPoints {x y px py : Int} {r : Nat} {rows : List (List Bool)} :
    (px, py) ∈ cachedPoints x y r rows ↔
      ∃ k col : Nat, ((rows.getD k []).getD col false) = true ∧ px = x + (col : Int) ∧ py = y + ((r + k : Nat) : Int) := by
  induction rows generalizing r with
  | nil => simp [cachedPoints]
  | cons bits rest ih =>
    simp only [cachedPoints, List.mem_append, mem_rowPoints, ih]
    constructor
    · rintro (⟨i, h1, h2, h3⟩ | ⟨k, col, h1, h2, h3⟩)
      · exact ⟨0, i, by simpa using h1, by simpa using h2, by simpa using h3⟩
      · exact ⟨k + 1, col, by simpa using h1, h2, by rw [h3]; congr 2; omega⟩
    · rintro ⟨k, col, h1, h2, h3⟩
      cases k with
      | zero => exact .inl ⟨col, by simpa using h1, by simpa using h2, by simpa using h3⟩
      | succ k => exact .inr ⟨k, col, by simpa using h1, h2, by rw [h3]; congr 2; omega⟩

theorem unifontPieces_quiet (s : State) (c : Intensity) (cx : BitVec 16) (text : List Char16) :
    ∀ p ∈ unifontPieces s c cx text, p.quiet = true := by
  induction text generalizing cx with
  | nil => intro p hp; cases hp
  | cons ch rest ih =>
    intro p hp
    unfold unifontPieces at hp
    split at hp
    · cases hp
    · split at hp
      · cases hp
      · rcases List.mem_append.mp hp with hp | hp
        · rw [cachedGlyphPieces_eq] at hp; exact plots_quiet _ _ p hp
        · rcases List.mem_cons.mp hp with rfl | hp
          · rfl
          · exact ih _ p hp

/-- What WRITE_UNIFONT's pieces do to the state when `B = 0`: the ink of the drawn characters and the cursor. -/
theorem unifontPieces_store (s : State) (c : Intensity) (text : List Char16) (t : State) (hc : t.cfg.Ok)
    (hw : Memory.wf t.fb = true) :
    ∃ fb', (unifontPieces s c t.cx text).foldl Piece.store t =
        { t with fb := fb', cx := cursorAfter t.cx (unifontDraws s t.cx text) } ∧
      Memory.wf fb' = true ∧ Painted t.cfg t.fb fb' c (UnifontInk s (unifontDraws s t.cx text)) := by
  induction text generalizing t with
  | nil =>
    refine ⟨t.fb, rfl, hw, (Painted.refl _ _ _).congr fun x y => ?_⟩
    simp [unifontDraws, UnifontInk]
  | cons ch rest ih =>
    unfold unifontPieces unifontDraws
    by_cases hcx : coord t.cx ≥ s.cfg.width
    · rw [if_pos hcx, if_pos (show t.cx.toInt ≥ s.cfg.width from hcx)]
      refine ⟨t.fb, rfl, hw, (Painted.refl _ _ _).congr fun x y => ?_⟩
      simp [UnifontInk]
    · rw [if_neg hcx, if_neg (show ¬ t.cx.toInt ≥ s.cfg.width from hcx)]
      cases hf : KeyMap.find ch s.cache with
      | none =>
        refine ⟨t.fb, rfl, hw, (Painted.refl _ _ _).congr fun x y => ?_⟩
        simp [UnifontInk]
      | some g =>
        simp only [cachedGlyphPieces_eq, List.foldl_append, store_plots, List.foldl_cons]
        have hp := storePoints_painted hc c hw (cachedPoints (coord t.cx) (coord s.cy) 0 g.bits)
        have hw1 := storePoints_wf (c := t.cfg) c hw (cachedPoints (coord t.cx) (coord s.cy) 0 g.bits)
        generalize hfb : storePoints t.cfg c t.fb (cachedPoints (coord t.cx) (coord s.cy) 0 g.bits) = fb1 at hp hw1 ⊢
        obtain ⟨fb', h1, h2, h3⟩ := ih { t with fb := fb1, cx := advanceCursor t.cx g.gw } hc hw1
        refine ⟨fb', ?_, h2, ?_⟩
        · exact Eq.trans rfl h1
        · refine (hp.trans h3).congr fun x y => ?_
          simp only [UnifontInk, mem_cachedPoints, List.mem_cons, exists_eq_or_imp, coord, Nat.zero_add]

/-- What WRITE_UNIFONT's pieces do to its response: the drawn characters are counted. -/
theorem unifontPieces_noted (s : State) (c : Intensity) (cx : BitVec 16) (text : List Char16) (j : Job) :
    (unifontPieces s c cx text).foldl Piece.noted j =
      { j with result := j.result + (unifontDraws s cx text).length } := by
  induction text generalizing cx j with
  | nil => rfl
  | cons ch rest ih =>
    unfold unifontPieces unifontDraws
    by_cases hcx : coord cx ≥ s.cfg.width
    · rw [if_pos hcx, if_pos (show cx.toInt ≥ s.cfg.width from hcx)]; rfl
    · rw [if_neg hcx, if_neg (show ¬ cx.toInt ≥ s.cfg.width from hcx)]
      cases hf : KeyMap.find ch s.cache with
      | none => rfl
      | some g =>
        simp only [cachedGlyphPieces_eq, List.foldl_append, noted_plots, List.foldl_cons, ih, Piece.noted, Job.note,
          List.length_cons, Nat.add_assoc, Nat.add_comm 1]

/-- `distinctFrom` keeps the order of first occurrence. -/
theorem idxOf_distinctFrom (t : List Char16) :
    ∀ (seen : List Char16) (a b : Char16), a ∈ t → b ∈ t → a ∉ seen → b ∉ seen →
      ((distinctFrom seen t).idxOf a < (distinctFrom seen t).idxOf b ↔ t.idxOf a < t.idxOf b) := by
  induction t with
  | nil => intro _ a _ h; cases h
  | cons ch rest ih =>
    intro seen a b ha hb hsa hsb
    unfold distinctFrom
    by_cases hs : seen.contains ch = true
    · rw [if_pos hs]
      have hs' : ch ∈ seen := by simpa using hs
      have hca : ch ≠ a := fun h => hsa (h ▸ hs')
      have hcb : ch ≠ b := fun h => hsb (h ▸ hs')
      rw [List.idxOf_cons_ne _ hca, List.idxOf_cons_ne _ hcb]
      rw [ih seen a b (by simpa [hca.symm] using ha) (by simpa [hcb.symm] using hb) hsa hsb]
      omega
    · rw [if_neg hs]
      by_cases hca : ch = a <;> by_cases hcb : ch = b
      · subst hca hcb; simp
      · subst hca
        rw [List.idxOf_cons_self, List.idxOf_cons_self, List.idxOf_cons_ne _ hcb, List.idxOf_cons_ne _ hcb]; omega
      · subst hcb
        rw [List.idxOf_cons_self, List.idxOf_cons_self]; omega
      · rw [List.idxOf_cons_ne _ hca, List.idxOf_cons_ne _ hcb, List.idxOf_cons_ne _ hca, List.idxOf_cons_ne _ hcb]
        have := ih (ch :: seen) a b (by simpa [Ne.symm hca] using ha) (by simpa [Ne.symm hcb] using hb)
          (by simp [Ne.symm hca, hsa]) (by simp [Ne.symm hcb, hsb])
        omega

/-- A cache of new keys has an entry for each that the font has. -/
theorem length_buildCache {hf : KeyMap Glyph} (l : List Char16) :
    ∀ m : KeyMap CachedGlyph, KeyMap.wf m = true → l.Nodup → (∀ ch ∈ l, KeyMap.find ch m = none) →
      (buildCache hf l m).length + (l.filter fun ch => (KeyMap.find ch hf).isNone).length = m.length + l.length := by
  induction l with
  | nil => intros; rfl
  | cons ch rest ih =>
    intro m hm hn hd
    rw [List.nodup_cons] at hn
    unfold buildCache
    cases hf' : KeyMap.find ch hf with
    | none =>
      have := ih m hm hn.2 (fun c hc => hd c (List.mem_cons_of_mem _ hc))
      simp [hf']; omega
    | some g =>
      have hl := KeyMap.length_insert ch (expand g) hm
      rw [hd ch (List.mem_cons_self ..)] at hl
      have := ih (KeyMap.insert ch (expand g) m) (KeyMap.wf_insert _ _ hm) hn.2 (fun c hc => by
        rw [KeyMap.find_insert, if_neg (fun h => hn.1 (by subst h; exact hc))]; exact hd c (List.mem_cons_of_mem _ hc))
      simp [hf'] at hl this ⊢; omega

end Sys2Proof.Machine
end

