-- ==== Sys2Proof/Laws/Bypass.lean ====
section
/-! SUPPORT. Rules whose pixel writes bypass the framebuffer (41_raster.md R211, R220): what they send when XPORT accepts every request. -/

namespace Sys2Proof.Machine

/-- A piece of a drawing rule: a pixel write, a cursor advance or a warning. -/
def Piece.textual : Piece → Bool
  | .plot _ _ _ | .effect (.advance _) | .effect (.warn _) => true
  | _ => false

/-- The effect of a piece. -/
def Piece.effectOf : Piece → Option Effect
  | .effect e => some e
  | _ => none

/-- The effects among pieces, in order. -/
def effectsOf (ps : List Piece) : List Effect := ps.filterMap Piece.effectOf

/-- Cursor advances and warnings write the cursor and the warning registers alone. -/
theorem applyAll_textual {ps : List Piece} (hq : ∀ p ∈ ps, p.textual = true) (s : State) :
    applyAll (effectsOf ps) s =
      { s with
        cx := (applyAll (effectsOf ps) s).cx, warnCount := (applyAll (effectsOf ps) s).warnCount
        lastMissing := (applyAll (effectsOf ps) s).lastMissing } := by
  induction ps generalizing s with
  | nil => rfl
  | cons p ps ih =>
    have hps := fun q hq' => hq q (List.mem_cons_of_mem _ hq')
    have hp := hq p List.mem_cons_self
    match p, hp with
    | .plot x y c, _ => exact ih hps s
    | .effect (.advance d), _ =>
      have : effectsOf (.effect (.advance d) :: ps) = .advance d :: effectsOf ps := rfl
      rw [this, applyAll_cons, ih hps]; rfl
    | .effect (.warn ch), _ =>
      have : effectsOf (.effect (.warn ch) :: ps) = .warn ch :: effectsOf ps := rfl
      rw [this, applyAll_cons, ih hps]; rfl

/-- Textual pieces run to their end under bypass when XPORT accepts every request: the framebuffer is unchanged, the pixels' requests are on
the trace in order, and the cursor and the warnings are as without bypass. -/
theorem runPieces_bypass {ps : List Piece} (hq : ∀ p ∈ ps, p.textual = true) (rest : List Piece) {j : Job}
    (hb : j.bypass = true) {s : State} {later : List Event} (hs : s.seqIdle)
    (h : s.env = oks (bypassSteps s.cfg s.fb (plotsOf ps)).length ++ later) :
    runPieces (ps ++ rest) j s =
      runPieces rest (ps.foldl Piece.noted j)
        { applyAll (effectsOf ps) s with
          env := later, phase := phaseAfter s.phase (bypassSteps s.cfg s.fb (plotsOf ps))
          trace := okTrace s.snap (bypassSteps s.cfg s.fb (plotsOf ps)) ++ s.trace } := by
  induction ps generalizing j s with
  | nil =>
    have : s.env = later := h
    rw [← this]; rfl
  | cons p ps ih =>
    have hps := fun q hq' => hq q (List.mem_cons_of_mem _ hq')
    have hp := hq p List.mem_cons_self
    match p, hp with
    | .plot x y c, _ =>
      have hplots : plotsOf (.plot x y c :: ps) = (x, y, c) :: plotsOf ps := rfl
      have heff : effectsOf (.plot x y c :: ps) = effectsOf ps := rfl
      rw [hplots] at h ⊢
      rw [heff]
      cases hi : inBounds s.cfg x y with
      | false =>
        have hsteps : bypassSteps s.cfg s.fb ((x, y, c) :: plotsOf ps) = bypassSteps s.cfg s.fb (plotsOf ps) := by
          simp [bypassSteps, hi]
        rw [hsteps] at h ⊢
        rw [List.cons_append, runPieces_plot_out hi, ih hps hb hs h]; rfl
      | true =>
        have hsteps : bypassSteps s.cfg s.fb ((x, y, c) :: plotsOf ps) =
            bypassSeq s.cfg s.fb x.toNat y.toNat c ++ bypassSteps s.cfg s.fb (plotsOf ps) := by
          simp [bypassSteps, hi]
        rw [hsteps] at h ⊢
        rw [List.length_append, length_bypassSeq, oks_add, List.append_assoc] at h
        rw [List.cons_append, runPieces_plot_bypass hi hb hs h, ih (s := { s with
          env := oks (bypassSteps s.cfg s.fb (plotsOf ps)).length ++ later, phase := .data
          trace := okTrace s.snap (bypassSeq s.cfg s.fb x.toNat y.toNat c) ++ s.trace }) hps hb hs rfl]
        rw [phaseAfter_append, phaseAfter_bypassSeq, okTrace_append, List.append_assoc]
        rw [applyAll_textual hps, applyAll_textual hps s]
        have e1 : ∀ (l : List Effect) (t u : State), (∀ e ∈ l, (Piece.effect e).textual = true) → t.cx = u.cx →
            t.warnCount = u.warnCount → t.lastMissing = u.lastMissing →
            (applyAll l t).cx = (applyAll l u).cx ∧ (applyAll l t).warnCount = (applyAll l u).warnCount ∧
              (applyAll l t).lastMissing = (applyAll l u).lastMissing := by
          intro l
          induction l with
          | nil => intro t u _ h1 h2 h3; exact ⟨h1, h2, h3⟩
          | cons e l ihl =>
            intro t u hl h1 h2 h3
            have he := hl e List.mem_cons_self
            refine ihl (e.apply t) (e.apply u) (fun e' h' => hl e' (List.mem_cons_of_mem _ h')) ?_ ?_ ?_ <;>
              (cases e <;> simp [Piece.textual] at he <;> simp [Effect.apply, State.warn, h1, h2, h3])
        have e2 : ∀ e ∈ effectsOf ps, (Piece.effect e).textual = true := by
          intro e he
          obtain ⟨q, hq1, hq2⟩ := List.mem_filterMap.mp he
          cases q with
          | effect e' => cases hq2; exact hps _ hq1
          | _ => cases hq2
        obtain ⟨h1, h2, h3⟩ := e1 (effectsOf ps) { s with
          env := oks (bypassSteps s.cfg s.fb (plotsOf ps)).length ++ later, phase := .data
          trace := okTrace s.snap (bypassSeq s.cfg s.fb x.toNat y.toNat c) ++ s.trace } s e2 rfl rfl rfl
        rw [h1, h2, h3]; rfl
    | .effect (.advance d), _ =>
      have heff : effectsOf (.effect (.advance d) :: ps) = .advance d :: effectsOf ps := rfl
      rw [List.cons_append, runPieces_effect, heff, applyAll_cons,
        ih (s := (Effect.advance d).apply s) hps (by simpa using hb) hs h]; rfl
    | .effect (.warn ch), _ =>
      have heff : effectsOf (.effect (.warn ch) :: ps) = .warn ch :: effectsOf ps := rfl
      rw [List.cons_append, runPieces_effect, heff, applyAll_cons,
        ih (s := (Effect.warn ch).apply s) hps (by simpa using hb) hs h]; rfl

/-- A job of textual pieces under bypass completes when XPORT accepts every request. -/
theorem runJob_bypass {j : Job} (hq : ∀ p ∈ j.todo, p.textual = true) (hb : j.bypass = true) {s : State}
    {later : List Event} (hs : s.seqIdle) (h : s.env = oks (bypassSteps s.cfg s.fb (plotsOf j.todo)).length ++ later) :
    runJob j s =
      finishJob (j.todo.foldl Piece.noted j)
        { applyAll (effectsOf j.todo) s with
          env := later, phase := phaseAfter s.phase (bypassSteps s.cfg s.fb (plotsOf j.todo))
          trace := okTrace s.snap (bypassSteps s.cfg s.fb (plotsOf j.todo)) ++ s.trace } := by
  have := runPieces_bypass hq [] hb hs h
  rw [List.append_nil] at this
  exact this

/-! ## The pieces of the drawing commands -/

theorem plots_textual (c : Intensity) (ps : List (Int × Int)) : ∀ p ∈ plots c ps, p.textual = true := by
  intro p hp
  obtain ⟨q, _, rfl⟩ := List.mem_map.mp hp
  rfl

theorem plotsOf_plots (c : Intensity) (ps : List (Int × Int)) :
    plotsOf (plots c ps) = ps.map fun p => (p.1, p.2, c) := by
  induction ps with
  | nil => rfl
  | cons p ps ih => simpa [plotsOf, plots, Piece.plotted, List.filterMap_cons] using ih

theorem effectsOf_plots (c : Intensity) (ps : List (Int × Int)) : effectsOf (plots c ps) = [] := by
  induction ps with
  | nil => rfl
  | cons p ps ih => simp [effectsOf, plots, Piece.effectOf, List.filterMap_cons]

theorem columnPieces_textual (x y : Int) (n : Nat) (c : Intensity) (b : Bool) (col : Nat) (bits : Byte) :
    ∀ p ∈ columnPieces x y n c b col bits, p.textual = true := by
  intro p hp
  obtain ⟨row, _, hp⟩ := List.mem_flatMap.mp hp
  split at hp
  · rw [paint_eq] at hp; exact plots_textual _ _ p hp
  · split at hp
    · rw [paint_eq] at hp; exact plots_textual _ _ p hp
    · cases hp

theorem fixedGlyphPieces_textual (x y : Int) (n : Nat) (c : Intensity) (b : Bool) (col : Nat) (cols : List Byte) :
    ∀ p ∈ fixedGlyphPieces x y n c b col cols, p.textual = true := by
  induction cols generalizing col with
  | nil => intro p hp; cases hp
  | cons bits rest ih =>
    intro p hp
    rcases List.mem_append.mp hp with hp | hp
    · exact columnPieces_textual _ _ _ _ _ _ _ p hp
    · exact ih _ p hp

theorem textPieces_textual (s : State) (n : Nat) (c : Intensity) (b : Bool) (cx : BitVec 16) (text : List Char16) :
    ∀ p ∈ textPieces s n c b cx text, p.textual = true := by
  induction text generalizing cx with
  | nil => intro p hp; cases hp
  | cons ch rest ih =>
    intro p hp
    unfold textPieces at hp
    split at hp
    · rcases List.mem_cons.mp hp with rfl | hp
      · rfl
      · exact ih cx p hp
    · rcases List.mem_append.mp hp with hp | hp
      · exact fixedGlyphPieces_textual _ _ _ _ _ _ _ p hp
      · rcases List.mem_cons.mp hp with rfl | hp
        · rfl
        · exact ih _ p hp

theorem unifontPieces_textual (s : State) (c : Intensity) (cx : BitVec 16) (text : List Char16) :
    ∀ p ∈ unifontPieces s c cx text, p.textual = true := by
  induction text generalizing cx with
  | nil => intro p hp; cases hp
  | cons ch rest ih =>
    intro p hp
    unfold unifontPieces at hp
    split at hp
    · cases hp
    · split at hp
      · cases hp
      · rcases List.mem_append.mp hp with hp | hp
        · rw [cachedGlyphPieces_eq] at hp; exact plots_textual _ _ p hp
        · rcases List.mem_cons.mp hp with rfl | hp
          · rfl
          · exact ih _ p hp

/-- The effects of a text do not depend on bypass: the cursor and the warnings are as without it. -/
theorem noted_fixedGlyph (x y : Int) (n : Nat) (c : Intensity) (b : Bool) (col : Nat) (cols : List Byte) (j : Job) :
    (fixedGlyphPieces x y n c b col cols).foldl Piece.noted j = j ∧
      effectsOf (fixedGlyphPieces x y n c b col cols) = [] := by
  have hcol : ∀ (col : Nat) (bits : Byte) (j : Job), (columnPieces x y n c b col bits).foldl Piece.noted j = j ∧
      effectsOf (columnPieces x y n c b col bits) = [] := by
    intro col bits j
    have : ∀ p ∈ columnPieces x y n c b col bits, ∃ px py v, p = .plot px py v := by
      intro p hp
      obtain ⟨row, _, hp⟩ := List.mem_flatMap.mp hp
      split at hp
      · rw [paint_eq] at hp; obtain ⟨q, _, rfl⟩ := List.mem_map.mp hp; exact ⟨_, _, _, rfl⟩
      · split at hp
        · rw [paint_eq] at hp; obtain ⟨q, _, rfl⟩ := List.mem_map.mp hp; exact ⟨_, _, _, rfl⟩
        · cases hp
    generalize columnPieces x y n c b col bits = l at this
    induction l with
    | nil => exact ⟨rfl, rfl⟩
    | cons p l ih =>
      obtain ⟨px, py, v, rfl⟩ := this p List.mem_cons_self
      exact ih fun q hq => this q (List.mem_cons_of_mem _ hq)
  induction cols generalizing col j with
  | nil => exact ⟨rfl, rfl⟩
  | cons bits rest ih =>
    simp only [fixedGlyphPieces, List.foldl_append, effectsOf, List.filterMap_append]
    rw [(hcol col bits j).1, (ih (col + 1) j).1]
    exact ⟨rfl, by
      have h1 := (hcol col bits j).2
      have h2 := (ih (col + 1) j).2
      unfold effectsOf at h1 h2
      rw [h1, h2]; rfl⟩

theorem effectsOf_textPieces (s : State) (n : Nat) (c : Intensity) (b : Bool) (cx : BitVec 16) (text : List Char16) :
    effectsOf (textPieces s n c b cx text) = effectsOf (textPieces s n c false cx text) := by
  induction text generalizing cx with
  | nil => rfl
  | cons ch rest ih =>
    unfold textPieces
    split
    · simp only [effectsOf, List.filterMap_cons, Piece.effectOf] at ih ⊢; rw [ih]
    · rename_i k _
      have h1 := (noted_fixedGlyph (coord cx) (coord s.cy) n c b 0 (glyphColumns s.ffWidth.toNat k s.ffData)
        ⟨0, 0, false, [], 0, false, false⟩).2
      have h2 := (noted_fixedGlyph (coord cx) (coord s.cy) n c false 0 (glyphColumns s.ffWidth.toNat k s.ffData)
        ⟨0, 0, false, [], 0, false, false⟩).2
      simp only [effectsOf, List.filterMap_append, List.filterMap_cons, Piece.effectOf] at ih h1 h2 ⊢
      rw [h1, h2, ih]

theorem noted_textPieces (s : State) (n : Nat) (c : Intensity) (b : Bool) (cx : BitVec 16) (text : List Char16) (j : Job) :
    (textPieces s n c b cx text).foldl Piece.noted j = (textPieces s n c false cx text).foldl Piece.noted j := by
  induction text generalizing cx j with
  | nil => rfl
  | cons ch rest ih =>
    unfold textPieces
    split
    · simp only [List.foldl_cons]; exact ih _ _
    · simp only [List.foldl_append, List.foldl_cons, (noted_fixedGlyph _ _ _ _ _ _ _ _).1]; exact ih _ _

/-- The cursor and the warnings after a text, with or without bypass (R246, R249). -/
theorem applyAll_text (s : State) (n : Nat) (c : Intensity) (b : Bool) (text : List Char16) (t : State) :
    applyAll (effectsOf (textPieces s n c b t.cx text)) t =
      { t with
        cx := t.cx + BitVec.ofNat 16 ((located s text).length * fixedAdvance s.ffWidth.toNat n)
        warnCount := warnedBy t.warnCount (unlocated s text).length
        lastMissing := ((unlocated s text).getLast?).getD t.lastMissing } := by
  rw [effectsOf_textPieces]
  induction text generalizing t with
  | nil => simp [textPieces, effectsOf, located, unlocated, warnedBy_zero]
  | cons ch rest ih =>
    unfold textPieces
    split
    · rename_i hl
      have hloc : located s (ch :: rest) = located s rest := by simp [located, hl]
      have hun : unlocated s (ch :: rest) = ch :: unlocated s rest := by simp [unlocated, hl]
      have he : effectsOf (.effect (.warn ch) :: textPieces s n c false t.cx rest) =
          .warn ch :: effectsOf (textPieces s n c false t.cx rest) := rfl
      have := ih (t.warn ch)
      simp only [State.warn_cx] at this
      rw [he, applyAll_cons]
      simp only [Effect.apply]
      rw [this, warn_eq, hloc, hun, getLast_cons]
      simp only [warnedBy_add, List.length_cons, Nat.add_comm 1]
    · rename_i k hl
      have hloc : located s (ch :: rest) = ch :: located s rest := by simp [located, hl]
      have hun : unlocated s (ch :: rest) = unlocated s rest := by simp [unlocated, hl]
      have h1 := (noted_fixedGlyph (coord t.cx) (coord s.cy) n c false 0 (glyphColumns s.ffWidth.toNat k s.ffData)
        ⟨0, 0, false, [], 0, false, false⟩).2
      have := ih { t with cx := advanceCursor t.cx (fixedAdvance s.ffWidth.toNat n) }
      simp only [effectsOf, List.filterMap_append, List.filterMap_cons, Piece.effectOf] at h1 this ⊢
      rw [h1, List.nil_append, applyAll_cons]
      refine Eq.trans this ?_
      rw [hloc, hun]
      simp only [List.length_cons, advance_add, Nat.add_mul, Nat.one_mul]

/-- The cursor after WRITE_UNIFONT's pieces, with or without bypass (R262). -/
theorem applyAll_unifont (s : State) (c : Intensity) (text : List Char16) (t : State) :
    applyAll (effectsOf (unifontPieces s c t.cx text)) t =
      { t with cx := cursorAfter t.cx (unifontDraws s t.cx text) } := by
  induction text generalizing t with
  | nil => rfl
  | cons ch rest ih =>
    unfold unifontPieces unifontDraws
    by_cases hcx : coord t.cx ≥ s.cfg.width
    · rw [if_pos hcx, if_pos (show t.cx.toInt ≥ s.cfg.width from hcx)]; rfl
    · rw [if_neg hcx, if_neg (show ¬ t.cx.toInt ≥ s.cfg.width from hcx)]
      cases hf : KeyMap.find ch s.cache with
      | none => rfl
      | some g =>
        have h1 := effectsOf_plots c (cachedPoints (coord t.cx) (coord s.cy) 0 g.bits)
        have := ih { t with cx := advanceCursor t.cx g.gw }
        simp only [cachedGlyphPieces_eq, effectsOf, List.filterMap_append, List.filterMap_cons, Piece.effectOf] at h1 this ⊢
        rw [h1, List.nil_append, applyAll_cons]
        exact Eq.trans this rfl

/-! ## Bypass writes that XPORT ends -/

/-- A bypass write of a pixel of the raster that XPORT refuses at its step `k` ends the command (R220). -/
theorem runPieces_plot_fail {x y : Int} {s : State} {later : List Event} {j : Job} {k : Nat} (hi : inBounds s.cfg x y = true)
    (hb : j.bypass = true) (hs : s.seqIdle) (hk : k < 14) (h : s.env = oks k ++ .answer false :: later) (v : Intensity)
    (rest : List Piece) :
    runPieces (.plot x y v :: rest) j s =
      failJob [] j { s with
        env := later, phase := phaseAfter s.phase ((bypassSeq s.cfg s.fb x.toNat y.toNat v).take k)
        trace := failTrace s.snap (bypassSeq s.cfg s.fb x.toNat y.toNat v) k ++ s.trace } := by
  simp only [runPieces, doPiece, hi, hb, seqBusy_of_idle hs, blockingSeq]
  rw [runSeq_fail (bypassSeq s.cfg s.fb x.toNat y.toNat v) k hk s later h, releaseSeq_of_idle hs]
  rfl

end Sys2Proof.Machine
end

