-- ==== Sys2Proof/Laws/Cells.lean ====
section
/-! SUPPORT. The pixel writes of text under bypass are the cells of 42_text.md R244, R245, R248 and R261 in their order, and what a cell that XPORT
refuses leaves (41_raster.md R220). -/

namespace Sys2Proof.Machine

/-- The pixel write of a cell. -/
def plotOf (p : Int × Int × Intensity) : Piece := .plot p.1 p.2.1 p.2.2

theorem plots_eq_cells (v : Intensity) (ps : List (Int × Int)) : plots v ps = (dots v ps).map plotOf := by
  simp [plots, dots, plotOf]

theorem plotsOf_cells (ps : List (Int × Int × Intensity)) : plotsOf (ps.map plotOf) = ps := by
  induction ps with
  | nil => rfl
  | cons p ps ih => simpa [plotsOf, plotOf, Piece.plotted] using ih

theorem plotsOf_append (a b : List Piece) : plotsOf (a ++ b) = plotsOf a ++ plotsOf b := List.filterMap_append ..

theorem plotsOf_effect (e : Effect) (ps : List Piece) : plotsOf (.effect e :: ps) = plotsOf ps := rfl

theorem bypassSteps_append (c : Config) (fb : Memory) (a b : List (Int × Int × Intensity)) :
    bypassSteps c fb (a ++ b) = bypassSteps c fb a ++ bypassSteps c fb b := List.flatMap_append ..

/-! ## The fixed font -/

/-- A glyph index that `Locate` gives is one of the alphabet. -/
theorem locate_lt {ch : Char16} {l : List Char16} {j : Nat} (h : locate ch l = some j) : j < l.length := by
  induction l generalizing j with
  | nil => cases h
  | cons a rest ih =>
    rw [locate] at h
    split at h
    · cases h; simp
    · obtain ⟨k, hk, rfl⟩ := Option.map_eq_some_iff.mp h
      simpa using ih hk

theorem paint_cells (px py : Int) (n : Nat) (v : Intensity) : paint px py n v = (cellSquare px py n v).map plotOf := by
  rw [paint_eq, rectPoints_eq, plots, cellSquare]
  simp only [List.map_flatMap, List.map_map]
  rfl

theorem columnPieces_cells (x y : Int) (n : Nat) (v : Intensity) (col : Nat) (bits : Byte) :
    columnPieces x y n v true col bits =
      ((List.range 8).flatMap fun (row : Nat) =>
        cellSquare (x + col * n) (y + row * n) n (if bits.getLsbD row then v else 0)).map plotOf := by
  rw [columnPieces, List.map_flatMap]
  congr 1
  funext row
  cases bits.getLsbD row <;> simp [paint_cells]

theorem fixedGlyphPieces_range (x y : Int) (n : Nat) (v : Intensity) (b : Bool) (f : Nat → Byte) (col m : Nat) :
    fixedGlyphPieces x y n v b col ((List.range' col m).map f) =
      (List.range' col m).flatMap fun k => columnPieces x y n v b k (f k) := by
  induction m generalizing col with
  | zero => rfl
  | succ m ih => simp only [List.range'_succ, List.map_cons, fixedGlyphPieces, List.flatMap_cons, ih]

theorem glyphColumns_range {fw j : Nat} {data : List Byte} (h : (j + 1) * fw ≤ data.length) :
    glyphColumns fw j data = (List.range' 0 fw).map fun col => data.getD (j * fw + col) 0 := by
  rw [Nat.add_mul, Nat.one_mul] at h
  apply List.ext_getElem
  · simp [glyphColumns]; omega
  · intro i h1 h2
    simp only [List.length_map, List.length_range'] at h2
    simp only [glyphColumns, List.getElem_take, List.getElem_drop, List.getElem_map, List.getElem_range', List.getD_eq_getElem?_getD]
    rw [show j * fw + (0 + 1 * i) = j * fw + i by omega, List.getElem?_eq_getElem (by omega)]
    rfl

/-- A glyph under bypass sends its cells. -/
theorem fixedGlyph_cells {s : State} {j : Nat} (h : (j + 1) * s.ffWidth.toNat ≤ s.ffData.length) (n : Nat) (v : Intensity) (x y : Int) :
    fixedGlyphPieces x y n v true 0 (glyphColumns s.ffWidth.toNat j s.ffData) = (fixedCells s j n v x y).map plotOf := by
  rw [glyphColumns_range h, fixedGlyphPieces_range, fixedCells, List.map_flatMap, List.range_eq_range' (n := s.ffWidth.toNat)]
  congr 1
  funext col
  rw [columnPieces_cells]

/-- The font data has a column byte for every column of every glyph (R41). -/
theorem fontOk_data {c : Config} {fw : BitVec 8} {alphabet : List Char16} {data : List Byte} (h : FontOk c fw alphabet data = true) {j : Nat}
    (hj : j < alphabet.length) : (j + 1) * fw.toNat ≤ data.length := by
  simp only [FontOk, Bool.and_eq_true, beq_iff_eq] at h
  rw [h.2]
  exact Nat.mul_le_mul_right _ hj

/-- The plots of WRITE_STRING under bypass are the cells of its text. -/
theorem plotsOf_text {s : State} (hf : FontOk s.cfg s.ffWidth s.ffAlpha s.ffData = true) (n : Nat) (v : Intensity) (cx : BitVec 16)
    (text : List Char16) : plotsOf (textPieces s n v true cx text) = textCells s n v cx text := by
  induction text generalizing cx with
  | nil => rfl
  | cons ch rest ih =>
    cases hl : locate ch s.ffAlpha with
    | none => simp only [textPieces, textCells, hl, plotsOf_effect, ih]
    | some j =>
      simp only [textPieces, textCells, hl, plotsOf_append, plotsOf_effect, ih, fixedGlyph_cells (fontOk_data hf (locate_lt hl)),
        plotsOf_cells, coord, advanceCursor, fixedAdvance]

/-- The pieces of a text, the cells before and from a character on. -/
theorem textPieces_append (s : State) (n : Nat) (v : Intensity) (b : Bool) (cx : BitVec 16) (pre post : List Char16) :
    textPieces s n v b cx (pre ++ post) =
      textPieces s n v b cx pre ++
        textPieces s n v b (cx + BitVec.ofNat 16 ((located s pre).length * (s.ffWidth.toNat * n + n))) post := by
  induction pre generalizing cx with
  | nil => simp [textPieces, located]
  | cons ch rest ih =>
    rw [List.cons_append]
    cases hl : locate ch s.ffAlpha with
    | none =>
      have hloc : located s (ch :: rest) = located s rest := by simp [located, hl]
      simp only [textPieces, hl, ih, hloc, List.cons_append]
    | some j =>
      have hloc : located s (ch :: rest) = ch :: located s rest := by simp [located, hl]
      simp only [textPieces, hl, ih, hloc, List.append_assoc, List.cons_append, fixedAdvance, advance_add, List.length_cons, Nat.add_mul,
        Nat.one_mul]

/-- What a text under bypass does from a located character on: its cells, then the rest. -/
theorem textPieces_located {s : State} (hf : FontOk s.cfg s.ffWidth s.ffAlpha s.ffData = true) {n : Nat} {v : Intensity} {cx : BitVec 16}
    {ch : Char16} {post : List Char16} (h : (locate ch s.ffAlpha).isSome = true) :
    ∃ rest, textPieces s n v true cx (ch :: post) = (textCells s n v cx [ch]).map plotOf ++ rest := by
  obtain ⟨j, hl⟩ := Option.isSome_iff_exists.mp h
  simp only [textPieces, textCells, hl, fixedGlyph_cells (fontOk_data hf (locate_lt hl)), List.append_nil, coord]
  exact ⟨_, rfl⟩

/-! ## The hex font -/

theorem rowPieces_range (x y : Int) (v : Intensity) (f : Nat → Bool) (col m : Nat) :
    rowPieces x y v col ((List.range' col m).map f) =
      ((List.range' col m).flatMap fun k => if f k then [(x + (k : Int), y, v)] else []).map plotOf := by
  induction m generalizing col with
  | zero => rfl
  | succ m ih =>
    simp only [List.range'_succ, List.map_cons, rowPieces, List.flatMap_cons, ih, List.map_append]
    cases f col <;> simp [plotOf]

theorem cachedPieces_range (x y : Int) (v : Intensity) (f : Nat → List Bool) (r m : Nat) :
    cachedGlyphPieces x y v r ((List.range' r m).map f) = (List.range' r m).flatMap fun (k : Nat) => rowPieces x (y + (k : Int)) v 0 (f k) := by
  induction m generalizing r with
  | zero => rfl
  | succ m ih => simp only [List.range'_succ, List.map_cons, cachedGlyphPieces, List.flatMap_cons, ih]

/-- A list is its entries in order. -/
theorem eq_map_getD {α : Type} (l : List α) (d : α) : l = (List.range' 0 l.length).map fun k => l.getD k d := by
  apply List.ext_getElem
  · simp
  · intro i h1 h2
    simp [List.getD_eq_getElem?_getD, List.getElem?_eq_getElem h1]

/-- A cached glyph sends its cells. -/
theorem cachedGlyph_cells {g : CachedGlyph} (h : g.wf = true) (x y : Int) (v : Intensity) :
    cachedGlyphPieces x y v 0 g.bits = (glyphCells g v x y).map plotOf := by
  simp only [CachedGlyph.wf, Bool.and_eq_true, beq_iff_eq, List.all_eq_true] at h
  obtain ⟨⟨-, hb⟩, hrow⟩ := h
  conv => lhs; rw [eq_map_getD g.bits []]
  rw [cachedPieces_range, glyphCells, List.map_flatMap, List.range_eq_range' (n := g.gh), hb]
  refine List.flatMap_congr fun r hr => ?_
  have hr' : r < g.bits.length := by simpa [hb] using hr
  have hlen : (g.bits.getD r []).length = g.gw := by
    rw [List.getD_eq_getElem?_getD, List.getElem?_eq_getElem hr']
    exact hrow _ (List.getElem_mem hr')
  conv => lhs; rw [eq_map_getD (g.bits.getD r []) false]
  rw [rowPieces_range, hlen, List.range_eq_range' (n := g.gw)]

/-- A cached glyph has the shape of R43. -/
theorem cacheOk_glyph {c : Config} {m : KeyMap CachedGlyph} (h : CacheOk c m = true) {ch : Char16} {g : CachedGlyph}
    (hg : KeyMap.find ch m = some g) : g.wf = true := by
  simp only [CacheOk, Bool.and_eq_true, List.all_eq_true] at h
  exact h.2 _ (KeyMap.mem_of_find hg)

/-- The pieces of drawn characters. -/
def drawnPieces (s : State) (v : Intensity) (draws : List (BitVec 16 × CachedGlyph)) : List Piece :=
  draws.flatMap fun d => (glyphCells d.2 v d.1.toInt s.cy.toInt).map plotOf ++ [.effect (.advance d.2.gw)]

/-- WRITE_UNIFONT sends the cells of the characters it draws. -/
theorem unifontPieces_drawn {s : State} (hc : CacheOk s.cfg s.cache = true) (v : Intensity) (cx : BitVec 16) (text : List Char16) :
    unifontPieces s v cx text = drawnPieces s v (unifontDraws s cx text) := by
  induction text generalizing cx with
  | nil => rfl
  | cons ch rest ih =>
    unfold unifontPieces unifontDraws
    by_cases hcx : cx.toInt ≥ s.cfg.width
    · rw [if_pos hcx, if_pos (show coord cx ≥ s.cfg.width from hcx)]; rfl
    · rw [if_neg hcx, if_neg (show ¬ coord cx ≥ s.cfg.width from hcx)]
      cases hf : KeyMap.find ch s.cache with
      | none => rfl
      | some g =>
        simp only [cachedGlyph_cells (cacheOk_glyph hc hf), ih, drawnPieces, List.flatMap_cons, List.append_assoc, List.singleton_append, coord]

theorem plotsOf_drawn (s : State) (v : Intensity) (draws : List (BitVec 16 × CachedGlyph)) :
    plotsOf (drawnPieces s v draws) = unifontCells s v draws := by
  induction draws with
  | nil => rfl
  | cons d ds ih =>
    simp only [drawnPieces, unifontCells, List.flatMap_cons, plotsOf_append, plotsOf_cells] at ih ⊢
    rw [ih]
    simp [plotsOf, Piece.plotted]

theorem effectsOf_cells (ps : List (Int × Int × Intensity)) : effectsOf (ps.map plotOf) = [] := by
  induction ps with
  | nil => rfl
  | cons p ps ih => exact ih

/-- The characters drawn move the cursor and are counted, and nothing else. -/
theorem applyAll_drawn (s : State) (v : Intensity) (draws : List (BitVec 16 × CachedGlyph)) (t : State) :
    applyAll (effectsOf (drawnPieces s v draws)) t = { t with cx := cursorAfter t.cx draws } := by
  induction draws generalizing t with
  | nil => rfl
  | cons d ds ih =>
    have : effectsOf (drawnPieces s v (d :: ds)) = .advance d.2.gw :: effectsOf (drawnPieces s v ds) := by
      have h := effectsOf_cells (glyphCells d.2 v d.1.toInt s.cy.toInt)
      simp only [effectsOf, drawnPieces, List.flatMap_cons, List.filterMap_append] at h ⊢
      rw [h]; rfl
    rw [this, applyAll_cons, ih]
    rfl

theorem noted_cells (ps : List (Int × Int × Intensity)) (j : Job) : (ps.map plotOf).foldl Piece.noted j = j := by
  induction ps with
  | nil => rfl
  | cons p ps ih => exact ih

theorem noted_drawn (s : State) (v : Intensity) (draws : List (BitVec 16 × CachedGlyph)) (j : Job) :
    (drawnPieces s v draws).foldl Piece.noted j = { j with result := j.result + draws.length } := by
  induction draws generalizing j with
  | nil => rfl
  | cons d ds ih =>
    rw [drawnPieces, List.flatMap_cons, List.foldl_append, List.foldl_append, noted_cells]
    refine (ih _).trans ?_
    simp [Piece.noted, Job.note]; omega

theorem drawnPieces_textual (s : State) (v : Intensity) (draws : List (BitVec 16 × CachedGlyph)) :
    ∀ p ∈ drawnPieces s v draws, p.textual = true := by
  intro p hp
  obtain ⟨d, _, hp⟩ := List.mem_flatMap.mp hp
  rcases List.mem_append.mp hp with hp | hp
  · obtain ⟨q, _, rfl⟩ := List.mem_map.mp hp; rfl
  · rcases List.mem_cons.mp hp with rfl | hp
    · rfl
    · cases hp

/-! ## Cells that XPORT ends -/

theorem foldl_noted_bypass (ps : List Piece) (j : Job) : (ps.foldl Piece.noted j).bypass = j.bypass := by
  induction ps generalizing j with
  | nil => rfl
  | cons p ps ih => rw [List.foldl_cons, ih, Piece.noted_bypass]

/-- Cells under bypass, of which XPORT refuses step `k` (R220): what follows them is not done. -/
theorem runPieces_cells_fail {ps : List (Int × Int × Intensity)} {j : Job} (hb : j.bypass = true) {s : State} {later : List Event} {k : Nat}
    (hs : s.seqIdle) (hk : k < (bypassSteps s.cfg s.fb ps).length) (h : s.env = oks k ++ .answer false :: later) (rest : List Piece) :
    runPieces (ps.map plotOf ++ rest) j s =
      failJob [] j { s with
        env := later, phase := phaseAfter s.phase ((bypassSteps s.cfg s.fb ps).take k)
        trace := failTrace s.snap (bypassSteps s.cfg s.fb ps) k ++ s.trace } := by
  induction ps generalizing s k with
  | nil => simp [bypassSteps] at hk
  | cons p ps ih =>
    obtain ⟨x, y, v⟩ := p
    have hplot : ((x, y, v) :: ps).map plotOf ++ rest = .plot x y v :: (ps.map plotOf ++ rest) := rfl
    rw [hplot]
    cases hi : inBounds s.cfg x y with
    | false =>
      have hsteps : bypassSteps s.cfg s.fb ((x, y, v) :: ps) = bypassSteps s.cfg s.fb ps := by simp [bypassSteps, hi]
      rw [hsteps] at hk ⊢
      rw [runPieces_plot_out hi]
      exact ih hs hk h
    | true =>
      have hsteps : bypassSteps s.cfg s.fb ((x, y, v) :: ps) =
          bypassSeq s.cfg s.fb x.toNat y.toNat v ++ bypassSteps s.cfg s.fb ps := by simp [bypassSteps, hi]
      rw [hsteps] at hk ⊢
      have hlen := length_bypassSeq s.cfg s.fb x.toNat y.toNat v
      rcases Nat.lt_or_ge k 14 with hlt | hge
      · rw [runPieces_plot_fail hi hb hs hlt h, failTrace_left _ _ _ _ (by rw [hlen]; exact hlt),
          List.take_append_of_le_length (by rw [hlen]; omega)]
      · obtain ⟨m, rfl⟩ : ∃ m, k = 14 + m := ⟨k - 14, by omega⟩
        rw [oks_add, List.append_assoc] at h
        rw [List.length_append, hlen] at hk
        rw [runPieces_plot_bypass hi hb hs h]
        have hk' : m < (bypassSteps s.cfg s.fb ps).length := by omega
        rw [ih (s := { s with
          env := oks m ++ .answer false :: later, phase := .data
          trace := okTrace s.snap (bypassSeq s.cfg s.fb x.toNat y.toNat v) ++ s.trace }) hs hk' rfl]
        have htake : (bypassSeq s.cfg s.fb x.toNat y.toNat v ++ bypassSteps s.cfg s.fb ps).take (14 + m) =
            bypassSeq s.cfg s.fb x.toNat y.toNat v ++ (bypassSteps s.cfg s.fb ps).take m := by
          rw [← hlen, List.take_length_add_append]
        have htrace := failTrace_append s.snap (bypassSeq s.cfg s.fb x.toNat y.toNat v) (bypassSteps s.cfg s.fb ps) m
        rw [hlen] at htrace
        rw [htake, htrace, phaseAfter_append, phaseAfter_bypassSeq, List.append_assoc]

/-- A drawing rule under bypass whose first pieces XPORT accepts, and that it ends at step `k` of the cells after them (R220): the cursor and the
warnings are as the first pieces leave them. -/
theorem runPieces_bypass_fail {pre : List Piece} (hq : ∀ p ∈ pre, p.textual = true) {ps : List (Int × Int × Intensity)} (rest : List Piece)
    {j : Job} (hb : j.bypass = true) {s : State} {later : List Event} {k : Nat} (hs : s.seqIdle)
    (hk : k < (bypassSteps s.cfg s.fb ps).length)
    (h : s.env = oks ((bypassSteps s.cfg s.fb (plotsOf pre)).length + k) ++ .answer false :: later) :
    runPieces (pre ++ (ps.map plotOf ++ rest)) j s =
      failJob [] (pre.foldl Piece.noted j) { applyAll (effectsOf pre) s with
        env := later
        phase := phaseAfter s.phase (bypassSteps s.cfg s.fb (plotsOf pre) ++ (bypassSteps s.cfg s.fb ps).take k)
        trace := failTrace s.snap (bypassSteps s.cfg s.fb (plotsOf pre) ++ bypassSteps s.cfg s.fb ps)
          ((bypassSteps s.cfg s.fb (plotsOf pre)).length + k) ++ s.trace } := by
  rw [oks_add, List.append_assoc] at h
  rw [runPieces_bypass hq _ hb hs h, failTrace_append, phaseAfter_append, List.append_assoc]
  have hfr := applyAll_textual hq s
  generalize applyAll (effectsOf pre) s = u at hfr ⊢
  rw [hfr]
  have hb' : (pre.foldl Piece.noted j).bypass = true := by
    rw [foldl_noted_bypass]; exact hb
  exact runPieces_cells_fail hb' (s := { s with
    cx := u.cx, warnCount := u.warnCount, lastMissing := u.lastMissing, env := oks k ++ .answer false :: later
    phase := phaseAfter s.phase (bypassSteps s.cfg s.fb (plotsOf pre))
    trace := okTrace s.snap (bypassSteps s.cfg s.fb (plotsOf pre)) ++ s.trace }) hs hk rfl rest

/-- Pixel writes under bypass, of which XPORT refuses step `k` (R220). -/
theorem runPieces_plots_fail {ps : List (Int × Int)} {v : Intensity} {j : Job} (hb : j.bypass = true) {s : State}
    {later : List Event} {k : Nat} (hs : s.seqIdle) (hk : k < (bypassSteps s.cfg s.fb (dots v ps)).length)
    (h : s.env = oks k ++ .answer false :: later) :
    runPieces (plots v ps) j s =
      failJob [] j { s with
        env := later, phase := phaseAfter s.phase ((bypassSteps s.cfg s.fb (dots v ps)).take k)
        trace := failTrace s.snap (bypassSteps s.cfg s.fb (dots v ps)) k ++ s.trace } := by
  have := runPieces_cells_fail hb hs hk h []
  rwa [List.append_nil, ← plots_eq_cells] at this

end Sys2Proof.Machine
end

