-- ==== Sys2Proof/Laws/Invariant.lean ====
section
/-! SUPPORT. What keeps the invariant of Safety.lean: the data side under each effect, the agents side under each piece of a rule, and the plan of
every command. -/

namespace Sys2Proof.Machine

/-- The data side depends on the memories, the queues and the configuration alone. -/
theorem DataOk.congr {s t : State} (h : DataOk s) (h1 : t.cfg = s.cfg) (h2 : t.fb = s.fb) (h3 : t.cmdq = s.cmdq)
    (h4 : t.busWrite = s.busWrite) (h5 : t.respq = s.respq) (h6 : t.hf = s.hf) (h7 : t.cache = s.cache)
    (h8 : t.ffontValid = s.ffontValid) (h9 : t.ffWidth = s.ffWidth) (h10 : t.ffAlpha = s.ffAlpha)
    (h11 : t.ffData = s.ffData) : DataOk t := by
  constructor
  · rw [h1]; exact h.cfg_ok
  · rw [h2]; exact h.fb_wf
  · rw [h1, h2]; exact h.fb_below
  · rw [h1, h3]; exact h.cmdq_le
  · rw [h1, h3, h4]; exact h.held_full
  · rw [h1, h5]; exact h.respq_le
  · rw [h6]; exact h.hf_wf
  · rw [h1, h6]; exact h.hf_le
  · rw [h6]; exact h.hf_glyphs
  · rw [h1, h7]; exact h.cache_ok
  · rw [h1, h8, h9, h10, h11]; exact h.font_ok

/-- PROC's hold does not touch the data. -/
theorem DataOk.hold {s : State} (h : DataOk s) (k : Hold) : DataOk (s.hold k) :=
  h.congr rfl rfl rfl rfl rfl rfl rfl rfl rfl rfl rfl

/-- A push keeps the queues within their sizes. -/
theorem DataOk.pushProc {s : State} (h : DataOk s) (r : Resp) : DataOk (s.pushProc r) := by
  rcases State.pushProc_cases r s with ⟨hr, he⟩ | ⟨_, he⟩
  · rw [he]
    constructor
    · exact h.cfg_ok
    · exact h.fb_wf
    · exact h.fb_below
    · exact h.cmdq_le
    · exact h.held_full
    · have : s.respq.length < s.cfg.respFifoDepth := by simpa [State.respRoom] using hr
      simp only [List.length_append, List.length_cons, List.length_nil]; omega
    · exact h.hf_wf
    · exact h.hf_le
    · exact h.hf_glyphs
    · exact h.cache_ok
    · exact h.font_ok
  · rw [he]; exact h.hold _

/-- A framebuffer in canonical form and within its size takes the place of another. -/
theorem DataOk.withFb {s : State} (h : DataOk s) {fb : Memory} (hw : Memory.wf fb = true)
    (hb : Memory.below s.cfg.fbSize fb = true) : DataOk { s with fb := fb } :=
  ⟨h.cfg_ok, hw, hb, h.cmdq_le, h.held_full, h.respq_le, h.hf_wf, h.hf_le, h.hf_glyphs, h.cache_ok, h.font_ok⟩

/-- A pixel store of a pixel of the raster keeps the data in order. -/
theorem DataOk.pixStore {s : State} (h : DataOk s) {x y : Int} (hi : inBounds s.cfg x y = true) (c : Intensity) :
    DataOk { s with fb := pixStore s.cfg s.fb x.toNat y.toNat c } := by
  obtain ⟨h1, h2, -⟩ := toNat_inBounds hi
  exact h.withFb (wf_pixStore h.fb_wf _ _ _) (below_pixStore h.cfg_ok h.fb_below h1 h2 _)

/-- What a safe effect needs of the data. -/
theorem DataOk.apply {s : State} (h : DataOk s) {e : Effect} {k : Knows} {rest : List Piece}
    (hj : jobSafe s.cfg k (.effect e :: rest) = true) (hg : glyphRoom s (.effect e :: rest) = true) : DataOk (e.apply s) := by
  cases e with
  | fill => exact h.withFb rfl rfl
  | font fw alphabet data =>
    simp only [jobSafe, Bool.and_eq_true] at hj
    exact ⟨h.cfg_ok, h.fb_wf, h.fb_below, h.cmdq_le, h.held_full, h.respq_le, h.hf_wf, h.hf_le, h.hf_glyphs, h.cache_ok,
      fun _ => hj.1⟩
  | hfBegin =>
    exact ⟨h.cfg_ok, h.fb_wf, h.fb_below, h.cmdq_le, h.held_full, h.respq_le, rfl, Nat.zero_le _,
      fun e he => (List.not_mem_nil he).elim, h.cache_ok, h.font_ok⟩
  | hfGlyph cp g =>
    simp only [jobSafe, Bool.and_eq_true] at hj
    have hroom : (KeyMap.find cp s.hf).isSome = true ∨ s.hf.length < s.cfg.hfMaxGlyphs := by
      simp only [glyphRoom, List.all_cons, Bool.and_eq_true, Bool.or_eq_true, decide_eq_true_eq] at hg
      exact hg.1.2
    have hlen := KeyMap.length_insert cp g h.hf_wf
    have hle := h.hf_le
    refine ⟨h.cfg_ok, h.fb_wf, h.fb_below, h.cmdq_le, h.held_full, h.respq_le, KeyMap.wf_insert _ _ h.hf_wf, ?_,
      KeyMap.forall_insert (P := fun (x : Glyph) => x.wf = true) h.hf_glyphs hj.1, h.cache_ok, h.font_ok⟩
    show (KeyMap.insert cp g s.hf).length ≤ s.cfg.hfMaxGlyphs
    rw [hlen]
    cases hf : KeyMap.find cp s.hf with
    | some v => simp only [Option.isNone_some, Bool.false_eq_true, if_false]; omega
    | none =>
      rw [hf] at hroom
      have : s.hf.length < s.cfg.hfMaxGlyphs := hroom.resolve_left (by simp)
      simp only [Option.isNone_none, if_true]; omega
  | install m =>
    simp only [jobSafe, Bool.and_eq_true] at hj
    exact ⟨h.cfg_ok, h.fb_wf, h.fb_below, h.cmdq_le, h.held_full, h.respq_le, h.hf_wf, h.hf_le, h.hf_glyphs, hj.1,
      h.font_ok⟩
  | _ => exact h.congr rfl rfl rfl rfl rfl rfl rfl rfl rfl rfl rfl

/-! ## The agents side while PROC is at work -/

/-- What holds of SEQ, the flags and the reset line while PROC is inside a rule. -/
structure Mid (s : State) (k : Knows) : Prop where
  seq_ok : SeqOk s
  idle_ok : k.idle = true → s.seqStage = .idle
  low_idle : k.low = true → k.idle = true
  alone : s.seqDone ≠ some .toProc
  flight_ok : s.inFlight = (s.updateRunning || k.flight)
  once_ok : (s.updateRunning && k.flight) = false
  line_ok : s.resetOut = !k.low
  low_ok : traceLow s.trace = k.low
  quiet_ok : traceQuiet s.trace = true

/-- An idle sequencer is not playing an update. -/
theorem updateRunning_of_idle {s : State} (h : s.seqStage = .idle) : s.updateRunning = false := by
  simp [State.updateRunning, h]

theorem once_of_not {s : State} (h : s.updateRunning = false) (b : Bool) : (s.updateRunning && b) = false := by rw [h]; rfl

/-- PROC ends a command: the invariant holds again. -/
theorem Inv.finish {s : State} {k : Knows} (hd : DataOk s) (hm : Mid s k) (hf : k.flight = false) (hl : k.low = false)
    (r : Resp) : Inv (s.pushProc r) := by
  refine ⟨hd.pushProc r, ⟨false, false, false⟩, ?_⟩
  have hflight := hm.flight_ok
  have hline := hm.line_ok
  have hlow := hm.low_ok
  rw [hf] at hflight
  rw [hl] at hline hlow
  have halone : s.seqDone ≠ some .toProc := hm.alone
  rcases State.pushProc_cases r s with ⟨_, he⟩ | ⟨_, he⟩ <;> rw [he]
  · exact ⟨hm.seq_ok, rfl, by simp, by simp, by simp [State.procWaits, halone], hflight, Bool.and_false _, hline, hlow, hm.quiet_ok⟩
  · exact ⟨hm.seq_ok, rfl, by simp, by simp, by simp [State.procWaits, halone, State.hold], hflight, Bool.and_false _, hline, hlow, hm.quiet_ok⟩

/-- PROC is about to push the response of a command. -/
theorem Inv.holdPush {s : State} {k : Knows} (hd : DataOk s) (hm : Mid s k) (hf : k.flight = false) (hl : k.low = false)
    (r : Resp) : Inv (s.hold (.push r)) := by
  refine ⟨hd.hold _, ⟨false, false, false⟩, ?_⟩
  have hflight := hm.flight_ok
  have hline := hm.line_ok
  have hlow := hm.low_ok
  rw [hf] at hflight
  rw [hl] at hline hlow
  have halone : s.seqDone ≠ some .toProc := hm.alone
  exact ⟨hm.seq_ok, rfl, by simp, by simp, by simp [State.procWaits, halone, State.hold], hflight, Bool.and_false _, hline, hlow, hm.quiet_ok⟩

/-- PROC holds at a point of a job. -/
theorem Inv.holdJob {s : State} {k : Knows} (hd : DataOk s) (hm : Mid s k) {j : Job}
    (hj : jobSafe s.cfg k j.todo = true) (hg : glyphRoom s j.todo = true) : Inv (s.hold (.job j)) := by
  refine ⟨hd.hold _, k, ?_⟩
  have halone : s.seqDone ≠ some .toProc := hm.alone
  exact ⟨hm.seq_ok, ⟨hj, hg⟩, hm.idle_ok, hm.low_idle, by simp [State.procWaits, halone, State.hold], hm.flight_ok, hm.once_ok, hm.line_ok,
    hm.low_ok, hm.quiet_ok⟩

/-- A blocking sequence from an idle sequencer: it returns, and SEQ is idle again, or PROC holds for it. -/
theorem runSeq_mid {s : State} {k : Knows} (hm : Mid s k) (hl : k.low = false) (hs : s.seqStage = .idle) (steps : List SeqStep) :
    (∃ ok, (s.runSeq steps).2 = some ok ∧ Mid (s.runSeq steps).1 { k with idle := true } ∧
        (s.runSeq steps).1.seqStage = .idle) ∨
      ((s.runSeq steps).2 = none ∧ SeqOk (s.runSeq steps).1 ∧ (s.runSeq steps).1.seqDone = some .toProc ∧
        (s.runSeq steps).1.seqStage = .playing ∧ (s.runSeq steps).1.updateRunning = false ∧
        (s.runSeq steps).1.inFlight = k.flight ∧ (s.runSeq steps).1.resetOut = true ∧
        traceLow (s.runSeq steps).1.trace = false ∧ traceQuiet (s.runSeq steps).1.trace = true) := by
  have hst := playSteps_stage steps (s.startSeq steps .toProc) rfl rfl rfl (Nat.zero_le _)
  have htr := playSteps_trace steps (s.startSeq steps .toProc)
  have hfr := playSteps_frame steps (s.startSeq steps .toProc)
  have hflight := hm.flight_ok
  rw [updateRunning_of_idle hs, Bool.false_or] at hflight
  have hline := hm.line_ok
  have hlow := hm.low_ok
  rw [hl] at hline hlow
  simp only [State.startSeq_trace] at htr
  have hq := htr.2 hlow hm.quiet_ok
  have hlow' := htr.1.trans hlow
  unfold State.runSeq
  generalize playSteps steps (s.startSeq steps .toProc) = r at hst hfr hq hlow'
  obtain ⟨t, res⟩ := r
  simp only at hst hfr hq hlow' ⊢
  rcases hst with ⟨ok, h1, h2, h3⟩ | ⟨h1, h2, h3, st, h4, h5⟩
  · left
    subst h1
    refine ⟨ok, rfl, ⟨⟨rfl, rfl, rfl, rfl⟩, fun _ => rfl, fun _ => rfl, by simp, ?_, by rw [updateRunning_of_idle rfl]; rfl, ?_, ?_, hq⟩, rfl⟩
    · rw [updateRunning_of_idle rfl, Bool.false_or]
      show t.inFlight = k.flight
      rw [hfr]; exact hflight
    · show t.resetOut = !k.low
      rw [hfr, hl]; exact hline
    · show traceLow t.trace = k.low
      rw [hl]; exact hlow'
  · right
    subst h1
    have hdone : t.seqDone = some .toProc := by rw [hfr]; rfl
    have hsteps : t.seqSteps = steps := by rw [hfr]; rfl
    have hsnap : t.snap = s.snap := by rw [hfr]; rfl
    refine ⟨rfl, ?_, hdone, h2, by simp [State.updateRunning, h2, hdone], ?_, ?_, hlow', hq⟩
    · unfold SeqOk
      simp only [h2, hdone, hsteps, hsnap]
      refine ⟨rfl, h3, fun r hr => ⟨st, h4, ?_⟩⟩
      rw [h5] at hr; cases hr; rfl
    · rw [hfr]; exact hflight
    · rw [hfr]; exact hline

/-- What a blocking sequence leaves of the state outside SEQ. -/
theorem runSeq_frame (steps : List SeqStep) (s : State) :
    (s.runSeq steps).1 =
      { s with
        env := (s.runSeq steps).1.env, seqStage := (s.runSeq steps).1.seqStage
        seqSteps := (s.runSeq steps).1.seqSteps, seqPos := (s.runSeq steps).1.seqPos
        seqDone := (s.runSeq steps).1.seqDone, seqPending := (s.runSeq steps).1.seqPending
        phase := (s.runSeq steps).1.phase, trace := (s.runSeq steps).1.trace } := by
  have hfr := playSteps_frame steps (s.startSeq steps .toProc)
  unfold State.runSeq
  generalize playSteps steps (s.startSeq steps .toProc) = r at hfr
  obtain ⟨t, res⟩ := r
  simp only at hfr ⊢
  rw [hfr]
  cases res <;> rfl

theorem DataOk.runSeq {s : State} (h : DataOk s) (steps : List SeqStep) : DataOk (s.runSeq steps).1 := by
  rw [runSeq_frame]
  exact h.congr rfl rfl rfl rfl rfl rfl rfl rfl rfl rfl rfl

/-- The room for a glyph does not depend on SEQ. -/
theorem glyphRoom_congr {s t : State} (h1 : t.hf = s.hf) (h2 : t.cfg = s.cfg) (todo : List Piece) :
    glyphRoom t todo = glyphRoom s todo := by
  unfold glyphRoom
  rw [h1, h2]

/-- A job whose next piece is gone keeps its room: a glyph is stored by the last piece only. -/
theorem glyphRoom_tail {s : State} {p : Piece} {rest : List Piece} (h : glyphRoom s (p :: rest) = true) (t : State) :
    glyphRoom t rest = true := by
  simp only [glyphRoom, List.all_cons, Bool.and_eq_true] at h
  have h' := h.2
  unfold glyphRoom
  rw [List.all_eq_true] at h' ⊢
  intro q hq
  have := h' q hq
  cases q with
  | effect e =>
    cases e with
    | hfGlyph cp g =>
      simp only [List.length_cons, Bool.and_eq_true, beq_iff_eq] at this
      exact absurd hq (by
        have : rest = [] := List.length_eq_zero_iff.mp (by omega)
        simp [this])
    | _ => rfl
  | _ => rfl

/-- The writes of a safe piece, one after another, are safe. -/
theorem jobSafe_firstWrite {c : Config} {k : Knows} {p : Piece} {rest : List Piece} (h : jobSafe c k (p :: rest) = true) :
    jobSafe c k (p.firstWrite.1 :: (p.firstWrite.2 ++ rest)) = true := by
  cases p with
  | effect e => cases e <;> exact h
  | _ => exact h

theorem glyphRoom_firstWrite {s : State} {p : Piece} {rest : List Piece} (h : glyphRoom s (p :: rest) = true) :
    glyphRoom s (p.firstWrite.1 :: (p.firstWrite.2 ++ rest)) = true := by
  cases p with
  | effect e =>
    cases e with
    | cursor x y | warn ch =>
      simp only [glyphRoom, Piece.firstWrite, Effect.firstWrite, List.map_cons, List.map_nil, List.cons_append, List.nil_append,
        List.all_cons, Bool.true_and, List.length_cons] at h ⊢
      rw [List.all_eq_true] at h ⊢
      intro q hq
      have := h q hq
      split <;> simp_all
    | _ => exact h
  | _ => exact h

/-- What a piece leads to, as the invariant needs it. -/
def PieceOk (c : Config) (rest : List Piece) : PieceOut → Prop
  | .go _ s' =>
    DataOk s' ∧ s'.cfg = c ∧ ∃ k', Mid s' k' ∧ jobSafe c k' rest = true ∧ glyphRoom s' rest = true
  | .fail onFail s' =>
    DataOk s' ∧ s'.cfg = c ∧ ∃ k', Mid s' k' ∧ jobSafe c k' (onFail.map .effect) = true ∧
      glyphRoom s' (onFail.map .effect) = true ∧
      (∀ e ∈ onFail, ∀ j : Job, j.note e = j)
  | .answer r s' => Inv (s'.pushProc r) ∧ Inv (s'.hold (.push r))
  | .leave s' => Inv s'.leave ∧ Inv (s'.hold .leaving)
  | .stop s' => Inv s'

/-- The writes of a failed sequence are safe. -/
theorem onFail_safe {c : Config} {k : Knows} (hi : k.idle = true) (hl : k.low = false) (onFail : List Effect)
    (h : onFail.all (fun e => match e with | .ctrl _ | .inFlight false => true | _ => false) = true)
    (hf : k.flight = false ∨ .inFlight false ∈ onFail) :
    jobSafe c k (onFail.map .effect) = true := by
  induction onFail generalizing k with
  | nil =>
    rcases hf with h | h
    · simp [jobSafe, h, hl]
    · cases h
  | cons e rest ih =>
    simp only [List.all_cons, Bool.and_eq_true] at h
    cases e with
    | ctrl c' =>
      simp only [List.map_cons, jobSafe]
      refine ih hi hl h.2 (hf.imp id fun hm => ?_)
      rcases List.mem_cons.mp hm with h' | h'
      · cases h'
      · exact h'
    | inFlight b =>
      cases b with
      | true => simp at h
      | false =>
        simp only [List.map_cons, jobSafe, hi, Bool.true_and]
        exact ih rfl hl h.2 (.inl rfl)
    | _ => simp at h

theorem onFail_room (s : State) (onFail : List Effect)
    (h : onFail.all (fun e => match e with | .ctrl _ | .inFlight false => true | _ => false) = true) :
    glyphRoom s (onFail.map .effect) = true := by
  unfold glyphRoom
  rw [List.all_eq_true] at h ⊢
  intro p hp
  obtain ⟨e, he, rfl⟩ := List.mem_map.mp hp
  have := h e he
  cases e <;> first | rfl | simp at this

theorem onFail_note (onFail : List Effect)
    (h : onFail.all (fun e => match e with | .ctrl _ | .inFlight false => true | _ => false) = true) :
    ∀ e ∈ onFail, ∀ j : Job, j.note e = j := by
  intro e he j
  have := List.all_eq_true.mp h e he
  cases e <;> first | rfl | simp at this

/-- A blocking sequence inside a job. -/
theorem blockingSeq_ok {s : State} {k : Knows} (hd : DataOk s) (hm : Mid s k) (hs : s.seqStage = .idle)
    (hl : k.low = false) (j : Job) (rest : List Piece) (steps : List SeqStep) (onFail : List Effect)
    (hj : jobSafe s.cfg { k with idle := true } rest = true) (hg : glyphRoom s rest = true)
    (hall : onFail.all (fun e => match e with | .ctrl _ | .inFlight false => true | _ => false) = true)
    (hfl : k.flight = false ∨ .inFlight false ∈ onFail) :
    PieceOk s.cfg rest (blockingSeq j rest steps onFail s) := by
  have hr := runSeq_mid hm hl hs steps
  have hdr := hd.runSeq steps
  have hfr := runSeq_frame steps s
  unfold blockingSeq
  generalize s.runSeq steps = r at hr hdr hfr
  obtain ⟨t, res⟩ := r
  simp only at hr hdr hfr ⊢
  have hcfg : t.cfg = s.cfg := by rw [hfr]
  have hhf : t.hf = s.hf := by rw [hfr]
  rcases hr with ⟨ok, h1, h2, h3⟩ | ⟨h1, h2, h3, h4, h5, h6, h7, h8, h9⟩
  · subst h1
    cases ok with
    | true =>
      exact ⟨hdr, hcfg, _, h2, hj, (glyphRoom_congr hhf hcfg rest).trans hg⟩
    | false =>
      exact ⟨hdr, hcfg, _, h2, onFail_safe (k := { k with idle := true }) rfl hl onFail hall hfl, onFail_room _ _ hall, onFail_note _ hall⟩
  · subst h1
    refine ⟨hdr.hold _, ⟨false, k.flight, false⟩, ?_⟩
    refine ⟨h2, ?_, by simp, by simp, by simp [State.procWaits, State.hold, h3], ?_, once_of_not h5 k.flight, h7, h8, h9⟩
    · refine ⟨rfl, rfl, ?_, (glyphRoom_congr hhf hcfg rest).trans hg, ?_, onFail_room _ _ hall⟩
      · show jobSafe t.cfg _ rest = true
        rw [hcfg, ← hl]; exact hj
      · show jobSafe t.cfg _ _ = true
        exact onFail_safe rfl rfl onFail hall hfl
    · show t.inFlight = (t.updateRunning || k.flight)
      rw [h5, h6]; rfl

/-- What is safe without knowing that SEQ is idle is safe when it is. -/
theorem jobSafe_idle {c : Config} (ps : List Piece) (k : Knows) (h : jobSafe c k ps = true) :
    jobSafe c { k with idle := true } ps = true := by
  induction ps generalizing k with
  | nil => simpa [jobSafe] using h
  | cons p ps ih =>
    cases p with
    | effect e =>
      cases e <;> simp only [jobSafe, Bool.and_eq_true] at h ⊢ <;>
        first
        | exact ih _ h
        | exact ⟨trivial, ih _ h.2⟩
        | exact ⟨h.1, ih _ h.2⟩
    | plot x y c => simp only [jobSafe, Bool.and_eq_true] at h ⊢; exact ⟨h.1, ih _ h.2⟩
    | waitIdle => simpa [jobSafe] using h
    | waitHold => simp only [jobSafe, Bool.and_eq_true] at h ⊢; exact ⟨⟨trivial, h.1.2⟩, ih _ h.2⟩
    | runSeq steps f =>
      simp only [jobSafe, Bool.and_eq_true] at h ⊢
      exact ⟨⟨⟨⟨trivial, h.1.1.1.2⟩, h.1.1.2⟩, h.1.2⟩, ih _ h.2⟩
    | coalesce => simp only [jobSafe, Bool.and_eq_true] at h ⊢; exact ⟨h.1, ih _ h.2⟩
    | startSeq steps d =>
      simp only [jobSafe, Bool.and_eq_true] at h ⊢
      exact ⟨⟨trivial, h.1.2⟩, h.2⟩

/-- Every piece of a safe job keeps the invariant. -/
theorem doPiece_ok {s : State} {k : Knows} (hd : DataOk s) (hm : Mid s k) (j : Job) (p : Piece) (rest : List Piece)
    (hj : jobSafe s.cfg k (p :: rest) = true) (hg : glyphRoom s (p :: rest) = true) :
    PieceOk s.cfg rest (doPiece j p rest s) := by
  have hgt := glyphRoom_tail hg
  cases p with
  | effect e =>
    have hd' := hd.apply hj hg
    have hroom : glyphRoom (e.apply s) rest = true := hgt _
    refine ⟨hd', Effect.apply_cfg e s, ?_⟩
    cases e with
    | inFlight b =>
      simp only [jobSafe, Bool.and_eq_true] at hj
      have hs := hm.idle_ok hj.1
      refine ⟨{ k with flight := b }, ⟨hm.seq_ok, fun _ => hs, fun _ => hj.1, hm.alone, ?_, once_of_not (updateRunning_of_idle hs) b, hm.line_ok, hm.low_ok, hm.quiet_ok⟩, hj.2, hroom⟩
      show b = (s.updateRunning || b)
      rw [updateRunning_of_idle hs]; rfl
    | resetOut high =>
      simp only [jobSafe, Bool.and_eq_true] at hj
      have hs := hm.idle_ok hj.1
      refine ⟨{ k with low := !high }, ⟨hm.seq_ok, fun _ => hs, fun _ => hj.1, hm.alone, hm.flight_ok, hm.once_ok, ?_, rfl, hm.quiet_ok⟩, hj.2, hroom⟩
      show high = !!high
      rw [Bool.not_not]
    | snapshot =>
      simp only [jobSafe, Bool.and_eq_true] at hj
      have hs := hm.idle_ok hj.1
      refine ⟨k, ⟨?_, hm.idle_ok, hm.low_idle, hm.alone, hm.flight_ok, hm.once_ok, hm.line_ok, hm.low_ok, hm.quiet_ok⟩, hj.2, hroom⟩
      have h := hm.seq_ok
      unfold SeqOk at h ⊢
      simp only [Effect.apply_seqStage, hs] at h ⊢
      exact h
    | font fw a d =>
      simp only [jobSafe, Bool.and_eq_true] at hj
      exact ⟨k, ⟨hm.seq_ok, hm.idle_ok, hm.low_idle, hm.alone, hm.flight_ok, hm.once_ok, hm.line_ok, hm.low_ok, hm.quiet_ok⟩, hj.2, hroom⟩
    | hfGlyph cp g =>
      simp only [jobSafe, Bool.and_eq_true] at hj
      exact ⟨k, ⟨hm.seq_ok, hm.idle_ok, hm.low_idle, hm.alone, hm.flight_ok, hm.once_ok, hm.line_ok, hm.low_ok, hm.quiet_ok⟩, hj.2, hroom⟩
    | install m =>
      simp only [jobSafe, Bool.and_eq_true] at hj
      exact ⟨k, ⟨hm.seq_ok, hm.idle_ok, hm.low_idle, hm.alone, hm.flight_ok, hm.once_ok, hm.line_ok, hm.low_ok, hm.quiet_ok⟩, hj.2, hroom⟩
    | _ =>
      exact ⟨k, ⟨hm.seq_ok, hm.idle_ok, hm.low_idle, hm.alone, hm.flight_ok, hm.once_ok, hm.line_ok, hm.low_ok, hm.quiet_ok⟩, hj, hroom⟩
  | plot x y c =>
    have hj' := hj
    simp only [jobSafe, Bool.and_eq_true, Bool.not_eq_true'] at hj
    cases hi : inBounds s.cfg x y with
    | false =>
      rw [show doPiece j (.plot x y c) rest s = .go j s by simp [doPiece, hi]]
      exact ⟨hd, rfl, k, hm, hj.2, hgt s⟩
    | true =>
      cases hb : j.bypass with
      | false =>
        rw [show doPiece j (.plot x y c) rest s = .go j { s with fb := pixStore s.cfg s.fb x.toNat y.toNat c } by
          simp [doPiece, hi, hb]]
        refine ⟨hd.pixStore hi c, rfl, k, ?_, hj.2, hgt _⟩
        exact ⟨hm.seq_ok, hm.idle_ok, hm.low_idle, hm.alone, hm.flight_ok, hm.once_ok, hm.line_ok, hm.low_ok, hm.quiet_ok⟩
      | true =>
        cases hbusy : s.seqBusy with
        | true =>
          rw [show doPiece j (.plot x y c) rest s = .stop (s.hold (.job { j with todo := .plot x y c :: rest })) by
            simp [doPiece, hi, hb, hbusy]]
          exact Inv.holdJob hd hm (j := { j with todo := .plot x y c :: rest }) hj' hg
        | false =>
          rw [show doPiece j (.plot x y c) rest s = blockingSeq j rest (bypassSeq s.cfg s.fb x.toNat y.toNat c) [] s by
            simp [doPiece, hi, hb, hbusy]]
          have hs : s.seqStage = .idle := by simpa [State.seqBusy] using hbusy
          have hm' : Mid s { k with idle := true } :=
            ⟨hm.seq_ok, fun _ => hs, fun _ => rfl, hm.alone, hm.flight_ok, hm.once_ok, hm.line_ok, hm.low_ok, hm.quiet_ok⟩
          exact blockingSeq_ok hd hm' hs hj.1.2 j rest _ [] (jobSafe_idle rest k hj.2) (hgt s) rfl
            (.inl hj.1.1)
  | waitIdle =>
    simp only [doPiece]
    cases hbusy : s.seqBusy with
    | true => exact Inv.holdJob hd hm (j := { j with todo := .waitIdle :: rest }) hj hg
    | false =>
      have hs : s.seqStage = .idle := by simpa [State.seqBusy] using hbusy
      simp only [jobSafe] at hj
      exact ⟨hd, rfl, { k with idle := true },
        ⟨hm.seq_ok, fun _ => hs, fun _ => rfl, hm.alone, hm.flight_ok, hm.once_ok, hm.line_ok, hm.low_ok, hm.quiet_ok⟩, hj, hgt s⟩
  | waitHold =>
    simp only [jobSafe, Bool.and_eq_true] at hj
    simp only [doPiece]
    split
    · rename_i later he
      refine ⟨hd.congr rfl rfl rfl rfl rfl rfl rfl rfl rfl rfl rfl, rfl, k, ?_, hj.2, hgt _⟩
      exact ⟨hm.seq_ok, hm.idle_ok, hm.low_idle, hm.alone, hm.flight_ok, hm.once_ok, hm.line_ok, hm.low_ok, hm.quiet_ok⟩
    · refine ⟨hd.hold _, k, ?_⟩
      have halone : s.seqDone ≠ some .toProc := hm.alone
      exact ⟨hm.seq_ok, ⟨hj.1.1, hj.1.2, hj.2, hgt _⟩, hm.idle_ok, hm.low_idle,
        by simp [State.procWaits, halone, State.hold], hm.flight_ok, hm.once_ok, hm.line_ok, hm.low_ok, hm.quiet_ok⟩
  | runSeq steps onFail =>
    simp only [jobSafe, Bool.and_eq_true, Bool.not_eq_true', Bool.or_eq_true] at hj
    obtain ⟨⟨⟨⟨h1, h2⟩, h3⟩, h4⟩, h5⟩ := hj
    have hs := hm.idle_ok h1
    refine blockingSeq_ok hd hm hs h2 j rest steps onFail ?_ (hgt s) h3
      (h4.imp id fun h => by simpa using h)
    exact jobSafe_idle rest k h5
  | coalesce =>
    simp only [jobSafe, Bool.and_eq_true, Bool.not_eq_true'] at hj
    simp only [doPiece]
    cases hf : s.inFlight with
    | true => exact ⟨Inv.finish hd hm hj.1.1 hj.1.2 _, Inv.holdPush hd hm hj.1.1 hj.1.2 _⟩
    | false => exact ⟨hd, rfl, k, hm, hj.2, hgt s⟩
  | startSeq steps done =>
    simp only [jobSafe, Bool.and_eq_true, Bool.not_eq_true'] at hj
    have hs := hm.idle_ok hj.1.1
    have hflight := hm.flight_ok
    have hline := hm.line_ok
    have hlow := hm.low_ok
    rw [updateRunning_of_idle hs, Bool.false_or] at hflight
    rw [hj.1.2] at hline hlow
    constructor <;>
      (refine ⟨hd.congr rfl rfl rfl rfl rfl rfl rfl rfl rfl rfl rfl, ⟨false, false, false⟩, ?_⟩
       refine ⟨⟨rfl, Nat.zero_le _, fun r hr => by cases hr⟩, rfl, by simp, by simp, ?_, ?_, Bool.and_false _, hline, hlow, hm.quiet_ok⟩
       · cases done <;> simp [State.procWaits, State.leave, State.hold, State.startSeq] at hj ⊢
       · show s.inFlight = (_ || false)
         rw [hflight]
         cases done <;> simp_all [State.updateRunning, State.leave, State.hold, State.startSeq])

/-- The last writes of a failed command. -/
theorem failJob_ok {s : State} {k : Knows} (hd : DataOk s) (hm : Mid s k) (onFail : List Effect)
    (hj : jobSafe s.cfg k (onFail.map .effect) = true) (hg : glyphRoom s (onFail.map .effect) = true) (j : Job) :
    Inv (failJob onFail j s) := by
  unfold failJob
  generalize { j with failed := true } = j'
  induction onFail generalizing s k with
  | nil =>
    simp only [List.map_nil, jobSafe, Bool.and_eq_true, Bool.not_eq_true'] at hj
    exact Inv.finish hd hm hj.1 hj.2 _
  | cons e rest ih =>
    obtain ⟨h1, h2, k', h3, h4, h5⟩ := doPiece_ok hd hm j (.effect e) (rest.map .effect) hj hg
    rw [← h2] at h4
    exact ih h1 h3 h4 h5

/-- A safe job run as far as it goes keeps the invariant. -/
theorem runPieces_ok {s : State} {k : Knows} (hd : DataOk s) (hm : Mid s k) (ps : List Piece)
    (hj : jobSafe s.cfg k ps = true) (hg : glyphRoom s ps = true) (j : Job) : Inv (runPieces ps j s) := by
  induction ps generalizing s k j with
  | nil =>
    simp only [jobSafe, Bool.and_eq_true, Bool.not_eq_true'] at hj
    exact Inv.finish hd hm hj.1 hj.2 _
  | cons p rest ih =>
    have h := doPiece_ok hd hm j p rest hj hg
    unfold runPieces
    cases hp : doPiece j p rest s with
    | go j' s' =>
      rw [hp] at h
      obtain ⟨h1, h2, k', h3, h4, h5⟩ := h
      rw [← h2] at h4
      exact ih h1 h3 h4 h5 j'
    | fail onFail s' =>
      rw [hp] at h
      obtain ⟨h1, h2, k', h3, h4, h5, -⟩ := h
      rw [← h2] at h4
      exact failJob_ok h1 h3 onFail h4 h5 j
    | answer r s' => rw [hp] at h; exact h.1
    | leave s' => rw [hp] at h; exact h.1
    | stop s' => rw [hp] at h; exact h

end Sys2Proof.Machine
end

