-- ==== Sys2Proof/Laws/Plans.lean ====
section
/-! SUPPORT. The plan of every command: `exec` carries it out, and it is safe in a state whose data is in order. -/

namespace Sys2Proof.Machine

/-- Every meaning carries out its plan. -/
theorem exec_eq (i : Instr) (s : State) : exec i s = .next (runPlan (planOf i s) s) := by cases i <;> rfl

/-- Where PROC stands when a command begins: nothing is known of SEQ, and PROC has set nothing. -/
def Knows.start : Knows := ⟨false, false, false⟩

/-- A plan is safe: a refusal, or a safe job. -/
def Plan.safe (s : State) : Plan → Prop
  | .refuse _ _ _ => True
  | .run j => jobSafe s.cfg Knows.start j.todo = true ∧ glyphRoom s j.todo = true

/-- Drawing pieces are safe wherever PROC has set nothing. -/
theorem jobSafe_textual {c : Config} {k : Knows} (hf : k.flight = false) (hl : k.low = false) {ps : List Piece}
    (h : ∀ p ∈ ps, p.textual = true) : jobSafe c k ps = true := by
  induction ps with
  | nil => simp [jobSafe, hf, hl]
  | cons p ps ih =>
    have hp := h p (List.mem_cons_self ..)
    have ih := ih fun q hq => h q (List.mem_cons_of_mem _ hq)
    cases p with
    | effect e => cases e <;> simp_all [Piece.textual, jobSafe]
    | plot x y v => simp [jobSafe, hf, hl, ih]
    | _ => simp [Piece.textual] at hp

/-- Drawing pieces store no glyph. -/
theorem glyphRoom_textual (s : State) {ps : List Piece} (h : ∀ p ∈ ps, p.textual = true) : glyphRoom s ps = true := by
  unfold glyphRoom
  rw [List.all_eq_true]
  intro p hp
  have := h p hp
  cases p with
  | effect e => cases e <;> simp_all [Piece.textual]
  | _ => rfl

theorem textual_safe (s : State) {ps : List Piece} (h : ∀ p ∈ ps, p.textual = true) :
    jobSafe s.cfg Knows.start ps = true ∧ glyphRoom s ps = true :=
  ⟨jobSafe_textual rfl rfl h, glyphRoom_textual s h⟩

/-- A drawing command's plan is safe. -/
theorem planDraw_safe (op : Op) (t : Byte) (b : Bool) {ps : List Piece} (s : State) (h : ∀ p ∈ ps, p.textual = true) :
    (planDraw op t b ps s).safe s := by
  unfold planDraw
  split
  · trivial
  · exact textual_safe s h

/-- The warnings and the cache of CACHE_GLYPHS. -/
theorem cache_safe {s : State} (hd : DataOk s) (text : List Char16) (h : text.length ≤ s.cfg.textMax) :
    CacheOk s.cfg (buildCache s.hf (distinct text) []) = true := by
  have h1 := wf_buildCache (hf := s.hf) (l := distinct text) (m := []) rfl
  have h2 := length_buildCache_le (hf := s.hf) (l := distinct text) (m := []) rfl
  have h3 := length_distinctFrom_le [] text
  have h4 := forall_buildCache (hf := s.hf) (l := distinct text) (m := []) hd.hf_glyphs
    (fun e he => (List.not_mem_nil he).elim)
  simp only [CacheOk, Bool.and_eq_true, decide_eq_true_eq, List.all_eq_true]
  refine ⟨⟨h1, ?_⟩, h4⟩
  have h3' : (distinct text).length ≤ text.length := h3
  simp only [List.length_nil] at h2
  omega

theorem warns_safe {c : Config} (l : List Char16) (m : KeyMap CachedGlyph) (h : CacheOk c m = true) :
    jobSafe c Knows.start (l.map (fun ch => .effect (.warn ch)) ++ [.effect (.install m)]) = true := by
  induction l with
  | nil => simp [jobSafe, h, Knows.start]
  | cons ch l ih => simpa [jobSafe] using ih

theorem warns_room (s : State) (l : List Char16) (m : KeyMap CachedGlyph) :
    glyphRoom s (l.map (fun ch => .effect (.warn ch)) ++ [.effect (.install m)]) = true := by
  unfold glyphRoom
  rw [List.all_eq_true]
  intro p hp
  rcases List.mem_append.mp hp with h | h
  · obtain ⟨ch, -, rfl⟩ := List.mem_map.mp h; rfl
  · rw [List.mem_singleton.mp h]

/-- Every plan is safe. -/
theorem plan_safe {s : State} (hd : DataOk s) (i : Instr) : (planOf i s).safe s := by
  cases i with
  | reset t => exact ⟨rfl, rfl⟩
  | begin t => exact ⟨rfl, rfl⟩
  | update t => simp only [planOf, planUpdate, planTransmit]; split <;> trivial
  | clear t => simp only [planOf, planClear, planTransmit]; split <;> trivial
  | contrast t v =>
    simp only [planOf, planContrast]; split
    · trivial
    · split <;> trivial
  | dispoff t => simp only [planOf, planDispoff, planTransmit]; split <;> trivial
  | dispon t => simp only [planOf, planDispon, planTransmit]; split <;> trivial
  | teardown t => simp only [planOf, planTeardown, planTransmit]; split <;> trivial
  | pixel t c b x y => exact planDraw_safe _ _ _ _ (by simp [Piece.textual])
  | line t c b x0 y0 x1 y1 => exact planDraw_safe _ _ _ _ (plots_textual _ _)
  | rect t c b x y w h => exact planDraw_safe _ _ _ _ (plots_textual _ _)
  | rdpix t x y => simp only [planOf, planRdpix]; split <;> trivial
  | cursor t x y => exact ⟨rfl, rfl⟩
  | ffont t fw a d =>
    simp only [planOf, planFfont]
    split
    · trivial
    · rename_i h1
      split
      · trivial
      · rename_i h2
        refine ⟨?_, rfl⟩
        simp only [Instr.wf, Bool.not_eq_true', Bool.not_eq_false, Bool.and_eq_true, bne_iff_ne, beq_iff_eq] at h1
        simp only [newJob, jobSafe, FontOk, Knows.start, Bool.and_eq_true, decide_eq_true_eq, bne_iff_ne, beq_iff_eq]
        refine ⟨⟨⟨⟨h1.1.1, ?_⟩, ?_⟩, h1.2⟩, by simp⟩ <;> omega
  | puts t c b size text =>
    simp only [planOf, planPuts]
    (repeat' split) <;> first
      | trivial
      | exact textual_safe s (textPieces_textual _ _ _ _ _ _)
  | hfbegin t => exact ⟨rfl, rfl⟩
  | hfglyph t cp g =>
    simp only [planOf, planHfglyph]
    split
    · trivial
    · rename_i h1
      split
      · trivial
      · split
        · trivial
        · rename_i h3
          have hwf : g.wf = true := by simpa [Instr.wf] using h1
          refine ⟨by simp [newJob, jobSafe, hwf, Knows.start], ?_⟩
          have hle := hd.hf_le
          simp only [newJob, glyphRoom, List.all_cons, List.all_nil, List.length_cons, List.length_nil, Bool.and_eq_true,
            Bool.or_eq_true, decide_eq_true_eq]
          refine ⟨⟨by simp, ?_⟩, by simp⟩
          cases hf : KeyMap.find cp s.hf with
          | some v => exact .inl rfl
          | none =>
            right
            have : s.hf.length ≠ s.cfg.hfMaxGlyphs := fun h => h3 ⟨by simp [hf], h⟩
            omega
  | hfend t => simp only [planOf, planHfend]; split <;> trivial
  | cache t text =>
    simp only [planOf, planCache]
    split
    · trivial
    · split
      · trivial
      · rename_i h2
        split
        · trivial
        · exact ⟨warns_safe _ _ (cache_safe hd text (by omega)), warns_room _ _ _⟩
  | uputs t c b text =>
    simp only [planOf, planUputs]
    (repeat' split) <;> first
      | trivial
      | exact textual_safe s (unifontPieces_textual _ _ _ _)

/-- A safe plan carried out keeps the invariant. -/
theorem runPlan_ok {s : State} (hd : DataOk s) (hm : Mid s Knows.start) {p : Plan} (hp : p.safe s) : Inv (runPlan p s) := by
  cases p with
  | refuse op tag st => exact Inv.finish hd hm rfl rfl _
  | run j => exact runPieces_ok hd hm _ hp.1 hp.2 j

end Sys2Proof.Machine
end

