-- ==== Sys2Proof/Laws/Window.lean ====
section
/-! SUPPORT. A step is the turn at the head of the timeline; and what an aligned access of the register window does (10_state.md R48 to R60). -/

namespace Sys2Proof.Machine

/-- The step takes the event at the head of the timeline. -/
theorem step_event {s : State} {e : Event} {later : List Event} (hc : s.cfg.Ok) (he : s.env = e :: later) :
    step s = eventTurn e { s with env := later } := by
  unfold step
  rw [if_pos hc]
  simp only [turn, he]

/-- Word `k` of the window is register `k`. -/
theorem registerAt_index (base k : Nat) (hk : k < 16) : registerAt base (base + 4 * k) 4 = .ok (Register.ofIndex k) := by
  unfold registerAt
  rw [if_neg (by omega), if_neg (by omega)]
  have : (base + 4 * k - base) / 4 = k := by omega
  rw [this]

/-- The value of a register does not depend on the timeline. -/
theorem readRegister_env (r : Register) (s : State) (later : List Event) :
    readRegister r { s with env := later } = readRegister r s := by cases r <;> rfl

/-- PROC is in the middle of a warning. -/
theorem warningOver_some {j : Job} {ch : Char16} {rest : List Piece} (ht : j.todo = .effect (.lastMissing ch) :: rest) :
    Proc.warningOver (.executing (.job j)) = .executing (.job { j with todo := rest, missing := true }) := by
  unfold Proc.warningOver; simp only; rw [ht]

/-- PROC is in the middle of no warning. -/
theorem warningOver_none {p : Proc} (h : ∀ j ch rest, p = .executing (.job j) → j.todo ≠ .effect (.lastMissing ch) :: rest) :
    p.warningOver = p := by
  unfold Proc.warningOver
  split
  · rename_i j
    split
    · rename_i ch rest ht; exact absurd ht (h j ch rest rfl)
    · rfl
  · rfl

/-- What ending a warning does: nothing, or PROC goes past the second write. -/
theorem warningOver_cases (p : Proc) :
    p.warningOver = p ∨ ∃ j ch rest, p = .executing (.job j) ∧ j.todo = .effect (.lastMissing ch) :: rest ∧
      p.warningOver = .executing (.job { j with todo := rest, missing := true }) := by
  by_cases h : ∃ j ch rest, p = .executing (.job j) ∧ j.todo = .effect (.lastMissing ch) :: rest
  · obtain ⟨j, ch, rest, rfl, ht⟩ := h
    exact .inr ⟨j, ch, rest, rfl, ht, warningOver_some ht⟩
  · exact .inl (warningOver_none fun j ch rest hp ht => h ⟨j, ch, rest, hp, ht⟩)

/-- A read by the host. -/
theorem step_hostRead {s : State} {later : List Event} {k : Nat} (hc : s.cfg.Ok) (hb : s.busWrite = none) (hk : k < 16)
    (he : s.env = .hostRead (s.cfg.base + 4 * k) 4 :: later) :
    step s = .next { s with env := later, busRead := readRegister (Register.ofIndex k) s } := by
  rw [step_event hc he]
  simp only [eventTurn, hostReadTurn, hb, registerAt_index _ _ hk]
  rfl

/-- A write by the host. -/
theorem step_hostWrite {s : State} {later : List Event} {k : Nat} {v : Word} (hc : s.cfg.Ok) (hb : s.busWrite = none)
    (hk : k < 16) (he : s.env = .hostWrite (s.cfg.base + 4 * k) 4 v :: later) :
    step s = .next (writeRegister (Register.ofIndex k) v { s with env := later }) := by
  rw [step_event hc he]
  simp only [eventTurn, hostWriteTurn, hb, registerAt_index _ _ hk]
  rfl

end Sys2Proof.Machine
end

