-- ==== Sys2Proof/Laws/Turns.lean ====
section
/-! SUPPORT. Each agent's turn keeps the invariant: PROC's fetch, its resumptions and its fine turn, SEQ's turns, the answers of XPORT and
TIMER, the host's accesses and the power-on reset. -/

namespace Sys2Proof.Machine

/-- The agents side depends on PROC, SEQ, the flags and the outputs, and on the glyphs in the map. -/
theorem AgentsOk.congr {s t : State} {k : Knows} (h : AgentsOk s k) (h1 : t.cfg = s.cfg) (h2 : t.hf = s.hf)
    (h3 : t.proc = s.proc) (h4 : t.seqStage = s.seqStage) (h5 : t.seqSteps = s.seqSteps) (h6 : t.seqPos = s.seqPos)
    (h7 : t.seqDone = s.seqDone) (h8 : t.seqPending = s.seqPending) (h9 : t.snap = s.snap) (h10 : t.inFlight = s.inFlight)
    (h11 : t.resetOut = s.resetOut) (h12 : t.trace = s.trace) : AgentsOk t k := by
  obtain ⟨a, b, c, l, d, e, o, f, g, i⟩ := h
  constructor
  · unfold SeqOk at a ⊢; rw [h4, h5, h6, h7, h8, h9]; exact a
  · rw [h3]
    cases hp : s.proc with
    | executing hl =>
      rw [hp] at b
      have hr : ∀ todo, glyphRoom t todo = glyphRoom s todo := glyphRoom_congr h2 h1
      cases hl <;> simp only [Proc.safe, Hold.safe, h1, hr] at b ⊢ <;> exact b
    | _ => rw [hp] at b; exact b
  · rw [h4]; exact c
  · exact l
  · unfold State.procWaits at d ⊢; rw [h3, h7]; exact d
  · unfold State.updateRunning at e ⊢; rw [h4, h7, h10]; exact e
  · unfold State.updateRunning at o ⊢; rw [h4, h7]; exact o
  · rw [h11]; exact f
  · rw [h12]; exact g
  · rw [h12]; exact i

/-- The invariant does not see the timeline. -/
theorem Inv.withEnv {s : State} (h : Inv s) (env : List Event) : Inv { s with env := env } := by
  obtain ⟨hd, k, ha⟩ := h
  exact ⟨hd.congr rfl rfl rfl rfl rfl rfl rfl rfl rfl rfl rfl, k, ha.congr rfl rfl rfl rfl rfl rfl rfl rfl rfl rfl rfl rfl⟩

/-- Outside a blocking sequence the agents are as `Mid` has them. -/
theorem AgentsOk.mid {s : State} {k : Knows} (h : AgentsOk s k) (hw : s.procWaits = false) : Mid s k :=
  ⟨h.seq_ok, h.idle_ok, h.low_idle, fun hd => (by rw [h.wait_ok.mpr hd] at hw; cases hw), h.flight_ok, h.once_ok, h.line_ok, h.low_ok, h.quiet_ok⟩

/-- `Mid` does not see PROC. -/
theorem Mid.congr {s t : State} {k : Knows} (h : Mid s k) (h4 : t.seqStage = s.seqStage) (h5 : t.seqSteps = s.seqSteps)
    (h6 : t.seqPos = s.seqPos) (h7 : t.seqDone = s.seqDone) (h8 : t.seqPending = s.seqPending) (h9 : t.snap = s.snap)
    (h10 : t.inFlight = s.inFlight) (h11 : t.resetOut = s.resetOut) (h12 : t.trace = s.trace) : Mid t k := by
  obtain ⟨a, b, l, c, d, o, e, f, g⟩ := h
  constructor
  · unfold SeqOk at a ⊢; rw [h4, h5, h6, h7, h8, h9]; exact a
  · rw [h4]; exact b
  · exact l
  · rw [h7]; exact c
  · unfold State.updateRunning at d ⊢; rw [h4, h7, h10]; exact d
  · unfold State.updateRunning at o ⊢; rw [h4, h7]; exact o
  · rw [h11]; exact e
  · rw [h12]; exact f
  · rw [h12]; exact g

/-- PROC may stand wherever is safe. -/
theorem Mid.agents {s : State} {k : Knows} (h : Mid s k) {p : Proc} (hp : p.safe s k)
    (hw : State.procWaits { s with proc := p } = false) : AgentsOk { s with proc := p } k := by
  obtain ⟨a, b, l, c, d, o, e, f, g⟩ := h
  refine ⟨a, ?_, b, l, ?_, d, o, e, f, g⟩
  · cases p with
    | executing hl => cases hl <;> exact hp
    | _ => exact hp
  · rw [hw]; exact ⟨fun h => (by cases h), fun h => absurd h c⟩

theorem DataOk.withProc {s : State} (h : DataOk s) (p : Proc) : DataOk { s with proc := p } :=
  h.congr rfl rfl rfl rfl rfl rfl rfl rfl rfl rfl rfl

/-! ## PROC -/

/-- The words taken from the queue leave it within its size. -/
theorem DataOk.popTo {s : State} (h : DataOk s) {rest : List Word} (hr : rest.length < s.queue.length ∨ rest = []) :
    DataOk (s.popTo rest) := by
  have hq : s.queue.length ≤ s.cfg.cmdFifoDepth + 1 := by
    have := h.cmdq_le
    unfold State.queue
    cases hb : s.busWrite <;> simp [List.length_append] <;> omega
  refine ⟨h.cfg_ok, h.fb_wf, h.fb_below, ?_, by intro h; simp [State.popTo] at h, h.respq_le, h.hf_wf, h.hf_le, h.hf_glyphs, h.cache_ok,
    h.font_ok⟩
  show rest.length ≤ s.cfg.cmdFifoDepth
  rcases hr with hr | hr
  · omega
  · rw [hr]; exact Nat.zero_le _

/-- What fetching leaves: fewer words, and a prefix that is not a command yet. -/
theorem fetchWords_ok (ws q : List Word) (hw : ws = [] ∨ decode ws = .incomplete) :
    match fetchWords ws q with
    | .needMore ws' => ws' = [] ∨ decode ws' = .incomplete
    | .complete _ rest => rest.length < q.length := by
  induction q generalizing ws with
  | nil => exact hw
  | cons w q ih =>
    unfold fetchWords
    cases hd : decode (ws ++ [w]) with
    | incomplete =>
      have h := ih (ws ++ [w]) (.inr hd)
      simp only
      revert h
      cases fetchWords (ws ++ [w]) q with
      | needMore ws' => exact id
      | complete d rest => simp only [List.length_cons]; omega
    | _ => simp

/-- Carrying out what was fetched keeps the invariant. -/
theorem runDecoded_ok {s s' : State} (hd : DataOk s) (hm : Mid s Knows.start) {d : Decoded} (hne : d ≠ .incomplete)
    (h : runDecoded d s = .next s') : Inv s' := by
  cases d with
  | incomplete => exact absurd rfl hne
  | illegalOpcode op tag => cases h; exact Inv.finish hd hm rfl rfl _
  | illegalField op tag len => cases h; exact Inv.finish hd hm rfl rfl _
  | command i len =>
    simp only [runDecoded, exec_eq] at h
    cases h
    exact runPlan_ok hd hm (plan_safe hd i)

/-- PROC's words are those of a proper prefix. -/
theorem Proc.safe_collected {s : State} {k : Knows} (h : s.proc.safe s k) (hn : ∀ hl, s.proc ≠ .executing hl) :
    k = Knows.start ∧ (s.collected = [] ∨ decode s.collected = .incomplete) ∧ s.procWaits = false := by
  unfold State.collected State.procWaits
  cases hp : s.proc with
  | idle => rw [hp] at h; exact ⟨h, .inl rfl, rfl⟩
  | collecting ws => rw [hp] at h; exact ⟨h.1, .inr h.2.2, rfl⟩
  | executing hl => exact absurd hp (hn hl)

theorem fetchWords_complete_ne (ws q : List Word) (d : Decoded) (rest : List Word) (h : fetchWords ws q = .complete d rest) :
    d ≠ .incomplete := by
  induction q generalizing ws with
  | nil => cases h
  | cons w q ih =>
    unfold fetchWords at h
    cases hd : decode (ws ++ [w]) with
    | incomplete => rw [hd] at h; exact ih _ h
    | _ => rw [hd] at h; cases h; simp

theorem fetchTurn_ok {s s' : State} (hi : Inv s) (hn : ∀ hl, s.proc ≠ .executing hl) (h : fetchTurn s = .next s') : Inv s' := by
  obtain ⟨hd, k, ha⟩ := hi
  obtain ⟨rfl, hc, hw⟩ := Proc.safe_collected ha.proc_ok hn
  have hm := ha.mid hw
  have hf := fetchWords_ok s.collected s.queue hc
  unfold fetchTurn at h
  cases hfw : fetchWords s.collected s.queue with
  | needMore ws =>
    rw [hfw] at h hf
    cases h
    refine ⟨(hd.popTo (.inr rfl)).withProc _, Knows.start, ?_⟩
    have hm' : Mid (s.popTo []) Knows.start := hm.congr rfl rfl rfl rfl rfl rfl rfl rfl rfl
    unfold collectingOrIdle
    cases ws with
    | nil => exact hm'.agents rfl rfl
    | cons w ws => exact hm'.agents ⟨rfl, by simp, hf.resolve_left (by simp)⟩ rfl
  | complete d rest =>
    rw [hfw] at h hf
    exact runDecoded_ok (hd.popTo (.inl hf)) (hm.congr rfl rfl rfl rfl rfl rfl rfl rfl rfl)
      (fetchWords_complete_ne _ _ _ _ hfw) h

/-- PROC takes the result of the sequence it waits for. -/
theorem whenReturned_ok {s : State} (hi : Inv s) {j : Job} {onFail : List Effect} (hp : s.proc = .executing (.jobSeq j onFail))
    (goOn : Bool → State → State)
    (hgo : ∀ (ok : Bool) (k : Knows), DataOk s.releaseSeq → Mid s.releaseSeq { k with idle := true } → k.low = false →
      jobSafe s.cfg { k with idle := true } j.todo = true → glyphRoom s j.todo = true →
      jobSafe s.cfg { k with idle := true } (onFail.map .effect) = true →
      glyphRoom s (onFail.map .effect) = true → Inv (goOn ok s.releaseSeq)) :
    Inv (s.whenReturned goOn) := by
  unfold State.whenReturned
  cases hst : s.seqStage with
  | returned ok =>
    obtain ⟨hd, k, ha⟩ := hi
    have hsafe := ha.proc_ok
    rw [hp] at hsafe
    obtain ⟨-, h2, h3, h4, h5, h6⟩ := hsafe
    have hw : s.procWaits = true := by simp [State.procWaits, hp]
    have hdone := ha.wait_ok.mp hw
    have hupd : s.updateRunning = false := by simp [State.updateRunning, hst, hdone]
    refine hgo ok k (hd.congr rfl rfl rfl rfl rfl rfl rfl rfl rfl rfl rfl) ?_ h2 h3 h4 h5 h6
    refine ⟨⟨rfl, rfl, rfl, rfl⟩, fun _ => rfl, fun _ => rfl, by simp, ?_, by rw [updateRunning_of_idle rfl]; rfl, ha.line_ok, ha.low_ok, ha.quiet_ok⟩
    have := ha.flight_ok
    rw [hupd] at this
    exact this
  | _ => exact hi

theorem runJob_ok {s : State} {k : Knows} (hd : DataOk s) (hm : Mid s k) {j : Job} (hj : jobSafe s.cfg k j.todo = true)
    (hg : glyphRoom s j.todo = true) : Inv (runJob j s) := runPieces_ok hd hm _ hj hg j

/-- PROC's resumption keeps the invariant. -/
theorem resume_ok {s s' : State} {hl : Hold} (hi : Inv s) (hp : s.proc = .executing hl) (h : resume hl s = .next s') : Inv s' := by
  have ⟨hd, k, ha⟩ := hi
  have hsafe := ha.proc_ok
  rw [hp] at hsafe
  have hw : ∀ hl', s.proc = .executing hl' → (∀ j f, hl' ≠ .jobSeq j f) → s.procWaits = false := by
    intro hl' h1 h2
    cases hl' <;> first | (simp [State.procWaits, h1]; done) | exact absurd rfl (h2 _ _)
  cases hl with
  | start i =>
    simp only [resume, exec_eq] at h
    cases h
    have hm := ha.mid (hw _ hp (by simp))
    rw [show k = Knows.start from hsafe] at hm
    exact runPlan_ok hd hm (plan_safe hd i)
  | job j => cases h; exact runJob_ok hd (ha.mid (hw _ hp (by simp))) hsafe.1 hsafe.2
  | jobTimer j => cases h; exact hi
  | jobSeq j onFail =>
    cases h
    refine whenReturned_ok hi hp _ fun ok k' h1 h2 h3 h4 h5 h6 h7 => ?_
    cases ok with
    | true => exact runJob_ok h1 h2 h4 h5
    | false => exact failJob_ok h1 h2 onFail h6 h7 j
  | push r =>
    cases h
    have hm := ha.mid (hw _ hp (by simp))
    rw [show k = Knows.start from hsafe] at hm
    exact Inv.finish hd hm rfl rfl r
  | leaving =>
    cases h
    have hm := ha.mid (hw _ hp (by simp))
    rw [show k = Knows.start from hsafe] at hm
    exact ⟨hd.withProc _, Knows.start, hm.agents rfl rfl⟩

theorem procTurn_ok {s s' : State} (hi : Inv s) (h : procTurn s = .next s') : Inv s' := by
  unfold procTurn at h
  cases hp : s.proc with
  | idle => rw [hp] at h; exact fetchTurn_ok hi (by simp [hp]) h
  | collecting ws => rw [hp] at h; exact fetchTurn_ok hi (by simp [hp]) h
  | executing hl => rw [hp] at h; exact resume_ok hi hp h

/-! ## The fine turn of PROC -/

theorem fetchOne_ok {s : State} (hi : Inv s) (hn : ∀ hl, s.proc ≠ .executing hl) : Inv (fetchOne s) := by
  have ⟨hd, k, ha⟩ := hi
  obtain ⟨rfl, hc, hw⟩ := Proc.safe_collected ha.proc_ok hn
  have hm := ha.mid hw
  unfold fetchOne
  cases hq : s.queue with
  | nil => exact hi
  | cons w rest =>
    have hd' : DataOk (s.popTo rest) := hd.popTo (.inl (by rw [hq]; simp))
    have hm' : Mid (s.popTo rest) Knows.start := hm.congr rfl rfl rfl rfl rfl rfl rfl rfl rfl
    simp only
    cases hdec : decode (s.collected ++ [w]) with
    | incomplete => exact ⟨hd'.withProc _, Knows.start, hm'.agents ⟨rfl, by simp, hdec⟩ rfl⟩
    | _ => exact ⟨hd'.withProc _, Knows.start, hm'.agents rfl rfl⟩

/-- The data side of a push of its own. -/
theorem DataOk.push {s : State} (h : DataOk s) (hr : s.respRoom = true) (r : Resp) : DataOk { s with respq := s.respq ++ [r] } := by
  have := h.pushProc r
  unfold State.pushProc at this
  rw [if_pos hr] at this
  exact this.congr rfl rfl rfl rfl rfl rfl rfl rfl rfl rfl rfl

theorem jobPiece_ok {s : State} {k : Knows} (hd : DataOk s) (hm : Mid s k) {j : Job} (hj : jobSafe s.cfg k j.todo = true)
    (hg : glyphRoom s j.todo = true) : Inv (jobPiece j s) := by
  unfold jobPiece
  cases ht : j.todo with
  | nil =>
    rw [ht] at hj
    simp only [jobSafe, Bool.and_eq_true, Bool.not_eq_true'] at hj
    exact Inv.holdPush hd hm hj.1 hj.2 _
  | cons p rest =>
    rw [ht] at hj hg
    have h := doPiece_ok hd hm j _ _ (jobSafe_firstWrite hj) (glyphRoom_firstWrite hg)
    simp only
    cases hp : doPiece j p.firstWrite.1 (p.firstWrite.2 ++ rest) s with
    | go j' s' =>
      rw [hp] at h
      obtain ⟨h1, h2, k', h3, h4, h5⟩ := h
      rw [← h2] at h4
      exact Inv.holdJob (j := { j' with todo := p.firstWrite.2 ++ rest }) h1 h3 h4 h5
    | fail onFail s' =>
      rw [hp] at h
      obtain ⟨h1, h2, k', h3, h4, h5, -⟩ := h
      rw [← h2] at h4
      exact Inv.holdJob (j := { j with todo := onFail.map .effect, failed := true }) h1 h3 h4 h5
    | answer r s' => rw [hp] at h; exact h.2
    | leave s' => rw [hp] at h; exact h.2
    | stop s' => rw [hp] at h; exact h

theorem procFineTurn_ok {s : State} (hi : Inv s) : Inv (procFineTurn s) := by
  have ⟨hd, k, ha⟩ := hi
  have hsafe := ha.proc_ok
  unfold procFineTurn
  cases hp : s.proc with
  | idle => exact fetchOne_ok hi (by simp [hp])
  | collecting ws => exact fetchOne_ok hi (by simp [hp])
  | executing hl =>
    rw [hp] at hsafe
    have hw : (∀ j f, hl ≠ .jobSeq j f) → s.procWaits = false := by
      intro h2
      cases hl <;> first | (simp [State.procWaits, hp]; done) | exact absurd rfl (h2 _ _)
    cases hl with
    | start i =>
      have hm := ha.mid (hw (by simp))
      rw [show k = Knows.start from hsafe] at hm
      have hpl := plan_safe hd i
      simp only
      revert hpl
      cases planOf i s with
      | refuse op tag st => intro _; exact ⟨hd.hold _, Knows.start, hm.agents rfl rfl⟩
      | run j => intro hpl; exact Inv.holdJob hd hm hpl.1 hpl.2
    | job j => exact jobPiece_ok hd (ha.mid (hw (by simp))) hsafe.1 hsafe.2
    | jobTimer j => exact hi
    | jobSeq j onFail =>
      refine whenReturned_ok hi hp _ fun ok k' h1 h2 h3 h4 h5 h6 h7 => ?_
      cases ok with
      | true => exact Inv.holdJob h1 h2 h4 h5
      | false => exact Inv.holdJob (j := { j with todo := onFail.map .effect, failed := true }) h1 h2 h6 h7
    | push r =>
      have hm := ha.mid (hw (by simp))
      rw [show k = Knows.start from hsafe] at hm
      simp only
      split
      · rename_i hr
        have hd' := hd.push hr r
        have hm' : Mid { s with respq := s.respq ++ [r] } Knows.start := hm.congr rfl rfl rfl rfl rfl rfl rfl rfl rfl
        exact ⟨hd'.hold _, Knows.start, hm'.agents rfl rfl⟩
      · exact hi
    | leaving =>
      have hm := ha.mid (hw (by simp))
      rw [show k = Knows.start from hsafe] at hm
      exact ⟨hd.withProc _, Knows.start, hm.agents rfl rfl⟩

/-! ## SEQ -/

/-- A change of SEQ's registers, the phase, IN_FLIGHT, CTRL_STATE, the response queue and the outputs leaves PROC where it is safe. -/
theorem Proc.safe_congr {s t : State} {k : Knows} (h : s.proc.safe s k) (h1 : t.cfg = s.cfg) (h2 : t.hf = s.hf)
    (h3 : t.proc = s.proc) : t.proc.safe t k := by
  rw [h3]
  cases hp : s.proc with
  | executing hl =>
    rw [hp] at h
    have hr : ∀ todo, glyphRoom t todo = glyphRoom s todo := glyphRoom_congr h2 h1
    cases hl <;> simp only [Proc.safe, Hold.safe, h1, hr] at h ⊢ <;> exact h
  | _ => rw [hp] at h; exact h

/-- A completion action that pushes: SEQ ends, or holds at its push. -/
theorem seqAct_ok {s : State} (hi : Inv s) {ok : Bool} (hst : s.seqStage = .returned ok) {d : SeqDone}
    (hdn : s.seqDone = some d) {s' : State} {r : Resp} (h : d.act ok s = (s', some r)) :
    Inv (s'.pushSeq r) ∧ Inv { s' with seqStage := .pushing r } := by
  obtain ⟨hd, k, ha⟩ := hi
  have hdone : s.seqDone ≠ some .toProc := by
    rintro hc; rw [hdn] at hc; cases hc; cases h
  have hw : s.procWaits = false := by
    cases hpw : s.procWaits with
    | false => rfl
    | true => exact absurd (ha.wait_ok.mp hpw) hdone
  have hki : k.idle = false := by
    cases hk : k.idle with
    | false => rfl
    | true => have := ha.idle_ok hk; rw [hst] at this; cases this
  have hs' : s' = { s with inFlight := s'.inFlight, ctrl := s'.ctrl } ∧ s'.inFlight = k.flight := by
    have hfl := ha.flight_ok
    cases d with
    | toProc => cases h
    | update op tag =>
      cases h
      have := ha.once_ok
      rw [show s.updateRunning = true by simp [State.updateRunning, hst, hdn], Bool.true_and] at this
      exact ⟨rfl, this.symm⟩
    | contrast tag => cases h; exact ⟨rfl, by simpa [State.updateRunning, hst, hdn] using hfl⟩
    | dispOff tag => cases h; exact ⟨rfl, by simpa [State.updateRunning, hst, hdn] using hfl⟩
    | dispOn tag => cases h; exact ⟨rfl, by simpa [State.updateRunning, hst, hdn] using hfl⟩
  obtain ⟨he, hfl⟩ := hs'
  have hd' : DataOk s' := by rw [he]; exact hd.congr rfl rfl rfl rfl rfl rfl rfl rfl rfl rfl rfl
  have hok : SeqOk { s' with seqStage := .pushing r } := by
    rw [he]
    have := ha.seq_ok
    unfold SeqOk at this ⊢
    rw [hst] at this
    exact ⟨this.1, hdone, this.2⟩
  have hpush : Inv { s' with seqStage := .pushing r } := by
    refine ⟨hd'.congr rfl rfl rfl rfl rfl rfl rfl rfl rfl rfl rfl, k, hok, ?_, by simp [hki], ha.low_idle, ?_, ?_, rfl, ?_, ?_, ?_⟩
    · rw [he]; exact Proc.safe_congr ha.proc_ok rfl rfl rfl
    · rw [he]; exact ha.wait_ok
    · exact hfl
    · rw [he]; exact ha.line_ok
    · rw [he]; exact ha.low_ok
    · rw [he]; exact ha.quiet_ok
  refine ⟨?_, hpush⟩
  rcases State.pushSeq_cases r s' with ⟨hr, hp⟩ | ⟨_, hp⟩
  · rw [hp]
    refine ⟨(hd'.push hr r).congr rfl rfl rfl rfl rfl rfl rfl rfl rfl rfl rfl, k, ⟨rfl, rfl, rfl, rfl⟩, ?_, fun _ => rfl, ha.low_idle, ?_, ?_, rfl, ?_,
      ?_, ?_⟩
    · rw [he]; exact Proc.safe_congr ha.proc_ok rfl rfl rfl
    · rw [he]; show s.procWaits = true ↔ none = some SeqDone.toProc
      rw [hw]; simp
    · exact hfl
    · rw [he]; exact ha.line_ok
    · rw [he]; exact ha.low_ok
    · rw [he]; exact ha.quiet_ok
  · rw [hp]; exact hpush

/-- SEQ has returned: its completion action keeps the invariant, however it pushes. -/
theorem seqComplete_ok {s : State} (hi : Inv s) {ok : Bool} (hst : s.seqStage = .returned ok) :
    Inv (seqComplete State.pushSeq ok s) ∧ Inv (seqComplete (fun r s' => { s' with seqStage := .pushing r }) ok s) := by
  unfold seqComplete
  cases hdn : s.seqDone with
  | none => exact ⟨hi, hi⟩
  | some d =>
    simp only
    cases ha : d.act ok s with
    | mk s' o =>
      cases o with
      | none =>
        have : s' = s := by cases d <;> cases ha; rfl
        subst this; exact ⟨hi, hi⟩
      | some r => exact seqAct_ok hi hst hdn ha

/-- SEQ at its push has no update under way, and PROC does not wait for it. -/
theorem pushing_facts {s : State} {k : Knows} (ha : AgentsOk s k) {r : Resp} (hst : s.seqStage = .pushing r) :
    s.updateRunning = false ∧ s.procWaits = false := by
  refine ⟨by simp [State.updateRunning, hst], ?_⟩
  have h := ha.seq_ok
  unfold SeqOk at h
  rw [hst] at h
  cases hpw : s.procWaits with
  | false => rfl
  | true => exact absurd (ha.wait_ok.mp hpw) h.2.1

/-- SEQ ends its sequence at its push. -/
theorem releaseSeq_ok {s : State} (hd : DataOk s) {k : Knows} (ha : AgentsOk s k) (hu : s.updateRunning = false)
    (hw : s.procWaits = false) : Inv s.releaseSeq := by
  refine ⟨hd.congr rfl rfl rfl rfl rfl rfl rfl rfl rfl rfl rfl, k, ⟨rfl, rfl, rfl, rfl⟩, ?_, fun _ => rfl, ha.low_idle, ?_, ?_, rfl,
    ha.line_ok, ha.low_ok, ha.quiet_ok⟩
  · exact Proc.safe_congr ha.proc_ok rfl rfl rfl
  · show s.procWaits = true ↔ none = some SeqDone.toProc
    rw [hw]; simp
  · have := ha.flight_ok
    rw [hu] at this
    exact this

/-- A push does not touch the agents. -/
theorem AgentsOk.push {s : State} {k : Knows} (h : AgentsOk s k) (r : Resp) : AgentsOk { s with respq := s.respq ++ [r] } k :=
  h.congr rfl rfl rfl rfl rfl rfl rfl rfl rfl rfl rfl rfl

/-- A sequence that returns is still the update it was. -/
theorem updateRunning_returned {s t : State} (h : s.seqStage = .playing)
    (ht : t.seqStage = .playing ∨ ∃ ok, t.seqStage = .returned ok) (hd : t.seqDone = s.seqDone) :
    t.updateRunning = s.updateRunning := by
  unfold State.updateRunning
  rw [hd, h]
  rcases ht with ht | ⟨ok, ht⟩ <;> rw [ht]
  cases s.seqDone with
  | none => rfl
  | some d => cases d <;> rfl

/-- SEQ plays on. -/
theorem play_ok {s : State} (hi : Inv s) (hst : s.seqStage = .playing) (hp : s.seqPending = none) :
    Inv (playSteps (s.seqSteps.drop s.seqPos) s).1 := by
  obtain ⟨hd, k, ha⟩ := hi
  have hso := ha.seq_ok
  unfold SeqOk at hso
  rw [hst] at hso
  have hlow : k.low = false := by
    cases hl : k.low with
    | false => rfl
    | true => have := ha.idle_ok (ha.low_idle hl); rw [hst] at this; cases this
  have hki : k.idle = false := by
    cases hk : k.idle with
    | false => rfl
    | true => have := ha.idle_ok hk; rw [hst] at this; cases this
  have hstage := playSteps_stage _ s hst hp rfl hso.2.1
  have htrace := playSteps_trace (s.seqSteps.drop s.seqPos) s
  have hframe := playSteps_frame (s.seqSteps.drop s.seqPos) s
  generalize playSteps (s.seqSteps.drop s.seqPos) s = r at hstage htrace hframe
  obtain ⟨t, res⟩ := r
  simp only at hstage htrace hframe ⊢
  have hupd : t.updateRunning = s.updateRunning := by
    have hdone : t.seqDone = s.seqDone := by rw [hframe]
    exact updateRunning_returned hst (hstage.elim (fun ⟨ok, _, h, _⟩ => .inr ⟨ok, h⟩) fun h => .inl h.2.1) hdone
  have hdata : DataOk t := by rw [hframe]; exact hd.congr rfl rfl rfl rfl rfl rfl rfl rfl rfl rfl rfl
  refine ⟨hdata, k, ?_, ?_, by simp [hki], ha.low_idle, ?_, ?_, ?_, ?_, ?_, ?_⟩
  · have hdone : t.seqDone = s.seqDone := by rw [hframe]
    have hsteps : t.seqSteps = s.seqSteps := by rw [hframe]
    have hsnap : t.snap = s.snap := by rw [hframe]
    unfold SeqOk
    rcases hstage with ⟨ok, -, h1, h2⟩ | ⟨-, h1, h2, st, h3, h4⟩
    · rw [h1, hdone]; exact ⟨hso.1, h2⟩
    · rw [h1, hdone, hsteps, hsnap]
      refine ⟨hso.1, h2, fun r hr => ⟨st, h3, ?_⟩⟩
      rw [h4] at hr; cases hr; rfl
  · rw [hframe]; exact Proc.safe_congr ha.proc_ok rfl rfl rfl
  · rw [hframe]; exact ha.wait_ok
  · rw [hupd, show t.inFlight = s.inFlight by rw [hframe]]; exact ha.flight_ok
  · rw [hupd]; exact ha.once_ok
  · rw [show t.resetOut = s.resetOut by rw [hframe]]; exact ha.line_ok
  · rw [htrace.1]; exact ha.low_ok
  · exact htrace.2 (ha.low_ok.trans hlow) ha.quiet_ok

/-- SEQ's turn keeps the invariant. -/
theorem seqTurn_ok {s : State} (hi : Inv s) : Inv (seqTurn s) := by
  unfold seqTurn
  cases hst : s.seqStage with
  | idle => exact hi
  | playing =>
    cases hp : s.seqPending with
    | some r => exact hi
    | none => exact play_ok hi hst hp
  | returned ok => exact (seqComplete_ok hi hst).1
  | pushing r =>
    obtain ⟨hd, k, ha⟩ := hi
    obtain ⟨hu, hw⟩ := pushing_facts ha hst
    rcases State.pushSeq_cases r s with ⟨hr, hp⟩ | ⟨_, hp⟩
    · show Inv (s.pushSeq r)
      rw [hp]
      exact releaseSeq_ok (s := { s with respq := s.respq ++ [r] }) (hd.push hr r) (ha.push r) hu hw
    · show Inv (s.pushSeq r)
      rw [hp, ← hst]; exact ⟨hd, k, ha⟩
  | pushed =>
    obtain ⟨hd, k, ha⟩ := hi
    have h := ha.seq_ok
    unfold SeqOk at h
    rw [hst] at h
    refine releaseSeq_ok hd ha (by simp [State.updateRunning, hst]) ?_
    cases hpw : s.procWaits with
    | false => rfl
    | true => exact absurd (ha.wait_ok.mp hpw) h.2.1

/-- SEQ's fine turn keeps the invariant. -/
theorem seqFineTurn_ok {s : State} (hi : Inv s) : Inv (seqFineTurn s) := by
  have hturn := seqTurn_ok hi
  unfold seqFineTurn
  cases hst : s.seqStage with
  | idle => exact hturn
  | playing => exact hturn
  | returned ok => exact (seqComplete_ok hi hst).2
  | pushing r =>
    simp only
    split
    · rename_i hr
      obtain ⟨hd, k, ha⟩ := hi
      obtain ⟨hu, hw⟩ := pushing_facts ha hst
      have hso := ha.seq_ok
      unfold SeqOk at hso
      rw [hst] at hso
      have hfl := ha.flight_ok
      rw [hu] at hfl
      have hki : k.idle = false := by
        cases hk : k.idle with
        | false => rfl
        | true => have := ha.idle_ok hk; rw [hst] at this; cases this
      refine ⟨(hd.push hr r).congr rfl rfl rfl rfl rfl rfl rfl rfl rfl rfl rfl, k, hso, ?_, by simp [hki], ha.low_idle, ?_, ?_, rfl,
        ha.line_ok, ha.low_ok, ha.quiet_ok⟩
      · exact Proc.safe_congr ha.proc_ok rfl rfl rfl
      · exact ha.wait_ok
      · exact hfl
    · exact hi
  | pushed => exact hturn

/-! ## XPORT, TIMER, HOST and the platform -/

/-- An answer of XPORT keeps the invariant; a stray one changes nothing. -/
theorem answer_ok' {s : State} (hi : Inv s) (ok : Bool) : Inv (s.answer ok) := by
  cases hp : s.seqPending with
  | none => rw [answer_none ok hp]; exact hi
  | some r =>
    obtain ⟨hd, k, ha⟩ := hi
    have hso := ha.seq_ok
    unfold SeqOk at hso
    cases hst : s.seqStage with
    | playing =>
      rw [hst] at hso
      obtain ⟨hsome, hle, hpend⟩ := hso
      obtain ⟨st, hget, -⟩ := hpend r hp
      have hlt : s.seqPos < s.seqSteps.length := by
        rcases Nat.lt_or_ge s.seqPos s.seqSteps.length with h | h
        · exact h
        · rw [List.getElem?_eq_none h] at hget; cases hget
      have hki : k.idle = false := by
        cases hk : k.idle with
        | false => rfl
        | true => have := ha.idle_ok hk; rw [hst] at this; cases this
      cases ok with
      | true =>
        rw [answer_ok hp]
        refine ⟨hd.congr rfl rfl rfl rfl rfl rfl rfl rfl rfl rfl rfl, k, ?_, Proc.safe_congr ha.proc_ok rfl rfl rfl,
          fun h => ha.idle_ok h, ha.low_idle, ha.wait_ok, ha.flight_ok, ha.once_ok, ha.line_ok, ha.low_ok, ha.quiet_ok⟩
        unfold SeqOk
        simp only [hst]
        exact ⟨hsome, hlt, fun r hr => by cases hr⟩
      | false =>
        rw [answer_fail hp]
        have hu := updateRunning_returned (s := s)
          (t := { s with seqPending := none, trace := .answered false :: s.trace, seqStage := .returned false }) hst
          (.inr ⟨false, rfl⟩) rfl
        refine ⟨hd.congr rfl rfl rfl rfl rfl rfl rfl rfl rfl rfl rfl, k, ⟨hsome, rfl⟩, Proc.safe_congr ha.proc_ok rfl rfl rfl,
          by simp [hki], ha.low_idle, ha.wait_ok, ?_, ?_, ha.line_ok, ha.low_ok, ha.quiet_ok⟩
        · exact ha.flight_ok.trans (congrArg (· || k.flight) hu.symm)
        · exact (congrArg (· && k.flight) hu).trans ha.once_ok
    | idle => rw [hst] at hso; rw [hso.2.2.2] at hp; cases hp
    | returned b => rw [hst] at hso; rw [hso.2] at hp; cases hp
    | pushing r' => rw [hst] at hso; rw [hso.2.2] at hp; cases hp
    | pushed => rw [hst] at hso; rw [hso.2.2] at hp; cases hp

theorem timerTurn_ok {s : State} (hi : Inv s) : Inv (timerTurn s) := by
  unfold timerTurn
  cases hp : s.proc with
  | executing hl =>
    cases hl with
    | jobTimer j =>
      obtain ⟨hd, k, ha⟩ := hi
      have hsafe := ha.proc_ok
      rw [hp] at hsafe
      exact Inv.holdJob hd (ha.mid (by simp [State.procWaits, hp])) hsafe.2.2.1 hsafe.2.2.2
    | _ => exact hi
  | _ => exact hi

theorem writeRegister_ok {s : State} (hi : Inv s) (r : Register) (v : Word) (hb : s.busWrite = none) : Inv (writeRegister r v s) := by
  obtain ⟨hd, k, ha⟩ := hi
  have hag : ∀ t : State, t = { s with
      cmdq := t.cmdq, busWrite := t.busWrite, respq := t.respq, warnCount := t.warnCount, lastMissing := t.lastMissing
      respIE := t.respIE } → AgentsOk t k := by
    intro t ht
    rw [ht]
    exact ha.congr rfl rfl rfl rfl rfl rfl rfl rfl rfl rfl rfl rfl
  cases r with
  | cmd =>
    simp only [writeRegister]
    split
    · rename_i hlt
      refine ⟨⟨hd.cfg_ok, hd.fb_wf, hd.fb_below, ?_, by simp [hb], hd.respq_le, hd.hf_wf, hd.hf_le, hd.hf_glyphs, hd.cache_ok,
        hd.font_ok⟩, k, hag _ rfl⟩
      simp only [List.length_append, List.length_cons, List.length_nil]; omega
    · rename_i hge
      refine ⟨⟨hd.cfg_ok, hd.fb_wf, hd.fb_below, hd.cmdq_le, ?_, hd.respq_le, hd.hf_wf, hd.hf_le, hd.hf_glyphs, hd.cache_ok,
        hd.font_ok⟩, k, hag _ rfl⟩
      intro _
      have := hd.cmdq_le
      show s.cmdq.length = s.cfg.cmdFifoDepth
      omega
  | respPop =>
    refine ⟨⟨hd.cfg_ok, hd.fb_wf, hd.fb_below, hd.cmdq_le, hd.held_full, ?_, hd.hf_wf, hd.hf_le, hd.hf_glyphs, hd.cache_ok,
      hd.font_ok⟩, k, hag _ rfl⟩
    have := hd.respq_le
    simp only [writeRegister, List.length_tail]; omega
  | warn =>
    rcases warningOver_cases s.proc with h | ⟨j, ch, rest, hp, ht, h⟩ <;> simp only [writeRegister, h]
    · exact ⟨hd.congr rfl rfl rfl rfl rfl rfl rfl rfl rfl rfl rfl, k, hag _ rfl⟩
    · have hsafe := ha.proc_ok
      rw [hp] at hsafe
      obtain ⟨hj, hg⟩ := hsafe
      rw [ht] at hj hg
      obtain ⟨hd', k', ha'⟩ := Inv.holdJob hd (ha.mid (by simp [State.procWaits, hp])) (j := { j with todo := rest, missing := true })
        hj (glyphRoom_tail hg s)
      exact ⟨hd'.congr rfl rfl rfl rfl rfl rfl rfl rfl rfl rfl rfl, k', ha'.congr rfl rfl rfl rfl rfl rfl rfl rfl rfl rfl rfl rfl⟩
  | irqEn => exact ⟨hd.congr rfl rfl rfl rfl rfl rfl rfl rfl rfl rfl rfl, k, hag _ rfl⟩
  | _ => exact ⟨hd, k, ha⟩

theorem hostReadTurn_ok {s s' : State} (hi : Inv s) (addr bytes : Nat) (h : hostReadTurn addr bytes s = .next s') : Inv s' := by
  unfold hostReadTurn at h
  split at h
  · cases h; exact hi
  · split at h
    · cases h
    · cases h
      obtain ⟨hd, k, ha⟩ := hi
      exact ⟨hd.congr rfl rfl rfl rfl rfl rfl rfl rfl rfl rfl rfl, k, ha.congr rfl rfl rfl rfl rfl rfl rfl rfl rfl rfl rfl rfl⟩

theorem hostWriteTurn_ok {s s' : State} (hi : Inv s) (addr bytes : Nat) (v : Word) (h : hostWriteTurn addr bytes v s = .next s') :
    Inv s' := by
  unfold hostWriteTurn at h
  split at h
  · cases h; exact hi
  · rename_i hb
    split at h
    · cases h
    · cases h; exact writeRegister_ok hi _ _ (by simpa using hb)

theorem powerOnTurn_ok {s : State} (hi : Inv s) (fb : List Byte) : Inv (powerOnTurn fb s) := by
  obtain ⟨hd, k, ha⟩ := hi
  refine ⟨⟨hd.cfg_ok, Memory.wf_ofBytesFrom _, ?_, Nat.zero_le _, by simp [powerOnTurn, State.powerOn], Nat.zero_le _, rfl, Nat.zero_le _,
    fun e he => (List.not_mem_nil he).elim, rfl, fun h => by cases h⟩, Knows.start, ⟨rfl, rfl, rfl, rfl⟩, rfl, by simp [Knows.start],
    by simp [Knows.start], by simp [powerOnTurn, State.powerOn, State.procWaits], rfl, rfl, rfl, rfl, ?_⟩
  · exact Memory.below_ofBytesFrom 0 _ _ (by rw [Nat.zero_add]; exact List.length_take_le ..)
  · exact ha.quiet_ok

end Sys2Proof.Machine
end

