-- ==== Sys2Proof/Laws/Outcomes.lean ====
section
/-! SUPPORT. The plan of every command in one equation: refused by the first failing check of 60_exceptions.md R303, else its work. And what
carrying out work does to the response queue. -/

namespace Sys2Proof.Machine

/-- The work of a command that executes. -/
def workOf (s : State) : Instr → List Piece
  | .reset _ => [.waitIdle, .effect (.ctrl .resetting)] ++ resetPulse ++ [.effect (.ctrl .uninit)]
  | .begin _ =>
    [.waitIdle, .effect (.ctrl .resetting)] ++ resetPulse ++
      [.effect (.ctrl .initializing), .runSeq (initSeq s.cfg) [.ctrl .uninit], .effect (.ctrl .ready),
        .effect .fill, .effect (.inFlight true), .effect .snapshot,
        .runSeq (updateSeq s.cfg) [.inFlight false], .effect (.inFlight false)]
  | .update t => updatePieces .update t s
  | .clear t => .effect .fill :: updatePieces .clear t s
  | .contrast t v => [.waitIdle, .startSeq (group s.cfg.panel.setContrast [contrastByte v]) (.contrast t)]
  | .dispoff t => [.effect .fill, .waitIdle, .startSeq (group s.cfg.panel.displayOff []) (.dispOff t)]
  | .dispon t => [.waitIdle, .startSeq (group s.cfg.panel.displayOn []) (.dispOn t)]
  | .teardown _ =>
    [.waitIdle, .effect .fill, .effect (.inFlight true), .effect .snapshot,
      .runSeq (updateSeq s.cfg) [.inFlight false, .ctrl .uninit], .effect (.inFlight false),
      .runSeq (group s.cfg.panel.displayOff []) [.ctrl .uninit], .effect (.ctrl .uninit)]
  | .pixel _ c _ x y => [.plot (coord x) (coord y) c]
  | .line _ c _ x0 y0 x1 y1 => plots c (linePoints (coord x0) (coord y0) (coord x1) (coord y1))
  | .rect _ c _ x y w h => plots c (rectPoints (coord x) (coord y) (extent w) (extent h))
  | .rdpix _ _ _ => []
  | .cursor _ x y => [.effect (.cursor x y)]
  | .ffont _ fw a d => [.effect (.font fw a d)]
  | .puts _ c b size text => textPieces s (scaleOf size) c b s.cx text
  | .hfbegin _ => [.effect .hfBegin]
  | .hfglyph _ cp g => [.effect (.hfGlyph cp g)]
  | .hfend _ => [.effect .hfEnd]
  | .cache _ text =>
    (missingChars s.hf (distinct text)).map (fun ch => .effect (.warn ch)) ++
      [.effect (.install (buildCache s.hf (distinct text) []))]
  | .uputs _ c _ text => unifontPieces s c s.cx text

/-- The RESULT of a command that is known before its work. -/
def resultOf (s : State) : Instr → Nat
  | .rdpix _ x y => (pixRead s.cfg s.fb (coord x).toNat (coord y).toNat).toNat
  | .hfend _ => s.hf.length
  | .cache _ text => (buildCache s.hf (distinct text) []).length
  | _ => 0

/-- The plan of a command. -/
theorem planOf_eq (i : Instr) (s : State) :
    planOf i s =
      match refusalOf i s with
      | some st => .refuse i.op.code i.tag st
      | none => .run (newJob i.op i.tag i.colorBypass.2 (resultOf s i) (workOf s i)) := by
  cases i with
  | reset t => rfl
  | begin t => rfl
  | update t => cases h : s.transmitReady <;>
      simp [refusalOf, preconditions, tooLarge, transmits, firstFailing, Instr.wf, planOf, planUpdate, planTransmit, h] <;> first | rfl | exact ⟨rfl, rfl⟩
  | clear t => cases h : s.transmitReady <;>
      simp [refusalOf, preconditions, tooLarge, transmits, firstFailing, Instr.wf, planOf, planClear, planTransmit, h] <;> first | rfl | exact ⟨rfl, rfl⟩
  | dispoff t => cases h : s.transmitReady <;>
      simp [refusalOf, preconditions, tooLarge, transmits, firstFailing, Instr.wf, planOf, planDispoff, planTransmit, h] <;> first | rfl | exact ⟨rfl, rfl⟩
  | dispon t => cases h : s.transmitReady <;>
      simp [refusalOf, preconditions, tooLarge, transmits, firstFailing, Instr.wf, planOf, planDispon, planTransmit, h] <;> first | rfl | exact ⟨rfl, rfl⟩
  | teardown t => cases h : s.transmitReady <;>
      simp [refusalOf, preconditions, tooLarge, transmits, firstFailing, Instr.wf, planOf, planTeardown, planTransmit, h] <;> first | rfl | exact ⟨rfl, rfl⟩
  | contrast t v =>
    cases h : s.transmitReady
    · simp [refusalOf, tooLarge, transmits, firstFailing, Instr.wf, planOf, planContrast, h]; exact ⟨rfl, rfl⟩
    · by_cases hv : v.toInt < 0 ∨ 255 < v.toInt <;>
        simp [refusalOf, preconditions, tooLarge, transmits, firstFailing, Instr.wf, planOf, planContrast, contrastOperand, h, hv] <;> first | rfl | exact ⟨rfl, rfl⟩
  | pixel t c b x y => cases h : b && !s.transmitReady <;>
      simp [refusalOf, preconditions, tooLarge, transmits, firstFailing, Instr.wf, planOf, planPixel, planDraw, notReadyFor, h] <;> first | rfl | exact ⟨rfl, rfl⟩
  | line t c b x0 y0 x1 y1 => cases h : b && !s.transmitReady <;>
      simp [refusalOf, preconditions, tooLarge, transmits, firstFailing, Instr.wf, planOf, planLine, planDraw, notReadyFor, h] <;> first | rfl | exact ⟨rfl, rfl⟩
  | rect t c b x y w hh => cases h : b && !s.transmitReady <;>
      simp [refusalOf, preconditions, tooLarge, transmits, firstFailing, Instr.wf, planOf, planRect, planDraw, notReadyFor, h] <;> first | rfl | exact ⟨rfl, rfl⟩
  | rdpix t x y => cases h : inBounds s.cfg x.toInt y.toInt <;>
      simp [refusalOf, preconditions, tooLarge, transmits, firstFailing, Instr.wf, planOf, planRdpix, coord, h] <;> first | rfl | exact ⟨rfl, rfl⟩
  | cursor t x y => rfl
  | ffont t fw a d =>
    cases hw : (Instr.ffont t fw a d).wf
    · simp [refusalOf, firstFailing, planOf, planFfont, hw]; exact ⟨rfl, rfl⟩
    · by_cases hc : s.cfg.ffMaxChars < a.length ∨ s.cfg.ffMaxBytes < a.length * fw.toNat <;>
        simp [refusalOf, preconditions, tooLarge, transmits, firstFailing, planOf, planFfont, hw, hc] <;> first | rfl | exact ⟨rfl, rfl⟩
  | puts t c b size text =>
    cases hw : (Instr.puts t c b size text).wf
    · simp [refusalOf, firstFailing, planOf, planPuts, hw]; exact ⟨rfl, rfl⟩
    · by_cases hc : s.cfg.textMax < text.length
      · simp [refusalOf, tooLarge, firstFailing, planOf, planPuts, hw, hc]; exact ⟨rfl, rfl⟩
      · cases hn : b && !s.transmitReady
        · cases hv : s.ffontValid <;>
            simp [refusalOf, preconditions, tooLarge, transmits, firstFailing, planOf, planPuts, notReadyFor, hw, hc, hn, hv] <;> first | rfl | exact ⟨rfl, rfl⟩
        · simp [refusalOf, tooLarge, transmits, firstFailing, planOf, planPuts, notReadyFor, hw, hc, hn]; exact ⟨rfl, rfl⟩
  | hfbegin t => rfl
  | hfglyph t cp g =>
    cases hw : (Instr.hfglyph t cp g).wf
    · simp [refusalOf, firstFailing, planOf, planHfglyph, hw]; exact ⟨rfl, rfl⟩
    · by_cases hl : s.hfState = .loading
      · by_cases hc : KeyMap.find cp s.hf = none ∧ s.hf.length = s.cfg.hfMaxGlyphs <;>
          simp [refusalOf, preconditions, tooLarge, transmits, firstFailing, planOf, planHfglyph, hw, hl, hc] <;> first | rfl | exact ⟨rfl, rfl⟩
      · simp [refusalOf, preconditions, tooLarge, transmits, firstFailing, planOf, planHfglyph, hw, hl]; exact ⟨rfl, rfl⟩
  | hfend t =>
    by_cases hl : s.hfState = .loading <;>
      simp [refusalOf, preconditions, tooLarge, transmits, firstFailing, Instr.wf, planOf, planHfend, hl] <;> first | rfl | exact ⟨rfl, rfl⟩
  | cache t text =>
    cases hw : (Instr.cache t text).wf
    · simp [refusalOf, firstFailing, planOf, planCache, hw]; exact ⟨rfl, rfl⟩
    · by_cases hc : s.cfg.textMax < text.length
      · simp [refusalOf, tooLarge, firstFailing, planOf, planCache, hw, hc]; exact ⟨rfl, rfl⟩
      · by_cases hl : s.hfState = .loaded <;>
          simp [refusalOf, preconditions, tooLarge, transmits, firstFailing, planOf, planCache, hw, hc, hl] <;> first | rfl | exact ⟨rfl, rfl⟩
  | uputs t c b text =>
    cases hw : (Instr.uputs t c b text).wf
    · simp [refusalOf, firstFailing, planOf, planUputs, hw]; exact ⟨rfl, rfl⟩
    · by_cases hc : s.cfg.textMax < text.length
      · simp [refusalOf, tooLarge, firstFailing, planOf, planUputs, hw, hc]; exact ⟨rfl, rfl⟩
      · cases hn : b && !s.transmitReady
        · by_cases hl : s.hfState = .loaded
          · cases hv : covers s text
            · have hv' := hv
              unfold covers at hv'
              simp only [refusalOf, preconditions, tooLarge, transmits, firstFailing, planOf, planUputs, notReadyFor, hw, hc, hn, hl, hv, hv']
              rfl
            · have hv' := hv
              unfold covers at hv'
              simp only [refusalOf, preconditions, tooLarge, transmits, firstFailing, planOf, planUputs, notReadyFor, hw, hc, hn, hl, hv, hv']
              rfl
          · simp [refusalOf, preconditions, tooLarge, transmits, firstFailing, planOf, planUputs, notReadyFor, hw, hc, hn, hl]; exact ⟨rfl, rfl⟩
        · simp [refusalOf, tooLarge, transmits, firstFailing, planOf, planUputs, notReadyFor, hw, hc, hn]; exact ⟨rfl, rfl⟩

/-! ## What a piece leads to -/

/-- What follows a piece. -/
def PieceOut.andThen (rest : List Piece) (j : Job) : PieceOut → State
  | .go j' s' => runPieces rest j' s'
  | .fail onFail s' => failJob onFail j s'
  | .answer r s' => s'.pushProc r
  | .leave s' => s'.leave
  | .stop s' => s'

theorem runPieces_cons (p : Piece) (rest : List Piece) (j : Job) (s : State) :
    runPieces (p :: rest) j s = (doPiece j p rest s).andThen rest j := by
  rw [runPieces]; cases doPiece j p rest s <;> rfl

/-- A pixel write is dropped, stored, held back by SEQ, or sent. -/
theorem doPiece_plot (j : Job) (x y : Int) (c : Intensity) (rest : List Piece) (s : State) :
    (inBounds s.cfg x y = false ∧ doPiece j (.plot x y c) rest s = .go j s) ∨
      (inBounds s.cfg x y = true ∧ j.bypass = false ∧
        doPiece j (.plot x y c) rest s = .go j { s with fb := pixStore s.cfg s.fb x.toNat y.toNat c }) ∨
      (inBounds s.cfg x y = true ∧ j.bypass = true ∧ s.seqBusy = true ∧
        doPiece j (.plot x y c) rest s = .stop (s.hold (.job { j with todo := .plot x y c :: rest }))) ∨
      (inBounds s.cfg x y = true ∧ j.bypass = true ∧ s.seqBusy = false ∧
        doPiece j (.plot x y c) rest s = blockingSeq j rest (bypassSeq s.cfg s.fb x.toNat y.toNat c) [] s) := by
  cases hi : inBounds s.cfg x y with
  | false => exact .inl ⟨rfl, by simp [doPiece, hi]⟩
  | true =>
    cases hb : j.bypass with
    | false => exact .inr (.inl ⟨rfl, rfl, by simp [doPiece, hi, hb]⟩)
    | true =>
      cases hq : s.seqBusy with
      | true => exact .inr (.inr (.inl ⟨rfl, rfl, rfl, by simp [doPiece, hi, hb, hq]⟩))
      | false => exact .inr (.inr (.inr ⟨rfl, rfl, rfl, by simp [doPiece, hi, hb, hq]⟩))

/-- A reset hold that is over, or not. -/
theorem doPiece_waitHold (j : Job) (rest : List Piece) (s : State) :
    (∃ later, s.env = .timer :: later ∧ doPiece j .waitHold rest s = .go j { s with env := later }) ∨
      (s.env.head? ≠ some .timer ∧ doPiece j .waitHold rest s = .stop (s.hold (.jobTimer { j with todo := rest }))) := by
  cases he : s.env with
  | nil => exact .inr ⟨by simp, by simp only [doPiece, he]⟩
  | cons e later =>
    cases e with
    | timer => exact .inl ⟨later, rfl, by simp only [doPiece, he]⟩
    | _ => exact .inr ⟨by simp, by simp only [doPiece, he]⟩

/-- `WaitSeqIdle` that is over, or not. -/
theorem doPiece_waitIdle (j : Job) (rest : List Piece) (s : State) :
    (s.seqBusy = false ∧ doPiece j .waitIdle rest s = .go j s) ∨
      (s.seqBusy = true ∧ doPiece j .waitIdle rest s = .stop (s.hold (.job { j with todo := .waitIdle :: rest }))) := by
  cases hq : s.seqBusy with
  | false => exact .inl ⟨rfl, by simp [doPiece, hq]⟩
  | true => exact .inr ⟨rfl, by simp [doPiece, hq]⟩

/-- An update coalesces, or goes on. -/
theorem doPiece_coalesce (j : Job) (rest : List Piece) (s : State) :
    (s.inFlight = false ∧ doPiece j .coalesce rest s = .go j s) ∨
      (s.inFlight = true ∧ doPiece j .coalesce rest s = .answer ⟨j.op, j.tag, .okCoalesced, 0⟩ s) := by
  cases hq : s.inFlight with
  | false => exact .inl ⟨rfl, by simp [doPiece, hq]⟩
  | true => exact .inr ⟨rfl, by simp [doPiece, hq]⟩

/-! ## What a job leaves alone -/

/-- A component of the state that queues, holds and sequences do not touch. -/
structure Untouched {α : Type} (f : State → α) : Prop where
  push : ∀ (s : State) (r : Resp), f (s.pushProc r) = f s
  hold : ∀ (s : State) (h : Hold), f (s.hold h) = f s
  start : ∀ (s : State) (steps : List SeqStep) (d : SeqDone), f (s.startSeq steps d).leave = f s
  play : ∀ (s : State) (steps : List SeqStep), f (s.runSeq steps).1 = f s
  later : ∀ (s : State) (env : List Event), f { s with env := env } = f s

/-- A piece leaves a component alone, `b` being B of its job. -/
def Piece.keeps {α : Type} (f : State → α) (b : Bool) : Piece → Prop
  | .effect e => ∀ s, f (e.apply s) = f s
  | .plot _ _ _ => b = true ∨ ∀ (s : State) (fb : Memory), f { s with fb := fb } = f s
  | .runSeq _ onFail => ∀ e ∈ onFail, ∀ s, f (Effect.apply e s) = f s
  | .waitIdle | .waitHold | .coalesce | .startSeq _ _ => True

theorem applyAll_keeps {α : Type} {f : State → α} {l : List Effect} (h : ∀ e ∈ l, ∀ s, f (Effect.apply e s) = f s) (s : State) :
    f (applyAll l s) = f s := by
  induction l generalizing s with
  | nil => rfl
  | cons e l ih =>
    rw [applyAll_cons, ih fun e' he => h e' (List.mem_cons_of_mem _ he)]
    exact h e (List.mem_cons_self ..) s

theorem failJob_keeps {α : Type} {f : State → α} (hu : Untouched f) {l : List Effect}
    (h : ∀ e ∈ l, ∀ s, f (Effect.apply e s) = f s) (j : Job) (s : State) : f (failJob l j s) = f s := by
  unfold failJob finishJob
  rw [hu.push]; exact applyAll_keeps h s

theorem blockingSeq_keeps {α : Type} {f : State → α} (hu : Untouched f) (j : Job) (rest : List Piece) (steps : List SeqStep)
    (onFail : List Effect) (s : State) :
    match blockingSeq j rest steps onFail s with
    | .go j' s' => j'.bypass = j.bypass ∧ f s' = f s
    | .fail l s' => l = onFail ∧ f s' = f s
    | .answer _ _ | .leave _ => False
    | .stop s' => f s' = f s := by
  have h := hu.play s steps
  unfold blockingSeq
  generalize s.runSeq steps = r at h
  obtain ⟨t, res⟩ := r
  cases res with
  | none => exact (hu.hold _ _).trans h
  | some ok => cases ok <;> exact ⟨rfl, h⟩

/-- A job whose pieces leave a component alone leaves it alone. -/
theorem runPieces_keeps {α : Type} {f : State → α} (hu : Untouched f) {ps : List Piece} {j : Job}
    (h : ∀ p ∈ ps, p.keeps f j.bypass) (s : State) : f (runPieces ps j s) = f s := by
  induction ps generalizing j s with
  | nil => exact hu.push _ _
  | cons p rest ih =>
    have hp := h p (List.mem_cons_self ..)
    have hrest : ∀ q ∈ rest, q.keeps f j.bypass := fun q hq => h q (List.mem_cons_of_mem _ hq)
    have hseq : ∀ steps onFail, (∀ e ∈ onFail, ∀ s, f (Effect.apply e s) = f s) →
        f ((blockingSeq j rest steps onFail s).andThen rest j) = f s := by
      intro steps onFail hf
      have hb := blockingSeq_keeps hu j rest steps onFail s
      revert hb
      cases blockingSeq j rest steps onFail s with
      | go j' s' => intro hb; exact (ih (by rw [hb.1]; exact hrest) s').trans hb.2
      | fail l s' => intro hb; exact (failJob_keeps hu (by rw [hb.1]; exact hf) j s').trans hb.2
      | answer r s' | leave s' => exact False.elim
      | stop s' => exact id
    rw [runPieces_cons]
    cases p with
    | effect e => exact (ih (by rw [Job.note_bypass]; exact hrest) _).trans (hp s)
    | plot x y c =>
      rcases doPiece_plot j x y c rest s with ⟨_, h⟩ | ⟨_, hb, h⟩ | ⟨_, _, _, h⟩ | ⟨_, _, _, h⟩ <;> rw [h]
      · exact ih hrest s
      · rcases hp with hp | hp
        · rw [hb] at hp; cases hp
        · exact (ih hrest _).trans (hp _ _)
      · exact hu.hold _ _
      · exact hseq _ [] fun e he => (List.not_mem_nil he).elim
    | waitIdle =>
      rcases doPiece_waitIdle j rest s with ⟨_, h⟩ | ⟨_, h⟩ <;> rw [h]
      · exact ih hrest s
      · exact hu.hold _ _
    | waitHold =>
      rcases doPiece_waitHold j rest s with ⟨later, _, h⟩ | ⟨_, h⟩ <;> rw [h]
      · exact (ih hrest _).trans (hu.later _ _)
      · exact hu.hold _ _
    | runSeq steps onFail => exact hseq steps onFail hp
    | coalesce =>
      rcases doPiece_coalesce j rest s with ⟨_, h⟩ | ⟨_, h⟩ <;> rw [h]
      · exact ih hrest s
      · exact hu.push _ _
    | startSeq steps d => exact hu.start _ _ _

/-- A component that the frame of a blocking sequence keeps. -/
theorem untouched_of {α : Type} {f : State → α} (h1 : ∀ (s : State) (q : List Resp) (p : Proc), f { s with respq := q, proc := p } = f s)
    (h2 : ∀ (s : State) (env : List Event) (st : SeqStage) (steps : List SeqStep) (pos : Nat) (d : Option SeqDone)
      (r : Option Request) (p : Phase) (tr : List TraceItem),
      f { s with
        env := env, seqStage := st, seqSteps := steps, seqPos := pos, seqDone := d, seqPending := r, phase := p, trace := tr } = f s) :
    Untouched f where
  push s r := by
    rcases State.pushProc_cases r s with ⟨_, h⟩ | ⟨_, h⟩ <;> rw [h]
    · exact h1 s _ _
    · exact h1 s s.respq _
  hold s h := h1 s s.respq _
  start s steps d :=
    (h1 (s.startSeq steps d) s.respq .idle).trans (h2 s s.env .playing steps 0 (some d) none s.phase s.trace)
  play s steps := by rw [runSeq_frame]; exact h2 s _ _ _ _ _ _ _ _
  later s env := h2 s env s.seqStage s.seqSteps s.seqPos s.seqDone s.seqPending s.phase s.trace

/-- A command whose work leaves a component alone leaves it alone. -/
theorem exec_keeps {α : Type} {f : State → α} (hu : Untouched f) {i : Instr} {s t : State} (h : exec i s = .next t)
    (hw : ∀ p ∈ workOf s i, p.keeps f i.colorBypass.2) : f t = f s := by
  rw [exec_eq, planOf_eq] at h
  cases h
  cases refusalOf i s with
  | some st => exact hu.push _ _
  | none => exact runPieces_keeps hu hw s

/-! ## The response of a job -/

/-- A piece notes a missing character. -/
def Piece.warns : Piece → Bool
  | .effect (.warn _) | .effect (.lastMissing _) => true
  | _ => false

/-- Where the status of a job's response comes from. -/
def StatusOk (ps : List Piece) (j : Job) (st : Status) : Prop :=
  st = .ok ∨ (st = .okCoalesced ∧ .coalesce ∈ ps) ∨ (st = .okMissingGlyph ∧ (j.missing = true ∨ ∃ p ∈ ps, p.warns = true)) ∨
    (st = .transportFail ∧
      (j.failed = true ∨ (j.bypass = true ∧ ∃ x y c, .plot x y c ∈ ps) ∨ ∃ steps l, .runSeq steps l ∈ ps))

/-- What a job leaves in `RESPQ`: its response, or nothing yet. -/
def Answered (ps : List Piece) (j : Job) (s t : State) : Prop :=
  (∃ r, t.respq = s.respq ++ [r] ∧ t.proc = .idle ∧ r.op = j.op ∧ r.tag = j.tag ∧ StatusOk ps j r.status) ∨
    (t.respq = s.respq ∧ ((∃ h, t.proc = .executing h) ∨ ∃ steps d, .startSeq steps d ∈ ps ∧ t.seqDone = some d))

theorem pushProc_answered {ps : List Piece} {j : Job} {s : State} {r : Resp} (h1 : r.op = j.op) (h2 : r.tag = j.tag)
    (h3 : StatusOk ps j r.status) : Answered ps j s (s.pushProc r) := by
  rcases State.pushProc_cases r s with ⟨_, h⟩ | ⟨_, h⟩ <;> rw [h]
  · exact .inl ⟨r, rfl, rfl, h1, h2, h3⟩
  · exact .inr ⟨rfl, .inl ⟨_, rfl⟩⟩

theorem failJob_answered {ps : List Piece} {j : Job} {s : State} (l : List Effect)
    (h : StatusOk ps j .transportFail) : Answered ps j s (failJob l j s) := by
  have hq : (applyAll l s).respq = s.respq := applyAll_keeps (f := State.respq) (fun e _ s => Effect.apply_respq e s) s
  have := pushProc_answered (ps := ps) (j := j) (s := applyAll l s) (r := Job.response { j with failed := true }) rfl rfl h
  unfold failJob finishJob
  unfold Answered at this ⊢
  rw [hq] at this
  exact this

/-- The response of a job of which some pieces are done. -/
theorem Answered.cons {p : Piece} {ps : List Piece} {j j' : Job} {s s' t : State} (h : Answered ps j' s' t)
    (hq : s'.respq = s.respq) (ho : j'.op = j.op) (ht : j'.tag = j.tag) (hb : j'.bypass = j.bypass) (hf : j'.failed = j.failed)
    (hm : j'.missing = j.missing ∨ p.warns = true) : Answered (p :: ps) j s t := by
  rcases h with ⟨r, h1, h2, h3, h4, h5⟩ | ⟨h1, h2⟩
  · refine .inl ⟨r, h1.trans (by rw [hq]), h2, h3.trans ho, h4.trans ht, ?_⟩
    rcases h5 with h5 | ⟨h5, h6⟩ | ⟨h5, h6⟩ | ⟨h5, h6⟩
    · exact .inl h5
    · exact .inr (.inl ⟨h5, List.mem_cons_of_mem _ h6⟩)
    · refine .inr (.inr (.inl ⟨h5, ?_⟩))
      rcases hm with hm | hm
      · rw [hm] at h6
        exact h6.imp id fun ⟨q, h, hq⟩ => ⟨q, List.mem_cons_of_mem _ h, hq⟩
      · exact .inr ⟨p, List.mem_cons_self .., hm⟩
    · refine .inr (.inr (.inr ⟨h5, ?_⟩))
      rw [hf, hb] at h6
      rcases h6 with h6 | ⟨h6, x, y, c, h7⟩ | ⟨steps, l, h7⟩
      · exact .inl h6
      · exact .inr (.inl ⟨h6, x, y, c, List.mem_cons_of_mem _ h7⟩)
      · exact .inr (.inr ⟨steps, l, List.mem_cons_of_mem _ h7⟩)
  · refine .inr ⟨h1.trans hq, h2.imp id fun ⟨steps, d, h3, h4⟩ => ⟨steps, d, List.mem_cons_of_mem _ h3, h4⟩⟩

theorem runPieces_answered (ps : List Piece) (j : Job) (s : State) : Answered ps j s (runPieces ps j s) := by
  induction ps generalizing j s with
  | nil =>
    refine pushProc_answered rfl rfl ?_
    unfold StatusOk Job.response
    simp only
    cases hf : j.failed with
    | true => exact .inr (.inr (.inr ⟨rfl, .inl rfl⟩))
    | false =>
      cases hm : j.missing with
      | true => exact .inr (.inr (.inl ⟨rfl, .inl rfl⟩))
      | false => exact .inl rfl
  | cons p rest ih =>
    have hhold : ∀ h, Answered (p :: rest) j s (s.hold h) := fun h => .inr ⟨rfl, .inl ⟨_, rfl⟩⟩
    have hseq : ∀ steps onFail, StatusOk (p :: rest) j .transportFail →
        Answered (p :: rest) j s ((blockingSeq j rest steps onFail s).andThen rest j) := by
      intro steps onFail hok
      have hfr : (s.runSeq steps).1.respq = s.respq := by rw [runSeq_frame]
      unfold blockingSeq
      generalize s.runSeq steps = r at hfr
      obtain ⟨t, res⟩ := r
      cases res with
      | none => exact .inr ⟨hfr, .inl ⟨_, rfl⟩⟩
      | some ok =>
        cases ok with
        | true => exact (ih j t).cons hfr rfl rfl rfl rfl (.inl rfl)
        | false =>
          have := failJob_answered (s := t) onFail hok
          unfold Answered at this ⊢
          rw [← show t.respq = s.respq from hfr]; exact this
    rw [runPieces_cons]
    cases p with
    | effect e =>
      refine (ih _ _).cons (Effect.apply_respq e s) (Job.note_op e j) (Job.note_tag e j) (Job.note_bypass e j) (Job.note_failed e j) ?_
      cases e with
      | warn ch | lastMissing ch => exact .inr rfl
      | _ => exact .inl rfl
    | plot x y c =>
      rcases doPiece_plot j x y c rest s with ⟨_, h⟩ | ⟨_, _, h⟩ | ⟨_, _, _, h⟩ | ⟨_, hb, _, h⟩ <;> rw [h]
      · exact (ih j s).cons rfl rfl rfl rfl rfl (.inl rfl)
      · exact (ih _ _).cons rfl rfl rfl rfl rfl (.inl rfl)
      · exact hhold _
      · exact hseq _ [] (.inr (.inr (.inr ⟨rfl, .inr (.inl ⟨hb, x, y, c, List.mem_cons_self ..⟩)⟩)))
    | waitIdle =>
      rcases doPiece_waitIdle j rest s with ⟨_, h⟩ | ⟨_, h⟩ <;> rw [h]
      · exact (ih j s).cons rfl rfl rfl rfl rfl (.inl rfl)
      · exact hhold _
    | waitHold =>
      rcases doPiece_waitHold j rest s with ⟨later, _, h⟩ | ⟨_, h⟩ <;> rw [h]
      · exact (ih j _).cons rfl rfl rfl rfl rfl (.inl rfl)
      · exact hhold _
    | runSeq steps onFail =>
      exact hseq steps onFail (.inr (.inr (.inr ⟨rfl, .inr (.inr ⟨steps, onFail, List.mem_cons_self ..⟩)⟩)))
    | coalesce =>
      rcases doPiece_coalesce j rest s with ⟨_, h⟩ | ⟨_, h⟩ <;> rw [h]
      · exact (ih j s).cons rfl rfl rfl rfl rfl (.inl rfl)
      · exact pushProc_answered rfl rfl (.inr (.inl ⟨rfl, List.mem_cons_self ..⟩))
    | startSeq steps d => exact .inr ⟨rfl, .inr ⟨steps, d, List.mem_cons_self .., rfl⟩⟩

end Sys2Proof.Machine
end

