-- ==== Sys2Proof/Laws/Commands.lean ====
section
/-! SUPPORT. How a command that executes unfolds: into its work (`exec_runs`), the reset pulse, the heads of the two commands that play whole
sequences, the bypass drawing commands, and the end of a job as `State.done` writes it. -/

namespace Sys2Proof.Machine

/-- A command that is not refused does its work. -/
theorem exec_runs {i : Instr} {s : State} (h : refusalOf i s = none) :
    exec i s = .next (runPieces (workOf s i) (newJob i.op i.tag i.colorBypass.2 (resultOf s i) (workOf s i)) s) := by
  rw [exec_eq, planOf_eq, h]; rfl

/-- A refused command only answers. -/
theorem exec_refused {i : Instr} {s : State} {st : Status} (hr : s.respq.length < s.cfg.respFifoDepth)
    (h : refusalOf i s = some st) : exec i s = .next (s.done i.op i.tag st 0) := by
  rw [exec_eq, planOf_eq, h]
  simp [runPlan, State.refuse, State.respond, State.pushProc, State.respRoom, hr, State.done]

/-- A job ends with its response. -/
theorem finishJob_done {j : Job} {s : State} (o : Op) (tag : Byte) (hr : s.respq.length < s.cfg.respFifoDepth)
    (ho : j.op = o.code) (ht : j.tag = tag) :
    finishJob j s =
      State.done o tag (if j.failed then .transportFail else if j.missing then .okMissingGlyph else .ok)
        (BitVec.ofNat 32 j.result) s := by
  simp [finishJob, State.pushProc, State.respRoom, hr, State.done, Job.response, ho, ht]

/-- A blocking sequence that XPORT refuses at step `k` ends the command. -/
theorem runPieces_runSeq_fail {s : State} {later : List Event} {steps : List SeqStep} {k : Nat} (hk : k < steps.length)
    (h : s.env = oks k ++ .answer false :: later) (onFail : List Effect) (rest : List Piece) (j : Job) :
    runPieces (.runSeq steps onFail :: rest) j s =
      failJob onFail j { s.releaseSeq with
        env := later, phase := phaseAfter s.phase (steps.take k), trace := failTrace s.snap steps k ++ s.trace } := by
  rw [runPieces_cons]
  simp only [doPiece, blockingSeq, runSeq_fail steps k hk s later h]
  rfl

/-- The reset pulse, its hold over at once. -/
theorem runPieces_resetPulse {s : State} {later : List Event} (he : s.env = .timer :: later) (rest : List Piece) (j : Job) :
    runPieces (resetPulse ++ rest) j s = runPieces rest j { s with
      env := later, resetOut := true, trace := .resetLine true :: .resetLine false :: s.trace } := by
  simp only [resetPulse, List.cons_append, List.nil_append]
  rw [runPieces_effect, runPieces_waitHold (later := later), runPieces_effect]
  · rfl
  · exact he

/-- BEGIN up to its first sequence. -/
theorem exec_begin_head {s : State} {later : List Event} (tag : Byte) (hs : s.seqIdle) (he : s.env = .timer :: later) :
    exec (.begin tag) s = .next (runPieces
      [.runSeq (initSeq s.cfg) [.ctrl .uninit], .effect (.ctrl .ready), .effect .fill, .effect (.inFlight true), .effect .snapshot,
        .runSeq (updateSeq s.cfg) [.inFlight false], .effect (.inFlight false)]
      (newJob .begin tag false 0 (workOf s (.begin tag)))
      { s with
        env := later, ctrl := .initializing, resetOut := true, trace := .resetLine true :: .resetLine false :: s.trace }) := by
  rw [exec_runs (by rfl)]
  show Host.Outcome.next (runPieces (.waitIdle :: .effect (.ctrl .resetting) :: (resetPulse ++
      [.effect (.ctrl .initializing), .runSeq (initSeq s.cfg) [.ctrl .uninit], .effect (.ctrl .ready),
        .effect .fill, .effect (.inFlight true), .effect .snapshot,
        .runSeq (updateSeq s.cfg) [.inFlight false], .effect (.inFlight false)])) _ s) = _
  rw [runPieces_waitIdle (seqBusy_of_idle hs), runPieces_effect, runPieces_resetPulse (later := later), runPieces_effect]
  · rfl
  · exact he

/-- TEARDOWN up to its first sequence. -/
theorem exec_teardown_head {s : State} (tag : Byte) (htr : s.transmitReady = true) (hs : s.seqIdle) :
    exec (.teardown tag) s = .next (runPieces
      [.runSeq (updateSeq s.cfg) [.inFlight false, .ctrl .uninit], .effect (.inFlight false),
        .runSeq (group s.cfg.panel.displayOff []) [.ctrl .uninit], .effect (.ctrl .uninit)]
      (newJob .teardown tag false 0 (workOf s (.teardown tag)))
      { s with fb := [], inFlight := true, snap := List.replicate s.cfg.fbSize 0 }) := by
  rw [exec_runs (by simp [refusalOf, preconditions, tooLarge, transmits, firstFailing, Instr.wf, htr])]
  show Host.Outcome.next (runPieces [.waitIdle, .effect .fill, .effect (.inFlight true), .effect .snapshot,
      .runSeq (updateSeq s.cfg) [.inFlight false, .ctrl .uninit], .effect (.inFlight false),
      .runSeq (group s.cfg.panel.displayOff []) [.ctrl .uninit], .effect (.ctrl .uninit)] _ s) = _
  rw [runPieces_waitIdle (seqBusy_of_idle hs), runPieces_effect, runPieces_effect, runPieces_effect]
  simp only [Effect.apply, State.fbBytes, Memory.toBytes_nil]
  rfl

/-- A drawing command under bypass plots the points it visits. -/
theorem exec_bypass {s : State} (v : Intensity) (i : Instr) (tag : Byte) (ps : List (Int × Int)) (htr : s.transmitReady = true)
    (h : (∃ x y, i = .pixel tag v true x y ∧ ps = [(x.toInt, y.toInt)]) ∨
      (∃ x0 y0 x1 y1, i = .line tag v true x0 y0 x1 y1 ∧ ps = linePoints x0.toInt y0.toInt x1.toInt y1.toInt) ∨
      ∃ x y w h, i = .rect tag v true x y w h ∧ ps = rectPoints x.toInt y.toInt w.toNat h.toNat) :
    exec i s = .next (runPieces (plots v ps) (newJob i.op tag true 0 (plots v ps)) s) := by
  rw [exec_eq, planOf_eq]
  rcases h with ⟨x, y, rfl, rfl⟩ | ⟨x, y, z, w, rfl, rfl⟩ | ⟨x, y, z, w, rfl, rfl⟩ <;>
    simp [refusalOf, preconditions, tooLarge, transmits, firstFailing, Instr.wf, htr] <;> rfl

end Sys2Proof.Machine
end

