-- ==== Sys2Proof/Laws/Decode.lean ====
section
/-! SUPPORT. The laws of the encoding (30_encoding.md): the fields of a header and of operand words, packed lists, and operation codes. -/

namespace Sys2Proof

/-! ## Fields of a header -/

theorem hOp_header (o : Op) (c : Intensity) (b : Bool) (t a : BitVec 8) : hOp (header o c b t a) = o.code := by
  ext i hi
  simp only [hOp, header, BitVec.getElem_extractLsb', BitVec.getLsbD_append]
  simp [show ¬ (24 + i < 8) by omega, show ¬ (24 + i - 8 < 8) by omega, show ¬ (24 + i - 8 - 8 < 1) by omega,
    show ¬ (24 + i - 8 - 8 - 1 < 3) by omega, show ¬ (24 + i - 8 - 8 - 1 - 3 < 4) by omega,
    show 24 + i - 8 - 8 - 1 - 3 - 4 = i by omega, BitVec.getLsbD_eq_getElem hi]

theorem hColor_header (o : Op) (c : Intensity) (b : Bool) (t a : BitVec 8) : hColor (header o c b t a) = c := by
  ext i hi
  simp only [hColor, header, BitVec.getElem_extractLsb', BitVec.getLsbD_append]
  simp [show ¬ (20 + i < 8) by omega, show ¬ (20 + i - 8 < 8) by omega, show ¬ (20 + i - 8 - 8 < 1) by omega,
    show ¬ (20 + i - 8 - 8 - 1 < 3) by omega,
    show 20 + i - 8 - 8 - 1 - 3 = i by omega, BitVec.getLsbD_eq_getElem hi]
  intro hc; omega

theorem hRsv_header (o : Op) (c : Intensity) (b : Bool) (t a : BitVec 8) : hRsv (header o c b t a) = 0 := by
  ext i hi
  simp only [hRsv, header, BitVec.getElem_extractLsb', BitVec.getLsbD_append]
  simp [show ¬ (17 + i < 8) by omega, show ¬ (17 + i - 8 < 8) by omega, show ¬ (17 + i - 8 - 8 < 1) by omega,
    show 17 + i - 8 - 8 - 1 < 3 by omega]

theorem hBypass_header (o : Op) (c : Intensity) (b : Bool) (t a : BitVec 8) : hBypass (header o c b t a) = b := by
  simp only [hBypass, header, BitVec.getLsbD_append]
  cases b <;> rfl

theorem hTag_header (o : Op) (c : Intensity) (b : Bool) (t a : BitVec 8) : hTag (header o c b t a) = t := by
  ext i hi
  simp only [hTag, header, BitVec.getElem_extractLsb', BitVec.getLsbD_append]
  simp [show ¬ (8 + i < 8) by omega, show 8 + i - 8 = i by omega, BitVec.getLsbD_eq_getElem hi]
  intro hc; omega

theorem hArg_header (o : Op) (c : Intensity) (b : Bool) (t a : BitVec 8) : hArg (header o c b t a) = a := by
  ext i hi
  simp only [hArg, header, BitVec.getElem_extractLsb', BitVec.getLsbD_append]
  simp [BitVec.getLsbD_eq_getElem hi]
  intro hc; omega

/-- Every operation is selected by its own code (R112). -/
theorem ofCode_code (o : Op) : Op.ofCode o.code = some o := by cases o <;> rfl

/-- A code selects only the operation it is the code of (R112). -/
theorem code_of_ofCode {b : Byte} {o : Op} (h : Op.ofCode b = some o) : o.code = b := by
  unfold Op.ofCode at h
  have := List.find?_some h
  simpa using this

/-! ## Halves and bytes of a word -/

@[simp] theorem lowHalf_wordOfHalves (lo hi : BitVec 16) : lowHalf (wordOfHalves lo hi) = lo := by
  ext i h
  simp only [lowHalf, wordOfHalves, BitVec.getElem_extractLsb', BitVec.getLsbD_append]
  simp [h]

@[simp] theorem highHalf_wordOfHalves (lo hi : BitVec 16) : highHalf (wordOfHalves lo hi) = hi := by
  ext i h
  simp only [highHalf, wordOfHalves, BitVec.getElem_extractLsb', BitVec.getLsbD_append]
  simp [BitVec.getLsbD_eq_getElem h]

/-- A word is its two halves. -/
theorem wordOfHalves_halves (w : Word) : wordOfHalves (lowHalf w) (highHalf w) = w := by
  apply BitVec.eq_of_getLsbD_eq
  intro i h
  simp only [lowHalf, highHalf, wordOfHalves, BitVec.getLsbD_append, BitVec.getLsbD_extractLsb']
  split
  · simp [*]
  · simp [show i - 16 < 16 by omega, show 16 + (i - 16) = i by omega]

theorem byteOf_wordOfBytes (b0 b1 b2 b3 : Byte) :
    byteOf (wordOfBytes b0 b1 b2 b3) 0 = b0 ∧ byteOf (wordOfBytes b0 b1 b2 b3) 1 = b1 ∧
      byteOf (wordOfBytes b0 b1 b2 b3) 2 = b2 ∧ byteOf (wordOfBytes b0 b1 b2 b3) 3 = b3 := by
  refine ⟨?_, ?_, ?_, ?_⟩ <;> ext i h <;>
    simp only [byteOf, wordOfBytes, BitVec.getElem_extractLsb', BitVec.getLsbD_append]
  · simp [BitVec.getLsbD_eq_getElem h]
    intro hc; omega
  · simp [show ¬ (8 * 1 + i < 8) by omega, show 8 * 1 + i - 8 = i by omega, BitVec.getLsbD_eq_getElem h]
    intro hc; omega
  · simp [show ¬ (8 * 2 + i < 8) by omega, show ¬ (8 * 2 + i - 8 < 8) by omega,
      show 8 * 2 + i - 8 - 8 = i by omega, BitVec.getLsbD_eq_getElem h]
    intro hc; omega
  · simp [show ¬ (8 * 3 + i < 8) by omega, show ¬ (8 * 3 + i - 8 < 8) by omega,
      show ¬ (8 * 3 + i - 8 - 8 < 8) by omega, show 8 * 3 + i - 8 - 8 - 8 = i by omega,
      BitVec.getLsbD_eq_getElem h]

/-- A word is its four bytes. -/
theorem wordOfBytes_bytes (w : Word) : wordOfBytes (byteOf w 0) (byteOf w 1) (byteOf w 2) (byteOf w 3) = w := by
  apply BitVec.eq_of_getLsbD_eq
  intro i h
  simp only [byteOf, wordOfBytes, BitVec.getLsbD_append, BitVec.getLsbD_extractLsb']
  split
  · simp [*]
  · split
    · simp [show i - 8 < 8 by omega, show 8 + (i - 8) = i by omega]
    · split
      · simp [show i - 8 - 8 < 8 by omega, show 16 + (i - 8 - 8) = i by omega]
      · simp [show i - 8 - 8 - 8 < 8 by omega, show 24 + (i - 8 - 8 - 8) = i by omega]

/-! ## The FDEF word (R128) -/

theorem fdef_fields (n : BitVec 16) (fw : BitVec 8) :
    highHalf (n ++ (0 : Byte) ++ fw) = n ∧ byteOf (n ++ (0 : Byte) ++ fw) 1 = 0 ∧ fdefWidth (n ++ (0 : Byte) ++ fw) = fw := by
  refine ⟨?_, ?_, ?_⟩ <;> ext i h <;>
    simp only [highHalf, fdefWidth, byteOf, BitVec.getElem_extractLsb', BitVec.getLsbD_append]
  · simp [show ¬ (16 + i < 8) by omega, show ¬ (16 + i - 8 < 8) by omega, show 16 + i - 8 - 8 = i by omega,
      BitVec.getLsbD_eq_getElem h]
  · simp [show ¬ (8 * 1 + i < 8) by omega]
    intro hc; omega
  · simp [BitVec.getLsbD_eq_getElem h]
    intro hc; omega

/-! ## Packed lists (R87) -/

@[simp] theorem length_pack16 (l : List (BitVec 16)) : (pack16 l).length = words16 l.length := by
  induction l using pack16.induct with
  | case1 => rfl
  | case2 a => simp [pack16, words16]
  | case3 a b rest ih => simp only [pack16, List.length_cons, ih, words16]; omega

@[simp] theorem length_pack8 (l : List Byte) : (pack8 l).length = words8 l.length := by
  induction l using pack8.induct with
  | case1 => rfl
  | case2 a => simp [pack8, words8]
  | case3 a b => simp [pack8, words8]
  | case4 a b c => simp [pack8, words8]
  | case5 a b c d rest ih => simp only [pack8, List.length_cons, ih, words8]; omega

theorem unpack16_pack16 (l : List (BitVec 16)) (rest : List Word) : unpack16 l.length (pack16 l ++ rest) = l := by
  unfold unpack16
  induction l using pack16.induct with
  | case1 => simp
  | case2 a => simp [pack16, unitsOf]
  | case3 a b l ih => simp [pack16, unitsOf, ih]

theorem unpack8_pack8 (l : List Byte) (rest : List Word) : unpack8 l.length (pack8 l ++ rest) = l := by
  unfold unpack8
  induction l using pack8.induct with
  | case1 => simp
  | case2 a => simp [pack8, bytesOf, byteOf_wordOfBytes]
  | case3 a b => simp [pack8, bytesOf, byteOf_wordOfBytes]
  | case4 a b c => simp [pack8, bytesOf, byteOf_wordOfBytes]
  | case5 a b c d l ih => simp [pack8, bytesOf, byteOf_wordOfBytes, ih]

/-- A length that fits 16 bits is read back. -/
theorem toNat_ofNat_length {α : Type} {l : List α} (h : l.length < 65536) : (BitVec.ofNat 16 l.length).toNat = l.length := by
  rw [BitVec.toNat_ofNat]; exact Nat.mod_eq_of_lt h

/-! ## Words from their fields -/

/-- A header is its fields. -/
theorem header_fields (h : Word) :
    (hOp h ++ hColor h ++ hRsv h ++ BitVec.ofBool (hBypass h) ++ hTag h ++ hArg h : Word) = h := by
  apply BitVec.eq_of_getLsbD_eq
  intro i hi
  simp only [hOp, hColor, hRsv, hBypass, hTag, hArg, BitVec.getLsbD_append, BitVec.getLsbD_extractLsb', BitVec.getLsbD_ofBool]
  split
  · simp [*]
  · split
    · simp [show i - 8 < 8 by omega, show 8 + (i - 8) = i by omega]
    · split
      · simp [show i = 16 by omega]
      · split
        · simp [show i - 8 - 8 - 1 < 3 by omega, show 17 + (i - 8 - 8 - 1) = i by omega]
        · split
          · simp [show i - 8 - 8 - 1 - 3 < 4 by omega, show 20 + (i - 8 - 8 - 1 - 3) = i by omega]
          · simp [show i - 8 - 8 - 1 - 3 - 4 < 8 by omega, show 24 + (i - 8 - 8 - 1 - 3 - 4) = i by omega]

/-- A legal header is the header of its operation, colour, bypass and tag, where ARG is 0. -/
theorem header_of_legal {o : Op} {h : Word} (ho : Op.ofCode (hOp h) = some o) (hl : headerLegal o h = true) (ha : hArg h = 0) :
    header o (if o.drawing then hColor h else 0) (if o.drawing then hBypass h else false) (hTag h) 0 = h := by
  have hf := header_fields h
  unfold headerLegal at hl
  simp only [Bool.and_eq_true, Bool.or_eq_true, beq_iff_eq, Bool.not_eq_true'] at hl
  obtain ⟨⟨h1, h2⟩, -⟩ := hl
  unfold header
  rw [code_of_ofCode ho]
  rw [h1, ha] at hf
  cases hd : o.drawing with
  | true => simpa using hf
  | false =>
    rw [hd] at h2
    rcases h2 with h2 | ⟨h4, h5⟩
    · cases h2
    · rw [h4, h5] at hf; simpa using hf

@[simp] theorem length_unitsOf (ws : List Word) : (unitsOf ws).length = 2 * ws.length := by
  induction ws with
  | nil => rfl
  | cons w ws ih => simp [unitsOf, ih]; omega

/-- Words are packed from their units. -/
theorem pack16_unitsOf (ws : List Word) : pack16 (unitsOf ws) = ws := by
  induction ws with
  | nil => rfl
  | cons w ws ih => simp [unitsOf, pack16, wordOfHalves_halves, ih]

/-- Words are packed from their bytes. -/
theorem pack8_bytesOf (ws : List Word) : pack8 (bytesOf ws) = ws := by
  induction ws with
  | nil => rfl
  | cons w ws ih => simp [bytesOf, pack8, wordOfBytes_bytes, ih]

end Sys2Proof
end

