-- ==== Sys2Proof/Laws/PerInstr.lean ====
section
/-! SUPPORT. What holds of every command as syntax, one lemma per constructor: the number of its words (30_encoding.md R131) and that its
header and first operand word pass the decoder's checks (R119), and that the decoder reads its fields back (R124 to R129). -/

namespace Sys2Proof.Laws

/-- The header word of a command. -/
def headerOf (i : Instr) : Word := header i.op i.colorBypass.1 i.colorBypass.2 i.tag i.arg

/-- KIND of a header with a given ARG. -/
theorem glyphKind_header (o : Op) (c : Intensity) (b : Bool) (t a : BitVec 8) :
    glyphKind (header o c b t a) = a.getLsbD 0 := by rw [glyphKind, hArg_header]

/-- The two checks of the length word of a string. -/
theorem strLen_first (text : List Char16) (h : text.length < 65536) :
    strLen ((strWords text).getD 0 0) = text.length ∧ highHalf ((strWords text).getD 0 0) = 0 := by
  simp [strWords, strLen, Nat.mod_eq_of_lt h]

/-- The words of a string operand (R127). -/
theorem length_strWords (text : List Char16) : (strWords text).length = 1 + words16 text.length := by
  simp [strWords]; omega

/-! ## The length of a command -/

namespace Length

/-- A well-formed command has as many words as its header and first operand word say. -/
def Statement (i : Instr) : Prop :=
  i.wf = true → (encode i).length = commandLength i.op (headerOf i) (i.operands.getD 0 0)

theorem reset (t : Byte) : Statement (.reset t) := by intro _; rfl

theorem begin (t : Byte) : Statement (.begin t) := by intro _; rfl

theorem update (t : Byte) : Statement (.update t) := by intro _; rfl

theorem clear (t : Byte) : Statement (.clear t) := by intro _; rfl

theorem contrast (t : Byte) (v : Word) : Statement (.contrast t v) := by intro _; rfl

theorem dispoff (t : Byte) : Statement (.dispoff t) := by intro _; rfl

theorem dispon (t : Byte) : Statement (.dispon t) := by intro _; rfl

theorem teardown (t : Byte) : Statement (.teardown t) := by intro _; rfl

theorem pixel (t : Byte) (c : Intensity) (b : Bool) (x : BitVec 16) (y : BitVec 16) :
    Statement (.pixel t c b x y) := by intro _; rfl

theorem line (t : Byte) (c : Intensity) (b : Bool) (x0 : BitVec 16) (y0 : BitVec 16) (x1 : BitVec 16) (y1 : BitVec 16) :
    Statement (.line t c b x0 y0 x1 y1) := by intro _; rfl

theorem rect (t : Byte) (c : Intensity) (b : Bool) (x : BitVec 16) (y : BitVec 16) (w : BitVec 16) (h : BitVec 16) :
    Statement (.rect t c b x y w h) := by intro _; rfl

theorem rdpix (t : Byte) (x : BitVec 16) (y : BitVec 16) : Statement (.rdpix t x y) := by intro _; rfl

theorem cursor (t : Byte) (x : BitVec 16) (y : BitVec 16) : Statement (.cursor t x y) := by intro _; rfl

theorem ffont (t : Byte) (fw : BitVec 8) (alphabet : List Char16) (data : List Byte) :
    Statement (.ffont t fw alphabet data) := by
  intro h
  simp only [Instr.wf, Bool.and_eq_true, decide_eq_true_eq, beq_iff_eq] at h
  have hn : fdefCount (BitVec.ofNat 16 alphabet.length ++ (0 : Byte) ++ fw) = alphabet.length := by
    rw [fdefCount, (fdef_fields _ _).1, toNat_ofNat_length h.1.2]
  have hw := (fdef_fields (BitVec.ofNat 16 alphabet.length) fw).2.2
  simp only [encode, Instr.operands, Instr.op, commandLength, List.getD_cons_zero, hn, hw, List.length_cons,
    List.length_append, length_pack16, length_pack8, h.2]
  omega

theorem puts (t : Byte) (c : Intensity) (b : Bool) (size : BitVec 8) (text : List Char16) :
    Statement (.puts t c b size text) := by
  intro h
  have hl : text.length < 65536 := by simp [Instr.wf] at h; omega
  simp only [encode, Instr.operands, Instr.op, commandLength, (strLen_first text hl).1, List.length_cons, length_strWords]
  omega

theorem hfbegin (t : Byte) : Statement (.hfbegin t) := by intro _; rfl

theorem hfglyph (t : Byte) (cp : Char16) (glyph : Glyph) : Statement (.hfglyph t cp glyph) := by
  intro h
  cases glyph <;> simp only [Instr.wf, Glyph.wf, beq_iff_eq] at h <;>
    simp [encode, Instr.operands, Instr.op, commandLength, headerOf, Instr.colorBypass, Instr.arg, glyphKind_header, h,
      words8, words16]

theorem hfend (t : Byte) : Statement (.hfend t) := by intro _; rfl

theorem cache (t : Byte) (text : List Char16) : Statement (.cache t text) := by
  intro h
  have hl : text.length < 65536 := by simp [Instr.wf] at h; omega
  simp only [encode, Instr.operands, Instr.op, commandLength, (strLen_first text hl).1, List.length_cons, length_strWords]
  omega

theorem uputs (t : Byte) (c : Intensity) (b : Bool) (text : List Char16) : Statement (.uputs t c b text) := by
  intro h
  have hl : text.length < 65536 := by simp [Instr.wf] at h; omega
  simp only [encode, Instr.operands, Instr.op, commandLength, (strLen_first text hl).1, List.length_cons, length_strWords]
  omega

end Length

/-! ## The decoder's checks -/

namespace Legal

/-- A well-formed command passes the checks of its header and its first operand word. -/
def Statement (i : Instr) : Prop :=
  i.wf = true → headerLegal i.op (headerOf i) = true ∧ operandLegal i.op (i.operands.getD 0 0) = true

/-- The header of a command without colour, bypass and argument. -/
theorem plain (o : Op) (t : Byte) : headerLegal o (header o 0 false t 0) = true := by
  simp only [headerLegal, hRsv_header, hColor_header, hBypass_header, hArg_header]
  cases o <;> rfl

/-- The header of a drawing command without argument. -/
theorem drawing {o : Op} (t : Byte) (c : Intensity) (b : Bool) (h : o.drawing = true) :
    headerLegal o (header o c b t 0) = true := by
  simp only [headerLegal, hRsv_header, hColor_header, hBypass_header, hArg_header, h]
  cases o <;> rfl

theorem reset (t : Byte) : Statement (.reset t) := by
  intro _; exact ⟨plain _ t, rfl⟩

theorem begin (t : Byte) : Statement (.begin t) := by
  intro _; exact ⟨plain _ t, rfl⟩

theorem update (t : Byte) : Statement (.update t) := by
  intro _; exact ⟨plain _ t, rfl⟩

theorem clear (t : Byte) : Statement (.clear t) := by
  intro _; exact ⟨plain _ t, rfl⟩

theorem contrast (t : Byte) (v : Word) : Statement (.contrast t v) := by
  intro _; exact ⟨plain _ t, rfl⟩

theorem dispoff (t : Byte) : Statement (.dispoff t) := by
  intro _; exact ⟨plain _ t, rfl⟩

theorem dispon (t : Byte) : Statement (.dispon t) := by
  intro _; exact ⟨plain _ t, rfl⟩

theorem teardown (t : Byte) : Statement (.teardown t) := by
  intro _; exact ⟨plain _ t, rfl⟩

theorem pixel (t : Byte) (c : Intensity) (b : Bool) (x : BitVec 16) (y : BitVec 16) :
    Statement (.pixel t c b x y) := by
  intro _; exact ⟨drawing t c b rfl, rfl⟩

theorem line (t : Byte) (c : Intensity) (b : Bool) (x0 : BitVec 16) (y0 : BitVec 16) (x1 : BitVec 16) (y1 : BitVec 16) :
    Statement (.line t c b x0 y0 x1 y1) := by
  intro _; exact ⟨drawing t c b rfl, rfl⟩

theorem rect (t : Byte) (c : Intensity) (b : Bool) (x : BitVec 16) (y : BitVec 16) (w : BitVec 16) (h : BitVec 16) :
    Statement (.rect t c b x y w h) := by
  intro _; exact ⟨drawing t c b rfl, rfl⟩

theorem rdpix (t : Byte) (x : BitVec 16) (y : BitVec 16) : Statement (.rdpix t x y) := by
  intro _; exact ⟨plain _ t, rfl⟩

theorem cursor (t : Byte) (x : BitVec 16) (y : BitVec 16) : Statement (.cursor t x y) := by
  intro _; exact ⟨plain _ t, rfl⟩

theorem ffont (t : Byte) (fw : BitVec 8) (alphabet : List Char16) (data : List Byte) :
    Statement (.ffont t fw alphabet data) := by
  intro h
  exact ⟨plain _ t, by
    simp only [operandLegal, Instr.op, Instr.operands, List.getD_cons_zero, (fdef_fields _ _).2.1]; rfl⟩

theorem puts (t : Byte) (c : Intensity) (b : Bool) (size : BitVec 8) (text : List Char16) :
    Statement (.puts t c b size text) := by
  intro h
  refine ⟨?_, by simp [operandLegal, Instr.op, Instr.operands, strWords]⟩
  simp [headerLegal, headerOf, Instr.op, hRsv_header, Op.drawing]

theorem hfbegin (t : Byte) : Statement (.hfbegin t) := by
  intro _; exact ⟨plain _ t, rfl⟩

theorem hfglyph (t : Byte) (cp : Char16) (glyph : Glyph) : Statement (.hfglyph t cp glyph) := by
  intro h
  cases glyph <;>
    exact ⟨by simp [headerLegal, headerOf, Instr.op, Instr.colorBypass, Instr.arg, Op.drawing, hRsv_header, hColor_header,
      hBypass_header, hArg_header], by simp [operandLegal, Instr.op, Instr.operands]⟩

theorem hfend (t : Byte) : Statement (.hfend t) := by
  intro _; exact ⟨plain _ t, rfl⟩

theorem cache (t : Byte) (text : List Char16) : Statement (.cache t text) := by
  intro h
  exact ⟨plain _ t, by simp [operandLegal, Instr.op, Instr.operands, strWords]⟩

theorem uputs (t : Byte) (c : Intensity) (b : Bool) (text : List Char16) : Statement (.uputs t c b text) := by
  intro h
  exact ⟨drawing t c b rfl, by simp [operandLegal, Instr.op, Instr.operands, strWords]⟩

end Legal

/-! ## The fields of a command -/

namespace Fields

/-- The decoder reads the fields of a well-formed command back from its words. -/
def Statement (i : Instr) : Prop := i.wf = true → readFields i.op (headerOf i) i.operands = i

/-- The string words behind a length word. -/
theorem strWords_text (text : List Char16) (h : text.length < 65536) :
    unpack16 (strLen ((strWords text).getD 0 0)) ((strWords text).drop 1) = text := by
  rw [(strLen_first text h).1]
  have := unpack16_pack16 text []
  simpa [strWords] using this

theorem reset (t : Byte) : Statement (.reset t) := by
  intro _
  simp [readFields, headerOf, Instr.op, Instr.tag, hTag_header]

theorem begin (t : Byte) : Statement (.begin t) := by
  intro _
  simp [readFields, headerOf, Instr.op, Instr.tag, hTag_header]

theorem update (t : Byte) : Statement (.update t) := by
  intro _
  simp [readFields, headerOf, Instr.op, Instr.tag, hTag_header]

theorem clear (t : Byte) : Statement (.clear t) := by
  intro _
  simp [readFields, headerOf, Instr.op, Instr.tag, hTag_header]

theorem contrast (t : Byte) (v : Word) : Statement (.contrast t v) := by
  intro _
  simp [readFields, headerOf, Instr.op, Instr.tag, Instr.operands, hTag_header]

theorem dispoff (t : Byte) : Statement (.dispoff t) := by
  intro _
  simp [readFields, headerOf, Instr.op, Instr.tag, hTag_header]

theorem dispon (t : Byte) : Statement (.dispon t) := by
  intro _
  simp [readFields, headerOf, Instr.op, Instr.tag, hTag_header]

theorem teardown (t : Byte) : Statement (.teardown t) := by
  intro _
  simp [readFields, headerOf, Instr.op, Instr.tag, hTag_header]

theorem pixel (t : Byte) (c : Intensity) (b : Bool) (x : BitVec 16) (y : BitVec 16) :
    Statement (.pixel t c b x y) := by
  intro _
  simp [readFields, headerOf, Instr.op, Instr.tag, Instr.colorBypass, Instr.operands, hTag_header, hColor_header, hBypass_header]

theorem line (t : Byte) (c : Intensity) (b : Bool) (x0 : BitVec 16) (y0 : BitVec 16) (x1 : BitVec 16) (y1 : BitVec 16) :
    Statement (.line t c b x0 y0 x1 y1) := by
  intro _
  simp [readFields, headerOf, Instr.op, Instr.tag, Instr.colorBypass, Instr.operands, hTag_header, hColor_header, hBypass_header]

theorem rect (t : Byte) (c : Intensity) (b : Bool) (x : BitVec 16) (y : BitVec 16) (w : BitVec 16) (h : BitVec 16) :
    Statement (.rect t c b x y w h) := by
  intro _
  simp [readFields, headerOf, Instr.op, Instr.tag, Instr.colorBypass, Instr.operands, hTag_header, hColor_header, hBypass_header]

theorem rdpix (t : Byte) (x : BitVec 16) (y : BitVec 16) : Statement (.rdpix t x y) := by
  intro _
  simp [readFields, headerOf, Instr.op, Instr.tag, Instr.operands, hTag_header]

theorem cursor (t : Byte) (x : BitVec 16) (y : BitVec 16) : Statement (.cursor t x y) := by
  intro _
  simp [readFields, headerOf, Instr.op, Instr.tag, Instr.operands, hTag_header]

theorem ffont (t : Byte) (fw : BitVec 8) (alphabet : List Char16) (data : List Byte) :
    Statement (.ffont t fw alphabet data) := by
  intro h
  simp only [Instr.wf, Bool.and_eq_true, decide_eq_true_eq, beq_iff_eq] at h
  have hn : fdefCount (BitVec.ofNat 16 alphabet.length ++ (0 : Byte) ++ fw) = alphabet.length := by
    rw [fdefCount, (fdef_fields _ _).1, toNat_ofNat_length h.1.2]
  have hw := (fdef_fields (BitVec.ofNat 16 alphabet.length) fw).2.2
  have ha := unpack16_pack16 alphabet (pack8 data)
  have hd := unpack8_pack8 data []
  rw [List.append_nil] at hd
  have hdrop : (pack16 alphabet ++ pack8 data).drop (words16 alphabet.length) = pack8 data := by
    rw [← length_pack16 alphabet, List.drop_left]
  simp only [readFields, headerOf, Instr.op, Instr.tag, Instr.operands, hTag_header, List.getD_cons_zero, hn, hw,
    List.drop_succ_cons, List.drop_zero, ha, Nat.add_comm 1, hdrop, ← h.2, hd]

theorem puts (t : Byte) (c : Intensity) (b : Bool) (size : BitVec 8) (text : List Char16) :
    Statement (.puts t c b size text) := by
  intro h
  have hl : text.length < 65536 := by simp [Instr.wf] at h; omega
  simp only [readFields, headerOf, Instr.op, Instr.tag, Instr.colorBypass, Instr.arg, Instr.operands, hTag_header, hColor_header,
    hBypass_header, hArg_header, strWords_text text hl]

theorem hfbegin (t : Byte) : Statement (.hfbegin t) := by
  intro _
  simp [readFields, headerOf, Instr.op, Instr.tag, hTag_header]

theorem hfglyph (t : Byte) (cp : Char16) (glyph : Glyph) : Statement (.hfglyph t cp glyph) := by
  intro h
  cases glyph with
  | g8 rows =>
    have hr : rows.length = 8 := by simpa [Instr.wf, Glyph.wf] using h
    have := unpack8_pack8 rows []
    rw [List.append_nil, hr] at this
    simp [readFields, headerOf, Instr.op, Instr.tag, Instr.colorBypass, Instr.arg, Instr.operands, hTag_header, glyphKind_header, this]
  | g16 rows =>
    have hr : rows.length = 16 := by simpa [Instr.wf, Glyph.wf] using h
    have := unpack16_pack16 rows []
    rw [List.append_nil, hr] at this
    simp [readFields, headerOf, Instr.op, Instr.tag, Instr.colorBypass, Instr.arg, Instr.operands, hTag_header, glyphKind_header, this]

theorem hfend (t : Byte) : Statement (.hfend t) := by
  intro _
  simp [readFields, headerOf, Instr.op, Instr.tag, hTag_header]

theorem cache (t : Byte) (text : List Char16) : Statement (.cache t text) := by
  intro h
  have hl : text.length < 65536 := by simp [Instr.wf] at h; omega
  simp only [readFields, headerOf, Instr.op, Instr.tag, Instr.operands, hTag_header, strWords_text text hl]

theorem uputs (t : Byte) (c : Intensity) (b : Bool) (text : List Char16) : Statement (.uputs t c b text) := by
  intro h
  have hl : text.length < 65536 := by simp [Instr.wf] at h; omega
  simp only [readFields, headerOf, Instr.op, Instr.tag, Instr.colorBypass, Instr.arg, Instr.operands, hTag_header, hColor_header,
    hBypass_header, strWords_text text hl]

end Fields

end Sys2Proof.Laws
end

