-- ==== Sys2Proof/Laws/Fetch.lean ====
section
/-! SUPPORT. How PROC collects a command (10_state.md R46, 30_encoding.md R131): a proper prefix of a command is incomplete, and the words of a
command in `CMDQ` are fetched whole, whatever follows them. -/

namespace Sys2Proof.Machine

/-- A command of more than one word says so in its header alone. -/
theorem one_lt_commandLength {o : Op} {h w1 : Word} (hl : 1 < commandLength o h w1) : 1 < commandLength o h 0 := by
  cases o <;> simp [commandLength] at hl ⊢ <;> omega

/-- The decoder on a header that names an operation. -/
theorem decode_cons {h : Word} {ops : List Word} {o : Op} (ho : Op.ofCode (hOp h) = some o) :
    decode (h :: ops) =
      if ops.length + 1 < commandLength o h (ops.getD 0 0) then .incomplete
      else if headerLegal o h && operandLegal o (ops.getD 0 0) then
        .command (readFields o h (ops.take (commandLength o h (ops.getD 0 0) - 1))) (commandLength o h (ops.getD 0 0))
      else .illegalField (hOp h) (hTag h) (commandLength o h (ops.getD 0 0)) := by
  simp only [decode, ho]

/-- A proper prefix of a command is incomplete. -/
theorem decode_prefix {h : Word} {ops : List Word} {o : Op} (ho : Op.ofCode (hOp h) = some o)
    (hl : ops.length + 1 = commandLength o h (ops.getD 0 0)) {k : Nat} (hk : k < ops.length + 1) :
    decode ((h :: ops).take k) = .incomplete := by
  cases k with
  | zero => rfl
  | succ k =>
    rw [List.take_succ_cons, decode_cons ho]
    have hlen : (ops.take k).length = k := by rw [List.length_take]; omega
    rw [hlen, if_pos]
    cases k with
    | zero => exact one_lt_commandLength (w1 := ops.getD 0 0) (by omega)
    | succ k =>
      have : (ops.take (k + 1)).getD 0 0 = ops.getD 0 0 := by
        cases ops with
        | nil => rfl
        | cons w ops => rfl
      rw [this]; omega

/-- Words that become a command at the last one are fetched whole. -/
theorem fetchWords_complete {ws rest : List Word} (pre : List Word) (hne : ws ≠ []) (hd : decode (pre ++ ws) ≠ .incomplete)
    (hp : ∀ k, 0 < k → k < ws.length → decode (pre ++ ws.take k) = .incomplete) :
    fetchWords pre (ws ++ rest) = .complete (decode (pre ++ ws)) rest := by
  induction ws generalizing pre with
  | nil => exact absurd rfl hne
  | cons w ws ih =>
    rw [List.cons_append, fetchWords]
    cases ws with
    | nil =>
      cases hq : decode (pre ++ [w]) with
      | incomplete => exact absurd hq hd
      | _ => rfl
    | cons w' ws =>
      have h1 : decode (pre ++ [w]) = .incomplete := by simpa using hp 1 (by omega) (by simp)
      rw [h1]
      have := ih (pre ++ [w]) (by simp) (by simpa using hd) (fun k h0 hk => by
        have := hp (k + 1) (by omega) (by simpa using hk)
        simpa using this)
      simpa using this

/-- Words that are never a command are collected. -/
theorem fetchWords_needMore {ws : List Word} (pre : List Word)
    (hp : ∀ k, 0 < k → k ≤ ws.length → decode (pre ++ ws.take k) = .incomplete) :
    fetchWords pre ws = .needMore (pre ++ ws) := by
  induction ws generalizing pre with
  | nil => rw [fetchWords, List.append_nil]
  | cons w ws ih =>
    rw [fetchWords]
    have h1 : decode (pre ++ [w]) = .incomplete := by simpa using hp 1 (by omega) (by simp)
    rw [h1]
    have := ih (pre ++ [w]) (fun k h0 hk => by
      have := hp (k + 1) (by omega) (by simpa using hk)
      simpa using this)
    simpa using this

/-- PROC's step fetches: what comes of the words in its queue. -/
theorem step_fetch {s : State} {later : List Event} (hc : s.cfg.Ok) (he : s.env = .proc :: later) (hp : s.proc = .idle)
    (hb : s.busWrite = none) :
    step s = match fetchWords [] s.cmdq with
      | .needMore ws => .next { s with env := later, cmdq := [], busWrite := none, proc := collectingOrIdle ws }
      | .complete d rest => runDecoded d { s with env := later, cmdq := rest, busWrite := none } := by
  rw [step_event hc he]
  simp only [eventTurn, procTurn, hp, fetchTurn, State.collected, State.queue, hb, Option.toList_none, List.append_nil]
  rfl

end Sys2Proof.Machine
end

