-- ==== Sys2Proof/Laws/Holds.lean ====
section
/-! SUPPORT. What a command that holds in `WaitSeqIdle` goes on to do (40_sequencer_control.md R157): where PROC stands and what a job still has to
do play no part in how its pieces run, so the rest of a held command is the rest of the whole one. -/

namespace Sys2Proof.Machine

/-! ## PROC's own register plays no part -/

/-- Playing steps does not read or write PROC's state. -/
theorem playSteps_proc (steps : List SeqStep) (s : State) (q : Proc) :
    playSteps steps { s with proc := q } = ({ (playSteps steps s).1 with proc := q }, (playSteps steps s).2) := by
  induction steps generalizing s with
  | nil => rfl
  | cons st rest ih =>
    rcases env_cases s with ⟨l, h⟩ | ⟨l, h⟩ | h
    · rw [playSteps_cons_ok h, playSteps_cons_ok (s := { s with proc := q }) h, ← ih]
    · rw [playSteps_cons_fail h, playSteps_cons_fail (s := { s with proc := q }) h]
    · rw [playSteps_cons_wait h, playSteps_cons_wait (s := { s with proc := q }) h]; rfl

theorem runSeq_proc (steps : List SeqStep) (s : State) (q : Proc) :
    State.runSeq steps { s with proc := q } = ({ (s.runSeq steps).1 with proc := q }, (s.runSeq steps).2) := by
  have h : State.startSeq steps .toProc { s with proc := q } = { s.startSeq steps .toProc with proc := q } := rfl
  unfold State.runSeq
  rw [h, playSteps_proc]
  rcases playSteps steps (s.startSeq steps .toProc) with ⟨t, _ | ok⟩ <;> rfl

theorem apply_setProc (e : Effect) (s : State) (q : Proc) : e.apply { s with proc := q } = { e.apply s with proc := q } := by
  cases e <;> rfl

theorem applyAll_setProc (l : List Effect) (s : State) (q : Proc) : applyAll l { s with proc := q } = { applyAll l s with proc := q } := by
  induction l generalizing s with
  | nil => rfl
  | cons e l ih => rw [applyAll_cons, apply_setProc, ih]; rfl

theorem note_setTodo (e : Effect) (j : Job) (l : List Piece) : Job.note e { j with todo := l } = { j.note e with todo := l } := by
  cases e <;> rfl

theorem pushProc_inert (r : Resp) (s : State) (q : Proc) : State.pushProc r { s with proc := q } = s.pushProc r := by
  unfold State.pushProc
  rw [show State.respRoom { s with proc := q } = s.respRoom from rfl]
  cases s.respRoom <;> rfl

theorem finishJob_inert (j : Job) (s : State) (l : List Piece) (q : Proc) :
    finishJob { j with todo := l } { s with proc := q } = finishJob j s := pushProc_inert _ s q

theorem failJob_inert (onFail : List Effect) (j : Job) (s : State) (l : List Piece) (q : Proc) :
    failJob onFail { j with todo := l } { s with proc := q } = failJob onFail j s := by
  unfold failJob
  rw [applyAll_setProc]
  exact finishJob_inert { j with failed := true } _ l q

/-- The pieces of a job run the same wherever PROC stands. -/
theorem runPieces_inert (ps : List Piece) (j : Job) (s : State) (l : List Piece) (q : Proc) :
    runPieces ps { j with todo := l } { s with proc := q } = runPieces ps j s := by
  induction ps generalizing j s with
  | nil => exact finishJob_inert j s l q
  | cons p rest ih =>
    have hseq : ∀ steps onFail,
        (blockingSeq { j with todo := l } rest steps onFail { s with proc := q }).andThen rest { j with todo := l } =
          (blockingSeq j rest steps onFail s).andThen rest j := by
      intro steps onFail
      unfold blockingSeq
      rw [runSeq_proc]
      rcases s.runSeq steps with ⟨t, _ | ok⟩
      · rfl
      · cases ok
        · exact failJob_inert onFail j t l q
        · exact ih j t
    rw [runPieces_cons, runPieces_cons]
    cases p with
    | effect e =>
      simp only [doPiece, PieceOut.andThen, note_setTodo, apply_setProc]
      exact ih _ _
    | plot x y c =>
      rcases doPiece_plot j x y c rest s with ⟨h1, h⟩ | ⟨h1, h2, h⟩ | ⟨h1, h2, h3, h⟩ | ⟨h1, h2, h3, h⟩ <;> rw [h]
      · rw [show doPiece { j with todo := l } (.plot x y c) rest { s with proc := q } = .go { j with todo := l } { s with proc := q } by
          simp [doPiece, h1]]
        exact ih j s
      · rw [show doPiece { j with todo := l } (.plot x y c) rest { s with proc := q } =
          .go { j with todo := l } { s with fb := pixStore s.cfg s.fb x.toNat y.toNat c, proc := q } by simp [doPiece, h1, h2]]
        exact ih j { s with fb := pixStore s.cfg s.fb x.toNat y.toNat c }
      · rw [show doPiece { j with todo := l } (.plot x y c) rest { s with proc := q } =
          .stop (s.hold (.job { j with todo := .plot x y c :: rest })) by
            have hq : State.seqBusy { s with proc := q } = true := h3
            simp [doPiece, h1, h2, hq, State.hold]]
        rfl
      · rw [show doPiece { j with todo := l } (.plot x y c) rest { s with proc := q } =
          blockingSeq { j with todo := l } rest (bypassSeq s.cfg s.fb x.toNat y.toNat c) [] { s with proc := q } by
            have hq : State.seqBusy { s with proc := q } = false := h3
            simp [doPiece, h1, h2, hq]]
        exact hseq _ _
    | waitIdle =>
      rcases doPiece_waitIdle j rest s with ⟨h1, h⟩ | ⟨h1, h⟩ <;>
        rcases doPiece_waitIdle { j with todo := l } rest { s with proc := q } with ⟨h1', h'⟩ | ⟨h1', h'⟩ <;> rw [h, h']
      · exact ih j s
      · exact nomatch h1.symm.trans h1'
      · exact nomatch h1.symm.trans h1'
      · rfl
    | waitHold =>
      rcases doPiece_waitHold j rest s with ⟨later, h1, h⟩ | ⟨h1, h⟩ <;>
        rcases doPiece_waitHold { j with todo := l } rest { s with proc := q } with ⟨later', h1', h'⟩ | ⟨h1', h'⟩ <;> rw [h, h']
      · obtain rfl : later = later' := (List.cons.inj (h1.symm.trans h1')).2
        exact ih j { s with env := later }
      · exact absurd (congrArg List.head? h1) h1'
      · exact absurd (congrArg List.head? h1') h1
      · rfl
    | runSeq steps onFail => exact hseq steps onFail
    | coalesce =>
      rcases doPiece_coalesce j rest s with ⟨h1, h⟩ | ⟨h1, h⟩ <;>
        rcases doPiece_coalesce { j with todo := l } rest { s with proc := q } with ⟨h1', h'⟩ | ⟨h1', h'⟩ <;> rw [h, h']
      · exact ih j s
      · exact nomatch h1.symm.trans h1'
      · exact nomatch h1.symm.trans h1'
      · exact pushProc_inert _ s q
    | startSeq steps d => rfl

/-! ## The pieces before a hold -/

/-- An effect that writes only what `HoldsForSeq` names. -/
def Effect.passes : Effect → Bool
  | .fill | .advance _ | .warn _ => true
  | .ctrl _ | .inFlight _ | .resetOut _ | .snapshot | .cursor _ _ | .cursorX _ | .cursorY _ | .font _ _ _ | .countWarning
  | .lastMissing _ | .hfBegin | .hfGlyph _ _ | .hfEnd | .install _ => false

/-- A piece that a busy SEQ does not hold up, on a raster. -/
def Piece.passes (c : Config) : Piece → Bool
  | .effect e => e.passes
  | .plot x y _ => !inBounds c x y
  | .coalesce => true
  | .waitIdle | .waitHold | .runSeq _ _ | .startSeq _ _ => false

/-- Such pieces only write what `HoldsForSeq` names. -/
theorem runPieces_passes {pre : List Piece} {s : State} (hp : ∀ p ∈ pre, p.passes s.cfg = true)
    (hi : .coalesce ∈ pre → s.inFlight = false) (rest : List Piece) (j : Job) :
    runPieces (pre ++ rest) j s = runPieces rest (pre.foldl Piece.noted j) (applyAll (effectsOf pre) s) := by
  induction pre generalizing j s with
  | nil => rfl
  | cons p pre ih =>
    have hps : ∀ q ∈ pre, q.passes s.cfg = true := fun q hq => hp q (List.mem_cons_of_mem _ hq)
    have hi' : .coalesce ∈ pre → s.inFlight = false := fun h => hi (List.mem_cons_of_mem _ h)
    have h0 := hp p List.mem_cons_self
    have heff : ∀ e : Effect, Piece.passes s.cfg (.effect e) = true →
        runPieces ((.effect e :: pre) ++ rest) j s =
          runPieces rest ((Piece.effect e :: pre).foldl Piece.noted j) (applyAll (effectsOf (.effect e :: pre)) s) := by
      intro e he
      rw [List.cons_append, runPieces_effect]
      have hfl : (e.apply s).inFlight = s.inFlight := by cases e <;> first | rfl | cases he
      have he' : effectsOf (.effect e :: pre) = e :: effectsOf pre := rfl
      have hps' : ∀ q ∈ pre, q.passes (e.apply s).cfg = true := by rw [Effect.apply_cfg]; exact hps
      have hi'' : .coalesce ∈ pre → (e.apply s).inFlight = false := fun h => hfl.trans (hi' h)
      rw [he', applyAll_cons, List.foldl_cons, ih hps' hi'']
      rfl
    cases p with
    | effect e => exact heff e h0
    | plot x y c =>
      have hout : inBounds s.cfg x y = false := by simpa [Piece.passes] using h0
      rw [List.cons_append, runPieces_plot_out hout]
      exact ih hps hi' j
    | coalesce =>
      rw [List.cons_append, runPieces_coalesce (hi List.mem_cons_self)]
      exact ih hps hi' j
    | waitIdle | waitHold | runSeq _ _ | startSeq _ _ => cases h0

/-- The writes of passing pieces, from the registers they start with. -/
theorem applyAll_passes {pre : List Piece} {c : Config} (hp : ∀ p ∈ pre, p.passes c = true) (s : State) :
    applyAll (effectsOf pre) s =
      { s with
        fb := (applyAll (effectsOf pre) s).fb, cx := (applyAll (effectsOf pre) s).cx
        warnCount := (applyAll (effectsOf pre) s).warnCount, lastMissing := (applyAll (effectsOf pre) s).lastMissing } ∧
      ∀ t : State, applyAll (effectsOf pre) { t with fb := s.fb, cx := s.cx, warnCount := s.warnCount, lastMissing := s.lastMissing } =
        { t with
          fb := (applyAll (effectsOf pre) s).fb, cx := (applyAll (effectsOf pre) s).cx
          warnCount := (applyAll (effectsOf pre) s).warnCount, lastMissing := (applyAll (effectsOf pre) s).lastMissing } := by
  induction pre generalizing s with
  | nil => exact ⟨rfl, fun _ => rfl⟩
  | cons p pre ih =>
    have hps : ∀ q ∈ pre, q.passes c = true := fun q hq => hp q (List.mem_cons_of_mem _ hq)
    match p, hp p List.mem_cons_self with
    | .effect .fill, _ =>
      obtain ⟨h1, h2⟩ := ih hps (Effect.fill.apply s)
      exact ⟨h1, fun t => h2 t⟩
    | .effect (.advance d), _ =>
      obtain ⟨h1, h2⟩ := ih hps ((Effect.advance d).apply s)
      exact ⟨h1, fun t => h2 t⟩
    | .effect (.warn ch), _ =>
      obtain ⟨h1, h2⟩ := ih hps ((Effect.warn ch).apply s)
      exact ⟨h1, fun t => h2 t⟩
    | .plot x y c', _ => exact ih hps s
    | .coalesce, _ => exact ih hps s

/-- A piece that waits for SEQ, `b` being B of the job. -/
def Piece.waits (c : Config) (b : Bool) : Piece → Bool
  | .waitIdle => true
  | .plot x y _ => b && inBounds c x y
  | .effect _ | .waitHold | .runSeq _ _ | .coalesce | .startSeq _ _ => false

theorem runPieces_waits {p : Piece} {s : State} {j : Job} (hp : p.waits s.cfg j.bypass = true) (hb : s.seqBusy = true) (rest : List Piece) :
    runPieces (p :: rest) j s = s.hold (.job { j with todo := p :: rest }) := by
  match p, hp with
  | .waitIdle, _ => simp only [runPieces, doPiece, hb, if_true]
  | .plot x y c, hp =>
    simp only [Piece.waits, Bool.and_eq_true] at hp
    simp only [runPieces, doPiece, hb, hp.1, hp.2]
    rfl

/-- A command whose work begins with pieces that pass, and then waits for SEQ, holds there and later does the rest. -/
theorem holdsForSeq {i : Instr} {s : State} {pre rest : List Piece} {p : Piece} (hr : refusalOf i s = none)
    (hw : workOf s i = pre ++ p :: rest) (hpre : ∀ q ∈ pre, q.passes s.cfg = true) (hi : .coalesce ∈ pre → s.inFlight = false)
    (hp : p.waits s.cfg i.colorBypass.2 = true) (hb : s.seqBusy = true)
    (hsame : ∀ t : State, (transmits i = true → t.transmitReady = true) → SameInputs (applyAll (effectsOf pre) s) t →
      ∀ u : State, u = { t with fb := s.fb, cx := s.cx, warnCount := s.warnCount, lastMissing := s.lastMissing } →
        refusalOf i u = none ∧ workOf u i = workOf s i ∧ resultOf u i = resultOf s i) :
    HoldsForSeq i s (applyAll (effectsOf pre) s) := by
  have hfr := applyAll_passes hpre s
  have hcfg : (applyAll (effectsOf pre) s).cfg = s.cfg := by rw [hfr.1]
  have hbusy : (applyAll (effectsOf pre) s).seqBusy = true := by rw [hfr.1]; exact hb
  have hbyp : (pre.foldl Piece.noted (newJob i.op i.tag i.colorBypass.2 (resultOf s i) (pre ++ p :: rest))).bypass =
      i.colorBypass.2 := foldl_noted_bypass _ _
  have hx := exec_runs hr
  rw [hw, runPieces_passes hpre hi] at hx
  generalize hj : pre.foldl Piece.noted (newJob i.op i.tag i.colorBypass.2 (resultOf s i) (pre ++ p :: rest)) = j at hbyp hx
  refine ⟨{ j with todo := p :: rest }, ?_, ?_, ?_⟩
  · rw [hx, runPieces_waits (by rw [hcfg, hbyp]; exact hp) hbusy]
  · show Host.Outcome.next (runPieces (p :: rest) _ _) = _
    rw [runPieces_waits (s := State.hold _ _) (by rw [State.hold_cfg, hcfg]; exact (congrArg (Piece.waits s.cfg · p) hbyp).trans hp) hbusy]
    rfl
  · intro t ht1 ht2 ht3 ht4
    obtain ⟨h1, h2, h3⟩ := hsame t ht3 ht4 _ rfl
    have ht : ({ t with
        fb := (applyAll (effectsOf pre) s).fb, cx := (applyAll (effectsOf pre) s).cx
        warnCount := (applyAll (effectsOf pre) s).warnCount
        lastMissing := (applyAll (effectsOf pre) s).lastMissing } : State) = t := by
      rw [← ht4.fb, ← ht4.cx, ← ht4.warnCount, ← ht4.lastMissing]
    have hpre' : ∀ q ∈ pre, q.passes t.cfg = true := by rw [ht4.cfg, hcfg]; exact hpre
    rw [exec_runs h1, h2, h3, hw,
      runPieces_passes (s := { t with fb := s.fb, cx := s.cx, warnCount := s.warnCount, lastMissing := s.lastMissing }) hpre' fun _ => ht2,
      hfr.2 t, ht, hj]
    exact congrArg Host.Outcome.next (runPieces_inert (p :: rest) j t (p :: rest) _)

/-! ## What a command's work depends on -/

theorem textPieces_same {s t : State} (ha : t.ffAlpha = s.ffAlpha) (hw : t.ffWidth = s.ffWidth) (hd : t.ffData = s.ffData) (hy : t.cy = s.cy)
    (n : Nat) (c : Intensity) (b : Bool) (cx : BitVec 16) (text : List Char16) : textPieces t n c b cx text = textPieces s n c b cx text := by
  induction text generalizing cx with
  | nil => rfl
  | cons ch rest ih => simp only [textPieces, ha, hw, hd, hy, ih]

theorem unifontPieces_same {s t : State} (hc : t.cfg = s.cfg) (hm : t.cache = s.cache) (hy : t.cy = s.cy) (c : Intensity) (cx : BitVec 16)
    (text : List Char16) : unifontPieces t c cx text = unifontPieces s c cx text := by
  induction text generalizing cx with
  | nil => rfl
  | cons ch rest ih => simp only [unifontPieces, hc, hm, hy, ih]

/-- A command does the same wherever PROC stands. -/
theorem exec_proc (i : Instr) (s : State) (q : Proc) : exec i { s with proc := q } = exec i s := by
  have hr : refusalOf i { s with proc := q } = refusalOf i s := by cases i <;> rfl
  have hw : workOf { s with proc := q } i = workOf s i := by
    cases i with
    | puts t c b size text => exact textPieces_same (s := s) (t := { s with proc := q }) rfl rfl rfl rfl _ _ _ _ _
    | uputs t c b text => exact unifontPieces_same (s := s) (t := { s with proc := q }) rfl rfl rfl _ _ _
    | _ => rfl
  have hv : resultOf { s with proc := q } i = resultOf s i := by cases i <;> rfl
  rw [exec_eq, exec_eq, planOf_eq, planOf_eq, hr, hw, hv]
  cases refusalOf i s with
  | some st => exact congrArg Host.Outcome.next (pushProc_inert _ s q)
  | none => exact congrArg Host.Outcome.next (runPieces_inert _ (newJob _ _ _ _ (workOf s i)) s (workOf s i) q)

/-- Pieces of a drawing rule whose cells are all off the raster pass. -/
theorem passes_of_off {c : Config} {ps : List Piece} (ht : ∀ p ∈ ps, p.textual = true)
    (hx : ∀ q ∈ plotsOf ps, inBounds c q.1 q.2.1 = false) : ∀ p ∈ ps, p.passes c = true := by
  intro p hp
  have h := ht p hp
  cases p with
  | plot x y v =>
    have := hx (x, y, v) (List.mem_filterMap.mpr ⟨_, hp, rfl⟩)
    simp only at this
    rw [Piece.passes, this]; rfl
  | effect e => cases e <;> first | rfl | cases h
  | waitIdle | waitHold | runSeq _ _ | coalesce | startSeq _ _ => cases h

/-- Pieces of a drawing rule with a cell on the raster: the first such cell waits for SEQ under bypass. -/
theorem exists_waits {c : Config} {ps : List Piece} (ht : ∀ p ∈ ps, p.textual = true) (hx : ∃ q ∈ plotsOf ps, inBounds c q.1 q.2.1 = true) :
    ∃ pre p rest, ps = pre ++ p :: rest ∧ (∀ q ∈ pre, q.passes c = true) ∧ p.waits c true = true := by
  induction ps with
  | nil => obtain ⟨q, hq, _⟩ := hx; cases hq
  | cons p ps ih =>
    have hps : ∀ q ∈ ps, q.textual = true := fun q hq => ht q (List.mem_cons_of_mem _ hq)
    have hp := ht p List.mem_cons_self
    have hgo : p.passes c = true → (∃ q ∈ plotsOf ps, inBounds c q.1 q.2.1 = true) →
        ∃ pre p' rest, p :: ps = pre ++ p' :: rest ∧ (∀ q ∈ pre, q.passes c = true) ∧ p'.waits c true = true := by
      intro h0 h1
      obtain ⟨pre, p', rest, e, h2, h3⟩ := ih hps h1
      refine ⟨p :: pre, p', rest, by rw [e]; rfl, fun q hq => ?_, h3⟩
      rcases List.mem_cons.mp hq with rfl | hq
      · exact h0
      · exact h2 q hq
    cases p with
    | plot x y v =>
      cases hi : inBounds c x y with
      | true => exact ⟨[], .plot x y v, ps, rfl, fun q hq => (List.not_mem_nil hq).elim, by rw [Piece.waits, hi]; rfl⟩
      | false =>
        refine hgo (by rw [Piece.passes, hi]; rfl) ?_
        obtain ⟨q, hq, h⟩ := hx
        rcases List.mem_cons.mp hq with rfl | hq
        · rw [hi] at h; cases h
        · exact ⟨q, hq, h⟩
    | effect e => exact hgo (by cases e <;> first | rfl | cases hp) hx
    | waitIdle | waitHold | runSeq _ _ | coalesce | startSeq _ _ => cases hp

end Sys2Proof.Machine
end

