-- ==== Sys2Proof/Laws/Host.lean ====
section
/-! SUPPORT. What HOST's schedules do at the window (43_host_procedures.md R280): pushing a command runs it, at any `CMD_FIFO_DEPTH`, and
`LoadHexFont` loads its glyphs; and the digits of a line of its file (R281, R282). -/

namespace Sys2Proof.Machine

/-! ## The digits of a line -/

/-- Digits with their values. -/
theorem digitsOf_eq {l : List Char} {ds : List Nat} (h : l.map hexDigit = ds.map some) : digitsOf hexDigit l = some ds := by
  induction l generalizing ds with
  | nil => cases ds with | nil => rfl | cons d ds => cases h
  | cons c l ih =>
    cases ds with
    | nil => cases h
    | cons d ds =>
      simp only [List.map_cons, List.cons.injEq] at h
      simp [digitsOf, h.1, ih h.2]

/-- A character that is no digit. -/
theorem digitsOf_none {l : List Char} (h : ∃ ch ∈ l, hexDigit ch = none) : digitsOf hexDigit l = none := by
  induction l with
  | nil => obtain ⟨_, h, _⟩ := h; cases h
  | cons c l ih =>
    obtain ⟨ch, hm, hn⟩ := h
    rcases List.mem_cons.mp hm with rfl | hm
    · simp [digitsOf, hn]
    · have := ih ⟨ch, hm, hn⟩
      cases hc : hexDigit c <;> simp [digitsOf, this, hc]

/-- A group of digits of a payload, as far as it goes. -/
theorem take_drop_getD (ds : List Nat) (n k : Nat) :
    (ds.drop n).take k = (List.range (min k (ds.length - n))).map fun i => ds.getD (n + i) 0 := by
  apply List.ext_getElem?
  intro i
  simp only [List.getElem?_take, List.getElem?_drop, List.getElem?_map, List.getD_eq_getElem?_getD]
  by_cases h : i < min k (ds.length - n)
  · rw [if_pos (by omega), List.getElem?_range h, List.getElem?_eq_getElem (by omega), Option.map_some, List.getElem?_eq_getElem (by omega)]; rfl
  · rw [List.getElem?_eq_none (l := List.range _) (by simp; omega)]
    split
    · rw [List.getElem?_eq_none (by omega)]; rfl
    · rfl

/-- Which characters are hexadecimal digits. -/
theorem hexDigit_none {ch : Char} (h : ch ∉ "0123456789abcdefABCDEF".toList) : hexDigit ch = none := by
  have e : "0123456789abcdefABCDEF".toList =
      ['0', '1', '2', '3', '4', '5', '6', '7', '8', '9', 'a', 'b', 'c', 'd', 'e', 'f', 'A', 'B', 'C', 'D', 'E', 'F'] := by decide
  rw [e] at h
  have hn : ∀ lo hi : Nat, (∀ n : Fin (hi + 1 - lo), Char.ofNat (lo + n) ∈
      ['0', '1', '2', '3', '4', '5', '6', '7', '8', '9', 'a', 'b', 'c', 'd', 'e', 'f', 'A', 'B', 'C', 'D', 'E', 'F']) →
      ¬ (lo ≤ ch.toNat ∧ ch.toNat ≤ hi) := by
    intro lo hi hall ⟨h1, h2⟩
    have := hall ⟨ch.toNat - lo, by omega⟩
    rw [show lo + (⟨ch.toNat - lo, by omega⟩ : Fin (hi + 1 - lo)).val = ch.toNat by simp; omega, Char.ofNat_toNat] at this
    exact h this
  have h1 := hn 48 57 (by decide)
  have h2 := hn 97 102 (by decide)
  have h3 := hn 65 70 (by decide)
  unfold hexDigit; simp only [if_neg h1, if_neg h2, if_neg h3]

/-! ## Steps of a schedule -/

theorem stepN_succ {n : Nat} {s t : State} (h : step s = .next t) : stepN (n + 1) s = stepN n t := by rw [stepN, h]

/-- Steps one after another. -/
theorem stepN_add {m n : Nat} {s t : State} (h : stepN m s = .next t) : stepN (m + n) s = stepN n t := by
  induction m generalizing s with
  | zero => rw [stepN] at h; cases h; rw [Nat.zero_add]
  | succ m ih =>
    rw [Nat.succ_add, stepN]
    rw [stepN] at h
    cases hs : step s with
    | next u => rw [hs] at h; exact ih h
    | fault f => exact nomatch f
    | refused r => rw [hs] at h; cases h

/-- HOST pushes a word that PROC pops at once. -/
theorem step_pushed {s : State} {w : Word} {later : List Event} (hc : s.cfg.Ok) (hb : s.busWrite = none) (hq : s.cmdq = [])
    (he : s.env = .hostWrite s.cfg.base 4 w :: later) : step s = .next { s with env := later, cmdq := [w] } := by
  rw [step_hostWrite (k := 0) hc hb (by omega) he]
  have hd : 4 ≤ s.cfg.cmdFifoDepth := hc.2.2.2.1
  simp only [Register.ofIndex, writeRegister, hq, List.length_nil, List.nil_append]
  rw [if_pos (by omega)]

/-- PROC's turn while it is not inside a command, with nothing held at the bus. -/
theorem step_fetched {s : State} {later : List Event} (hc : s.cfg.Ok) (he : s.env = .proc :: later) (hb : s.busWrite = none)
    (hx : ∀ h, s.proc ≠ .executing h) :
    step s = match fetchWords s.collected s.cmdq with
      | .needMore ws => .next { s with env := later, cmdq := [], proc := collectingOrIdle ws }
      | .complete d rest => runDecoded d { s with env := later, cmdq := rest } := by
  have hp : ∀ rest, State.popTo rest { s with env := later } = { s with env := later, cmdq := rest } := by
    intro rest; unfold State.popTo; rw [← hb]
  have hf : procTurn { s with env := later } = fetchTurn { s with env := later } := by
    unfold procTurn
    cases hpr : s.proc with
    | executing h => exact absurd hpr (hx h)
    | _ => rfl
  rw [step_event hc he]
  show procTurn _ = _
  rw [hf, fetchTurn]
  have hq : State.queue { s with env := later } = s.cmdq := by simp [State.queue, hb]
  rw [hq, show State.collected { s with env := later } = s.collected from rfl]
  cases fetchWords s.collected s.cmdq with
  | needMore ws => simp only [hp]
  | complete d rest => simp only [hp]

/-- Pushing the words of a command, PROC popping each, runs the command. -/
theorem stepN_pushed {i : Instr} {n : Nat} {ws : List Word} (hne : ws ≠ []) {s : State} {later : List Event} (hc : s.cfg.Ok)
    (hb : s.busWrite = none) (hq : s.cmdq = []) (hx : ∀ h, s.proc ≠ .executing h) (hd : decode (s.collected ++ ws) = .command i n)
    (hp : ∀ k, 0 < k → k < ws.length → decode (s.collected ++ ws.take k) = .incomplete)
    (he : s.env = (ws.flatMap fun w => [.hostWrite s.cfg.base 4 w, .proc]) ++ later) :
    stepN (2 * ws.length) s = exec i { s with env := later } := by
  induction ws generalizing s with
  | nil => exact absurd rfl hne
  | cons w ws ih =>
    have he' : s.env = .hostWrite s.cfg.base 4 w :: .proc :: ((ws.flatMap fun w => [.hostWrite s.cfg.base 4 w, .proc]) ++ later) := he
    have h1 := step_pushed hc hb hq he'
    have h2 := step_fetched (s := { s with
      env := .proc :: ((ws.flatMap fun w => [.hostWrite s.cfg.base 4 w, .proc]) ++ later), cmdq := [w] }) hc rfl hb hx
    rw [show 2 * (w :: ws).length = 2 * ws.length + 1 + 1 by simp; omega, stepN_succ h1]
    have hcol : State.collected { s with
      env := .proc :: ((ws.flatMap fun w => [.hostWrite s.cfg.base 4 w, .proc]) ++ later), cmdq := [w] } = s.collected := rfl
    rw [hcol] at h2
    cases ws with
    | nil =>
      have hf : fetchWords s.collected [w] = .complete (.command i n) [] := by
        have := fetchWords_complete (rest := []) s.collected hne (by rw [hd]; exact fun h => nomatch h) hp
        rw [hd] at this; exact this
      simp only [hf] at h2
      show stepN 1 _ = _
      rw [stepN, h2]
      show (match exec i { s with env := later, cmdq := [] } with
        | .next t => stepN 0 t | .fault f => .fault f | .refused r => .refused r) = _
      rw [← hq]
      cases exec i { s with env := later } <;> rfl
    | cons w' ws =>
      have hf : fetchWords s.collected [w] = .needMore (s.collected ++ [w]) :=
        fetchWords_needMore s.collected fun k h0 h1 => by
          have : k = 1 := by simp at h1; omega
          subst this
          exact hp 1 (by omega) (by simp)
      have hci : collectingOrIdle (s.collected ++ [w]) = .collecting (s.collected ++ [w]) := by simp [collectingOrIdle]
      simp only [hf, hci] at h2
      rw [stepN_succ h2]
      have := ih (s := { s with
        env := ((w' :: ws).flatMap fun w => [.hostWrite s.cfg.base 4 w, .proc]) ++ later, cmdq := []
        proc := .collecting (s.collected ++ [w]) }) (by simp) hc hb rfl (fun h hh => nomatch hh)
        (by simpa [State.collected] using hd)
        (fun k h0 hk => by
          have := hp (k + 1) (by omega) (by simpa using hk)
          simpa [State.collected] using this) rfl
      refine this.trans ?_
      rw [← hq]
      exact exec_proc i { s with env := later } _

/-- HOST reads and pops a response it waits for. -/
theorem stepN_popped {s : State} {r : Resp} {later : List Event} (hc : s.cfg.Ok) (hb : s.busWrite = none) (hr : s.respq = [r])
    (he : s.env = .hostRead (s.cfg.base + 4) 4 :: .hostRead (s.cfg.base + 8) 4 :: .hostWrite (s.cfg.base + 12) 4 0 :: later) :
    stepN 3 s = .next { s with env := later, busRead := r.result, respq := [] } := by
  rw [stepN_succ (step_hostRead (k := 1) hc hb (by omega) he)]
  rw [stepN_succ (step_hostRead (k := 2) (s := { s with
    env := .hostRead (s.cfg.base + 8) 4 :: .hostWrite (s.cfg.base + 12) 4 0 :: later
    busRead := readRegister (Register.ofIndex 1) s }) hc hb (by omega) rfl)]
  rw [stepN_succ (step_hostWrite (k := 3) (v := 0) (s := { s with
    env := .hostWrite (s.cfg.base + 12) 4 0 :: later
    busRead := readRegister (Register.ofIndex 2) { s with
      env := .hostRead (s.cfg.base + 8) 4 :: .hostWrite (s.cfg.base + 12) 4 0 :: later
      busRead := readRegister (Register.ofIndex 1) s } }) hc hb (by omega) rfl)]
  simp only [stepN, Register.ofIndex, writeRegister, readRegister, hr]
  rfl

/-- PROC fetches a command by its whole length and no less. -/
def FetchedWhole (i : Instr) : Prop :=
  decode (encode i) = .command i (encode i).length ∧ ∀ k, 0 < k → k < (encode i).length → decode ((encode i).take k) = .incomplete

/-- HOST calls a command that completes at once: it runs, and its response is read and popped. -/
theorem stepN_hostCall {i : Instr} (hi : FetchedWhole i) {s u : State} {later : List Event} (hc : s.cfg.Ok)
    (hpr : s.proc = .idle) (hb : s.busWrite = none) (hq : s.cmdq = []) {o : Op} {tag : Byte} {st : Status} {v : Word}
    (he : s.env = hostCall s.cfg i ++ later)
    (hx : ∀ env, exec i { s with env := env } = .next (State.done o tag st v { u with env := env }))
    (hu : u.cfg = s.cfg) (hub : u.busWrite = none) (hur : u.respq = []) (hup : u.proc = .idle) :
    stepN (hostCall s.cfg i).length s = .next { u with env := later, busRead := v } := by
  obtain ⟨hd, hp⟩ := hi
  have hne : encode i ≠ [] := by
    intro h; rw [h] at hd; cases hd
  have hcol : s.collected = [] := by simp only [State.collected, hpr]
  have hlen : (hostCall s.cfg i).length = 2 * (encode i).length + 3 := by
    simp only [hostCall, hostPush, List.length_append, List.length_flatMap, List.length_cons, List.length_nil]
    simp; omega
  rw [hlen]
  have he' : s.env = ((encode i).flatMap fun w => [Event.hostWrite s.cfg.base 4 w, .proc]) ++
      (.hostRead (s.cfg.base + 4) 4 :: .hostRead (s.cfg.base + 8) 4 :: .hostWrite (s.cfg.base + 12) 4 0 :: later) := by
    rw [he, hostCall, hostPush, List.append_assoc]; rfl
  have h1 := stepN_pushed hne hc hb hq (fun h hh => by rw [hpr] at hh; cases hh) (by rw [hcol]; exact hd) (by rw [hcol]; exact hp) he'
  rw [hx] at h1
  rw [stepN_add h1]
  have h2 := stepN_popped (s := State.done o tag st v { u with
    env := (.hostRead (s.cfg.base + 4) 4 :: .hostRead (s.cfg.base + 8) 4 :: .hostWrite (s.cfg.base + 12) 4 0 :: later) })
    (r := ⟨o.code, tag, st, v⟩) (later := later) (by rw [← hu] at hc; exact hc) hub (by simp [State.done, hur]) (by simp only [State.done, hu])
  rw [h2]
  unfold State.done
  rw [← hur, ← hup]

/-! ## The hex-font loader -/

/-- The last glyph of a code point among those of a file (R251). -/
def lastGlyph (gs : List (Char16 × Glyph)) (cp : Char16) : Option Glyph := ((gs.filter fun g => g.1 == cp).getLast?).map Prod.snd

theorem lastGlyph_cons (g : Char16 × Glyph) (gs : List (Char16 × Glyph)) (cp : Char16) :
    lastGlyph (g :: gs) cp = (lastGlyph gs cp).or (if cp = g.1 then some g.2 else none) := by
  unfold lastGlyph
  by_cases h : g.1 = cp
  · rw [List.filter_cons_of_pos (by simp [h]), if_pos h.symm]
    cases hf : gs.filter fun g => g.1 == cp with
    | nil => rfl
    | cons a l => simp [List.getLast?_cons]
  · rw [List.filter_cons_of_neg (by simp [h]), if_neg (fun hh => h hh.symm)]
    simp

/-- A state in which HOST may issue commands and wait for each: nothing is queued, held or under way in PROC. -/
structure Quiet (s : State) : Prop where
  cfg : s.cfg.Ok
  proc : s.proc = .idle
  bus : s.busWrite = none
  cmdq : s.cmdq = []
  respq : s.respq = []

/-- The glyphs of a file, one call each, in a load with room for them. -/
theorem stepN_glyphs {gs : List (Char16 × Glyph)} (hf : ∀ g ∈ gs, FetchedWhole (.hfglyph 0 g.1 g.2)) (hg : ∀ g ∈ gs, g.2.wf = true) {s : State}
    {later : List Event} (hq : Quiet s) (hl : s.hfState = .loading) (hw : KeyMap.wf s.hf = true)
    (hroom : s.hf.length + gs.length ≤ s.cfg.hfMaxGlyphs) (he : s.env = hostRun s.cfg (gs.map fun g => .hfglyph 0 g.1 g.2) ++ later) :
    ∃ m v, stepN (hostRun s.cfg (gs.map fun g => .hfglyph 0 g.1 g.2)).length s = .next { s with env := later, hf := m, busRead := v } ∧
      ∀ cp, KeyMap.find cp m = (lastGlyph gs cp).or (KeyMap.find cp s.hf) := by
  induction gs generalizing s with
  | nil => exact ⟨s.hf, s.busRead, by rw [show later = s.env from he.symm]; rfl, fun cp => by simp [lastGlyph]⟩
  | cons g gs ih =>
    have hrun : hostRun s.cfg ((g :: gs).map fun g => .hfglyph 0 g.1 g.2) =
        hostCall s.cfg (.hfglyph 0 g.1 g.2) ++ hostRun s.cfg (gs.map fun g => .hfglyph 0 g.1 g.2) := rfl
    rw [hrun] at he ⊢
    rw [List.append_assoc] at he
    have hwf : (Instr.hfglyph 0 g.1 g.2).wf = true := hg g List.mem_cons_self
    have hresp : s.respq.length < s.cfg.respFifoDepth := by
      have : 1 ≤ s.cfg.respFifoDepth := hq.cfg.2.2.2.2.1
      rw [hq.respq]; exact this
    have hexec : ∀ env, exec (.hfglyph 0 g.1 g.2) { s with env := env } =
        .next (State.done .hfglyph 0 .ok 0 { s with env := env, hf := KeyMap.insert g.1 g.2 s.hf }) := by
      intro env
      have hr : refusalOf (.hfglyph 0 g.1 g.2) { s with env := env } = none := by
        have : s.hf.length ≠ s.cfg.hfMaxGlyphs := by simp at hroom; omega
        have hwf' : (Instr.hfglyph (0#8) g.1 g.2).wf = true := hwf
        simp [refusalOf, firstFailing, tooLarge, transmits, preconditions, hwf', hl, this]
      rw [exec_runs hr]
      exact congrArg Host.Outcome.next (finishJob_done .hfglyph 0 (s := { s with env := env, hf := KeyMap.insert g.1 g.2 s.hf }) hresp rfl rfl)
    have h1 := stepN_hostCall (hf g List.mem_cons_self) hq.cfg hq.proc hq.bus hq.cmdq (o := .hfglyph) (tag := 0) (st := .ok) (v := 0)
      (u := { s with hf := KeyMap.insert g.1 g.2 s.hf }) he hexec rfl hq.bus hq.respq hq.proc
    have hroom' : (KeyMap.insert g.1 g.2 s.hf).length + gs.length ≤ s.cfg.hfMaxGlyphs := by
      have hlen := KeyMap.length_insert g.1 g.2 hw
      simp only [List.length_cons] at hroom
      split at hlen <;> omega
    obtain ⟨m, v, h2, h3⟩ := ih (s := { s with
        env := hostRun s.cfg (gs.map fun g => .hfglyph 0 g.1 g.2) ++ later, hf := KeyMap.insert g.1 g.2 s.hf, busRead := 0 })
      (fun x hx => hf x (List.mem_cons_of_mem _ hx)) (fun x hx => hg x (List.mem_cons_of_mem _ hx))
      ⟨hq.cfg, hq.proc, hq.bus, hq.cmdq, hq.respq⟩ hl (KeyMap.wf_insert _ _ hw)
      hroom' rfl
    refine ⟨m, v, ?_, fun cp => ?_⟩
    · rw [List.length_append, stepN_add h1]
      exact h2
    · rw [h3, lastGlyph_cons, KeyMap.find_insert]
      cases lastGlyph gs cp with
      | some x => rfl
      | none => by_cases hc : cp = g.1 <;> simp [hc]

end Sys2Proof.Machine
end

