-- ==== Sys2Proof/Laws/Late.lean ====
section
/-! SUPPORT. A command that holds for an answer of XPORT or for TIMER (40_sequencer_control.md R155, R156, R163) goes on, when that comes as an event
of its own, as if it had stood next on the timeline. -/

namespace Sys2Proof.Machine

/-- The timeline with more events at its end. -/
def State.more (l : List Event) (s : State) : State := { s with env := s.env ++ l }

theorem apply_more (e : Effect) (s : State) (l : List Event) : e.apply (s.more l) = (e.apply s).more l := by cases e <;> rfl

theorem more_of_nil {s : State} (h : s.env = []) (l : List Event) : s.more l = { s with env := l } := by
  unfold State.more; rw [h]; rfl

/-! ## A run of steps -/

/-- A run of steps that returns leaves the events behind alone. -/
theorem playSteps_more {steps : List SeqStep} {s t : State} {ok : Bool} (h : playSteps steps s = (t, some ok)) (l : List Event) :
    playSteps steps (s.more l) = (t.more l, some ok) := by
  induction steps generalizing s with
  | nil => cases h; rfl
  | cons st rest ih =>
    rcases env_cases s with ⟨later, hx⟩ | ⟨later, hx⟩ | hx
    · rw [playSteps_cons_ok hx] at h
      have hm : (s.more l).env = .answer true :: (later ++ l) := by show s.env ++ l = _; rw [hx]; rfl
      rw [playSteps_cons_ok hm]
      exact ih h
    · rw [playSteps_cons_fail hx] at h
      have hm : (s.more l).env = .answer false :: (later ++ l) := by show s.env ++ l = _; rw [hx]; rfl
      rw [playSteps_cons_fail hm]
      cases h; rfl
    · rw [playSteps_cons_wait hx] at h; cases h

/-- A run of steps that holds at the end of the timeline goes on with the answer behind it. -/
theorem playSteps_late {steps : List SeqStep} {s t : State} (h : playSteps steps s = (t, none)) (he : t.env = [])
    (hr : s.seqSteps.drop s.seqPos = steps) (later : List Event) :
    playSteps steps (s.more (.answer false :: later)) = (State.answer false { t with env := later }, some false) ∧
      playSteps steps (s.more (.answer true :: later)) =
        playSteps (t.seqSteps.drop (t.seqPos + 1)) (State.answer true { t with env := later }) := by
  induction steps generalizing s with
  | nil => cases h
  | cons st rest ih =>
    have hdrop : s.seqSteps.drop (s.seqPos + 1) = rest := by
      have := congrArg List.tail hr
      simpa [List.tail_drop] using this
    rcases env_cases s with ⟨l, hx⟩ | ⟨l, hx⟩ | hx
    · rw [playSteps_cons_ok hx] at h
      have hm : ∀ a, (s.more a).env = .answer true :: (l ++ a) := fun a => by show s.env ++ a = _; rw [hx]; rfl
      rw [playSteps_cons_ok (hm _), playSteps_cons_ok (hm _)]
      exact ih h hdrop
    · rw [playSteps_cons_fail hx] at h; cases h
    · rw [playSteps_cons_wait hx] at h
      cases h
      have hn : s.env = [] := he
      rw [more_of_nil hn, more_of_nil hn, playSteps_cons_fail (later := later) rfl, playSteps_cons_ok (later := later) rfl,
        ← issue_answer_fail, ← issue_answer_ok]
      refine ⟨rfl, ?_⟩
      show playSteps rest _ = playSteps (s.seqSteps.drop (s.seqPos + 1)) _
      rw [hdrop]
      rfl

/-! ## A job -/

/-- What a blocking sequence that goes on from a run of steps leads to (R156). -/
def goOn (j : Job) (onFail : List Effect) : State × Option Bool → State
  | (u, some true) => runJob j u.releaseSeq
  | (u, some false) => failJob onFail j u.releaseSeq
  | (u, none) => u.hold (.jobSeq j onFail)

/-- How a job that holds in state `t` at the end of the timeline goes on when more events stand there. -/
def GoesOnAs (t : State) (run : List Event → State) : Prop :=
  (∀ j, t.proc = .executing (.jobTimer j) → ∀ later, run (.timer :: later) = runJob j { t with env := later }) ∧
    ∀ j onFail, t.proc = .executing (.jobSeq j onFail) →
      (t.seqStage = .playing ∧ ∃ st, t.seqSteps[t.seqPos]? = some st ∧ t.seqPending = some (st.request t.snap)) ∧
        ∀ later,
          run (.answer false :: later) = failJob onFail j (State.answer false { t with env := later }).releaseSeq ∧
            run (.answer true :: later) =
              goOn j onFail (playSteps (t.seqSteps.drop (t.seqPos + 1)) (State.answer true { t with env := later }))

theorem goesOnAs_of_ended {t : State} (h : ∀ j, t.proc ≠ .executing (.jobTimer j)) (h' : ∀ j f, t.proc ≠ .executing (.jobSeq j f))
    (run : List Event → State) : GoesOnAs t run := ⟨fun j hj => absurd hj (h j), fun j f hj => absurd hj (h' j f)⟩

theorem goesOnAs_pushProc (r : Resp) (s : State) (run : List Event → State) : GoesOnAs (s.pushProc r) run := by
  rcases State.pushProc_cases r s with ⟨_, h⟩ | ⟨_, h⟩ <;> rw [h] <;>
    exact goesOnAs_of_ended (fun _ h => by cases h) (fun _ _ h => by cases h) run

theorem answer_proc (ok : Bool) (s : State) (q : Proc) : State.answer ok { s with proc := q } = { s.answer ok with proc := q } := by
  obtain h | ⟨r, h⟩ := Option.eq_none_or_eq_some s.seqPending
  · rw [answer_none ok h]; exact answer_none (s := { s with proc := q }) ok h
  · cases ok
    · rw [answer_fail h]; exact answer_fail (s := { s with proc := q }) h
    · rw [answer_ok h]; exact answer_ok (s := { s with proc := q }) h

/-- A blocking sequence. -/
theorem blockingSeq_late (j : Job) (rest : List Piece) (steps : List SeqStep) (onFail : List Effect) (s : State)
    (ih : ∀ j s, ((runPieces rest j s).env = [] → GoesOnAs (runPieces rest j s) fun l => runPieces rest j (s.more l)))
    (he : ((blockingSeq j rest steps onFail s).andThen rest j).env = []) :
    GoesOnAs ((blockingSeq j rest steps onFail s).andThen rest j) fun l => (blockingSeq j rest steps onFail (s.more l)).andThen rest j := by
  have hstart : ∀ l, State.startSeq steps .toProc (s.more l) = (s.startSeq steps .toProc).more l := fun _ => rfl
  unfold blockingSeq State.runSeq at he ⊢
  simp only [hstart]
  cases hp : playSteps steps (s.startSeq steps .toProc) with
  | mk t r =>
    rw [hp] at he
    cases r with
    | some ok =>
      simp only [playSteps_more hp]
      cases ok with
      | true => exact ih j t.releaseSeq he
      | false => exact goesOnAs_pushProc _ _ _
    | none =>
      have he' : t.env = [] := he
      have hst := playSteps_stage steps (s.startSeq steps .toProc) rfl rfl rfl (Nat.zero_le _)
      have hfr := playSteps_frame steps (s.startSeq steps .toProc)
      rw [hp] at hst hfr
      refine ⟨fun j' hj => (nomatch hj), fun j' f hj => ?_⟩
      have hj' : j' = { j with todo := rest } ∧ f = onFail := by
        have := hj.symm; injection this with h1; injection h1 with h2 h3; exact ⟨h2, h3⟩
      obtain ⟨rfl, rfl⟩ := hj'
      refine ⟨?_, fun later => ?_⟩
      · rcases hst with ⟨ok, h, -⟩ | ⟨-, h1, -, st, h2, h3⟩
        · cases h
        · have h4 : t.seqSteps = steps := by rw [show t = _ from hfr]; rfl
          have h5 : t.snap = s.snap := by rw [show t = _ from hfr]; rfl
          exact ⟨h1, st, by show t.seqSteps[t.seqPos]? = _; rw [h4]; exact h2, by show t.seqPending = some (st.request t.snap); rw [h5]; exact h3⟩
      · obtain ⟨h1, h2⟩ := playSteps_late hp he' rfl later
        constructor
        · beta_reduce
          rw [h1]
          exact (failJob_inert f j (State.answer false { t with env := later }).releaseSeq rest (.executing (.jobSeq { j with todo := rest } f))).symm.trans
            (congrArg (fun u => failJob f { j with todo := rest } (State.releaseSeq u)) (answer_proc false { t with env := later } _).symm)
        · beta_reduce
          rw [h2]
          have h3 := (congrArg (playSteps (t.seqSteps.drop (t.seqPos + 1)))
            (answer_proc true { t with env := later } (.executing (.jobSeq { j with todo := rest } f)))).trans (playSteps_proc _ _ _)
          refine Eq.trans ?_ (congrArg (goOn { j with todo := rest } f) h3.symm)
          rcases playSteps (t.seqSteps.drop (t.seqPos + 1)) (State.answer true { t with env := later }) with ⟨u, _ | _ | _⟩
          · rfl
          · exact (failJob_inert f j u.releaseSeq rest _).symm
          · exact (runPieces_inert rest j u.releaseSeq rest _).symm

/-- The pieces of a job. -/
theorem runPieces_late (ps : List Piece) (j : Job) (s : State) (he : (runPieces ps j s).env = []) :
    GoesOnAs (runPieces ps j s) fun l => runPieces ps j (s.more l) := by
  induction ps generalizing j s with
  | nil => exact goesOnAs_pushProc _ _ _
  | cons p rest ih =>
    simp only [runPieces_cons] at he ⊢
    cases p with
    | effect e =>
      simp only [doPiece, apply_more]
      exact ih _ _ he
    | plot x y c =>
      have hb : ∀ l, doPiece j (.plot x y c) rest (s.more l) = (if !inBounds s.cfg x y then .go j (s.more l)
          else if !j.bypass then .go j (State.more l { s with fb := pixStore s.cfg s.fb x.toNat y.toNat c })
          else if s.seqBusy then .stop ((s.more l).hold (.job { j with todo := .plot x y c :: rest }))
          else blockingSeq j rest (bypassSeq s.cfg s.fb x.toNat y.toNat c) [] (s.more l)) := fun l => rfl
      simp only [hb]
      rcases doPiece_plot j x y c rest s with ⟨h1, h⟩ | ⟨h1, h2, h⟩ | ⟨h1, h2, h3, h⟩ | ⟨h1, h2, h3, h⟩ <;> rw [h] at he ⊢ <;> simp only [h1]
      · exact ih j s he
      · simp only [h2]
        exact ih j _ he
      · exact goesOnAs_of_ended (fun _ h => by cases h) (fun _ _ h => by cases h) _
      · simp only [h2, h3]
        exact blockingSeq_late j rest _ [] s (fun j s => ih j s) he
    | waitIdle =>
      have hb : ∀ l, doPiece j .waitIdle rest (s.more l) = (if s.seqBusy then .stop ((s.more l).hold (.job { j with todo := .waitIdle :: rest }))
          else .go j (s.more l)) := fun l => rfl
      simp only [hb]
      rcases doPiece_waitIdle j rest s with ⟨h1, h⟩ | ⟨h1, h⟩ <;> rw [h] at he ⊢ <;> simp only [h1]
      · exact ih j s he
      · exact goesOnAs_of_ended (fun _ h => by cases h) (fun _ _ h => by cases h) _
    | waitHold =>
      rcases doPiece_waitHold j rest s with ⟨later, h1, h⟩ | ⟨h1, h⟩ <;> rw [h] at he ⊢
      · have hb : ∀ l, doPiece j .waitHold rest (s.more l) = .go j (State.more l { s with env := later }) := fun l => by
          simp only [doPiece, State.more, h1, List.cons_append]
        simp only [hb]
        exact ih j _ he
      · have hn : s.env = [] := he
        refine ⟨fun j' hj later => ?_, fun j' f hj => by cases hj⟩
        injection hj with hj; injection hj with hj
        subst hj
        simp only [more_of_nil hn]
        exact (runPieces_inert rest j { s with env := later } rest _).symm
    | runSeq steps onFail => exact blockingSeq_late j rest steps onFail s (fun j s => ih j s) he
    | coalesce =>
      have hb : ∀ l, doPiece j .coalesce rest (s.more l) = (if s.inFlight then .answer ⟨j.op, j.tag, .okCoalesced, 0⟩ (s.more l) else .go j (s.more l)) := fun l => rfl
      simp only [hb]
      rcases doPiece_coalesce j rest s with ⟨h1, h⟩ | ⟨h1, h⟩ <;> rw [h] at he ⊢ <;> simp only [h1]
      · exact ih j s he
      · exact goesOnAs_pushProc _ _ _
    | startSeq steps d => exact goesOnAs_of_ended (fun _ h => by cases h) (fun _ _ h => by cases h) _

/-! ## A command -/

/-- A command does the same checks and has the same work whatever comes later. -/
theorem exec_more_eq (i : Instr) (s : State) (l : List Event) :
    refusalOf i (s.more l) = refusalOf i s ∧ workOf (s.more l) i = workOf s i ∧ resultOf (s.more l) i = resultOf s i := by
  refine ⟨by cases i <;> rfl, ?_, by cases i <;> rfl⟩
  cases i with
  | puts t c b size text => exact textPieces_same (s := s) (t := s.more l) rfl rfl rfl rfl _ _ _ _ _
  | uputs t c b text => exact unifontPieces_same (s := s) (t := s.more l) rfl rfl rfl _ _ _
  | _ => rfl

/-- A command that holds at the end of the timeline goes on with the events behind it. -/
theorem exec_late {i : Instr} {s t : State} (h : exec i s = .next t) (he : t.env = []) :
    ∃ run, (∀ l, exec i (s.more l) = .next (run l)) ∧ GoesOnAs t run := by
  cases hr : refusalOf i s with
  | some st =>
    have hx : ∀ u, refusalOf i u = some st → exec i u = .next (u.pushProc ⟨i.op.code, i.tag, st, 0⟩) := fun u hu => by
      rw [exec_eq, planOf_eq, hu]; rfl
    rw [hx s hr] at h
    cases h
    exact ⟨_, fun l => hx _ ((exec_more_eq i s l).1.trans hr), goesOnAs_pushProc _ _ _⟩
  | none =>
    rw [exec_runs hr] at h
    cases h
    refine ⟨_, fun l => ?_, runPieces_late _ _ s he⟩
    obtain ⟨h1, h2, h3⟩ := exec_more_eq i s l
    rw [exec_runs (h1.trans hr), h2, h3]

/-- No command writes the parameters. -/
theorem exec_cfg {i : Instr} {s t : State} (h : exec i s = .next t) : t.cfg = s.cfg := by
  refine exec_keeps (f := State.cfg) (untouched_of (fun _ _ _ => rfl) fun _ _ _ _ _ _ _ _ _ => rfl) h fun p _ => ?_
  cases p with
  | effect e => exact Effect.apply_cfg e
  | plot x y c => exact .inr fun _ _ => rfl
  | runSeq steps onFail => exact fun e _ => Effect.apply_cfg e
  | waitIdle | waitHold | coalesce | startSeq steps d => trivial

/-- TIMER's report and PROC's turn lift a reset hold (R163). -/
theorem stepN_timer {i : Instr} {s t : State} {j : Job} (hs : s.cfg.Ok) (h : exec i s = .next t) (he : t.env = [])
    (hp : t.proc = .executing (.jobTimer j)) (later : List Event) :
    stepN 2 { t with env := .timer :: .proc :: later } = exec i { s with env := s.env ++ .timer :: later } := by
  have hc : t.cfg.Ok := exec_cfg h ▸ hs
  obtain ⟨run, h1, h2⟩ := exec_late h he
  have h3 : exec i { s with env := s.env ++ .timer :: later } = .next (run (.timer :: later)) := h1 _
  rw [h3, h2.1 j hp]
  have hs : step { t with env := .timer :: .proc :: later } = .next { t with env := .proc :: later, proc := .executing (.job j) } := by
    rw [step_event (s := { t with env := .timer :: .proc :: later }) hc rfl]
    simp only [eventTurn, timerTurn, hp]
    rfl
  rw [stepN_succ hs, stepN_succ (t := runJob j { t with env := later, proc := .executing (.job j) })]
  · exact congrArg Host.Outcome.next (runPieces_inert j.todo j { t with env := later } j.todo _)
  · exact step_event (s := { t with env := .proc :: later, proc := .executing (.job j) }) hc rfl

/-- Answers that come as events of their own (R152, R155, R156). -/
theorem goesOnWhenAnswered {i : Instr} {s t : State} {j : Job} {f : List Effect} (hs : s.cfg.Ok) (h : exec i s = .next t) (he : t.env = [])
    (hp : t.proc = .executing (.jobSeq j f)) : GoesOnWhenAnswered i s t := by
  have hc : t.cfg.Ok := exec_cfg h ▸ hs
  obtain ⟨run, h1, h2⟩ := exec_late h he
  have h3 : ∀ l, exec i { s with env := s.env ++ l } = .next (run l) := h1
  obtain ⟨⟨g1, st, g2, g3⟩, g4⟩ := h2.2 j f hp
  have hok : ∀ later, step { t with env := .answer true :: later } = .next (State.answer true { t with env := later }) := fun later =>
    step_event (s := { t with env := .answer true :: later }) hc rfl
  have hans : ∀ later, State.answer true { t with env := later } = { t with
      env := later, seqPending := none, trace := .answered true :: t.trace, seqPos := t.seqPos + 1
      phase := (st.request t.snap).phaseAfter t.phase } := fun later => answer_ok (s := { t with env := later }) g3
  have hseq : ∀ later, step (State.answer true { t with env := .seq :: later }) =
      .next (playSteps (t.seqSteps.drop (t.seqPos + 1)) (State.answer true { t with env := later })).1 := fun later => by
    rw [hans, hans]
    refine (step_event (later := later) (e := .seq) (by exact hc) rfl).trans ?_
    simp only [eventTurn, seqTurn, g1]
  refine ⟨⟨g1, st, g2, g3⟩, fun later => ?_, fun hl later => ?_, fun hl later hn => ?_⟩
  · have ha : ∀ later, State.answer false { t with env := later } = { t with
        env := later, seqPending := none, trace := .answered false :: t.trace, seqStage := .returned false } := fun later =>
      answer_fail (s := { t with env := later }) g3
    have hs : step { t with env := .answer false :: .proc :: later } = .next (State.answer false { t with env := .proc :: later }) :=
      step_event (s := { t with env := .answer false :: .proc :: later }) hc rfl
    rw [h3, (g4 later).1, stepN_succ hs, ha, ha]
    refine (stepN_succ (n := 0) ((step_event (e := .proc) (later := later) (by exact hc) rfl).trans ?_)).trans (rfl : stepN 0 _ = _)
    simp only [eventTurn, procTurn, hp, resume, State.whenReturned]
    rfl
  · have hd : t.seqSteps.drop (t.seqPos + 1) = [] := List.drop_eq_nil_of_le (by omega)
    have h4 := (g4 later).2
    rw [hd, hans] at h4
    rw [h3, h4, stepN_succ (hok _), stepN_succ (hseq _), hd, hans]
    refine (stepN_succ (n := 0) ((step_event (e := .proc) (later := later) (by exact hc) rfl).trans ?_)).trans (rfl : stepN 0 _ = _)
    simp only [eventTurn, procTurn, playSteps_nil, hp, resume, State.whenReturned]
    rfl
  · obtain ⟨st', hst'⟩ : ∃ st', t.seqSteps[t.seqPos + 1]? = some st' := ⟨_, List.getElem?_eq_getElem hl⟩
    have hd : t.seqSteps.drop (t.seqPos + 1) = st' :: t.seqSteps.drop (t.seqPos + 2) := by
      rw [List.drop_eq_getElem_cons hl]; rw [List.getElem?_eq_getElem hl] at hst'; cases hst'; rfl
    have hw : playSteps (t.seqSteps.drop (t.seqPos + 1)) (State.answer true { t with env := later }) =
        (State.issue st' (State.answer true { t with env := later }), none) := by
      rw [hd]
      exact playSteps_cons_wait fun ok l hx => hn ok (by rw [hans] at hx; rw [show later = _ from hx]; rfl)
    rw [h3, (g4 later).2, stepN_succ (hok _), stepN_succ (hseq _), hw]
    have hpr : ∀ u : State, u.proc = .executing (.jobSeq j f) → u.hold (.jobSeq j f) = u := fun u hu => by unfold State.hold; rw [← hu]
    exact congrArg Host.Outcome.next (hpr _ (by rw [hans]; exact hp)).symm

/-! ## A command waits for each answer -/

/-- PROC holds in the run of a sequence, with the timeline at its end and no response pushed since `s`. -/
def State.AwaitsFrom (s t : State) : Prop :=
  t.env = [] ∧ (∃ j f, t.proc = .executing (.jobSeq j f)) ∧ t.respq = s.respq

theorem State.AwaitsFrom.trans {s u t : State} (h : u.AwaitsFrom t) (hq : u.respq = s.respq) : s.AwaitsFrom t :=
  ⟨h.1, h.2.1, h.2.2.trans hq⟩

/-- A blocking sequence waits for the answer to its step `k`. -/
theorem blockingSeq_awaits {steps : List SeqStep} {k : Nat} (hk : k < steps.length) {s : State} (h : s.env = oks k) (j : Job)
    (rest : List Piece) (f : List Effect) : ∃ t, blockingSeq j rest steps f s = .stop t ∧ s.AwaitsFrom t := by
  have hp := playSteps_wait (List.getElem?_eq_getElem hk) (s.startSeq steps .toProc) (later := []) (h.trans (List.append_nil _).symm)
    (fun _ => nofun) rfl
  unfold blockingSeq State.runSeq
  rw [hp]
  exact ⟨_, rfl, rfl, ⟨_, _, rfl⟩, rfl⟩

theorem runPieces_runSeq_awaits {steps : List SeqStep} {k : Nat} (hk : k < steps.length) {s : State} (h : s.env = oks k) (j : Job)
    (rest : List Piece) (f : List Effect) : s.AwaitsFrom (runPieces (.runSeq steps f :: rest) j s) := by
  obtain ⟨t, h1, h2⟩ := blockingSeq_awaits hk h j rest f
  rw [runPieces_cons]
  simp only [doPiece, h1]
  exact h2

/-- Two blocking sequences with effects between them wait for each answer. -/
theorem runPieces_two_awaits {a b : List SeqStep} {k : Nat} (hk : k < a.length + b.length) {s : State} (h : s.env = oks k) (j : Job)
    (es : List Effect) (rest : List Piece) (f g : List Effect) :
    s.AwaitsFrom (runPieces (.runSeq a f :: (es.map .effect ++ .runSeq b g :: rest)) j s) := by
  rcases Nat.lt_or_ge k a.length with hl | hl
  · exact runPieces_runSeq_awaits hl h j _ f
  · rw [runPieces_runSeq_ok (later := oks (k - a.length)) (by rw [h, ← oks_add]; congr 1; omega)]
    generalize hu : ({ s.releaseSeq with
      env := oks (k - a.length), phase := phaseAfter s.phase a, trace := okTrace s.snap a ++ s.trace } : State) = u
    have he : u.env = oks (k - a.length) := by rw [← hu]
    refine State.AwaitsFrom.trans (u := u) ?_ (by rw [← hu]; rfl)
    clear hu
    induction es generalizing j u with
    | nil => exact runPieces_runSeq_awaits (by omega) he j rest g
    | cons e es ih =>
      show u.AwaitsFrom (runPieces (.effect e :: (es.map .effect ++ .runSeq b g :: rest)) j u)
      rw [runPieces_effect]
      exact (ih _ _ ((Effect.apply_env e u).trans he)).trans (Effect.apply_respq e u)

/-- Textual pieces under bypass wait for the answer to their step `k`. -/
theorem runPieces_textual_awaits {ps : List Piece} (hq : ∀ p ∈ ps, p.textual = true) {j : Job} (hb : j.bypass = true) {s : State} {k : Nat}
    (hs : s.seqIdle) (hk : k < (bypassSteps s.cfg s.fb (plotsOf ps)).length) (h : s.env = oks k) : s.AwaitsFrom (runPieces ps j s) := by
  induction ps generalizing j s k with
  | nil => cases hk
  | cons p ps ih =>
    have hps := fun q hq' => hq q (List.mem_cons_of_mem _ hq')
    match p, hq p List.mem_cons_self with
    | .plot x y c, _ =>
      rw [show plotsOf (.plot x y c :: ps) = (x, y, c) :: plotsOf ps from rfl] at hk
      cases hi : inBounds s.cfg x y with
      | false =>
        have hsteps : bypassSteps s.cfg s.fb ((x, y, c) :: plotsOf ps) = bypassSteps s.cfg s.fb (plotsOf ps) := by
          simp [bypassSteps, hi]
        rw [hsteps] at hk
        rw [runPieces_plot_out hi]
        exact ih hps hb hs hk h
      | true =>
        have hsteps : bypassSteps s.cfg s.fb ((x, y, c) :: plotsOf ps) =
            bypassSeq s.cfg s.fb x.toNat y.toNat c ++ bypassSteps s.cfg s.fb (plotsOf ps) := by
          simp [bypassSteps, hi]
        rw [hsteps, List.length_append, length_bypassSeq] at hk
        rcases Nat.lt_or_ge k 14 with hlt | hge
        · obtain ⟨t, h1, h2⟩ := blockingSeq_awaits (steps := bypassSeq s.cfg s.fb x.toNat y.toNat c) hlt h j ps []
          rw [runPieces_cons]
          simp only [doPiece, hi, hb, seqBusy_of_idle hs]
          exact h1 ▸ h2
        · rw [runPieces_plot_bypass hi hb hs (later := oks (k - 14)) (by rw [h, ← oks_add]; congr 1; omega)]
          exact ih (s := { s with
            env := oks (k - 14), phase := .data
            trace := okTrace s.snap (bypassSeq s.cfg s.fb x.toNat y.toNat c) ++ s.trace }) hps hb hs (by show k - 14 < (bypassSteps s.cfg s.fb (plotsOf ps)).length; omega) rfl
    | .effect (.advance d), _ =>
      rw [runPieces_effect]
      exact ih (s := (Effect.advance d).apply s) hps (by simpa using hb) hs hk h
    | .effect (.warn ch), _ =>
      rw [runPieces_effect]
      exact ih (s := (Effect.warn ch).apply s) hps (by simpa using hb) hs hk h

/-- A command waits for each answer when its run does. -/
theorem holdsForAnswers {i : Instr} {s : State} {before : List Event} {n : Nat}
    (h : ∀ k, k < n → ∃ t, exec i { s with env := before ++ oks k } = .next t ∧ s.AwaitsFrom t) : HoldsForAnswers i s before n := by
  intro k hk
  obtain ⟨t, h1, h2, ⟨j, f, h3⟩, h4⟩ := h k hk
  exact ⟨t, j, f, h1, h2, h3, h4⟩

/-- A command whose work is textual pieces under bypass. -/
theorem holdsForAnswers_textual {i : Instr} {s : State} {ps : List Piece} (hs : s.seqIdle) (hb : i.colorBypass.2 = true)
    (hr : ∀ env, refusalOf i { s with env := env } = none) (hw : ∀ env, workOf { s with env := env } i = ps)
    (hq : ∀ p ∈ ps, p.textual = true) : HoldsForAnswers i s [] (bypassSteps s.cfg s.fb (plotsOf ps)).length := by
  refine holdsForAnswers fun k hk => ⟨_, exec_runs (hr _), ?_⟩
  rw [hw]
  exact runPieces_textual_awaits (s := { s with env := oks k }) hq hb hs hk rfl

/-- BEGIN waits for the answer to each of its steps. -/
theorem holdsForAnswers_begin {s : State} (tag : Byte) (hs : s.seqIdle) :
    HoldsForAnswers (.begin tag) s [.timer] ((initSeq s.cfg).length + (updateSeq s.cfg).length) :=
  holdsForAnswers fun k hk => ⟨_, exec_begin_head (s := { s with env := [.timer] ++ oks k }) tag hs rfl,
    (runPieces_two_awaits
      (s := { s with env := oks k, ctrl := .initializing, resetOut := true, trace := .resetLine true :: .resetLine false :: s.trace })
      hk rfl _ [.ctrl .ready, .fill, .inFlight true, .snapshot] [.effect (.inFlight false)] [.ctrl .uninit] [.inFlight false]).trans rfl⟩

/-- TEARDOWN waits for the answer to each of its steps. -/
theorem holdsForAnswers_teardown {s : State} (tag : Byte) (htr : s.transmitReady = true) (hs : s.seqIdle) :
    HoldsForAnswers (.teardown tag) s [] 16 :=
  holdsForAnswers fun k hk => ⟨_, exec_teardown_head (s := { s with env := [] ++ oks k }) tag htr hs,
    (runPieces_two_awaits (a := updateSeq s.cfg) (b := group s.cfg.panel.displayOff [])
      (s := { s with env := oks k, fb := [], inFlight := true, snap := List.replicate s.cfg.fbSize 0 })
      hk rfl _ [.inFlight false] [.effect (.ctrl .uninit)] [.inFlight false, .ctrl .uninit] [.ctrl .uninit]).trans rfl⟩

/-- A drawing command under bypass waits for the answer to each of its steps. -/
theorem holdsForAnswers_draw {s : State} {i : Instr} {tag : Byte} {v : Intensity} {ps : List (Int × Int)} (htr : s.transmitReady = true)
    (hs : s.seqIdle)
    (h : (∃ x y, i = .pixel tag v true x y ∧ ps = [(x.toInt, y.toInt)]) ∨
      (∃ x0 y0 x1 y1, i = .line tag v true x0 y0 x1 y1 ∧ ps = linePoints x0.toInt y0.toInt x1.toInt y1.toInt) ∨
      ∃ x y w h, i = .rect tag v true x y w h ∧ ps = rectPoints x.toInt y.toInt w.toNat h.toNat) :
    HoldsForAnswers i s [] (bypassSteps s.cfg s.fb (dots v ps)).length := by
  refine holdsForAnswers fun k hk => ⟨_, exec_bypass (s := { s with env := [] ++ oks k }) v i tag ps htr h, ?_⟩
  exact runPieces_textual_awaits (s := { s with env := oks k }) (plots_textual _ _) rfl hs (by rw [plotsOf_plots]; exact hk) rfl

end Sys2Proof.Machine
end

