-- ==== Sys2Proof/Laws/Line.lean ====
section
/-! SUPPORT. What the loop of `DrawLine` visits (41_raster.md R213, R214): its length, its ends, and how each pass moves. -/

namespace Sys2Proof.Machine

/-- The loop of R213 along x, the major axis: its error term stays in `[0, dx)`, so every pass moves x, and y follows: it has moved
as often as the error term says. -/
theorem lineFrom_x (n : Nat) :
    ∀ dx dy sx sy x1 y1 x y err : Int,
      0 ≤ dy → dy ≤ dx → 0 < dx → (sx = 1 ∨ sx = -1) → 0 ≤ err → err < dx → x1 = x + sx * n →
      (∃ m : Int, y1 = y + sy * m ∧ ∃ e' : Int, 0 ≤ e' ∧ e' < dx ∧ e' = err - n * dy + m * dx) →
      (lineFrom n dx dy sx sy x1 y1 x y err).length = n + 1 ∧
        (lineFrom n dx dy sx sy x1 y1 x y err).head? = some (x, y) ∧
        (lineFrom n dx dy sx sy x1 y1 x y err).getLast? = some (x1, y1) ∧
        (∀ (k : Nat) p, (lineFrom n dx dy sx sy x1 y1 x y err)[k]? = some p →
          ∃ m : Int, p = (x + sx * k, y + sy * m) ∧ 0 ≤ err - k * dy + m * dx ∧ err - k * dy + m * dx < dx) ∧
        ∀ (k : Nat) p q, (lineFrom n dx dy sx sy x1 y1 x y err)[k]? = some p →
          (lineFrom n dx dy sx sy x1 y1 x y err)[k + 1]? = some q → q.1 = p.1 + sx ∧ (q.2 = p.2 ∨ q.2 = p.2 + sy) := by
  induction n with
  | zero =>
    intro dx dy sx sy x1 y1 x y err h0 h1 hpos hs he1 he2 hx ⟨m, hy, e', h3, h4, h5⟩
    have hm : m = 0 := by
      simp at h5
      rcases Int.lt_trichotomy m 0 with h | h | h
      · have : m * dx ≤ -1 * dx := Int.mul_le_mul_of_nonneg_right (by omega) (by omega)
        omega
      · exact h
      · have : 1 * dx ≤ m * dx := Int.mul_le_mul_of_nonneg_right (by omega) (by omega)
        omega
    subst hm
    simp at hx hy
    subst hx hy
    simp only [lineFrom]
    refine ⟨rfl, rfl, rfl, ?_, ?_⟩
    · intro k p hk
      cases k with
      | zero => simp at hk; subst hk; exact ⟨0, by simp, by simpa using he1, by simpa using he2⟩
      | succ k => simp at hk
    · intro k p q hk hq
      simp at hq
  | succ n ih =>
    intro dx dy sx sy x1 y1 x y err h0 h1 hpos hs he1 he2 hx ⟨m, hy, e', h3, h4, h5⟩
    have hne : ¬ (x = x1 ∧ y = y1) := by
      rintro ⟨h, -⟩
      have : sx * ((n:Int)+1) = 0 := by push_cast at hx; omega
      rcases hs with rfl | rfl <;> omega
    have hstep : ∃ b : Bool, lineStep dx dy sx sy x y err = (x + sx, if b then y + sy else y, if b then err - dy + dx else err - dy) ∧ (b = true ↔ err < dy) := by
      refine ⟨decide (err < dy), ?_, by simp⟩
      unfold lineStep
      have : err > -dx := by omega
      by_cases hb : err < dy <;> simp [this, hb]
    obtain ⟨b, hst, hb⟩ := hstep
    have hrec := ih dx dy sx sy x1 y1 (x + sx) (if b then y + sy else y) (if b then err - dy + dx else err - dy) h0 h1 hpos hs
      (by cases b <;> simp at hb ⊢ <;> omega) (by cases b <;> simp at hb ⊢ <;> omega) (by rw [hx]; push_cast; ring)
      ⟨if b then m - 1 else m, by cases b <;> simp <;> rw [hy] <;> ring, e', h3, h4, by cases b <;> simp <;> rw [h5] <;> push_cast <;> ring⟩
    have hunf : lineFrom (n+1) dx dy sx sy x1 y1 x y err = (x,y) :: lineFrom n dx dy sx sy x1 y1 (x+sx) (if b then y + sy else y) (if b then err - dy + dx else err - dy) := by
      rw [lineFrom, if_neg hne, hst]
    rw [hunf]
    obtain ⟨a1, a2, a3, a4, a5⟩ := hrec
    refine ⟨by simp [a1], rfl, ?_, ?_, ?_⟩
    · rw [List.getLast?_cons, a3]; rfl
    · intro k p hk
      cases k with
      | zero => simp at hk; subst hk; exact ⟨0, by simp, by simpa using he1, by simpa using he2⟩
      | succ k =>
        simp at hk
        obtain ⟨m', e1, e2, e3⟩ := a4 k p hk
        have he : err - ((k + 1 : Nat) : Int) * dy + (if b then m' + 1 else m') * dx = (if b then err - dy + dx else err - dy) - k * dy + m' * dx := by
          cases b <;> simp <;> ring
        refine ⟨if b then m' + 1 else m', ?_, he ▸ e2, he ▸ e3⟩
        rw [e1]
        refine Prod.ext (by push_cast; ring) ?_
        cases b
        · rfl
        · show y + sy + sy * m' = y + sy * (m' + 1); ring
    · intro k p q hk hq
      cases k with
      | zero =>
        simp at hk; subst hk
        simp [← List.head?_eq_getElem?] at hq
        rw [a2] at hq
        cases hq
        cases b <;> simp
      | succ k =>
        simp at hk hq
        exact a5 k p q hk hq

/-- The loop of R213 along y, the major axis: its error term stays in `(-dy, 0]`. -/
theorem lineFrom_y (n : Nat) :
    ∀ dx dy sx sy x1 y1 x y err : Int,
      0 ≤ dx → dx < dy → (sy = 1 ∨ sy = -1) → err ≤ 0 → -dy < err → y1 = y + sy * n →
      (∃ m : Int, x1 = x + sx * m ∧ ∃ e' : Int, e' ≤ 0 ∧ -dy < e' ∧ e' = err + n * dx - m * dy) →
      (lineFrom n dx dy sx sy x1 y1 x y err).length = n + 1 ∧
        (lineFrom n dx dy sx sy x1 y1 x y err).head? = some (x, y) ∧
        (lineFrom n dx dy sx sy x1 y1 x y err).getLast? = some (x1, y1) ∧
        (∀ (k : Nat) p, (lineFrom n dx dy sx sy x1 y1 x y err)[k]? = some p →
          ∃ m : Int, p = (x + sx * m, y + sy * k) ∧ err + k * dx - m * dy ≤ 0 ∧ -dy < err + k * dx - m * dy) ∧
        ∀ (k : Nat) p q, (lineFrom n dx dy sx sy x1 y1 x y err)[k]? = some p →
          (lineFrom n dx dy sx sy x1 y1 x y err)[k + 1]? = some q → q.2 = p.2 + sy ∧ (q.1 = p.1 ∨ q.1 = p.1 + sx) := by
  induction n with
  | zero =>
    intro dx dy sx sy x1 y1 x y err h0 h1 hs he1 he2 hx ⟨m, hy, e', h3, h4, h5⟩
    have hm : m = 0 := by
      simp at h5
      rcases Int.lt_trichotomy m 0 with h | h | h
      · have : m * dy ≤ -1 * dy := Int.mul_le_mul_of_nonneg_right (by omega) (by omega)
        omega
      · exact h
      · have : 1 * dy ≤ m * dy := Int.mul_le_mul_of_nonneg_right (by omega) (by omega)
        omega
    subst hm
    simp at hx hy
    subst hx hy
    simp only [lineFrom]
    refine ⟨rfl, rfl, rfl, ?_, ?_⟩
    · intro k p hk
      cases k with
      | zero => simp at hk; subst hk; exact ⟨0, by simp, by simpa using he1, by simpa using he2⟩
      | succ k => simp at hk
    · intro k p q hk hq
      simp at hq
  | succ n ih =>
    intro dx dy sx sy x1 y1 x y err h0 h1 hs he1 he2 hx ⟨m, hy, e', h3, h4, h5⟩
    have hne : ¬ (x = x1 ∧ y = y1) := by
      rintro ⟨-, h⟩
      have : sy * ((n:Int)+1) = 0 := by push_cast at hx; omega
      rcases hs with rfl | rfl <;> omega
    have hstep : ∃ b : Bool, lineStep dx dy sx sy x y err = (if b then x + sx else x, y + sy, if b then err - dy + dx else err + dx) ∧ (b = true ↔ err > -dx) := by
      refine ⟨decide (err > -dx), ?_, by simp⟩
      unfold lineStep
      have : err < dy := by omega
      by_cases hb : -dx < err <;> simp [this, hb]
    obtain ⟨b, hst, hb⟩ := hstep
    have hrec := ih dx dy sx sy x1 y1 (if b then x + sx else x) (y + sy) (if b then err - dy + dx else err + dx) h0 h1 hs
      (by cases b <;> simp at hb ⊢ <;> omega) (by cases b <;> simp at hb ⊢ <;> omega) (by rw [hx]; push_cast; ring)
      ⟨if b then m - 1 else m, by cases b <;> simp <;> rw [hy] <;> ring, e', h3, h4, by cases b <;> simp <;> rw [h5] <;> push_cast <;> ring⟩
    have hunf : lineFrom (n+1) dx dy sx sy x1 y1 x y err = (x,y) :: lineFrom n dx dy sx sy x1 y1 (if b then x + sx else x) (y + sy) (if b then err - dy + dx else err + dx) := by
      rw [lineFrom, if_neg hne, hst]
    rw [hunf]
    obtain ⟨a1, a2, a3, a4, a5⟩ := hrec
    refine ⟨by simp [a1], rfl, ?_, ?_, ?_⟩
    · rw [List.getLast?_cons, a3]; rfl
    · intro k p hk
      cases k with
      | zero => simp at hk; subst hk; exact ⟨0, by simp, by simpa using he1, by simpa using he2⟩
      | succ k =>
        simp at hk
        obtain ⟨m', e1, e2, e3⟩ := a4 k p hk
        have he : err + ((k + 1 : Nat) : Int) * dx - (if b then m' + 1 else m') * dy = (if b then err - dy + dx else err + dx) + k * dx - m' * dy := by
          cases b <;> simp <;> ring
        refine ⟨if b then m' + 1 else m', ?_, he ▸ e2, he ▸ e3⟩
        rw [e1]
        refine Prod.ext ?_ (by push_cast; ring)
        cases b
        · rfl
        · show x + sx + sx * m' = x + sx * (m' + 1); ring
    · intro k p q hk hq
      cases k with
      | zero =>
        simp at hk; subst hk
        simp [← List.head?_eq_getElem?] at hq
        rw [a2] at hq
        cases hq
        cases b <;> simp
      | succ k =>
        simp at hk hq
        exact a5 k p q hk hq

/-- An end point from the start, the direction and the distance. -/
theorem sgn_mul (a b : Int) : b = a + (if a < b then (1:Int) else -1) * ((b - a).natAbs : Int) := by
  split <;> omega

/-- Points of which one coordinate moves by one at each place are all different. -/
theorem nodup_of_strict {l : List (Int × Int)} (g : Int × Int → Int) (c s : Int) (hs : s = 1 ∨ s = -1)
    (h : ∀ (k : Nat) p, l[k]? = some p → g p = c + s * k) : l.Nodup := by
  rw [List.nodup_iff_getElem?_ne_getElem?]
  intro i j hij hj heq
  have hi : i < l.length := by omega
  have h1 := h i _ (List.getElem?_eq_getElem hi)
  have h2 := h j _ (List.getElem?_eq_getElem hj)
  rw [List.getElem?_eq_getElem hi, List.getElem?_eq_getElem hj] at heq
  have : l[i] = l[j] := by simpa using heq
  rw [this] at h1
  rcases hs with rfl | rfl <;> omega

end Sys2Proof.Machine
end

