-- ==== Sys2Proof/Laws/Undisturbed.lean ====
section
/-! SUPPORT. While SEQ has a sequence, PROC's turns leave it alone (20_memory.md R94, 40_sequencer_control.md R157, R158): a job that respects
`jobSafe` and does not know SEQ idle stops at its first wait. -/

namespace Sys2Proof.Machine

/-- Two states agree on SEQ's registers, the phase, the reset line and the outputs. -/
structure SameSeq (s t : State) : Prop where
  stage : t.seqStage = s.seqStage
  steps : t.seqSteps = s.seqSteps
  pos : t.seqPos = s.seqPos
  done : t.seqDone = s.seqDone
  pending : t.seqPending = s.seqPending
  snap : t.snap = s.snap
  phase : t.phase = s.phase
  line : t.resetOut = s.resetOut
  trace : t.trace = s.trace

theorem SameSeq.refl (s : State) : SameSeq s s := ⟨rfl, rfl, rfl, rfl, rfl, rfl, rfl, rfl, rfl⟩

theorem SameSeq.trans {s t u : State} (h : SameSeq s t) (h' : SameSeq t u) : SameSeq s u :=
  ⟨h'.1.trans h.1, h'.2.trans h.2, h'.3.trans h.3, h'.4.trans h.4, h'.5.trans h.5, h'.6.trans h.6, h'.7.trans h.7, h'.8.trans h.8,
    h'.9.trans h.9⟩

theorem sameSeq_pushProc (r : Resp) (s : State) : SameSeq s (s.pushProc r) := by
  unfold State.pushProc State.hold
  split <;> exact ⟨rfl, rfl, rfl, rfl, rfl, rfl, rfl, rfl, rfl⟩

theorem sameSeq_hold (h : Hold) (s : State) : SameSeq s (s.hold h) := ⟨rfl, rfl, rfl, rfl, rfl, rfl, rfl, rfl, rfl⟩

theorem sameSeq_leave (s : State) : SameSeq s s.leave := ⟨rfl, rfl, rfl, rfl, rfl, rfl, rfl, rfl, rfl⟩

theorem sameSeq_popTo (rest : List Word) (s : State) : SameSeq s (s.popTo rest) := ⟨rfl, rfl, rfl, rfl, rfl, rfl, rfl, rfl, rfl⟩

/-- An effect of a job that does not know SEQ idle. -/
theorem sameSeq_apply {c : Config} {k : Knows} {e : Effect} {rest : List Piece} (hk : k.idle = false)
    (h : jobSafe c k (.effect e :: rest) = true) (s : State) : SameSeq s (e.apply s) ∧ jobSafe c k rest = true := by
  cases e <;> simp only [jobSafe, hk, Bool.false_and, Bool.and_eq_true, Bool.false_eq_true] at h
  case ctrl | fill | cursor | cursorX | cursorY | advance | countWarning | lastMissing | hfBegin | hfEnd => exact ⟨⟨rfl, rfl, rfl, rfl, rfl, rfl, rfl, rfl, rfl⟩, h⟩
  case warn => exact ⟨⟨rfl, rfl, rfl, rfl, rfl, rfl, rfl, rfl, rfl⟩, h⟩
  case font | hfGlyph | install => exact ⟨⟨rfl, rfl, rfl, rfl, rfl, rfl, rfl, rfl, rfl⟩, h.2⟩

/-- A piece of a job that does not know SEQ idle leaves a busy SEQ alone. -/
theorem doPiece_undisturbed {k : Knows} {s : State} (hs : s.seqBusy = true) (hk : k.idle = false) {p : Piece} {rest : List Piece}
    (h : jobSafe s.cfg k (p :: rest) = true) (j : Job) :
    match doPiece j p rest s with
    | .go _ s' => SameSeq s s' ∧ s'.cfg = s.cfg ∧ jobSafe s.cfg k rest = true
    | .fail _ _ | .leave _ => False
    | .answer _ s' | .stop s' => SameSeq s s' := by
  cases p with
  | effect e =>
    obtain ⟨h1, h2⟩ := sameSeq_apply hk h s
    exact ⟨h1, Effect.apply_cfg e s, h2⟩
  | plot x y c =>
    simp only [jobSafe, Bool.and_eq_true] at h
    rcases doPiece_plot j x y c rest s with ⟨_, hd⟩ | ⟨_, _, hd⟩ | ⟨_, _, _, hd⟩ | ⟨_, _, hb, _⟩
    · rw [hd]; exact ⟨.refl s, rfl, h.2⟩
    · rw [hd]; exact ⟨⟨rfl, rfl, rfl, rfl, rfl, rfl, rfl, rfl, rfl⟩, rfl, h.2⟩
    · rw [hd]; exact sameSeq_hold _ s
    · rw [hs] at hb; cases hb
  | waitIdle =>
    rcases doPiece_waitIdle j rest s with ⟨hb, _⟩ | ⟨_, hd⟩
    · rw [hs] at hb; cases hb
    · rw [hd]; exact sameSeq_hold _ s
  | coalesce =>
    simp only [jobSafe, Bool.and_eq_true] at h
    rcases doPiece_coalesce j rest s with ⟨_, hd⟩ | ⟨_, hd⟩
    · rw [hd]; exact ⟨.refl s, rfl, h.2⟩
    · rw [hd]; exact .refl s
  | waitHold => simp [jobSafe, hk] at h
  | runSeq steps onFail => simp [jobSafe, hk] at h
  | startSeq steps done => simp [jobSafe, hk] at h

/-- A job that does not know SEQ idle leaves a busy SEQ alone. -/
theorem runPieces_undisturbed {k : Knows} (hk : k.idle = false) (ps : List Piece) (j : Job) {s : State} (hs : s.seqBusy = true)
    (h : jobSafe s.cfg k ps = true) : SameSeq s (runPieces ps j s) := by
  induction ps generalizing j s with
  | nil => exact sameSeq_pushProc _ s
  | cons p rest ih =>
    have hd := doPiece_undisturbed hs hk h j
    rw [runPieces_cons]
    cases hp : doPiece j p rest s with
    | go j' s' =>
      rw [hp] at hd
      obtain ⟨h1, h2, h3⟩ := hd
      have hs' : s'.seqBusy = true := by unfold State.seqBusy at hs ⊢; rw [h1.stage]; exact hs
      exact h1.trans (ih j' hs' (by rw [h2]; exact h3))
    | fail l s' => rw [hp] at hd; exact hd.elim
    | answer r s' => rw [hp] at hd; exact hd.trans (sameSeq_pushProc r s')
    | leave s' => rw [hp] at hd; exact hd.elim
    | stop s' => rw [hp] at hd; exact hd

/-- A command leaves a busy SEQ alone. -/
theorem exec_undisturbed {i : Instr} {s t : State} (hd : DataOk s) (hs : s.seqBusy = true) (h : exec i s = .next t) :
    SameSeq s t := by
  rw [exec_eq] at h
  cases h
  have hp := plan_safe hd i
  cases hq : planOf i s with
  | refuse op tag st => exact sameSeq_pushProc _ s
  | run j =>
    rw [hq] at hp
    exact runPieces_undisturbed (k := Knows.start) rfl j.todo j hs hp.1

/-- What PROC has fetched leaves a busy SEQ alone. -/
theorem runDecoded_undisturbed {d : Decoded} {s t : State} (hd : DataOk s) (hs : s.seqBusy = true)
    (h : runDecoded d s = .next t) : SameSeq s t := by
  cases d with
  | incomplete => cases h; exact .refl s
  | illegalOpcode op tag => cases h; exact sameSeq_pushProc _ s
  | illegalField op tag n => cases h; exact sameSeq_pushProc _ s
  | command i n => exact exec_undisturbed hd hs h

/-- PROC does not know SEQ idle while SEQ plays. -/
theorem AgentsOk.not_idle {s : State} {k : Knows} (h : AgentsOk s k) (hs : s.seqStage = .playing) : k.idle = false := by
  cases hk : k.idle with
  | false => rfl
  | true => have := h.idle_ok hk; rw [hs] at this; cases this

/-- PROC's turn leaves a sequence that plays alone. -/
theorem procTurn_undisturbed {s t : State} (hi : Inv s) (hs : s.seqStage = .playing) (h : procTurn s = .next t) : SameSeq s t := by
  have hb : s.seqBusy = true := by simp [State.seqBusy, hs]
  have ⟨hd, k, ha⟩ := hi
  have hidle := ha.not_idle hs
  have hsafe := ha.proc_ok
  have hfetch : (∀ hl, s.proc ≠ .executing hl) → fetchTurn s = .next t → SameSeq s t := by
    intro hn h
    unfold fetchTurn at h
    obtain ⟨rfl, hc, hw⟩ := Proc.safe_collected ha.proc_ok hn
    have hf := fetchWords_ok s.collected s.queue hc
    cases hfw : fetchWords s.collected s.queue with
    | needMore ws => rw [hfw] at h; cases h; exact ⟨rfl, rfl, rfl, rfl, rfl, rfl, rfl, rfl, rfl⟩
    | complete d rest =>
      rw [hfw] at h hf
      exact (sameSeq_popTo rest s).trans (runDecoded_undisturbed (hd.popTo (.inl hf)) (by exact hb) h)
  unfold procTurn at h
  cases hp : s.proc with
  | idle => rw [hp] at h; exact hfetch (by simp [hp]) h
  | collecting ws => rw [hp] at h; exact hfetch (by simp [hp]) h
  | executing hl =>
    rw [hp] at h hsafe
    cases hl with
    | start i => exact exec_undisturbed hd hb h
    | job j => cases h; exact runPieces_undisturbed hidle _ _ hb hsafe.1
    | jobTimer j => cases h; exact .refl s
    | jobSeq j f => simp only [resume, State.whenReturned, hs] at h; cases h; exact .refl s
    | push r => cases h; exact sameSeq_pushProc _ s
    | leaving => cases h; exact sameSeq_leave s

/-- PROC's fine turn leaves a sequence that plays alone. -/
theorem procFineTurn_undisturbed {s : State} (hi : Inv s) (hs : s.seqStage = .playing) : SameSeq s (procFineTurn s) := by
  have hb : s.seqBusy = true := by simp [State.seqBusy, hs]
  have ⟨hd, k, ha⟩ := hi
  have hidle := ha.not_idle hs
  have hsafe := ha.proc_ok
  have hfetch : SameSeq s (fetchOne s) := by
    unfold fetchOne
    split
    · exact .refl s
    · split <;> exact ⟨rfl, rfl, rfl, rfl, rfl, rfl, rfl, rfl, rfl⟩
  unfold procFineTurn
  cases hp : s.proc with
  | idle => exact hfetch
  | collecting ws => exact hfetch
  | executing hl =>
    rw [hp] at hsafe
    cases hl with
    | start i => dsimp only; split <;> exact sameSeq_hold _ s
    | job j =>
      dsimp only
      unfold jobPiece
      cases ht : j.todo with
      | nil => exact sameSeq_hold _ s
      | cons p rest =>
        have hj := jobSafe_firstWrite (ht ▸ hsafe.1)
        have := doPiece_undisturbed hb hidle hj j
        dsimp only
        cases hq : doPiece j p.firstWrite.1 (p.firstWrite.2 ++ rest) s with
        | go j' s' => rw [hq] at this; exact this.1.trans (sameSeq_hold _ s')
        | fail l s' => rw [hq] at this; exact this.elim
        | answer r s' => rw [hq] at this; exact this.trans (sameSeq_hold _ s')
        | leave s' => rw [hq] at this; exact this.elim
        | stop s' => rw [hq] at this; exact this
    | jobTimer j => exact .refl s
    | jobSeq j f => simp only [State.whenReturned, hs]; exact .refl s
    | push r =>
      dsimp only
      split
      · exact ⟨rfl, rfl, rfl, rfl, rfl, rfl, rfl, rfl, rfl⟩
      · exact .refl s
    | leaving => exact sameSeq_leave s

end Sys2Proof.Machine
end

