-- ==== Sys2Proof/Machine/Assembler.lean ====
section
/-! DEFINITION. The assembler of 30_encoding.md (R136 to R138): a line of text to the command it stands for, `none` where the assembler
rejects it. What these rules leave open is in notes/assumptions/17.md. -/

namespace Sys2Proof.Machine

/-! ## Tokens (R136) -/

/-- A token of a line. -/
inductive Token where
  | name (cs : List Char)
  | number (v : Int)
  | text (units : List Char16)
  | comma | slash | openBrace | closeBrace
  deriving DecidableEq, Repr

/-- A letter of a mnemonic or of `bypass`. -/
def isLetter (ch : Char) : Bool := decide (97 ≤ ch.toNat ∧ ch.toNat ≤ 122)

/-- A character of a number after its sign: a digit, or a letter of a hexadecimal number. -/
def isNumeral (ch : Char) : Bool := (hexDigit ch).isSome || ch == 'x'

/-- The longest prefix of characters that satisfy a test, and the rest. -/
def spanOf (p : Char → Bool) : List Char → List Char × List Char
  | [] => ([], [])
  | ch :: rest => if p ch then (ch :: (spanOf p rest).1, (spanOf p rest).2) else ([], ch :: rest)

/-- An unsigned number: decimal, or hexadecimal after `0x`. -/
def unsignedOf (cs : List Char) : Option Nat :=
  match cs with
  | [] => none
  | '0' :: 'x' :: ds => if ds.isEmpty then none else (digitsOf hexDigit ds).map (numberOf 16)
  | ds => (digitsOf decimalDigit ds).map (numberOf 10)

/-- The units of a string after its opening quote (34), and what follows the closing one; 92 is the backslash. The escapes are those R136
names; a line with any other is rejected, which R136 leaves open (DESIGN CHOICE, notes/assumptions/17.md). -/
def stringUnits : List Char → Option (List Char16 × List Char)
  | [] => none
  | ch :: rest =>
    if ch.toNat = 34 then some ([], rest)
    else if ch.toNat = 92 then
      match rest with
      | e :: rest' =>
        if e.toNat = 34 ∨ e.toNat = 92 then
          (stringUnits rest').map fun r => (BitVec.ofNat 16 e.toNat :: r.1, r.2)
        else if e = 'u' then
          match rest' with
          | a :: b :: c :: d :: rest'' =>
            match digitsOf hexDigit [a, b, c, d], stringUnits rest'' with
            | some ds, some r => some (BitVec.ofNat 16 (numberOf 16 ds) :: r.1, r.2)
            | _, _ => none
          | _ => none
        else none
      | [] => none
    else if ch.toNat < 65536 then
      (stringUnits rest).map fun r => (BitVec.ofNat 16 ch.toNat :: r.1, r.2)
    else none

/-- The tokens of a line, up to its comment; the fuel is the number of characters. -/
def tokensOf : Nat → List Char → Option (List Token)
  | 0, _ => some []
  | _, [] => some []
  | fuel + 1, ch :: rest =>
    if ch = ' ' ∨ ch = '\t' then tokensOf fuel rest
    else if ch = ';' then some []
    else if ch = ',' then (tokensOf fuel rest).map (.comma :: ·)
    else if ch = '/' then (tokensOf fuel rest).map (.slash :: ·)
    else if ch.toNat = 123 then (tokensOf fuel rest).map (.openBrace :: ·)
    else if ch.toNat = 125 then (tokensOf fuel rest).map (.closeBrace :: ·)
    else if ch.toNat = 34 then
      match stringUnits rest with
      | some (units, rest') => (tokensOf fuel rest').map (.text units :: ·)
      | none => none
    else if isLetter ch then
      let (cs, rest') := spanOf isLetter (ch :: rest)
      (tokensOf fuel rest').map (.name cs :: ·)
    else if ch = '-' then
      let (cs, rest') := spanOf isNumeral rest
      match unsignedOf cs, tokensOf fuel rest' with
      | some n, some ts => some (.number (-(n : Int)) :: ts)
      | _, _ => none
    else
      let (cs, rest') := spanOf isNumeral (ch :: rest)
      match unsignedOf cs, tokensOf fuel rest' with
      | some n, some ts => some (.number (n : Int) :: ts)
      | _, _ => none

/-! ## Operands (R137) -/

/-- An operand of a line. -/
inductive Arg where
  | number (v : Int)
  | text (units : List Char16)
  | bytes (vs : List Int)
  | bypass
  deriving DecidableEq, Repr

/-- The numbers of a byte list after its opening brace, and what follows the closing one. `first` says that none
has been read. -/
def byteList : Bool → List Token → Option (List Int × List Token)
  | true, .closeBrace :: rest => some ([], rest)
  | true, .number v :: rest => (byteList false rest).map fun r => (v :: r.1, r.2)
  | false, .closeBrace :: rest => some ([], rest)
  | false, .comma :: .number v :: rest => (byteList false rest).map fun r => (v :: r.1, r.2)
  | _, _ => none

/-- The word `bypass`. -/
def bypassName : List Char := ['b', 'y', 'p', 'a', 's', 's']

/-- One operand and the tokens after it. -/
def argOf : List Token → Option (Arg × List Token)
  | .number v :: rest => some (.number v, rest)
  | .text units :: rest => some (.text units, rest)
  | .openBrace :: rest => (byteList true rest).map fun r => (.bytes r.1, r.2)
  | .name cs :: rest => if cs = bypassName then some (.bypass, rest) else none
  | _ => none

/-- The operands, separated by commas; the fuel is the number of tokens. -/
def argsOf : Nat → List Token → Option (List Arg)
  | 0, _ => none
  | fuel + 1, ts =>
    match argOf ts with
    | none => none
    | some (a, []) => some [a]
    | some (a, .comma :: rest) => (argsOf fuel rest).map (a :: ·)
    | some (_, _) => none

/-- A bit field of `n` bits that holds an unsigned number. -/
def fieldOf (n : Nat) (v : Int) : Option (BitVec n) :=
  if 0 ≤ v ∧ v < 2 ^ n then some (BitVec.ofInt n v) else none

/-- A size from 1 to 255: SIZE, or FW. R137 rejects a size outside 1..255, which is SIZE; whether it also rejects `FW = 0`, which fits FW's 8-bit
field, it does not say: the model rejects it, as R241 gives FW the range 1..255 (DESIGN CHOICE, notes/assumptions/17.md). -/
def sizeOf (v : Int) : Option (BitVec 8) := if 1 ≤ v then fieldOf 8 v else none

/-- A coordinate half of an XY word. -/
def coordOf (v : Int) : Option (BitVec 16) := if -32768 ≤ v ∧ v ≤ 32767 then some (half v) else none

/-- A V word. -/
def contrastOf (v : Int) : Option Word :=
  if -2147483648 ≤ v ∧ v ≤ 2147483647 then some (BitVec.ofInt 32 v) else none

/-- A list of fields. -/
def fieldsOf (n : Nat) : List Int → Option (List (BitVec n))
  | [] => some []
  | v :: rest =>
    match fieldOf n v, fieldsOf n rest with
    | some b, some bs => some (b :: bs)
    | _, _ => none

/-- The optional last operand `bypass`. -/
def bypassOf : List Arg → Option Bool
  | [] => some false
  | [.bypass] => some true
  | _ => none

/-- The rows of `hfglyph CP, 8|16, ...`. -/
def glyphOf (kind : Int) (rows : List Int) : Option Glyph :=
  if kind = 8 then (fieldsOf 8 rows).map .g8
  else if kind = 16 then (fieldsOf 16 rows).map .g16
  else none

/-- A command of `line X0, Y0, X1, Y1, C [, bypass]`. -/
def lineOf (tag : Byte) (x0 y0 x1 y1 c : Int) (b : Bool) : Option Instr := do
  some (.line tag (← fieldOf 4 c) b (← coordOf x0) (← coordOf y0) (← coordOf x1) (← coordOf y1))

/-- A command without operands. -/
def noArgs (i : Instr) (args : List Arg) : Option Instr := if args.isEmpty then some i else none

/-- The command of each mnemonic's operand syntax (R137). -/
def instrOf (o : Op) (tag : Byte) (args : List Arg) : Option Instr :=
  match o with
  | .reset => noArgs (.reset tag) args
  | .begin => noArgs (.begin tag) args
  | .update => noArgs (.update tag) args
  | .clear => noArgs (.clear tag) args
  | .dispoff => noArgs (.dispoff tag) args
  | .dispon => noArgs (.dispon tag) args
  | .teardown => noArgs (.teardown tag) args
  | .hfbegin => noArgs (.hfbegin tag) args
  | .hfend => noArgs (.hfend tag) args
  | .contrast =>
    match args with
    | [.number v] => (contrastOf v).map (.contrast tag)
    | _ => none
  | .pixel =>
    match args with
    | .number x :: .number y :: .number c :: rest => do
      some (.pixel tag (← fieldOf 4 c) (← bypassOf rest) (← coordOf x) (← coordOf y))
    | _ => none
  | .line =>
    match args with
    | .number x0 :: .number y0 :: .number x1 :: .number y1 :: .number c :: rest => do
      lineOf tag x0 y0 x1 y1 c (← bypassOf rest)
    | _ => none
  | .rect =>
    match args with
    | .number x :: .number y :: .number w :: .number h :: .number c :: rest => do
      some (.rect tag (← fieldOf 4 c) (← bypassOf rest) (← coordOf x) (← coordOf y) (← fieldOf 16 w)
        (← fieldOf 16 h))
    | _ => none
  | .rdpix =>
    match args with
    | [.number x, .number y] => do some (.rdpix tag (← coordOf x) (← coordOf y))
    | _ => none
  | .cursor =>
    match args with
    | [.number x, .number y] => do some (.cursor tag (← coordOf x) (← coordOf y))
    | _ => none
  | .ffont =>
    match args with
    | [.number fw, .text alphabet, .bytes data] => do
      some (.ffont tag (← sizeOf fw) alphabet (← fieldsOf 8 data))
    | _ => none
  | .puts =>
    match args with
    | .number s :: .number c :: .text units :: rest => do
      some (.puts tag (← fieldOf 4 c) (← bypassOf rest) (← sizeOf s) units)
    | _ => none
  | .hfglyph =>
    match args with
    | [.number cp, .number kind, .bytes rows] => do
      some (.hfglyph tag (← fieldOf 16 cp) (← glyphOf kind rows))
    | _ => none
  | .cache =>
    match args with
    | [.text units] => some (.cache tag units)
    | _ => none
  | .uputs =>
    match args with
    | .number c :: .text units :: rest => do
      some (.uputs tag (← fieldOf 4 c) (← bypassOf rest) units)
    | _ => none

/-! ## Lines -/

/-- The mnemonics (R130). -/
def mnemonicOf : Op → List Char
  | .reset => ['r', 'e', 's', 'e', 't']
  | .begin => ['b', 'e', 'g', 'i', 'n']
  | .update => ['u', 'p', 'd', 'a', 't', 'e']
  | .clear => ['c', 'l', 'e', 'a', 'r']
  | .contrast => ['c', 'o', 'n', 't', 'r', 'a', 's', 't']
  | .dispoff => ['d', 'i', 's', 'p', 'o', 'f', 'f']
  | .dispon => ['d', 'i', 's', 'p', 'o', 'n']
  | .teardown => ['t', 'e', 'a', 'r', 'd', 'o', 'w', 'n']
  | .pixel => ['p', 'i', 'x', 'e', 'l']
  | .line => ['l', 'i', 'n', 'e']
  | .rect => ['r', 'e', 'c', 't']
  | .rdpix => ['r', 'd', 'p', 'i', 'x']
  | .cursor => ['c', 'u', 'r', 's', 'o', 'r']
  | .ffont => ['f', 'f', 'o', 'n', 't']
  | .puts => ['p', 'u', 't', 's']
  | .hfbegin => ['h', 'f', 'b', 'e', 'g', 'i', 'n']
  | .hfglyph => ['h', 'f', 'g', 'l', 'y', 'p', 'h']
  | .hfend => ['h', 'f', 'e', 'n', 'd']
  | .cache => ['c', 'a', 'c', 'h', 'e']
  | .uputs => ['u', 'p', 'u', 't', 's']

/-- The pseudo-instructions (R138). One may carry a tag like any other mnemonic, and its command then has that TAG, which R138 leaves open (DESIGN
CHOICE, notes/assumptions/17.md). -/
def pseudoOf (cs : List Char) (tag : Byte) (args : List Arg) : Option Instr :=
  if cs = ['h', 'l', 'i', 'n', 'e'] then
    match args with
    | [.number x, .number y, .number l, .number c] =>
      if 1 ≤ l then lineOf tag x y (x + l - 1) y c false else none
    | _ => none
  else if cs = ['v', 'l', 'i', 'n', 'e'] then
    match args with
    | [.number x, .number y, .number l, .number c] =>
      if 1 ≤ l then lineOf tag x y x (y + l - 1) c false else none
    | _ => none
  else if cs = ['c', 'l', 's'] then noArgs (.clear tag) args
  else if cs = ['h', 'o', 'm', 'e'] then noArgs (.cursor tag 0 0) args
  else none

/-- The tag after a mnemonic, 0 when it is absent, and the tokens of the operands. -/
def tagOf : List Token → Option (Byte × List Token)
  | .slash :: .number v :: rest => (fieldOf 8 v).map fun t => (t, rest)
  | .slash :: _ => none
  | rest => some (0, rest)

/-- The command of the tokens of a line. What the assembler makes is well formed, or rejected. -/
def commandOf : List Token → Option Instr
  | .name cs :: ts => do
    let (tag, rest) ← tagOf ts
    let args ← if rest.isEmpty then some [] else argsOf rest.length rest
    let i ← match Op.all.find? fun o => mnemonicOf o == cs with
      | some o => instrOf o tag args
      | none => pseudoOf cs tag args
    if i.wf then some i else none
  | _ => none

/-- A line of assembly: `none` when it is rejected, else its command; a line with nothing but a comment has none. -/
def assembleLine (line : List Char) : Option (List Instr) :=
  match tokensOf line.length line with
  | none => none
  | some [] => some []
  | some ts => (commandOf ts).map fun i => [i]

/-- Lines one after another. -/
def assembleLines : List (List Char) → Option (List Instr)
  | [] => some []
  | line :: rest =>
    match assembleLine (stripCR line), assembleLines rest with
    | some is, some more => some (is ++ more)
    | _, _ => none

/-- A program in assembly, and the words it stands for. -/
def assemble (text : List Char) : Option (List Word) :=
  (assembleLines (splitLines text)).map fun is => is.flatMap encode

end Sys2Proof.Machine
end

