-- ==== Sys2Proof/Tests/Slice0.lean ====
section
/-! SUPPORT. Tests on the vectors of spec/95_test_vectors.md (each names its vector) and on words written out from 30_encoding.md, the smoke
test of WellFormed, and a witness for the hypotheses of every statement. Configuration SMALL is 8 by 4 pixels, 16 bytes of `FB`. -/

namespace Sys2Proof.Tests

open Sys2Proof Sys2Proof.Machine

/-! ## Well-formedness: each check refuses an ill-formed command -/

theorem test_wf_ffont_width : (Instr.ffont 0 0 [] []).wf = false := by decide
theorem test_wf_ffont_data : (Instr.ffont 0 2 [0x41] [1]).wf = false := by decide
theorem test_wf_ffont_count : (Instr.ffont 0 1 (List.replicate 65536 0x41) []).wf = false := by decide +kernel
theorem test_wf_puts_size : (Instr.puts 0 15 false 0 [0x41]).wf = false := by decide
theorem test_wf_puts_length : (Instr.puts 0 15 false 1 (List.replicate 65536 0x41)).wf = false := by decide +kernel
theorem test_wf_cache_length : (Instr.cache 0 (List.replicate 65536 0x41)).wf = false := by decide +kernel
theorem test_wf_uputs_length : (Instr.uputs 0 15 false (List.replicate 65536 0x41)).wf = false := by decide +kernel
theorem test_wf_glyph8 : (Instr.hfglyph 0 0x41 (.g8 [1, 2])).wf = false := by decide
theorem test_wf_glyph16 : (Instr.hfglyph 0 0x41 (.g16 [1, 2])).wf = false := by decide
theorem test_wf_good : (Instr.ffont 0 1 [0x41, 0x42] [0x0F, 0x01]).wf = true ∧ (Instr.puts 0 15 true 255 []).wf = true := by decide

/-! ## Decoding: words written out bit by bit (R111, R118, R124 to R131) -/

theorem test_decode_reset : decode [0b00000001_0000_000_0_00000101_00000000] = .command (.reset 5) 1 := by decide +kernel
theorem test_decode_begin : decode [0b00000010_0000_000_0_00000000_00000000] = .command (.begin 0) 1 := by decide +kernel
theorem test_decode_update : decode [0b00000011_0000_000_0_11111111_00000000] = .command (.update 0xFF) 1 := by decide +kernel
theorem test_decode_clear : decode [0b00000100_0000_000_0_00000010_00000000] = .command (.clear 2) 1 := by decide +kernel
theorem test_decode_contrast :
    decode [0b00000101_0000_000_0_00000000_00000000, 0xFFFFFFFF] = .command (.contrast 0 0xFFFFFFFF) 2 := by decide +kernel
theorem test_decode_dispoff : decode [0b00000110_0000_000_0_00000000_00000000] = .command (.dispoff 0) 1 := by decide +kernel
theorem test_decode_dispon : decode [0b00000111_0000_000_0_00000001_00000000] = .command (.dispon 1) 1 := by decide +kernel
theorem test_decode_teardown : decode [0b00001000_0000_000_0_00000000_00000000] = .command (.teardown 0) 1 := by decide +kernel
theorem test_decode_pixel :
    decode [0b00010000_0011_000_1_10101011_00000000, 0b1000000000000000_0111111111111111] =
      .command (.pixel 0xAB 3 true 0x7FFF 0x8000) 2 := by decide +kernel
theorem test_decode_line :
    decode [0b00010001_1111_000_0_00000111_00000000, 0x00020001, 0x00040003] = .command (.line 7 15 false 1 2 3 4) 3 := by
  decide +kernel
theorem test_decode_rect :
    decode [0b00010010_0111_000_0_00000010_00000000, 0x00010002, 0x00040003] = .command (.rect 2 7 false 2 1 3 4) 3 := by
  decide +kernel
theorem test_decode_rdpix : decode [0b00010011_0000_000_0_00000011_00000000, 0x00020003] = .command (.rdpix 3 3 2) 2 := by
  decide +kernel
theorem test_decode_cursor : decode [0b00010100_0000_000_0_00000000_00000000, 0x0002FFFD] = .command (.cursor 0 0xFFFD 2) 2 := by
  decide +kernel
theorem test_decode_ffont :
    decode [0b00100000_0000_000_0_00000000_00000000, 0b0000000000000011_00000000_00000010, 0x00420041, 0x00000043, 0x04030201,
        0x00000605] = .command (.ffont 0 2 [0x41, 0x42, 0x43] [1, 2, 3, 4, 5, 6]) 6 := by decide +kernel
theorem test_decode_puts :
    decode [0b00100001_1100_000_0_00000111_00000001, 0x00000003, 0x00780042, 0x00000041] =
      .command (.puts 7 12 false 1 [0x42, 0x78, 0x41]) 4 := by decide +kernel
theorem test_decode_hfbegin : decode [0b00101000_0000_000_0_00000000_00000000] = .command (.hfbegin 0) 1 := by decide +kernel
theorem test_decode_hfglyph16 :
    decode [0b00101001_0000_000_0_00000000_00000001, 0x00000057, 0x40028001, 0, 0, 0, 0, 0, 0, 0xFFFF0000] =
      .command (.hfglyph 0 0x57 (.g16 [0x8001, 0x4002, 0, 0, 0, 0, 0, 0, 0, 0, 0, 0, 0, 0, 0, 0xFFFF])) 10 := by decide +kernel
theorem test_decode_hfend : decode [0b00101010_0000_000_0_00000000_00000000] = .command (.hfend 0) 1 := by decide +kernel
theorem test_decode_cache :
    decode [0b00101011_0000_000_0_00000000_00000000, 0x00000001, 0x00000041] = .command (.cache 0 [0x41]) 3 := by decide +kernel
theorem test_decode_uputs :
    decode [0b00101100_1001_000_1_00000000_00000000, 0x00000002, 0x00420041] = .command (.uputs 0 9 true [0x41, 0x42]) 3 := by
  decide +kernel

/-- E3, E4, E5, E6, E10, E12, E13: reserved bits. -/
theorem test_decode_reserved :
    decode [0x10F20000, 0] = .illegalField 0x10 0 2 ∧ decode [0x03100000] = .illegalField 3 0 1 ∧
      decode [0x03010000] = .illegalField 3 0 1 ∧ decode [0x14000001, 0x00050005] = .illegalField 0x14 0 2 ∧
      decode [0x2B000000, 0x00010002, 0x00420041] = .illegalField 0x2B 0 3 ∧
      decode [0x20000000, 0x00010101, 0x41, 1] = .illegalField 0x20 0 4 ∧
      decode [0x29000000, 0x00010041, 0, 0] = .illegalField 0x29 0 4 := by decide +kernel

/-- Every table row's word, operands 0, is read as that row's command. -/
theorem test_table_words :
    ([0x01, 0x02, 0x03, 0x04, 0x05, 0x06, 0x07, 0x08, 0x10, 0x11, 0x12, 0x13, 0x14, 0x20, 0x21, 0x28, 0x29, 0x2A, 0x2B, 0x2C].map
      fun op => (decodeTableWord 32 (op * 2 ^ 24)).map Instr.op) = Op.all.map some := by decide +kernel

/-! ## One step on a small state -/

/-- SMALL READY (95_test_vectors.md section 0) with a timeline. -/
def ready (env : List Event) : State := { State.powerOn Config.small with ctrl := .ready, phase := .data, env := env }

/-- A framebuffer of one byte everywhere. -/
def filled (b : Byte) (s : State) : State := { s with fb := Memory.ofBytesFrom 0 (List.replicate 16 b) }

/-- Font AB of T1. -/
def fontAB (s : State) : State := { s with ffontValid := true, ffWidth := 1, ffAlpha := [0x41, 0x42], ffData := [0x0F, 0x01] }

/-- The 8-row glyphs A and B and the 16-row glyph W of section 2.8, loaded. -/
def loadedABW (s : State) : State :=
  { s with
    hfState := .loaded
    hf := [(0x41, .g8 [0x80, 0x40, 0, 0, 0, 0, 0, 0]), (0x42, .g8 [0xFF, 0, 0, 0, 0, 0, 0, 0]),
      (0x57, .g16 [0x8001, 0x4002, 0, 0, 0, 0, 0, 0, 0, 0, 0, 0, 0, 0, 0, 0])] }

/-- The same glyphs cached. -/
def cachedABW (s : State) : State :=
  { loadedABW s with cacheValid := true, cache := buildCache (loadedABW s).hf [0x41, 0x42, 0x57] [] }

/-- PROC's step with words in `CMDQ`. -/
def run (words : List Word) (s : State) : Host.Outcome State Fault Refusal := step { s with cmdq := words, env := .proc :: s.env }

/-- A component of the next state. -/
def after {α : Type} (f : State → α) : Host.Outcome State Fault Refusal → Option α
  | .next s => some (f s)
  | .fault _ | .refused _ => none

/-- The response words, oldest first. -/
def responses (s : State) : List (Word × Word) := s.respq.map fun r => (r.word0, r.word1)

/-- What XPORT saw. -/
def xport (s : State) : List Request := requestsOf s.trace

/-- The group requests `PC [c] PD [p] ...`. -/
def req (c : Byte) (ps : List Byte) : List Request :=
  [.setPhase .command, .write [c]] ++ if ps.isEmpty then [] else .setPhase .data :: ps.map fun p => .write [p]

/-- S1. -/
theorem test_reset :
    after (fun s => (responses s, s.ctrl, s.resetOut, s.trace)) (run [0x01000000] (ready [.timer])) =
      some ([(0x01000000, 0)], .uninit, true, [.resetLine true, .resetLine false]) := by decide +kernel

/-- G7: during the reset hold of BEGIN. -/
theorem test_begin_hold :
    after State.statusWord (run [0x02000000] (State.powerOn Config.small)) = some 0x00000021 := by decide +kernel

/-- S2: 60 requests of `INIT_SEQ`, 14 of the zero frame. -/
theorem test_begin :
    after (fun s => (responses s, s.ctrl, s.fbBytes, (xport s).length)) (run [0x02000000]
      (filled 0x5A { State.powerOn Config.small with env := .timer :: oks 74 })) =
      some ([(0x02000000, 0)], .ready, List.replicate 16 0, 74) := by decide +kernel

/-- S5: the sequence UPDATE starts. -/
theorem test_update :
    after (fun s => (s.seqSteps.map (SeqStep.request s.snap), s.inFlight, s.respq)) (run [0x03000300]
      { ready [] with fb := [(0, 0xF0)] }) =
      some (req 0x15 [0x1C, 0x1D] ++ req 0x75 [0x00, 0x03] ++
        [.setPhase .command, .write [0x5C], .setPhase .data, .write (0xF0 :: List.replicate 15 0)], true, []) := by decide +kernel

/-- X1: the second UPDATE coalesces. -/
theorem test_update_coalesced :
    after responses (run [0x03000200] { ready [] with inFlight := true }) = some [(0x03020001, 0)] := by decide +kernel

/-- S8. -/
theorem test_clear :
    after (fun s => (s.fbBytes, s.snap, s.inFlight)) (run [0x04000000] (filled 0x11 (ready []))) =
      some (List.replicate 16 0, List.replicate 16 0, true) := by decide +kernel

/-- S9. -/
theorem test_clear_uninit :
    after (fun s => (responses s, s.fbBytes)) (run [0x04000000] (filled 0x11 (State.powerOn Config.small))) =
      some ([(0x04000013, 0)], List.replicate 16 0x11) := by decide +kernel

/-- S11. -/
theorem test_contrast :
    after (fun s => s.seqSteps.map (SeqStep.request s.snap)) (run [0x05000000, 0x80] (ready [])) = some (req 0xC1 [0x80]) := by
  decide +kernel

/-- S15. -/
theorem test_contrast_range : after responses (run [0x05000000, 0xFFFFFFFF] (ready [])) = some [(0x05000017, 0)] := by
  decide +kernel

/-- S18. -/
theorem test_dispoff :
    after (fun s => (s.fbBytes, s.seqSteps.map (SeqStep.request s.snap))) (run [0x06000000] (filled 0x77 (ready []))) =
      some (List.replicate 16 0, req 0xAE []) := by decide +kernel

/-- S20: the end of DISPLAY_ON's sequence. -/
theorem test_dispon_done :
    after (fun s => (responses s, s.ctrl, s.seqBusy)) (step { ready [.seq] with
      ctrl := .poweredOff, seqStage := .returned true, seqDone := some (.dispOn 0) }) =
      some ([(0x07000000, 0)], .ready, false) := by decide +kernel

/-- S21. -/
theorem test_dispon : after (fun s => s.seqSteps.map (SeqStep.request s.snap)) (run [0x07000000] (ready [])) = some (req 0xAF []) := by
  decide +kernel

/-- S23. -/
theorem test_teardown :
    after (fun s => (responses s, s.ctrl, (xport s).drop 13)) (run [0x08000000] (filled 0x33 (ready (oks 16)))) =
      some ([(0x08000000, 0)], .uninit, .write (List.replicate 16 0) :: req 0xAE []) := by decide +kernel

/-- S24. -/
theorem test_teardown_fails :
    after (fun s => (responses s, s.ctrl, s.fbBytes)) (run [0x08000000] (filled 0x33 (ready (oks 13 ++ [.answer false])))) =
      some ([(0x08000020, 0)], .uninit, List.replicate 16 0) := by decide +kernel

/-- P3. -/
theorem test_pixel :
    after State.fbBytes (run [0x10000000, 0x00010002] (filled 0xFF (ready []))) =
      some (List.replicate 5 0xFF ++ 0x0F :: List.replicate 10 0xFF) := by decide +kernel

/-- P6: the other byte and the other nibble of the group come from `FB`. -/
theorem test_pixel_bypass :
    after (fun s => (xport s, s.fbBytes.take 6)) (run [0x10710000, 0x00010000] { ready (oks 14) with fb := [(5, 0x49)] }) =
      some (req 0x15 [0x1C, 0x1C] ++ req 0x75 [0x01, 0x01] ++
        [.setPhase .command, .write [0x5C], .setPhase .data, .write [0x70, 0x49]], [0, 0, 0, 0, 0, 0x49]) := by decide +kernel

/-- L2: the same pixels backwards. -/
theorem test_line :
    after State.fbBytes (run [0x11F00000, 0x00030007, 0] (ready [])) =
      some [0xFF, 0, 0, 0, 0, 0xFF, 0, 0, 0, 0, 0xFF, 0, 0, 0, 0, 0xFF] := by decide +kernel

/-- L6: truncation toward zero, `dx < dy`. -/
theorem test_line_steep : linePoints 1 0 2 3 = [(1, 0), (1, 1), (2, 2), (2, 3)] := by decide +kernel

/-- RC6. -/
theorem test_rect : after State.fbBytes (run [0x12800000, 0xFFFFFFFF, 0x00020002] (ready [])) = some (0x80 :: List.replicate 15 0) := by
  decide +kernel

/-- RC3. -/
theorem test_rect_empty :
    after State.fbBytes (run [0x12900000, 0, 3] (filled 0x11 (ready []))) = some (List.replicate 16 0x11) := by decide +kernel

/-- RP2. -/
theorem test_rdpix : after responses (run [0x13000000, 0x00030007] (filled 0x12 (ready []))) = some [(0x13000000, 2)] := by
  decide +kernel

/-- RP4. -/
theorem test_rdpix_out : after responses (run [0x13000000, 0xFFFF0000] (filled 0x12 (ready []))) = some [(0x13000018, 0)] := by
  decide +kernel

/-- G19. -/
theorem test_cursor : after State.cursorWord (run [0x14000000, 0x0002FFFD] (ready [])) = some 0x0002FFFD := by decide +kernel

/-- T1. -/
theorem test_ffont :
    after (fun s => (responses s, s.ffontValid, s.ffWidth, s.fn)) (run [0x20000000, 0x00020001, 0x00420041, 0x0000010F] (ready [])) =
      some ([(0x20000000, 0)], true, 1, 2) := by decide +kernel

/-- E11: FW = 0; the four words are consumed. -/
theorem test_ffont_width :
    after (fun s => (responses s, s.cmdq)) (run [0x20000000, 0x00030000, 0x00420041, 0x43, 0x14000100, 0x00020001] (ready [])) =
      some ([(0x20000011, 0)], [0x14000100, 0x00020001]) := by decide +kernel

/-- T2. -/
theorem test_puts :
    after (fun s => (responses s, s.cx, s.warnWord, s.fbBytes)) (run [0x21F00001, 3, 0x00780041, 0x42] (fontAB (ready []))) =
      some ([(0x21000002, 2)], 4, 0x00780001, [0xF0, 0xF0, 0, 0, 0xF0, 0, 0, 0, 0xF0, 0, 0, 0, 0xF0, 0, 0, 0]) := by decide +kernel

/-- T9: bypass sends off cells with intensity 0. -/
theorem test_puts_bypass :
    after (fun s => (responses s, (xport s).filterMap fun r => match r with | .write [a, b] => some (a, b) | _ => none))
      (run [0x21310001, 1, 0x42] (filled 0xFF (fontAB (ready (oks 56))))) =
      some ([(0x21000000, 1)], [(0x3F, 0xFF), (0x0F, 0xFF), (0x0F, 0xFF), (0x0F, 0xFF)]) := by decide +kernel

/-- H1. -/
theorem test_hfbegin :
    after (fun s => (responses s, s.hfState, s.hf)) (run [0x28000000] (loadedABW (ready []))) =
      some ([(0x28000000, 0)], .loading, []) := by decide +kernel

/-- H2. -/
theorem test_hfglyph :
    after (fun s => (responses s, KeyMap.find 0x41 s.hf)) (run [0x29000000, 0x41, 0x7E422418, 0x4242] { ready [] with hfState := .loading }) =
      some ([(0x29000000, 0)], some (.g8 [0x18, 0x24, 0x42, 0x7E, 0x42, 0x42, 0, 0])) := by decide +kernel

/-- Q11: FONT_STATE comes before CAPACITY. -/
theorem test_hfglyph_state :
    after responses (run [0x29000000, 0x42, 0x80, 0] { ready [] with
      cfg := { Config.small with hfMaxGlyphs := 1 }, hfState := .loaded, hf := [(0x41, .g8 [1, 0, 0, 0, 0, 0, 0, 0])] }) =
      some [(0x29000014, 0)] := by decide +kernel

/-- H6. -/
theorem test_hfend :
    after (fun s => (responses s, s.hfState)) (run [0x2A000000] { loadedABW (ready []) with hfState := .loading }) =
      some ([(0x2A000000, 3)], .loaded) := by decide +kernel

/-- K1. -/
theorem test_cache :
    after (fun s => (responses s, s.cache.map Prod.fst, s.warnWord)) (run [0x2B000000, 4, 0x00420041, 0x00430041] (loadedABW (ready []))) =
      some ([(0x2B000002, 2)], [0x41, 0x42], 0x00430001) := by decide +kernel

/-- U2: the early stop at WIDTH. -/
theorem test_uputs :
    after (fun s => (responses s, s.cx, s.fbBytes)) (run [0x2CF00000, 3, 0x00410041, 0x41] (cachedABW (ready []))) =
      some ([(0x2C000000, 1)], 8, [0xF0, 0, 0, 0, 0x0F, 0, 0, 0, 0, 0, 0, 0, 0, 0, 0, 0]) := by decide +kernel

/-- U3: a negative cursor. -/
theorem test_uputs_negative :
    after (fun s => (responses s, s.cx, s.fbBytes.take 5)) (run [0x2C900000, 2, 0x00420041] { cachedABW (ready []) with cx := 0xFFF8 }) =
      some ([(0x2C000000, 2)], 8, [0x99, 0x99, 0x99, 0x99, 0]) := by decide +kernel

/-- E1, E2. -/
theorem test_unassigned :
    after responses (run [0] (ready [])) = some [(0x00000010, 0)] ∧
      after responses (run [0x09000700] (ready [])) = some [(0x09070010, 0)] := by decide +kernel

/-- X8: PROC holds on a full `RESPQ`. -/
theorem test_full :
    after (fun s => (s.statusWord, s.levelWord, s.fbBytes.take 1)) (run [0x10200200, 1] { ready [] with
      cfg := { Config.small with respFifoDepth := 1 }, fb := [(0, 0x10)], respq := [⟨0x10, 1, .ok, 0⟩] }) =
      some (0x00001823, 0x00010000, [0x12]) := by decide +kernel

/-- R97, R322: an UPDATE that has found `IN_FLIGHT` 1 has not pushed OK_COALESCED yet, so that the update's own response can come first. -/
theorem test_fine_coalesce :
    after (fun s => (s.proc, s.respq)) (step { ready [.procFine] with
      inFlight := true, proc := .executing (.job (newJob .update 2 false 0 [.coalesce, .waitIdle])) }) =
      some (.executing (.push ⟨3, 2, .okCoalesced, 0⟩), []) := by decide +kernel

/-- R100, R219: CURSOR between the two writes of SET_CURSOR. -/
theorem test_fine_cursor :
    after State.cursorWord (step { ready [.procFine] with
      proc := .executing (.job (newJob .cursor 0 false 0 [.effect (.cursor 5 7)])) }) = some 0x00000005 := by decide +kernel

/-- R100, R249: WARN between the two writes of a warning. -/
theorem test_fine_warn :
    after State.warnWord (step { ready [.procFine] with
      proc := .executing (.job (newJob .puts 0 false 0 [.effect (.warn 0x78)])) }) = some 0x00000001 := by decide +kernel

/-- R55: a WARN write there comes after the warning, of which nothing is written any more; the command still has a missing character (R306). -/
theorem test_warn_write :
    after (fun s => (s.warnWord, responses s)) (stepN 2 { ready [.hostWrite 0x1C 4 9, .proc] with
      warnCount := 6, lastMissing := 0x79
      proc := .executing (.job (newJob .puts 0 false 0 [.effect (.lastMissing 0x78)])) }) = some (0, [(0x21000002, 0)]) := by decide +kernel

/-- G1, G2, G4. -/
theorem test_window :
    after State.busRead (step { State.powerOn Config.small with env := [.hostRead 0x2C 4] }) = some 0x56470001 ∧
      after State.busRead (step { State.powerOn Config.small with env := [.hostRead 0x28 4] }) = some 0x00040008 ∧
      after State.busRead (step { State.powerOn Config.small with env := [.hostRead 0x10 4] }) = some 0x00001000 := by decide +kernel

/-- HX4, HX7, HX8, HX12: one line of a hex file. -/
theorem test_hex_lines :
    hexFontLine "00G1:18".toList = none ∧
      hexFontLine "0045:123".toList = some (0x45, .g8 [0x12, 0x3, 0, 0, 0, 0, 0, 0]) ∧
      hexFontLine "0046:00FF00FF00FF00FF1111111111111111".toList = some (0x46, .g8 [0, 0xFF, 0, 0xFF, 0, 0xFF, 0, 0xFF]) ∧
      hexFontLine "0048+7E".toList = some (0x48, .g8 [0x7E, 0, 0, 0, 0, 0, 0, 0]) := by decide +kernel

/-- LG5. -/
theorem test_logo :
    paintLogo Config.small { defaultLogo with offPaint := true } (some "1\n1\n".toList) =
      some [.pixel 0 15 false 0 0, .pixel 0 0 false 1 0, .update 0] := by decide +kernel

/-- Program 2 of section 3: lines of assembly. -/
theorem test_assembler :
    assemble ['c', 'u', 'r', 's', 'o', 'r', ' ', '-', '3', ',', ' ', '2'] = some [0x14000000, 0x0002FFFD] ∧
      assemble "contrast/8 256".toList = some [0x05000800, 0x00000100] ∧
      assemble "rect/2 2, 1, 2, 2, 7".toList = some [0x12700200, 0x00010002, 0x00020002] ∧
      assemble "pixel 7, 3, 12, bypass".toList = some [0x10C10000, 0x00030007] := by decide +kernel

/-! ## Witnesses: states and operands that meet the hypotheses of each statement, all together -/

theorem next_of_after {o : Host.Outcome State Fault Refusal} (h : after (fun _ => ()) o = some ()) : ∃ t, o = .next t := by
  cases o with
  | next t => exact ⟨t, rfl⟩
  | fault _ | refused _ => cases h

theorem ready_idle (env : List Event) : (ready env).seqIdle := ⟨rfl, rfl, rfl, rfl, rfl⟩

/-- A state in which UPDATE's sequence plays, its first request pending. -/
def updating (env : List Event) : State :=
  { ready env with
    inFlight := true, snap := List.replicate 16 0, seqStage := .playing, seqSteps := updateSeq Config.small
    seqDone := some (.update 0x03 0), seqPending := some (.setPhase .command), trace := [.request (.setPhase .command)] }

/-- A state in the reset hold of RESET. -/
def resetHold (env : List Event) : State :=
  { ready env with
    ctrl := .resetting, resetOut := false, trace := [.resetLine false]
    proc := .executing (.jobTimer (newJob .reset 0 false 0 [.effect (.resetOut true), .effect (.ctrl .uninit)])) }

theorem ready_inv : Inv (ready []) :=
  ⟨⟨by decide +kernel, rfl, rfl, by decide +kernel, fun h => (nomatch h), by decide +kernel, rfl, by decide +kernel, fun _ h => (nomatch h), rfl, fun h => (nomatch h)⟩,
    ⟨false, false, false⟩,
    ⟨⟨rfl, rfl, rfl, rfl⟩, rfl, fun h => (nomatch h), fun h => h, by decide +kernel, rfl, rfl, rfl, rfl, rfl⟩⟩

theorem updating_inv : Inv (updating []) :=
  ⟨⟨by decide +kernel, rfl, rfl, by decide +kernel, fun h => (nomatch h), by decide +kernel, rfl, by decide +kernel, fun _ h => (nomatch h), rfl, fun h => (nomatch h)⟩,
    ⟨false, false, false⟩,
    ⟨⟨rfl, by decide +kernel, fun r h => ⟨.enterCmd, rfl, (Option.some.inj h).symm⟩⟩, rfl, fun h => (nomatch h), fun h => h, by decide +kernel, rfl, rfl, rfl,
      rfl, rfl⟩⟩

theorem resetHold_inv : Inv (resetHold []) :=
  ⟨⟨by decide +kernel, rfl, rfl, by decide +kernel, fun h => (nomatch h), by decide +kernel, rfl, by decide +kernel, fun _ h => (nomatch h), rfl, fun h => (nomatch h)⟩,
    ⟨true, false, true⟩,
    ⟨⟨rfl, rfl, rfl, rfl⟩, ⟨rfl, rfl, rfl, rfl⟩, fun _ => rfl, fun _ => rfl, by decide +kernel, rfl, rfl, rfl, rfl, rfl⟩⟩

/-- A state with font AB and the glyphs A, B and W cached, in which DISPLAY_ON's sequence plays or SEQ is idle. -/
def textState (busy : Bool) (cx : BitVec 16) (env : List Event) : State :=
  { fontAB (cachedABW (ready env)) with
    cx := cx, seqStage := if busy then .playing else .idle, seqSteps := if busy then group 0xAF [] else []
    seqDone := if busy then some (.dispOn 0) else none }

theorem textState_inv (busy : Bool) (cx : BitVec 16) (env : List Event) : Inv (textState busy cx env) :=
  ⟨⟨by cases busy <;> exact (by decide : Config.small.Ok), rfl, rfl, Nat.zero_le _, fun h => (nomatch h), Nat.zero_le _,
      (by decide +kernel : KeyMap.wf (loadedABW (ready [])).hf = true), (by decide +kernel : (loadedABW (ready [])).hf.length ≤ Config.small.hfMaxGlyphs),
      (by decide +kernel : ∀ e ∈ (loadedABW (ready [])).hf, e.2.wf = true),
      (by decide +kernel : CacheOk Config.small (cachedABW (ready [])).cache = true),
      fun _ => (by decide +kernel : FontOk Config.small 1 [0x41, 0x42] [0x0F, 0x01] = true)⟩,
    ⟨false, false, false⟩,
    ⟨by cases busy
        · exact ⟨rfl, rfl, rfl, rfl⟩
        · exact ⟨rfl, Nat.zero_le _, fun r h => (nomatch h)⟩,
      rfl, fun h => (nomatch h), fun h => h, by cases busy <;> exact ⟨fun h => (nomatch h), fun h => (nomatch h)⟩, by cases busy <;> rfl, by cases busy <;> rfl, rfl, rfl, rfl⟩⟩

theorem textState_idle (cx : BitVec 16) (env : List Event) : (textState false cx env).seqIdle := ⟨rfl, rfl, rfl, rfl, rfl⟩

theorem witness_PowerOnReset :
    (ready [.powerOn (List.replicate 16 0x5A)]).cfg.Ok ∧ (List.replicate 16 (0x5A : Byte)).length = Config.small.fbSize := by decide +kernel

theorem witness_InvariantKept : Inv (ready [.seq]) ∧ ∃ s', step (ready [.seq]) = .next s' :=
  ⟨ready_inv.withEnv _, next_of_after (by decide +kernel)⟩

theorem witness_DecodeOfEncode :
    ([.reset 255, .begin 0, .update 0, .clear 0, .contrast 0 0xFFFFFFFF, .dispoff 0, .dispon 0, .teardown 0,
      .pixel 0 15 true 0x7FFF 0x8000, .line 0 0 false 0 0 0 0, .rect 0 0 false 0 0 0 0xFFFF, .rdpix 0 0 0, .cursor 0 0 0,
      .ffont 0 255 [] [], .puts 0 0 true 255 [], .hfbegin 0, .hfglyph 0 0 (.g16 (List.replicate 16 0xFFFF)), .hfend 0,
      .cache 0 [0xFFFF], .uputs 0 0 true []] : List Instr).all Instr.wf = true := by decide +kernel

theorem witness_EncodeOfDecode :
    decode [0x11F10700, 0x00020001, 0xFFFF0004, 9] = .command (.line 7 15 true 1 2 4 0xFFFF) 3 := by decide +kernel

theorem witness_StepRunsDecoded :
    fetchWords (State.collected { ready [.proc] with proc := .collecting [0x10900500], cmdq := [0x00010003, 7] })
      (State.queue { ready [.proc] with proc := .collecting [0x10900500], cmdq := [0x00010003, 7] }) =
      .complete (.command (.pixel 5 9 false 3 1) 2) [7] := by decide +kernel

/-- PROC in IDLE, and with the header popped. -/
theorem witness_StepRunsEncoded :
    (Instr.pixel 5 9 false 3 1).wf = true ∧
      ([{ ready [.proc] with cmdq := [0x10900500, 0x00010003, 7] },
          { ready [.proc] with proc := .collecting [0x10900500], cmdq := [0x00010003, 7] }] : List State).all (fun s =>
        decide (s.cfg.Ok ∧ s.env = [.proc] ∧ s.busWrite = none ∧ s.collected ++ s.cmdq = encode (.pixel 5 9 false 3 1) ++ [7] ∧
          s.collected.length < (encode (.pixel 5 9 false 3 1)).length)) = true ∧
      ∀ h, Proc.collecting [0x10900500] ≠ .executing h := ⟨by decide +kernel, by decide +kernel, fun _ h => (nomatch h)⟩

/-- The longest proper prefix and the shortest. -/
theorem witness_PartialCommandCollected :
    (encode (.hfglyph 0 0x41 (.g8 (List.replicate 8 1)))).length = 4 ∧
      [0x29000000] = (encode (.hfglyph 0 0x41 (.g8 (List.replicate 8 1)))).take 1 ∧
      [0x29000000, 0x41, 0x01010101] = (encode (.hfglyph 0 0x41 (.g8 (List.replicate 8 1)))).take 3 := by decide +kernel

/-- The ends of the five ranges of unassigned values. -/
theorem witness_UnassignedOpcode :
    ([0x00000000, 0x09000000, 0x0F000000, 0x15000000, 0x1F000000, 0x22000000, 0x27000000, 0x2D000000, 0xFF000000] : List Word).all
      (fun h => decide (hOp h = 0 ∨ (0x09 ≤ (hOp h).toNat ∧ (hOp h).toNat ≤ 0x0F) ∨ (0x15 ≤ (hOp h).toNat ∧ (hOp h).toNat ≤ 0x1F) ∨
        (0x22 ≤ (hOp h).toNat ∧ (hOp h).toNat ≤ 0x27) ∨ 0x2D ≤ (hOp h).toNat)) = true := by decide +kernel

/-- One ill-formed command for each check. -/
theorem witness_IllFormedCommand :
    ([(.pixel, 0x10F20000, [0]), (.update, 0x03100000, []), (.update, 0x03010000, []), (.cursor, 0x14000001, [0]),
        (.puts, 0x21000000, [1, 0x41]), (.hfglyph, 0x29000002, [0x41, 0, 0]), (.cache, 0x2B000000, [0x00010001, 0x41]),
        (.ffont, 0x20000000, [0x00010101, 0x41, 1]), (.ffont, 0x20000000, [0x00010000, 0x41])] : List (Op × Word × List Word)).all
        (fun t => decide (hOp t.2.1 = t.1.code ∧ t.2.2.length + 1 = commandLength t.1 t.2.1 (t.2.2.getD 0 0))) = true ∧
      hRsv 0x10F20000 ≠ 0 ∧ hColor 0x03100000 ≠ 0 ∧ hBypass 0x03010000 = true ∧ hArg 0x14000001 ≠ 0 ∧ hArg 0x21000000 = 0 ∧
      (hArg 0x29000002).extractLsb' 1 7 ≠ 0 ∧ highHalf 0x00010001 ≠ 0 ∧ byteOf 0x00010101 1 ≠ 0 ∧ byteOf 0x00010000 0 = 0 := by
  decide +kernel

/-- Each refusal of R303, with the check before it passed. -/
theorem witness_RefusalsInOrder :
    refusalOf (.puts 0 15 false 0 []) (ready []) = some .illegalField ∧
      refusalOf (.cache 0 [0x41, 0x42, 0x43]) { ready [] with cfg := { Config.small with textMax := 2 } } = some .capacity ∧
      refusalOf (.update 0) { ready [] with ctrl := .initializing } = some .notReady ∧
      refusalOf (.contrast 0 256) (ready []) = some .contrastRange ∧ refusalOf (.contrast 0 0xFFFFFFFF) (ready []) = some .contrastRange ∧
      refusalOf (.rdpix 0 8 3) (ready []) = some .outOfBounds ∧ refusalOf (.hfend 0) (ready []) = some .fontState ∧
      refusalOf (.hfglyph 0 0x41 (.g8 (List.replicate 8 0))) (ready []) = some .fontState ∧
      refusalOf (.puts 0 15 true 1 [0x41]) (ready []) = some .fontNotLoaded ∧ refusalOf (.cache 0 []) (ready []) = some .fontNotLoaded ∧
      refusalOf (.uputs 0 15 true [0x41]) (loadedABW (ready [])) = some .cacheMiss := by decide +kernel

/-- Every command in every state has a next state. -/
theorem witness_OneResponse (i : Instr) (s : State) : ∃ t, exec i s = .next t := ⟨_, exec_eq i s⟩

theorem witness_WhoWritesWhat (i : Instr) (s : State) : ∃ t, exec i s = .next t := ⟨_, exec_eq i s⟩

/-- A queue of depth 1, full and empty. -/
theorem witness_FullResponseQueue :
    Config.respFifoDepth { Config.small with respFifoDepth := 1 } ≤ [(⟨0x10, 1, .ok, 0⟩ : Resp)].length ∧
      ([] : List Resp).length < Config.respFifoDepth { Config.small with respFifoDepth := 1 } := by decide +kernel

/-- The corner of the raster, and a byte on its last pixel pair. -/
theorem witness_PixelIndexBijection : Config.small.Ok ∧ 7 < Config.small.width ∧ 3 < Config.small.height ∧ 15 < Config.small.fbSize := by decide +kernel

/-- An even and an odd column, and another pixel. -/
theorem witness_PixelStore :
    Config.small.Ok ∧ Memory.wf [(15, 0x12)] = true ∧ 6 < Config.small.width ∧ 7 < Config.small.width ∧ 3 < Config.small.height ∧
      6 % 2 = 0 ∧ 7 % 2 ≠ 0 ∧ ¬ (6 = 7 ∧ 3 = 3) := by decide +kernel

theorem witness_DrawPixel : (ready []).respq.length < (ready []).cfg.respFifoDepth := by decide +kernel

theorem witness_DrawLine :
    (ready []).cfg.Ok ∧ Memory.wf (ready []).fb = true ∧ (ready []).respq.length < (ready []).cfg.respFifoDepth := by decide +kernel

/-- Neighbours on a line, its last two pixels; a tie along each axis, where the pixel nearer the start is taken; a line of one pixel. -/
theorem witness_LineProperties :
    (linePoints 1 0 2 3)[2]? = some (2, 2) ∧ (linePoints 1 0 2 3)[3]? = some (2, 3) ∧
      (linePoints 0 0 2 1)[1]? = some (1, 0) ∧ (linePoints 0 0 (-1) (-2))[1]? = some (0, -1) ∧ (linePoints 5 5 5 5)[0]? = some (5, 5) := by
  decide +kernel

theorem witness_FillRect :
    (ready []).cfg.Ok ∧ Memory.wf (ready []).fb = true ∧ (ready []).respq.length < (ready []).cfg.respFifoDepth := by decide +kernel

/-- The last pixel and the first column past the raster. -/
theorem witness_ReadPixel :
    (ready []).respq.length < (ready []).cfg.respFifoDepth ∧
      (0 ≤ (7 : BitVec 16).toInt ∧ (7 : BitVec 16).toInt < (ready []).cfg.width) ∧ ¬ (8 : BitVec 16).toInt < (ready []).cfg.width := by decide +kernel

theorem witness_SetCursor : (ready []).respq.length < (ready []).cfg.respFifoDepth := by decide +kernel

/-- A pixel, a line of two pixels and a rectangle of four, all accepted. -/
theorem witness_BypassDrawing :
    (ready (oks 14)).transmitReady = true ∧ (ready (oks 14)).seqIdle ∧
      oks 14 = oks (bypassSteps Config.small [] (dots 7 [(7, 3)])).length ++ [] ∧
      oks 28 = oks (bypassSteps Config.small [] (dots 7 (linePoints 0 0 1 1))).length ++ [] ∧
      oks 56 = oks (bypassSteps Config.small [] (dots 7 (rectPoints (-1) 0 3 2))).length ++ [] :=
  ⟨by decide +kernel, ready_idle _, by decide +kernel, by decide +kernel, by decide +kernel⟩

/-- The first step and the last one refused. -/
theorem witness_BypassFailure :
    (ready (oks 13 ++ [.answer false])).transmitReady = true ∧ (ready (oks 13 ++ [.answer false])).seqIdle ∧
      0 < (bypassSteps Config.small [] (dots 7 [(7, 3)])).length ∧ 13 < (bypassSteps Config.small [] (dots 7 [(7, 3)])).length :=
  ⟨by decide +kernel, ready_idle _, by decide +kernel, by decide +kernel⟩

theorem witness_BypassPixelSteps : Config.small.Ok ∧ 7 < Config.small.width ∧ 3 < Config.small.height := by decide +kernel

/-- A state in which DISPLAY_OFF's sequence of two steps stands at step `n`. -/
def playing (n : Nat) (r : Option Request) (env : List Event) : State :=
  { ready env with seqStage := .playing, seqSteps := group 0xAE [], seqPos := n, seqDone := some (.dispOff 0), seqPending := r }

/-- A sequence of two steps: played from its start and its second step, accepted, refused and without an answer; at its end; with a request pending.
TEARDOWN that holds for the first and for the last answer of its first sequence. The first and the last step of commands that hold. -/
theorem witness_SequencePlays :
    ((playing 1 none []).cfg.Ok ∧ 1 < (group 0xAE []).length ∧ (playing 0 none (.seq :: oks 2)).env = .seq :: (oks (group 0xAE []).length ++ []) ∧
      (playing 1 none [.seqFine, .answer false]).env = .seqFine :: (oks 0 ++ .answer false :: []) ∧
      0 < ((playing 1 none []).seqSteps.drop 1).length ∧
      (playing 0 none [.seq, .answer true]).env = .seq :: (oks 1 ++ []) ∧ (playing 0 none []).seqSteps[1]? = some (.tx [0xAE]) ∧
      (playing 2 none [.seq]).seqPos ≤ (group 0xAE []).length ∧ (group 0xAE []).drop 2 = [] ∧
      (playing 0 (some (.setPhase .command)) [.answer true]).seqPending = some (.setPhase .command) ∧
      (playing 1 (some (.write [0xAE])) [.answer false]).seqPending = some (.write [0xAE])) ∧
      (after (fun t => (t.env, t.seqPos, t.seqSteps.length, t.procWaits)) (exec (.teardown 1) (ready [])) = some ([], 0, 14, true) ∧
        after (fun t => (t.env, t.seqPos, t.seqSteps.length, t.procWaits)) (exec (.teardown 1) (ready (oks 13))) = some ([], 13, 14, true)) ∧
      ((ready []).seqIdle ∧ (textState false 0 []).seqIdle ∧ Inv (textState false 0 [])) ∧
      (ready []).transmitReady = true ∧ 73 < (initSeq Config.small).length + (updateSeq Config.small).length ∧
      (textState false 0 []).transmitReady = true ∧ (textState false 0 []).ffontValid = true ∧
      (textState false 0 []).hfState = .loaded ∧ (textState false 0 []).cacheValid = true ∧
      13 < (bypassSteps Config.small [] (dots 7 [(7, 3)])).length ∧ 27 < (bypassSteps Config.small [] (dots 7 (linePoints 0 0 1 1))).length ∧
      55 < (bypassSteps Config.small [] (dots 7 (rectPoints (-1) 0 3 2))).length ∧
      55 < (bypassSteps Config.small [] (textCells (textState false 0 []) 1 3 0 [0x42])).length ∧
      27 < (bypassSteps Config.small []
        (unifontCells (textState false 0 []) 3 (unifontDraws (textState false 0 []) 0 [0x41]))).length :=
  ⟨by decide +kernel, by decide +kernel, ⟨ready_idle _, textState_idle _ _, textState_inv _ _ _⟩, by decide +kernel⟩

/-- An answer that is an event of its own, then SEQ's turn at step 1: the step before moved the phase (R153, R155). -/
theorem test_late_answer :
    after (fun s => (s.seqPos, s.phase, s.seqPending)) (stepN 2 (playing 0 (some (.setPhase .command)) [.answer true, .seq])) =
      some (1, .command, some (.write [0xAE])) := by decide +kernel

/-- The four completion actions, with room in `RESPQ` and with a full one. -/
theorem witness_CompletionActions :
    ([.update Op.clear.code 1, .contrast 1, .dispOff 1, .dispOn 1] : List SeqDone).all (fun d =>
      let s : State := { ready [.seq] with seqStage := .returned false, seqDone := some d }
      let full : State := { s with cfg := { Config.small with respFifoDepth := 1 }, respq := [⟨0x10, 1, .ok, 0⟩] }
      decide ((s.cfg.Ok ∧ s.env = [.seq] ∧ s.respq.length < s.cfg.respFifoDepth ∧ s.seqStage = .returned false) ∧
        full.cfg.Ok ∧ full.env = [.seq] ∧ full.cfg.respFifoDepth ≤ full.respq.length ∧ full.seqStage = .returned false)) = true := by
  decide +kernel

/-- A sequence other than an update, so that IN_FLIGHT is 0; the bounds of the contrast operand; the last pixel, the end of a line and of a
rectangle on the raster; texts whose first characters are left of the raster and whose last is at its first column. -/
theorem witness_WaitsForSequencer :
    let s := textState true 0xFFFE []
    let t := textState true 0xFFF8 []
    let glyphA : CachedGlyph := expand (.g8 [0x80, 0x40, 0, 0, 0, 0, 0, 0])
    let glyphB : CachedGlyph := expand (.g8 [0xFF, 0, 0, 0, 0, 0, 0, 0])
    (Inv s ∧ Inv t) ∧ (s.seqBusy = true ∧ s.transmitReady = true ∧ s.inFlight = false ∧ 0 ≤ (0 : Word).toInt ∧ (255 : Word).toInt ≤ 255 ∧
      inBounds s.cfg (7 : BitVec 16).toInt (3 : BitVec 16).toInt = true ∧
      (∃ p ∈ linePoints (-2) 0 0 0, inBounds s.cfg p.1 p.2 = true) ∧ (∃ p ∈ rectPoints (-1) 0 2 1, inBounds s.cfg p.1 p.2 = true)) ∧
      (s.ffontValid = true ∧ (0xFFFE : BitVec 16) + BitVec.ofNat 16 ((located s [0x41, 0x78]).length * (s.ffWidth.toNat * 1 + 1)) = 0 ∧
        (∀ p ∈ textCells s 1 15 s.cx [0x41, 0x78], inBounds s.cfg p.1 p.2.1 = false) ∧
        ∃ p ∈ textCells s 1 15 0 [0x42], inBounds s.cfg p.1 p.2.1 = true) ∧
      t.hfState = .loaded ∧ t.cacheValid = true ∧ (([0x42, 0x41] : List Char16).all fun ch => (KeyMap.find ch t.cache).isSome) = true ∧
      unifontDraws t t.cx [0x42, 0x41] = [(0xFFF8, glyphB)] ++ [(0, glyphA)] ∧
      (∀ p ∈ unifontCells t 15 [(0xFFF8, glyphB)], inBounds t.cfg p.1 p.2.1 = false) ∧
      ∃ p ∈ unifontCells t 15 [(0, glyphA)], inBounds t.cfg p.1 p.2.1 = true :=
  ⟨⟨textState_inv _ _ _, textState_inv _ _ _⟩, by decide +kernel⟩

theorem witness_SequenceCounts : (List.replicate 16 (0 : Byte)).length = Config.small.fbSize := by decide +kernel

/-- A host read while a request is pending. -/
theorem witness_SequenceUndisturbed :
    Inv (updating [.hostRead 0 4]) ∧ (updating [.hostRead 0 4]).seqStage = .playing ∧
      (∀ fb, (updating [.hostRead 0 4]).env.head? ≠ some (.powerOn fb)) ∧ (∃ t, step (updating [.hostRead 0 4]) = .next t) ∧
      (updating [.hostRead 0 4]).seqPending = some (.setPhase .command) ∧
      ∀ ok, (updating [.hostRead 0 4]).env.head? ≠ some (.answer ok) :=
  ⟨updating_inv.withEnv _, rfl, fun _ h => (nomatch h), next_of_after (by decide +kernel), rfl, fun _ h => (nomatch h)⟩

theorem witness_ResetCommand :
    (ready [.timer]).respq.length < (ready [.timer]).cfg.respFifoDepth ∧ (ready [.timer]).seqIdle := ⟨by decide +kernel, ready_idle _⟩

/-- PROC is given a turn in a reset hold; RESET and BEGIN that enter one. -/
theorem witness_ResetHold :
    ((ready []).cfg.Ok ∧ (ready []).seqIdle ∧ (ready []).env.head? ≠ some .timer ∧
        (∃ t j, exec (.reset 1) (ready []) = .next t ∧ t.env = [] ∧ t.proc = .executing (.jobTimer j)) ∧
        ∃ t j, exec (.begin 1) (ready []) = .next t ∧ t.env = [] ∧ t.proc = .executing (.jobTimer j)) ∧
    Inv (resetHold [.proc]) ∧ (∃ j, (resetHold [.proc]).proc = .executing (.jobTimer j)) ∧
      (resetHold [.proc]).env.head? ≠ some .timer ∧ (∀ fb, (resetHold [.proc]).env.head? ≠ some (.powerOn fb)) ∧
      ∃ t, step (resetHold [.proc]) = .next t :=
  ⟨⟨by decide +kernel, ready_idle _, fun h => (nomatch h), ⟨_, _, rfl, rfl, rfl⟩, _, _, rfl, rfl, rfl⟩,
    resetHold_inv.withEnv _, ⟨_, rfl⟩, fun h => (nomatch h), fun _ h => (nomatch h), next_of_after (by decide +kernel)⟩

theorem witness_BeginCommand :
    (ready (.timer :: oks 74)).seqIdle ∧
      (ready (.timer :: oks 74)).env = .timer :: (oks ((initSeq Config.small).length + (updateSeq Config.small).length) ++ []) :=
  ⟨ready_idle _, by decide +kernel⟩

theorem witness_InitSequenceGroups : Config.small.Ok := by decide +kernel

/-- The last step of each part refused. -/
theorem witness_BlockingFailures :
    (ready []).seqIdle ∧ (ready []).transmitReady = true ∧ 59 < (initSeq Config.small).length ∧
      (ready (.timer :: (oks 73 ++ [.answer false]))).env = .timer :: (oks ((initSeq Config.small).length + 13) ++ .answer false :: []) ∧
      (ready (oks 13 ++ [.answer false])).env = oks 13 ++ .answer false :: [] ∧
      (ready (oks 15 ++ [.answer false])).env = oks (14 + 1) ++ .answer false :: [] :=
  ⟨ready_idle _, by decide +kernel, by decide +kernel, by decide +kernel, rfl, rfl⟩

theorem witness_TeardownCommand :
    (ready (oks 16)).respq.length < (ready (oks 16)).cfg.respFifoDepth ∧ (ready (oks 16)).transmitReady = true ∧
      (ready (oks 16)).seqIdle ∧ (ready (oks 16)).env = oks 16 ++ [] := ⟨by decide +kernel, by decide +kernel, ready_idle _, rfl⟩

theorem witness_UpdateStarts :
    (ready []).transmitReady = true ∧ (ready []).inFlight = false ∧ (ready []).seqBusy = false := by decide +kernel

theorem witness_UpdateCoalesces :
    (updating []).respq.length < (updating []).cfg.respFifoDepth ∧ (updating []).transmitReady = true ∧ (updating []).inFlight = true := by decide +kernel

/-- Both bounds of the operand. -/
theorem witness_SetContrast :
    (ready []).transmitReady = true ∧ (ready []).seqBusy = false ∧ 0 ≤ (0 : Word).toInt ∧ (0 : Word).toInt ≤ 255 ∧
      0 ≤ (255 : Word).toInt ∧ (255 : Word).toInt ≤ 255 := by decide +kernel

theorem witness_DisplayPower : (ready []).transmitReady = true ∧ (ready []).seqBusy = false := by decide +kernel

/-- The largest font and one past it. -/
theorem witness_DefineFont :
    let s : State := { ready [] with cfg := { Config.small with ffMaxChars := 2, ffMaxBytes := 2 } }
    s.respq.length < s.cfg.respFifoDepth ∧ (Instr.ffont 0 1 [0x41, 0x42] [1, 2]).wf = true ∧
      ([0x41, 0x42] : List Char16).length ≤ s.cfg.ffMaxChars ∧ (Instr.ffont 0 1 [0x41, 0x42, 0x43] [1, 2, 3]).wf = true ∧
      ¬ ([0x41, 0x42, 0x43] : List Char16).length ≤ s.cfg.ffMaxChars := by decide +kernel

/-- A text with a located and a missing character. -/
theorem witness_WriteString :
    let s := fontAB (ready [])
    s.cfg.Ok ∧ Memory.wf s.fb = true ∧ s.respq.length < s.cfg.respFifoDepth ∧ (255 : BitVec 8) ≠ 0 ∧
      ([0x78, 0x41] : List Char16).length ≤ s.cfg.textMax ∧ s.ffontValid = true ∧ located s [0x78, 0x41] = [0x41] ∧
      unlocated s [0x78, 0x41] = [0x78] := by decide +kernel

/-- HFONT_END in a load and outside one. -/
theorem witness_HexFontLoad :
    (ready []).respq.length < (ready []).cfg.respFifoDepth ∧ State.hfState { ready [] with hfState := .loading } = .loading ∧
      (ready []).hfState ≠ .loading := by decide +kernel

/-- Outside a load; a new code point in a full font; the old code point in a full font. -/
theorem witness_HexFontGlyph :
    let s : State := { ready [] with
      cfg := { Config.small with hfMaxGlyphs := 1 }, hfState := .loading, hf := [(0x41, .g8 (List.replicate 8 1))] }
    s.respq.length < s.cfg.respFifoDepth ∧ (Glyph.g8 (List.replicate 8 0)).wf = true ∧ (ready []).hfState ≠ .loading ∧
      s.hfState = .loading ∧ KeyMap.find 0x42 s.hf = none ∧ s.hf.length = s.cfg.hfMaxGlyphs ∧ (KeyMap.find 0x41 s.hf).isSome = true := by decide +kernel

theorem witness_GlyphExpansion :
    (List.replicate 8 (1 : BitVec 8)).length = 8 ∧ (List.replicate 16 (1 : BitVec 16)).length = 16 := by decide +kernel

theorem witness_DistinctCharacters : (0x42 : Char16) ∈ ([0x42, 0x41, 0x42] : List Char16) ∧ (0x41 : Char16) ∈ ([0x42, 0x41, 0x42] : List Char16) := by decide +kernel

/-- A text past TEXT_MAX; a text of TEXT_MAX without a font; a text with a missing character. -/
theorem witness_CacheGlyphs :
    let s := ready []
    let short : Config := { Config.small with textMax := 2 }
    s.respq.length < s.cfg.respFifoDepth ∧ short.textMax < ([0x41, 0x42, 0x43] : List Char16).length ∧
      ([0x41, 0x42] : List Char16).length ≤ short.textMax ∧
      s.hfState ≠ .loaded ∧ (loadedABW s).hfState = .loaded ∧
      (distinct [0x41, 0x43]).filter (fun ch => (KeyMap.find ch (loadedABW s).hf).isNone) = [0x43] := by decide +kernel

theorem witness_WriteUnifont :
    (ready []).cfg.Ok ∧ Memory.wf (ready []).fb = true ∧ (ready []).respq.length < (ready []).cfg.respFifoDepth ∧
      (loadedABW (ready [])).hfState = .loaded ∧
      (([0x41, 0x57] : List Char16).all fun ch => (KeyMap.find ch (cachedABW (ready [])).cache).isSome) = true := by decide +kernel

/-- B of font AB, and glyph A: each with its steps accepted. -/
theorem witness_TextUnderBypass :
    (Inv (textState false 0 (oks 56)) ∧ (textState false 0 (oks 56)).seqIdle ∧ Inv (textState false 0 (oks 28)) ∧
        (textState false 0 (oks 28)).seqIdle) ∧
      (textState false 0 (oks 56)).transmitReady = true ∧ (textState false 0 (oks 56)).ffontValid = true ∧
      (textState false 0 (oks 56)).env =
        oks (bypassSteps Config.small [] (textCells (textState false 0 (oks 56)) 1 3 0 [0x42])).length ++ [] ∧
      (textState false 0 (oks 28)).hfState = .loaded ∧ (textState false 0 (oks 28)).cacheValid = true ∧
      (KeyMap.find 0x41 (textState false 0 (oks 28)).cache).isSome = true ∧
      (textState false 0 (oks 28)).env = oks (bypassSteps Config.small []
        (unifontCells (textState false 0 (oks 28)) 3 (unifontDraws (textState false 0 (oks 28)) 0 [0x41]))).length ++ [] :=
  ⟨⟨textState_inv _ _ _, textState_idle _ _, textState_inv _ _ _, textState_idle _ _⟩, by decide +kernel⟩

/-- The first and the last step of a second character: B after A and a missing character; glyph A after a glyph B left of the raster. -/
theorem witness_TextBypassFailure :
    let s := textState false 0 (oks 56 ++ [.answer false])
    let t := textState false 0xFFF8 (oks 27 ++ [.answer false])
    (Inv s ∧ s.seqIdle ∧ Inv t ∧ t.seqIdle) ∧ s.transmitReady = true ∧ s.ffontValid = true ∧
      (0 : BitVec 16) + BitVec.ofNat 16 ((located s [0x41, 0x78]).length * (s.ffWidth.toNat * 1 + 1)) = 2 ∧
      (bypassSteps s.cfg s.fb (textCells s 1 3 0 [0x41, 0x78])).length = 56 ∧
      0 < (bypassSteps s.cfg s.fb (textCells s 1 3 2 [0x42])).length ∧ 55 < (bypassSteps s.cfg s.fb (textCells s 1 3 2 [0x42])).length ∧
      s.env = oks (56 + 0) ++ .answer false :: [] ∧
      unifontDraws t t.cx [0x42, 0x41] =
        [(0xFFF8, expand (.g8 [0xFF, 0, 0, 0, 0, 0, 0, 0]))] ++ [(0, expand (.g8 [0x80, 0x40, 0, 0, 0, 0, 0, 0]))] ∧
      (bypassSteps t.cfg t.fb (unifontCells t 3 [(0xFFF8, expand (.g8 [0xFF, 0, 0, 0, 0, 0, 0, 0]))])).length = 0 ∧
      27 < (bypassSteps t.cfg t.fb (unifontCells t 3 [(0, expand (.g8 [0x80, 0x40, 0, 0, 0, 0, 0, 0]))])).length ∧
      t.env = oks (0 + 27) ++ .answer false :: [] :=
  ⟨⟨textState_inv _ _ _, textState_idle _ _, textState_inv _ _ _, textState_idle _ _⟩, by decide +kernel⟩

theorem witness_WindowReads (k : Nat) (_ : k < 16) :
    (ready [.hostRead (Config.small.base + 4 * k) 4]).cfg.Ok ∧ (ready [.hostRead (Config.small.base + 4 * k) 4]).busWrite = none :=
  ⟨(by decide : Config.small.Ok), rfl⟩

/-- Every register; PROC in the middle of a warning, and before one that is its job's last piece. -/
theorem witness_WindowWrites (k : Nat) (_ : k < 16) :
    (∀ j ch rest, (ready []).proc = .executing (.job j) → j.todo ≠ .effect (.lastMissing ch) :: rest) ∧
      (newJob .puts 0 false 0 [.effect (.lastMissing 0x78)]).todo = .effect (.lastMissing 0x78) :: [] ∧
      (newJob .puts 0 false 0 [.effect (.warn 0x78)]).todo = .effect (.warn 0x78) :: [] ∧
      (∀ ch' rest', ([] : List Piece) ≠ .effect (.lastMissing ch') :: rest') ∧
    (ready [.hostWrite (Config.small.base + 4 * k) 4 1]).cfg.Ok ∧ (ready [.hostWrite (Config.small.base + 4 * k) 4 1]).busWrite = none ∧
      (ready [.hostWrite (Config.small.base + 4 * k) 4 1]).cmdq.length < Config.small.cmdFifoDepth :=
  ⟨fun _ _ _ h => (nomatch h), rfl, rfl, fun _ _ h => (nomatch h), (by decide : Config.small.Ok), rfl, (by decide : 0 < Config.small.cmdFifoDepth)⟩

/-- A queue of 4 words, full; and the same with a write held, PROC idle. -/
theorem witness_StalledWrite :
    let s : State := { ready [.hostWrite 0 4 9] with cfg := { Config.small with cmdFifoDepth := 4 }, cmdq := [1, 2, 3, 4] }
    s.cfg.Ok ∧ s.busWrite = none ∧ s.cfg.cmdFifoDepth ≤ s.cmdq.length ∧
      (∀ h, ({ s with busWrite := some 9, env := [.procFine] } : State).proc ≠ .executing h) :=
  ⟨by decide +kernel, rfl, by decide +kernel, fun _ h => (nomatch h)⟩

/-- Just below the window, its first address past it, a byte access at its last address, a misaligned access. -/
theorem witness_BadAccesses :
    let c : Config := { Config.small with base := 64 }
    c.Ok ∧ 63 < c.base ∧ c.base + 64 ≤ 128 ∧ (c.base ≤ 127 ∧ 127 < c.base + 64 ∧ 1 ≠ 4) ∧ (c.base ≤ 66 ∧ 66 < c.base + 64 ∧ (66 - c.base) % 4 ≠ 0) := by decide +kernel

/-- The digits of lines; and a file with two glyphs of one code point, with the smallest command queue. -/
theorem witness_HexFontLoader :
    (let line := "0041:".toList ++ List.replicate 64 'F';
        (line.take 4).map hexDigit = [0, 0, 4, 1].map some ∧ (line.drop 5).map hexDigit = (List.replicate 64 15).map some ∧ 5 ≤ line.length) ∧
      (let line := "FfFfF7eA".toList;
        (line.take 4).map hexDigit = [15, 15, 15, 15].map some ∧ (line.drop 5).map hexDigit = [7, 14, 10].map some ∧ 5 ≤ line.length) ∧
      (let line := "0000:1".toList;
        (line.take 4).map hexDigit = [0, 0, 0, 0].map some ∧ (line.drop 5).map hexDigit = [1].map some ∧ 5 ≤ line.length) ∧
      ("0041".toList.length < 5 ∧ hexDigit 'G' = none ∧ 'G' ∉ "0123456789abcdefABCDEF".toList ∧
        ((splitLines "00G1:18".toList).all fun line => hexFontLine (stripCR line) == none) = true) ∧
      let c : Config := { Config.small with cmdFifoDepth := 4 }
      let text := "0041:18\n0041:7E".toList
      c.Ok ∧ ((splitLines text).filterMap fun line => hexFontLine (stripCR line)).length = 2 ∧ 2 ≤ c.hfMaxGlyphs ∧
        (loadHexFontEvents c (some text)).isSome = true ∧
        (State.powerOn c).proc = .idle ∧ (State.powerOn c).busWrite = none ∧ (State.powerOn c).cmdq = [] ∧ (State.powerOn c).respq = [] := by
  decide +kernel

end Sys2Proof.Tests
end

/-! Family 10_state: power-on reset values (R63, R340). -/
section
namespace Sys2Proof.Machine

/-- The rows of R63 that fix a value. -/
structure ResetValues (t : State) : Prop where
  cx : t.cx = 0
  cy : t.cy = 0
  ctrl : t.ctrl = .uninit
  inFlight : t.inFlight = false
  seqIdle : t.seqIdle
  snap : t.snap = []
  phase : t.phase = .command
  resetOut : t.resetOut = true
  ffontValid : t.ffontValid = false
  hfState : t.hfState = .empty
  hf : t.hf = []
  cacheValid : t.cacheValid = false
  cache : t.cache = []
  warnCount : t.warnCount = 0
  lastMissing : t.lastMissing = 0
  cmdq : t.cmdq = []
  respq : t.respq = []
  proc : t.proc = .idle
  respIE : t.respIE = false

/-- The power-on state has the reset values in every configuration. -/
theorem resetValues_powerOn (c : Config) : ResetValues (State.powerOn c) := by
  constructor
  case seqIdle => exact ⟨rfl, rfl, rfl, rfl, rfl⟩
  all_goals rfl

/-- The fields `powerOnTurn` sets beside the power-on state are none of R63's fixed rows. -/
theorem resetValues_powerOnTurn (fb : List Byte) (s : State) : ResetValues (powerOnTurn fb s) :=
  { resetValues_powerOn s.cfg with }

/-- After a power-on reset the framebuffer reads as the bytes the platform left in it. -/
theorem read_powerOnTurn_fb {fb : List Byte} {s : State} (hl : fb.length = s.cfg.fbSize) (a : Nat) :
    Memory.read (powerOnTurn fb s).fb a = fb.getD a 0 := by
  have htake : fb.take s.cfg.fbSize = fb := List.take_of_length_le hl.le
  calc Memory.read (powerOnTurn fb s).fb a
      = Memory.read (Memory.ofBytesFrom 0 (fb.take s.cfg.fbSize)) a := rfl
    _ = Memory.read (Memory.ofBytesFrom 0 fb) a := by rw [htake]
    _ = fb.getD a 0 := Memory.read_ofBytesFrom 0 a fb (Nat.zero_le a)

/-- Settles O1: the step is `powerOnTurn` on the rest of the timeline, which has R63's values; an answer finds no pending request. -/
theorem powerOnReset : Obligations.PowerOnReset := by
  unfold Obligations.PowerOnReset
  intro s fb later hok hl henv
  have hr := resetValues_powerOnTurn fb { s with env := later }
  have hstep : step s = .next (powerOnTurn fb { s with env := later }) := step_event hok henv
  obtain ⟨_, hsteps, hpos, hdone, hpending⟩ := hr.seqIdle
  exact ⟨_, hstep, rfl, fun a _ => read_powerOnTurn_fb hl a, hr.cx, hr.cy, hr.ctrl, hr.inFlight, seqBusy_of_idle hr.seqIdle, hsteps,
    hpos, hdone, hr.snap, hpending, hr.phase, hr.resetOut, hr.ffontValid, hr.hfState, hr.hf, hr.cacheValid, hr.cache, hr.warnCount,
    hr.lastMissing, hr.cmdq, hr.respq, hr.proc, hr.respIE, rfl, fun ok => answer_none ok hpending⟩

/-- Settles O2: `State.reset` is the power-on state of REF, which has R63's values. -/
theorem resetState : Obligations.ResetState := by
  have hr : ResetValues State.reset := resetValues_powerOn Config.ref
  exact ⟨hr.cx, hr.cy, hr.ctrl, hr.inFlight, hr.seqIdle, hr.snap, hr.phase, hr.resetOut, hr.ffontValid, hr.hfState, hr.hf,
    hr.cacheValid, hr.cache, hr.warnCount, hr.lastMissing, hr.cmdq, hr.respq, hr.proc, hr.respIE⟩

end Sys2Proof.Machine
end

/-! Family 20_memory: pixel stores (R83). -/
section
namespace Sys2Proof.Machine

/-- A nibble put for an even column is the high one. -/
theorem highNibble_putNibble (b : Byte) (x : Nat) (c : Intensity) :
    highNibble (putNibble b x c) = if x % 2 = 0 then c else highNibble b :=
  nibbleOf_putNibble b x 0 c

/-- A nibble put for an odd column is the low one. -/
theorem lowNibble_putNibble (b : Byte) (x : Nat) (c : Intensity) :
    lowNibble (putNibble b x c) = if x % 2 = 1 then c else lowNibble b :=
  nibbleOf_putNibble b x 1 c

/-- The byte of the pixel stored. -/
theorem read_pixStore_idx {c : Config} {fb : Memory} (hw : Memory.wf fb = true) (x y : Nat) (v : Intensity) :
    Memory.read (pixStore c fb x y v) (idx c x y) = putNibble (Memory.read fb (idx c x y)) x v := by
  rw [read_pixStore hw, if_pos rfl]

/-- Settles O18: the pixels by `pixRead_pixStore`, the other bytes by `read_pixStore`, the nibbles of the pixel's byte by those of
`putNibble`, in each column parity. -/
theorem pixelStore : Obligations.PixelStore := by
  unfold Obligations.PixelStore
  intro c fb x y v hok hw hx _
  refine ⟨?readBack, ?otherPixels, ?otherBytes, ?nibbles⟩
  case readBack => rw [pixRead_pixStore hok hw hx hx, if_pos ⟨rfl, rfl⟩]
  case otherPixels =>
    intro x' y' hx' _ hne
    rw [pixRead_pixStore hok hw hx hx', if_neg hne]
  case otherBytes =>
    intro a ha
    rw [read_pixStore hw, if_neg ha]
  case nibbles =>
    rw [read_pixStore_idx hw]
    have hhigh := highNibble_putNibble (Memory.read fb (idx c x y)) x v
    have hlow := lowNibble_putNibble (Memory.read fb (idx c x y)) x v
    split
    next heven =>
      rw [if_pos heven] at hhigh
      rw [if_neg (by omega)] at hlow
      exact ⟨hhigh, hlow⟩
    next hodd =>
      rw [if_neg hodd] at hhigh
      rw [if_pos (by omega)] at hlow
      exact ⟨hlow, hhigh⟩

end Sys2Proof.Machine
end

/-! Family 30_encoding: headers with an unassigned OP (R132, R133) and ill-formed commands (R119). -/
section
namespace Sys2Proof.Machine

/-! ## What PROC's step makes of the words of one command -/

/-- PROC, idle, pops the words of one command whole and carries out what they decode to; the words behind them stay. -/
theorem step_whole {s : State} {later : List Event} {ws rest : List Word} (hc : s.cfg.Ok) (he : s.env = .proc :: later)
    (hp : s.proc = .idle) (hb : s.busWrite = none) (hq : s.cmdq = ws ++ rest) (hne : ws ≠ []) (hd : decode ws ≠ .incomplete)
    (hpre : ∀ k, 0 < k → k < ws.length → decode (ws.take k) = .incomplete) :
    step s = runDecoded (decode ws) { s with env := later, cmdq := rest } := by
  have hcol : s.collected = [] := by rw [State.collected, hp]
  have hf : fetchWords s.collected s.cmdq = .complete (decode ws) rest := by
    rw [hcol, hq]
    exact fetchWords_complete [] hne hd hpre
  rw [step_fetched hc he hb (by simp [hp]), hf]

/-- An answer by PROC while it is idle appends one record, where `RESPQ` has room. -/
theorem refuse_of_idle {s : State} (op tag : Byte) (st : Status) (hp : s.proc = .idle) (hr : s.respq.length < s.cfg.respFifoDepth) :
    s.refuse op tag st = { s with respq := s.respq ++ [{ op := op, tag := tag, status := st, result := 0 }] } := by
  simp [State.refuse, State.respond, State.pushProc, State.respRoom, hr, ← hp]

/-- A refused command answers with its own OP and TAG, also where `RESPQ` is full. -/
theorem exec_of_refusal {i : Instr} {s : State} {st : Status} (h : refusalOf i s = some st) :
    exec i s = .next (s.refuse i.op.code i.tag st) := by
  rw [exec_eq, planOf_eq, h]
  rfl

/-! ## Unassigned operation codes (R132, R133) -/

/-- The `OP` values of R133. -/
abbrev UnassignedCode (b : Byte) : Prop :=
  b = 0 ∨ (0x09 ≤ b.toNat ∧ b.toNat ≤ 0x0F) ∨ (0x15 ≤ b.toNat ∧ b.toNat ≤ 0x1F) ∨ (0x22 ≤ b.toNat ∧ b.toNat ≤ 0x27) ∨
    0x2D ≤ b.toNat

/-- No operation has an unassigned code. -/
theorem not_unassignedCode_code (o : Op) : ¬ UnassignedCode o.code := by cases o <;> decide

/-- An unassigned code selects no operation. -/
theorem ofCode_unassigned {b : Byte} (h : UnassignedCode b) : Op.ofCode b = none := by
  cases ho : Op.ofCode b with
  | none => rfl
  | some o => exact absurd (code_of_ofCode ho ▸ h) (not_unassignedCode_code o)

/-- The decoder on a header that names no operation. -/
theorem decode_unassigned {h : Word} {ops : List Word} (ho : Op.ofCode (hOp h) = none) :
    decode (h :: ops) = .illegalOpcode (hOp h) (hTag h) := by
  simp only [decode, ho]

/-- Settles O11: the header alone decodes to `illegalOpcode`, so PROC pops it alone and answers. -/
theorem unassignedOpcode : Obligations.UnassignedOpcode := by
  unfold Obligations.UnassignedOpcode
  intro s later h rest hc he hp hb hq hr hcode
  have hd : decode [h] = .illegalOpcode (hOp h) (hTag h) := decode_unassigned (ofCode_unassigned hcode)
  have hstep : step s = runDecoded (decode [h]) { s with env := later, cmdq := rest } := by
    refine step_whole hc he hp hb hq (List.cons_ne_nil _ _) (by simp [hd]) fun k h0 h1 => ?_
    rw [List.length_singleton] at h1
    omega
  rw [hstep, hd, runDecoded, refuse_of_idle _ _ _ (by exact hp) (by exact hr)]

/-! ## Ill-formed commands (R119) -/

/-- The grounds of R119: a reserved field of the header or of the first operand word that is not 0, SIZE = 0 and FW = 0. -/
def IllFormed (o : Op) (h w1 : Word) : Prop :=
  hRsv h ≠ 0 ∨ (o.drawing = false ∧ (hColor h ≠ 0 ∨ hBypass h = true)) ∨
    (o ≠ .puts ∧ o ≠ .hfglyph ∧ hArg h ≠ 0) ∨ (o = .puts ∧ hArg h = 0) ∨
    (o = .hfglyph ∧ (hArg h).extractLsb' 1 7 ≠ 0) ∨
    ((o = .puts ∨ o = .cache ∨ o = .uputs ∨ o = .hfglyph) ∧ highHalf w1 ≠ 0) ∨
    (o = .ffont ∧ (byteOf w1 1 ≠ 0 ∨ byteOf w1 0 = 0))

/-- What the decoder checks of a header. -/
theorem headerLegal_iff (o : Op) (h : Word) :
    headerLegal o h = true ↔ hRsv h = 0 ∧ (o.drawing = false → hColor h = 0 ∧ hBypass h = false) ∧
      (o ≠ .puts → o ≠ .hfglyph → hArg h = 0) ∧ (o = .hfglyph → (hArg h).extractLsb' 1 7 = 0) := by
  cases o <;> simp [headerLegal, Op.drawing, and_assoc]

/-- What the decoder checks of a first operand word. -/
theorem operandLegal_iff (o : Op) (w1 : Word) :
    operandLegal o w1 = true ↔ (o = .puts ∨ o = .cache ∨ o = .uputs ∨ o = .hfglyph → highHalf w1 = 0) ∧
      (o = .ffont → byteOf w1 1 = 0) := by
  cases o <;> simp [operandLegal]

@[simp] theorem readFields_op (o : Op) (h : Word) (ops : List Word) : (readFields o h ops).op = o := by cases o <;> rfl

@[simp] theorem readFields_tag (o : Op) (h : Word) (ops : List Word) : (readFields o h ops).tag = hTag h := by cases o <;> rfl

/-- A string with SIZE 0 is read as an ill-formed command. -/
theorem readFields_puts_wf {h : Word} (ops : List Word) (ha : hArg h = 0) : (readFields .puts h ops).wf = false := by
  simp [readFields, Instr.wf, ha]

/-- A font with FW 0 is read as an ill-formed command. -/
theorem readFields_ffont_wf (h : Word) {ops : List Word} (hw : byteOf (ops.getD 0 0) 0 = 0) :
    (readFields .ffont h ops).wf = false := by
  have hfw : fdefWidth (ops.getD 0 0) = 0 := hw
  simp only [readFields, Instr.wf, hfw]
  rfl

/-- The two grounds that the decoder leaves to a command's own checks are SIZE = 0 and FW = 0 (notes/assumptions/10.md). -/
theorem readFields_wf_of_illFormed {o : Op} {h : Word} {ops : List Word} (hi : IllFormed o h (ops.getD 0 0))
    (hl : headerLegal o h = true) (hol : operandLegal o (ops.getD 0 0) = true) : (readFields o h ops).wf = false := by
  obtain ⟨hrsv, hcolor, harg, hkind⟩ := (headerLegal_iff o h).mp hl
  obtain ⟨hhigh, hpad⟩ := (operandLegal_iff o _).mp hol
  rcases hi with h1 | ⟨hd, h1⟩ | ⟨hp, hg, h1⟩ | ⟨rfl, hsize⟩ | ⟨hg, h1⟩ | ⟨ho, h1⟩ | ⟨rfl, h1 | hfw⟩
  · exact absurd hrsv h1
  · simp [hcolor hd] at h1
  · exact absurd (harg hp hg) h1
  · exact readFields_puts_wf ops hsize
  · exact absurd (hkind hg) h1
  · exact absurd (hhigh ho) h1
  · exact absurd (hpad rfl) h1
  · exact readFields_ffont_wf h hfw

/-- A command that is not well-formed fails the first check of R303. -/
theorem refusalOf_of_not_wf {i : Instr} (s : State) (h : i.wf = false) : refusalOf i s = some .illegalField := by
  simp [refusalOf, firstFailing, h]

/-- The words of an ill-formed command are an `illegalField` or a command that is not well-formed, never incomplete. -/
theorem decode_illFormed {o : Op} {h : Word} {ops : List Word} (ho : Op.ofCode (hOp h) = some o)
    (hlen : ops.length + 1 = commandLength o h (ops.getD 0 0)) (hi : IllFormed o h (ops.getD 0 0)) :
    decode (h :: ops) = .illegalField (hOp h) (hTag h) (ops.length + 1) ∨
      ∃ i, decode (h :: ops) = .command i (ops.length + 1) ∧ i.op = o ∧ i.tag = hTag h ∧ i.wf = false := by
  rw [decode_cons ho, ← hlen, if_neg (lt_irrefl _), Nat.add_sub_cancel, List.take_length]
  split
  next hl =>
    obtain ⟨hl, hol⟩ := Bool.and_eq_true_iff.mp hl
    exact .inr ⟨_, rfl, readFields_op o h ops, readFields_tag o h ops, readFields_wf_of_illFormed hi hl hol⟩
  next => exact .inl rfl

/-- Settles O12: PROC pops the command whole; the decoder refuses it, or its own first check does, and either way it only answers. -/
theorem illFormedCommand : Obligations.IllFormedCommand := by
  unfold Obligations.IllFormedCommand
  intro s later o h ops rest hc he hp hb hq hr hop hlen hi
  have ho : Op.ofCode (hOp h) = some o := by rw [hop, ofCode_code]
  have hdec := decode_illFormed ho hlen hi
  have hne : decode (h :: ops) ≠ .incomplete := by
    rcases hdec with hd | ⟨i, hd, -⟩ <;> simp [hd]
  have hstep : step s = runDecoded (decode (h :: ops)) { s with env := later, cmdq := rest } :=
    step_whole hc he hp hb hq (List.cons_ne_nil _ _) hne fun k _ hk => decode_prefix ho hlen hk
  have hrun : runDecoded (decode (h :: ops)) { s with env := later, cmdq := rest } =
      .next (State.refuse (hOp h) (hTag h) .illegalField { s with env := later, cmdq := rest }) := by
    rcases hdec with hd | ⟨i, hd, hiop, htag, hwf⟩
    · rw [hd, runDecoded]
    · rw [hd, runDecoded, exec_of_refusal (refusalOf_of_not_wf _ hwf), hiop, htag, hop]
  rw [hstep, hrun, refuse_of_idle _ _ _ (by exact hp) (by exact hr)]

end Sys2Proof.Machine
end

/-! Family 41_raster: the pixel read (R218) and the cursor (R219). -/
section
namespace Sys2Proof.Machine

/-- READ_PIXEL has one check: its pixel is on the raster. -/
theorem refusalOf_rdpix (tag : Byte) (x y : BitVec 16) (s : State) :
    refusalOf (.rdpix tag x y) s = if inBounds s.cfg x.toInt y.toInt then none else some .outOfBounds := by
  cases hin : inBounds s.cfg x.toInt y.toInt <;>
    simp [refusalOf, firstFailing, Instr.wf, tooLarge, transmits, preconditions, hin]

/-- SET_CURSOR has no check: every operand is accepted. -/
theorem refusalOf_cursor (tag : Byte) (x y : BitVec 16) (s : State) : refusalOf (.cursor tag x y) s = none := rfl

/-- Settles O23: on the raster the command has no work and answers the pixel; off it `inBounds` is the check that refuses. -/
theorem readPixel : Obligations.ReadPixel := by
  unfold Obligations.ReadPixel
  intro s tag x y hroom
  have hcheck := refusalOf_rdpix tag x y s
  split
  next hon =>
    rw [if_pos (inBounds_iff.mpr hon)] at hcheck
    rw [exec_runs hcheck, workOf, runPieces_nil, finishJob_done .rdpix tag hroom rfl rfl, ← BitVec.ofNat_toNat]
    rfl
  next hoff =>
    rw [if_neg (mt inBounds_iff.mp hoff)] at hcheck
    exact exec_refused hroom hcheck

/-- Settles O24: the command's work is the one effect that writes both coordinates; it leaves `RESPQ`'s room as it was. -/
theorem setCursor : Obligations.SetCursor := by
  unfold Obligations.SetCursor
  intro s tag x y hroom
  rw [exec_runs (refusalOf_cursor tag x y s), workOf, runPieces_effect, runPieces_nil]
  exact congrArg Host.Outcome.next (finishJob_done .cursor tag (s := { s with cx := x, cy := y }) hroom rfl rfl)

end Sys2Proof.Machine
end

/-! Family 42_text: the fixed font's definition (R241), the glyphs of the hex font (R251, R253), distinct characters (R254) and the glyph
cache (R255). -/
section
namespace Sys2Proof.Machine

/-! ## Distinct characters (R254) -/

/-- Settles O50: membership and no repetition are laws of `distinct`; the order is `idxOf_distinctFrom` with nothing listed. -/
theorem distinctCharacters : Obligations.DistinctCharacters := by
  unfold Obligations.DistinctCharacters
  intro t
  exact ⟨nodup_distinctFrom [] t, fun _ => mem_distinct,
    fun a b ha hb => idxOf_distinctFrom t [] a b ha hb List.not_mem_nil List.not_mem_nil⟩

/-! ## Expansion (R253) -/

/-- The bits of `w` rows of `w` bits: in column `c` of row `r` stands bit `w - 1 - c` of that row. -/
theorem map_rowBits_square {w : Nat} {rows : List (BitVec w)} (hlen : rows.length = w) :
    (rows.map rowBits).length = w ∧ ∀ r c : Nat, r < w → c < w →
      ((rows.map rowBits).getD r []).getD c false = (rows.getD r 0).getLsbD (w - 1 - c) := by
  refine ⟨(List.length_map rowBits).trans hlen, fun r c hr hc => ?_⟩
  have hrow : (rows.map rowBits).getD r [] = rowBits (rows.getD r 0) := by
    simp [List.getD_eq_getElem?_getD, hlen, hr]
  rw [hrow, getD_rowBits _ c hc]

/-- Settles O49: both kinds expand row by row into a square of their width. -/
theorem glyphExpansion : Obligations.GlyphExpansion :=
  ⟨fun _ hlen => ⟨rfl, rfl, map_rowBits_square hlen⟩, fun _ hlen => ⟨rfl, rfl, map_rowBits_square hlen⟩⟩

/-! ## Commands of one write -/

/-- A command whose work is one write that its response does not depend on. -/
theorem exec_oneEffect {i : Instr} {s : State} {e : Effect} (hroom : s.respq.length < s.cfg.respFifoDepth)
    (hcheck : refusalOf i s = none) (hwork : workOf s i = [.effect e]) (hnote : ∀ j : Job, j.note e = j) :
    exec i s = .next (State.done i.op i.tag .ok (BitVec.ofNat 32 (resultOf s i)) (e.apply s)) := by
  have hroom' : (e.apply s).respq.length < (e.apply s).cfg.respFifoDepth := by
    rw [Effect.apply_respq, Effect.apply_cfg]
    exact hroom
  rw [exec_runs hcheck, hwork, runPieces_effect, runPieces_nil, hnote, finishJob_done i.op i.tag hroom' rfl rfl]
  rfl

/-! ## FFONT_DEFINE (R241) -/

/-- A well-formed FFONT_DEFINE has one check: the two capacities. -/
theorem refusalOf_ffont {tag : Byte} {fw : BitVec 8} {alphabet : List Char16} {data : List Byte} (s : State)
    (hwf : (Instr.ffont tag fw alphabet data).wf = true) :
    refusalOf (.ffont tag fw alphabet data) s =
      if alphabet.length ≤ s.cfg.ffMaxChars ∧ alphabet.length * fw.toNat ≤ s.cfg.ffMaxBytes then none else some .capacity := by
  by_cases hcap : alphabet.length ≤ s.cfg.ffMaxChars ∧ alphabet.length * fw.toNat ≤ s.cfg.ffMaxBytes
  · simp [refusalOf, firstFailing, hwf, tooLarge, transmits, preconditions, hcap]
  · have hlarge : tooLarge s.cfg (.ffont tag fw alphabet data) = true := by
      simp only [tooLarge, Bool.or_eq_true, decide_eq_true_eq]
      omega
    simp [refusalOf, firstFailing, hwf, hlarge, hcap]

/-- Settles O44: the capacities are the command's one check, and its work is the one write that replaces the font whole. -/
theorem defineFont : Obligations.DefineFont := by
  unfold Obligations.DefineFont
  intro s tag fw alphabet data hroom hwf
  have hcheck := refusalOf_ffont s hwf
  split
  next hcap =>
    rw [if_pos hcap] at hcheck
    exact exec_oneEffect hroom hcheck rfl fun _ => rfl
  next hcap =>
    rw [if_neg hcap] at hcheck
    exact exec_refused hroom hcheck

/-! ## HFONT_GLYPH (R251) -/

/-- A well-formed HFONT_GLYPH checks that a load is on, then the map's capacity for a new code point. -/
theorem refusalOf_hfglyph (tag : Byte) (cp : Char16) {g : Glyph} (s : State) (hwf : g.wf = true) :
    refusalOf (.hfglyph tag cp g) s =
      if s.hfState ≠ .loading then some .fontState
      else if KeyMap.find cp s.hf = none ∧ s.hf.length = s.cfg.hfMaxGlyphs then some .capacity else none := by
  have hwf' : (Instr.hfglyph tag cp g).wf = true := hwf
  simp [refusalOf, firstFailing, hwf', tooLarge, transmits, preconditions]

/-- Settles O48: the two checks exclude one another in R303's order, and the work is one insertion, read back by `find_insert`. -/
theorem hexFontGlyph : Obligations.HexFontGlyph := by
  unfold Obligations.HexFontGlyph
  intro s tag cp g hroom hwf
  have hcheck := refusalOf_hfglyph tag cp s hwf
  refine ⟨fun hstate => ?outsideLoad, fun hstate hnew hfull => ?full, fun hstate hfits => ?stored⟩
  case outsideLoad =>
    rw [if_pos hstate] at hcheck
    exact exec_refused hroom hcheck
  case full =>
    rw [if_neg (not_not_intro hstate), if_pos ⟨hnew, hfull⟩] at hcheck
    exact exec_refused hroom hcheck
  case stored =>
    have hroomLeft : ¬ (KeyMap.find cp s.hf = none ∧ s.hf.length = s.cfg.hfMaxGlyphs) := by
      rintro ⟨hnew, hfull⟩
      rcases hfits with hold | hlen
      · simp [hnew] at hold
      · exact hlen hfull
    rw [if_neg (not_not_intro hstate), if_neg hroomLeft] at hcheck
    exact ⟨KeyMap.insert cp g s.hf, exec_oneEffect hroom hcheck rfl fun _ => rfl, fun ch => KeyMap.find_insert cp ch g s.hf⟩

/-! ## CACHE_GLYPHS (R255) -/

/-- Every distinct character is cached or missing. -/
theorem length_buildCache_add_missingChars (hf : KeyMap Glyph) (t : List Char16) :
    (buildCache hf (distinct t) []).length + (missingChars hf (distinct t)).length = (distinct t).length := by
  have hlen := length_buildCache (hf := hf) (distinct t) [] rfl (nodup_distinctFrom [] t) fun ch _ => KeyMap.find_nil ch
  rwa [List.length_nil, Nat.zero_add] at hlen

/-- The new cache has the expansions of the text's characters that the font has, and nothing else. -/
theorem find_buildCache_distinct (hf : KeyMap Glyph) (t : List Char16) (ch : Char16) :
    KeyMap.find ch (buildCache hf (distinct t) []) = if ch ∈ t then (KeyMap.find ch hf).map expand else none := by
  rw [find_buildCache, KeyMap.find_nil]
  cases KeyMap.find ch hf <;> simp [mem_distinct]

/-- CACHE_GLYPHS with a text that LEN can hold checks the text's length, then that a font is loaded. -/
theorem refusalOf_cache (tag : Byte) {text : List Char16} (s : State) (hlen : text.length < 65536) :
    refusalOf (.cache tag text) s =
      if s.cfg.textMax < text.length then some .capacity else if s.hfState ≠ .loaded then some .fontNotLoaded else none := by
  simp [refusalOf, firstFailing, Instr.wf, hlen, tooLarge, transmits, preconditions]

/-- CACHE_GLYPHS that executes warns of the missing characters, then installs the new cache. -/
theorem exec_cache_runs {s : State} {tag : Byte} {text : List Char16} (hroom : s.respq.length < s.cfg.respFifoDepth)
    (hcheck : refusalOf (.cache tag text) s = none) :
    exec (.cache tag text) s =
      .next (State.done .cache tag (if (missingChars s.hf (distinct text)).isEmpty then .ok else .okMissingGlyph)
        (BitVec.ofNat 32 (buildCache s.hf (distinct text) []).length) { s with
          cache := buildCache s.hf (distinct text) [], cacheValid := true
          warnCount := warnedBy s.warnCount (missingChars s.hf (distinct text)).length
          lastMissing := (missingChars s.hf (distinct text)).getLast?.getD s.lastMissing }) := by
  have hquiet : ∀ p ∈ (missingChars s.hf (distinct text)).map fun ch => Piece.effect (.warn ch), p.quiet = true := by
    intro p hp
    obtain ⟨ch, -, rfl⟩ := List.mem_map.mp hp
    rfl
  rw [exec_runs hcheck, workOf, runPieces_quiet hquiet _ rfl, store_warns, noted_warns, runPieces_effect, runPieces_nil,
    finishJob_done .cache tag (by exact hroom) rfl rfl]
  cases (missingChars s.hf (distinct text)).isEmpty <;> rfl

/-- Settles O51: the two checks in R303's order; past them the new cache by `find_buildCache_distinct` and its size by the split of the
distinct characters into cached and missing ones. -/
theorem cacheGlyphs : Obligations.CacheGlyphs := by
  unfold Obligations.CacheGlyphs
  intro s tag text missing hroom hlen hmissing
  have hcheck := refusalOf_cache tag s hlen
  have hmissing : missing = missingChars s.hf (distinct text) := hmissing
  refine ⟨fun hlong => ?tooLong, fun hfits hstate => ?noFont, fun hfits hstate => ?replaced⟩
  case tooLong =>
    rw [if_pos hlong] at hcheck
    exact exec_refused hroom hcheck
  case noFont =>
    rw [if_neg hfits.not_gt, if_pos hstate] at hcheck
    exact exec_refused hroom hcheck
  case replaced =>
    rw [if_neg hfits.not_gt, if_neg (not_not_intro hstate)] at hcheck
    subst hmissing
    refine ⟨buildCache s.hf (distinct text) [], ?_, find_buildCache_distinct s.hf text, length_buildCache_add_missingChars s.hf text⟩
    rw [exec_cache_runs hroom hcheck, List.getLastD_eq_getLast?]
    rfl

end Sys2Proof.Machine
end

/-! Family other: the command encoding and PROC's fetch (R111 to R131, R46). -/
section
namespace Sys2Proof.Machine
open Sys2Proof.Laws

/-! ## Decode of encode -/

/-- What the decoder needs of a well-formed command's words: their number, the checks they pass, and their fields. -/
theorem encoding_reads_back : ∀ i : Instr, Length.Statement i ∧ Legal.Statement i ∧ Fields.Statement i
  | .reset t => ⟨Length.reset t, Legal.reset t, Fields.reset t⟩
  | .begin t => ⟨Length.begin t, Legal.begin t, Fields.begin t⟩
  | .update t => ⟨Length.update t, Legal.update t, Fields.update t⟩
  | .clear t => ⟨Length.clear t, Legal.clear t, Fields.clear t⟩
  | .contrast t v => ⟨Length.contrast t v, Legal.contrast t v, Fields.contrast t v⟩
  | .dispoff t => ⟨Length.dispoff t, Legal.dispoff t, Fields.dispoff t⟩
  | .dispon t => ⟨Length.dispon t, Legal.dispon t, Fields.dispon t⟩
  | .teardown t => ⟨Length.teardown t, Legal.teardown t, Fields.teardown t⟩
  | .pixel t c b x y => ⟨Length.pixel t c b x y, Legal.pixel t c b x y, Fields.pixel t c b x y⟩
  | .line t c b x0 y0 x1 y1 =>
    ⟨Length.line t c b x0 y0 x1 y1, Legal.line t c b x0 y0 x1 y1, Fields.line t c b x0 y0 x1 y1⟩
  | .rect t c b x y w h => ⟨Length.rect t c b x y w h, Legal.rect t c b x y w h, Fields.rect t c b x y w h⟩
  | .rdpix t x y => ⟨Length.rdpix t x y, Legal.rdpix t x y, Fields.rdpix t x y⟩
  | .cursor t x y => ⟨Length.cursor t x y, Legal.cursor t x y, Fields.cursor t x y⟩
  | .ffont t fw a d => ⟨Length.ffont t fw a d, Legal.ffont t fw a d, Fields.ffont t fw a d⟩
  | .puts t c b n text => ⟨Length.puts t c b n text, Legal.puts t c b n text, Fields.puts t c b n text⟩
  | .hfbegin t => ⟨Length.hfbegin t, Legal.hfbegin t, Fields.hfbegin t⟩
  | .hfglyph t cp g => ⟨Length.hfglyph t cp g, Legal.hfglyph t cp g, Fields.hfglyph t cp g⟩
  | .hfend t => ⟨Length.hfend t, Legal.hfend t, Fields.hfend t⟩
  | .cache t text => ⟨Length.cache t text, Legal.cache t text, Fields.cache t text⟩
  | .uputs t c b text => ⟨Length.uputs t c b text, Legal.uputs t c b text, Fields.uputs t c b text⟩

/-- A command without operands is one word long and has no operand to check, whatever word follows it. -/
theorem first_word_of_no_operands {i : Instr} (h : i.operands = []) (hd w : Word) :
    commandLength i.op hd w = 1 ∧ operandLegal i.op w = true := by
  cases i with
  | hfglyph t cp g => cases g <;> exact absurd h (List.cons_ne_nil _ _)
  | reset | begin | update | clear | dispoff | dispon | teardown | hfbegin | hfend => exact ⟨rfl, rfl⟩
  | _ => exact absurd h (List.cons_ne_nil _ _)

/-- The words behind a command decide neither its length nor the check of its operands. -/
theorem first_operand_append (i : Instr) (rest : List Word) (hd : Word) :
    commandLength i.op hd ((i.operands ++ rest).getD 0 0) = commandLength i.op hd (i.operands.getD 0 0) ∧
      operandLegal i.op ((i.operands ++ rest).getD 0 0) = operandLegal i.op (i.operands.getD 0 0) := by
  cases ho : i.operands with
  | nil =>
    have hfirst := first_word_of_no_operands ho hd
    exact ⟨(hfirst _).1.trans (hfirst _).1.symm, (hfirst _).2.trans (hfirst _).2.symm⟩
  | cons w ws => exact ⟨rfl, rfl⟩

theorem ofCode_headerOf (i : Instr) : Op.ofCode (hOp (headerOf i)) = some i.op := by
  rw [headerOf, hOp_header, ofCode_code]

/-- Settles O5: the length and the checks are those of the header and the first operand word, which the words behind do not touch, and
the fields are read back from the operands alone. -/
theorem decodeOfEncode : Obligations.DecodeOfEncode := by
  unfold Obligations.DecodeOfEncode
  intro i rest hwf
  obtain ⟨hlen, hlegal, hfields⟩ := encoding_reads_back i
  obtain ⟨hheader, hoperand⟩ := hlegal hwf
  obtain ⟨hlength, hcheck⟩ := first_operand_append i rest (headerOf i)
  have hwords : (encode i).length = i.operands.length + 1 := rfl
  have htake : (i.operands ++ rest).take ((encode i).length - 1) = i.operands := by
    rw [hwords, Nat.add_sub_cancel, List.take_left]
  show decode (headerOf i :: (i.operands ++ rest)) = _
  rw [decode_cons (ofCode_headerOf i), hlength, hcheck, ← hlen hwf, if_neg (by rw [hwords, List.length_append]; omega), hheader, hoperand,
    htake, hfields hwf]
  rfl

theorem decode_encode {i : Instr} (h : i.wf = true) : decode (encode i) = .command i (encode i).length := by
  have hd := decodeOfEncode i [] h
  rwa [List.append_nil] at hd

/-- Fewer words than a well-formed command has, from its first on, are no command yet. -/
theorem decode_encode_take {i : Instr} (h : i.wf = true) {k : Nat} (hk : k < (encode i).length) :
    decode ((encode i).take k) = .incomplete :=
  decode_prefix (ofCode_headerOf i) ((encoding_reads_back i).1 h) hk

/-! ## PROC's step -/

/-- Settles O9: the rest of the command's words in `CMDQ` complete the words PROC has, and no shorter part of them does. -/
theorem stepRunsEncoded : Obligations.StepRunsEncoded := by
  unfold Obligations.StepRunsEncoded
  intro s later i rest hc he hx hb hwf hwords hlt
  obtain ⟨ws, henc, hq⟩ : ∃ ws, encode i = s.collected ++ ws ∧ s.cmdq = ws ++ rest := by
    rcases List.append_eq_append_iff.mp hwords with ⟨ws, henc, hq⟩ | ⟨ws, hcol, -⟩
    · exact ⟨ws, henc, hq⟩
    · rw [hcol, List.length_append] at hlt
      omega
  have hlen : (encode i).length = s.collected.length + ws.length := by rw [henc, List.length_append]
  have hd : decode (s.collected ++ ws) = .command i (encode i).length := henc ▸ decode_encode hwf
  have hne : ws ≠ [] := by
    rintro rfl
    rw [List.length_nil] at hlen
    omega
  have hpre : ∀ k, 0 < k → k < ws.length → decode (s.collected ++ ws.take k) = .incomplete := by
    intro k _ hk
    rw [← List.take_length_add_append, ← henc]
    exact decode_encode_take hwf (by omega)
  rw [step_fetched hc he hb hx, hq, fetchWords_complete s.collected hne (by simp [hd]) hpre, hd]
  rfl

/-- Settles O10: fewer words than all of them are no command, so PROC pops the words it finds and waits for more. -/
theorem partialCommandCollected : Obligations.PartialCommandCollected := by
  unfold Obligations.PartialCommandCollected
  intro s later i k hc he hp hb hwf h0 hk hq
  have hcol : s.collected = [] := by rw [State.collected, hp]
  have hpre : ∀ n, 0 < n → n ≤ ((encode i).take k).length → decode ([] ++ ((encode i).take k).take n) = .incomplete := by
    intro n _ hn
    rw [List.length_take] at hn
    rw [List.nil_append, List.take_take]
    exact decode_encode_take hwf (by omega)
  have hne : ((encode i).take k).isEmpty = false := by
    rw [List.isEmpty_eq_false_iff_exists_mem]
    exact ⟨_, List.getElem_mem (n := 0) (by rw [List.length_take]; omega)⟩
  rw [step_fetched hc he hb (by simp [hp]), hcol, hq, fetchWords_needMore [] hpre, List.nil_append]
  simp only [collectingOrIdle, hne, Bool.false_eq_true, if_false]

/-- Settles O8: outside a command PROC's turn is its fetch, and what it has fetched is the command. -/
theorem stepRunsDecoded : Obligations.StepRunsDecoded := by
  unfold Obligations.StepRunsDecoded
  intro s later i n rest hc he hx hf
  have hturn : procTurn { s with env := later } = fetchTurn { s with env := later } := by
    cases hp : s.proc with
    | executing h => exact absurd hp (hx h)
    | idle | collecting ws => simp only [procTurn]
  have hfetch : fetchWords (State.collected { s with env := later }) (State.queue { s with env := later }) =
      .complete (.command i n) rest := hf
  rw [step_event hc he, eventTurn, hturn, fetchTurn, hfetch]
  rfl

/-! ## Encode of decode -/

theorem readFields_colorBypass {o : Op} {h : Word} (ops : List Word) (hl : headerLegal o h = true) :
    (readFields o h ops).colorBypass = (hColor h, hBypass h) := by
  obtain ⟨-, hplain, -, -⟩ := (headerLegal_iff o h).mp hl
  cases o with
  | pixel | line | rect | puts | uputs => rfl
  | _ =>
    obtain ⟨hcolor, hbypass⟩ := hplain rfl
    rw [hcolor, hbypass]
    rfl

/-- An ARG with no bit but KIND is KIND. -/
theorem kindArg_eq : ∀ a : BitVec 8, a.extractLsb' 1 7 = 0 → (if a.getLsbD 0 then 1 else 0) = a := by decide

theorem readFields_arg {o : Op} {h : Word} (ops : List Word) (hl : headerLegal o h = true) :
    (readFields o h ops).arg = hArg h := by
  obtain ⟨-, -, hzero, hkind⟩ := (headerLegal_iff o h).mp hl
  cases o with
  | puts => rfl
  | hfglyph =>
    have ha : (if glyphKind h then 1 else 0) = hArg h := kindArg_eq (hArg h) (hkind rfl)
    rw [← ha]
    simp only [readFields]
    cases glyphKind h <;> rfl
  | _ => exact (hzero (by decide) (by decide)).symm

/-- A legal header is read whole: the header of the fields is the header. -/
theorem headerOf_readFields {o : Op} {h : Word} (ops : List Word) (ho : Op.ofCode (hOp h) = some o) (hl : headerLegal o h = true) :
    headerOf (readFields o h ops) = h := by
  have hf := header_fields h
  rw [((headerLegal_iff o h).mp hl).1, ← code_of_ofCode ho] at hf
  rw [headerOf, readFields_op, readFields_tag, readFields_colorBypass ops hl, readFields_arg ops hl]
  exact hf

theorem length_bytesOf (ws : List Word) : (bytesOf ws).length = 4 * ws.length := by
  induction ws with
  | nil => rfl
  | cons w ws ih => simp [bytesOf, ih]; omega

theorem unpack16_length {ws : List Word} {n : Nat} (h : n = 2 * ws.length) : unpack16 n ws = unitsOf ws := by
  rw [unpack16, h, ← length_unitsOf, List.take_length]

theorem unpack8_length {ws : List Word} {n : Nat} (h : n = 4 * ws.length) : unpack8 n ws = bytesOf ws := by
  rw [unpack8, h, ← length_bytesOf, List.take_length]

/-- The operations whose last word can have padding. -/
def lastWordPads : Op → Bool
  | .ffont | .puts | .cache | .uputs => true
  | .reset | .begin | .update | .clear | .contrast | .dispoff | .dispon | .teardown | .pixel | .line | .rect | .rdpix | .cursor
  | .hfbegin | .hfglyph | .hfend => false

/-- Without padding the length is in the header alone. -/
theorem commandLength_of_not_padded {o : Op} (hp : lastWordPads o = false) (h w : Word) : commandLength o h w = commandLength o h 0 := by
  cases o with
  | ffont | puts | cache | uputs => cases hp
  | _ => rfl

/-- The operands of a glyph are read whole (R129). -/
theorem operands_readFields_hfglyph {h w : Word} {ws : List Word} (hw : highHalf w = 0) (hlen : ws.length = if glyphKind h then 8 else 2) :
    (readFields .hfglyph h (w :: ws)).operands = w :: ws ∧ (readFields .hfglyph h (w :: ws)).wf = true := by
  have hfirst : wordOfHalves (lowHalf w) 0 = w := hw ▸ wordOfHalves_halves w
  have hdrop : (w :: ws).drop 1 = ws := rfl
  cases hk : glyphKind h with
  | true =>
    rw [hk, if_pos rfl] at hlen
    have hu : unpack16 16 ws = unitsOf ws := unpack16_length (by omega)
    simp only [readFields, hk, if_true, hdrop, hu, Instr.operands, Instr.wf, Glyph.wf, pack16_unitsOf, length_unitsOf, hlen]
    exact ⟨by rw [List.getD_cons_zero, hfirst], rfl⟩
  | false =>
    rw [hk, if_neg Bool.false_ne_true] at hlen
    have hu : unpack8 8 ws = bytesOf ws := unpack8_length (by omega)
    simp only [readFields, hk, Bool.false_eq_true, if_false, hdrop, hu, Instr.operands, Instr.wf, Glyph.wf, pack8_bytesOf, length_bytesOf,
      hlen]
    exact ⟨by rw [List.getD_cons_zero, hfirst], rfl⟩

/-- Without padding the operand words are read whole. -/
theorem operands_readFields {o : Op} {h : Word} {ops : List Word} (hp : lastWordPads o = false) (hlen : ops.length + 1 = commandLength o h 0)
    (hol : operandLegal o (ops.getD 0 0) = true) : (readFields o h ops).operands = ops ∧ (readFields o h ops).wf = true := by
  cases o with
  | ffont | puts | cache | uputs => cases hp
  | hfglyph =>
    cases ops with
    | nil =>
      simp only [commandLength, List.length_nil] at hlen
      omega
    | cons w ws =>
      have hw : highHalf w = 0 := by simpa [operandLegal] using hol
      exact operands_readFields_hfglyph hw (by simp only [commandLength, List.length_cons] at hlen; omega)
  | contrast | pixel | rdpix | cursor =>
    obtain ⟨w, rfl⟩ := List.length_eq_one_iff.mp (Nat.succ.inj hlen)
    simp [readFields, Instr.operands, Instr.wf, wordOfHalves_halves]
  | line | rect =>
    obtain ⟨w, w', rfl⟩ := List.length_eq_two.mp (Nat.succ.inj hlen)
    simp [readFields, Instr.operands, Instr.wf, wordOfHalves_halves]
  | reset | begin | update | clear | dispoff | dispon | teardown | hfbegin | hfend =>
    obtain rfl := List.length_eq_zero_iff.mp (Nat.succ.inj hlen)
    exact ⟨rfl, rfl⟩

/-- The check of a first operand word passes where there is none. -/
theorem operandLegal_take {o : Op} {ops : List Word} (h : operandLegal o (ops.getD 0 0) = true) (n : Nat) :
    operandLegal o ((ops.take n).getD 0 0) = true := by
  cases n with
  | zero =>
    show operandLegal o 0 = true
    cases o <;> decide
  | succ n => cases ops <;> exact h

/-- What the decoder has found when it gives a command. -/
theorem decode_command {ws : List Word} {i : Instr} {n : Nat} (hd : decode ws = .command i n) :
    ∃ o h ops, ws = h :: ops ∧ Op.ofCode (hOp h) = some o ∧ n = commandLength o h (ops.getD 0 0) ∧ n ≤ ops.length + 1 ∧
      headerLegal o h = true ∧ operandLegal o (ops.getD 0 0) = true ∧ i = readFields o h (ops.take (n - 1)) := by
  cases ws with
  | nil => cases hd
  | cons h ops =>
    cases ho : Op.ofCode (hOp h) with
    | none => simp [decode, ho] at hd
    | some o =>
      rw [decode_cons ho] at hd
      split at hd
      next => cases hd
      next hlen =>
        split at hd
        next hlegal =>
          obtain ⟨hl, hol⟩ := Bool.and_eq_true_iff.mp hlegal
          cases hd
          exact ⟨o, h, ops, rfl, ho, rfl, by omega, hl, hol, rfl⟩
        next => cases hd

/-- Settles O6: the header of the fields is the header read, and the operand words of the fields are the words read. -/
theorem encodeOfDecode : Obligations.EncodeOfDecode := by
  unfold Obligations.EncodeOfDecode
  intro ws i n hd hffont hputs hcache huputs
  obtain ⟨o, h, ops, rfl, ho, hn, hle, hl, hol, rfl⟩ := decode_command hd
  rw [readFields_op] at hffont hputs hcache huputs
  have hp : lastWordPads o = false := by
    cases o with
    | ffont => exact absurd rfl hffont
    | puts => exact absurd rfl hputs
    | cache => exact absurd rfl hcache
    | uputs => exact absurd rfl huputs
    | _ => rfl
  have hpos : 0 < n := by rw [hn]; cases o <;> simp [commandLength]
  obtain ⟨m, rfl⟩ : ∃ m, n = m + 1 := ⟨n - 1, by omega⟩
  have hlen : (ops.take (m + 1 - 1)).length + 1 = commandLength o h 0 := by
    rw [← commandLength_of_not_padded hp h (ops.getD 0 0), ← hn, List.length_take]
    omega
  obtain ⟨hoperands, hwf⟩ := operands_readFields hp hlen (operandLegal_take hol _)
  refine ⟨hwf, hle, ?_⟩
  calc encode (readFields o h (ops.take (m + 1 - 1)))
      = headerOf (readFields o h (ops.take (m + 1 - 1))) :: (readFields o h (ops.take (m + 1 - 1))).operands := rfl
    _ = h :: ops.take m := by rw [headerOf_readFields _ ho hl, hoperands, Nat.add_sub_cancel]
    _ = (h :: ops).take (m + 1) := List.take_succ_cons.symm

/-- Settles O7: each list of words is evaluated by the decoder. -/
theorem decodedWords : Obligations.DecodedWords := by
  unfold Obligations.DecodedWords
  decide +kernel

end Sys2Proof.Machine
end

/-! Family other: which commands pass the checks of R303, and what the next turn of a step is. -/
section
namespace Sys2Proof.Machine

/-! ## Commands that pass every check (R303) -/

theorem firstFailing_none {l : List (Bool × Status)} (h : ∀ c ∈ l, c.1 = false) : firstFailing l = none := by
  induction l with
  | nil => rfl
  | cons c l ih =>
    obtain ⟨hc, hl⟩ := List.forall_mem_cons.mp h
    rw [firstFailing, hc, if_neg Bool.false_ne_true]
    exact ih hl

/-- A command that fails no check executes. -/
theorem refusalOf_none {i : Instr} {s : State} (hwf : i.wf = true) (hcap : tooLarge s.cfg i = false)
    (hready : transmits i = true → s.transmitReady = true) (hpre : ∀ c ∈ preconditions s i, c.1 = false) : refusalOf i s = none := by
  have htransmit : (transmits i && !s.transmitReady) = false := by
    cases ht : transmits i with
    | false => rfl
    | true => rw [hready ht]; rfl
  refine firstFailing_none ?_
  rw [hwf, hcap, htransmit]
  exact List.forall_mem_cons.mpr ⟨rfl, List.forall_mem_cons.mpr ⟨rfl, List.forall_mem_cons.mpr ⟨rfl, hpre⟩⟩⟩

/-- The checks of a drawing command (R220). -/
theorem refusalOf_draw {i : Instr} {s : State} (hi : i.op = .pixel ∨ i.op = .line ∨ i.op = .rect)
    (hready : transmits i = true → s.transmitReady = true) : refusalOf i s = none := by
  cases i with
  | pixel | line | rect => exact refusalOf_none rfl rfl hready fun c hc => absurd hc List.not_mem_nil
  | _ => simp [Instr.op] at hi

/-- The checks of a display-control command that has none but TransmitReady (R164). -/
theorem refusalOf_control {i : Instr} {s : State}
    (hi : i.op = .update ∨ i.op = .clear ∨ i.op = .dispoff ∨ i.op = .dispon ∨ i.op = .teardown) (hready : s.transmitReady = true) :
    refusalOf i s = none := by
  cases i with
  | update | clear | dispoff | dispon | teardown => exact refusalOf_none rfl rfl (fun _ => hready) fun c hc => absurd hc List.not_mem_nil
  | _ => simp [Instr.op] at hi

/-- A contrast from 0 to 255 is legal (R172). -/
theorem refusalOf_contrast {s : State} (tag : Byte) {v : Word} (hready : s.transmitReady = true) (h0 : 0 ≤ v.toInt) (h1 : v.toInt ≤ 255) :
    refusalOf (.contrast tag v) s = none := by
  refine refusalOf_none rfl rfl (fun _ => hready) fun c hc => ?_
  obtain rfl := List.mem_singleton.mp hc
  simp [h0, h1]

/-- The checks of WRITE_STRING (R247, R303). -/
theorem refusalOf_puts {s : State} (tag : Byte) (v : Intensity) {b : Bool} {size : BitVec 8} {text : List Char16} (hsize : size ≠ 0)
    (hlen : text.length < 65536) (hcap : text.length ≤ s.cfg.textMax) (hready : b = true → s.transmitReady = true)
    (hfont : s.ffontValid = true) : refusalOf (.puts tag v b size text) s = none := by
  refine refusalOf_none (by simpa [Instr.wf] using ⟨hsize, hlen⟩) (by simpa [tooLarge] using hcap) hready fun c hc => ?_
  obtain rfl := List.mem_singleton.mp hc
  rw [hfont]
  rfl

/-- The checks of WRITE_UNIFONT (R260, R303). -/
theorem refusalOf_uputs {s : State} (tag : Byte) (v : Intensity) {b : Bool} {text : List Char16} (hlen : text.length < 65536)
    (hcap : text.length ≤ s.cfg.textMax) (hready : b = true → s.transmitReady = true) (hfont : s.hfState = .loaded)
    (hvalid : s.cacheValid = true) (hcovers : ∀ ch ∈ text, (KeyMap.find ch s.cache).isSome = true) :
    refusalOf (.uputs tag v b text) s = none := by
  refine refusalOf_none (by simpa [Instr.wf] using hlen) (by simpa [tooLarge] using hcap) hready fun c hc => ?_
  rcases List.mem_cons.mp hc with rfl | hc
  · rw [hfont]
    rfl
  · obtain rfl := List.mem_singleton.mp hc
    have hall : text.all (fun ch => (KeyMap.find ch s.cache).isSome) = true := List.all_eq_true.mpr hcovers
    rw [hvalid, hall]
    rfl

/-! ## The turn a step takes -/

/-- A step is the turn of the timeline's next event, or of an agent of the block where the timeline is empty. -/
theorem step_cases {s t : State} (h : step s = .next t) :
    (s.env = [] ∧ seqEnabled s = true ∧ t = seqTurn s) ∨ (s.env = [] ∧ procTurn s = .next t) ∨
      ∃ e later, s.env = e :: later ∧ eventTurn e { s with env := later } = .next t := by
  unfold step at h
  split at h
  next =>
    unfold turn at h
    split at h
    next he =>
      unfold defaultTurn at h
      split at h
      next hseq => cases h; exact .inl ⟨he, hseq, rfl⟩
      next => exact .inr (.inl ⟨he, h⟩)
    next e later he => exact .inr (.inr ⟨e, later, he, h⟩)
  next => cases h

end Sys2Proof.Machine
end

/-! Family other: the invariant (R33 to R46, R157, R163). -/
section
namespace Sys2Proof.Machine

/-- Every event of the timeline keeps the invariant. -/
theorem eventTurn_ok {s t : State} (hi : Inv s) (e : Event) (h : eventTurn e s = .next t) : Inv t := by
  cases e with
  | proc => exact procTurn_ok hi h
  | procFine => cases h; exact procFineTurn_ok hi
  | seq => cases h; exact seqTurn_ok hi
  | seqFine => cases h; exact seqFineTurn_ok hi
  | answer ok => cases h; exact answer_ok' hi ok
  | timer => cases h; exact timerTurn_ok hi
  | hostRead addr bytes => exact hostReadTurn_ok hi addr bytes h
  | hostWrite addr bytes v => exact hostWriteTurn_ok hi addr bytes v h
  | powerOn fb => cases h; exact powerOnTurn_ok hi fb

/-- Settles O4: a step is one agent's turn, and the turn of each agent keeps the invariant. -/
theorem invariantKept : Obligations.InvariantKept := by
  unfold Obligations.InvariantKept
  intro s s' hi hstep
  rcases step_cases hstep with ⟨-, -, rfl⟩ | ⟨-, hturn⟩ | ⟨e, later, -, hturn⟩
  · exact seqTurn_ok hi
  · exact procTurn_ok hi hturn
  · exact eventTurn_ok (hi.withEnv later) e hturn

/-- The invariant holds of the power-on state of every configuration in order. -/
theorem inv_powerOn {c : Config} (hc : c.Ok) : Inv (State.powerOn c) := by
  refine ⟨⟨hc, rfl, rfl, Nat.zero_le _, fun h => (by cases h), Nat.zero_le _, rfl, Nat.zero_le _, fun e he => absurd he List.not_mem_nil,
    rfl, fun h => (by cases h)⟩, Knows.start, ?_⟩
  exact ⟨⟨rfl, rfl, rfl, rfl⟩, rfl, fun h => (by cases h), fun h => (by cases h), ⟨fun h => (by cases h), fun h => (by cases h)⟩, rfl, rfl,
    rfl, rfl, rfl⟩

/-- Settles O3: the reset state is the power-on state of REF, whose configuration is in order. -/
theorem invariantAtReset : Obligations.InvariantAtReset := inv_powerOn (by decide)

end Sys2Proof.Machine
end

/-! Family other: what a running sequence, the framebuffer and a reset hold are to SEQ and to the other agents (R93, R94, R158, R163). -/
section
namespace Sys2Proof.Machine

/-! ## While SEQ plays -/

/-- SEQ's registers but its place are as before, and its place is no earlier one. -/
structure KeepsSequence (s t : State) : Prop where
  snap : t.snap = s.snap
  steps : t.seqSteps = s.seqSteps
  done : t.seqDone = s.seqDone
  pos : s.seqPos ≤ t.seqPos

theorem SameSeq.keepsSequence {s t : State} (h : SameSeq s t) : KeepsSequence s t := ⟨h.snap, h.steps, h.done, h.pos.ge⟩

/-- A run of steps never moves SEQ back. -/
theorem playSteps_pos (steps : List SeqStep) (s : State) : s.seqPos ≤ (playSteps steps s).1.seqPos := by
  induction steps generalizing s with
  | nil => exact le_rfl
  | cons st rest ih =>
    rcases env_cases s with ⟨later, h⟩ | ⟨later, h⟩ | h
    · rw [playSteps_cons_ok h]
      refine le_trans ?_ (ih _)
      exact Nat.le_succ s.seqPos
    · rw [playSteps_cons_fail h]
    · rw [playSteps_cons_wait h]
      exact le_rfl

theorem playSteps_keepsSequence (steps : List SeqStep) (s : State) : KeepsSequence s (playSteps steps s).1 := by
  have hf := playSteps_frame steps s
  exact ⟨by rw [hf], by rw [hf], by rw [hf], playSteps_pos steps s⟩

/-- SEQ's turn, also its fine turn, while it plays: it waits for an answer, or plays on. -/
theorem seqTurn_playing {s : State} (hs : s.seqStage = .playing) :
    seqTurn s = (if s.seqPending.isSome then s else (playSteps (s.seqSteps.drop s.seqPos) s).1) ∧ seqFineTurn s = seqTurn s := by
  have hturn : seqTurn s = if s.seqPending.isSome then s else (playSteps (s.seqSteps.drop s.seqPos) s).1 := by
    cases hp : s.seqPending <;> simp [seqTurn, hs, hp]
  exact ⟨hturn, by simp only [seqFineTurn, hs]⟩

theorem seqTurn_keepsSequence {s : State} (hs : s.seqStage = .playing) : KeepsSequence s (seqTurn s) := by
  rw [(seqTurn_playing hs).1]
  split
  · exact (SameSeq.refl s).keepsSequence
  · exact playSteps_keepsSequence _ s

/-- SEQ's turn while it waits for an answer changes nothing. -/
theorem seqTurn_pending {s : State} {r : Request} (hs : s.seqStage = .playing) (hr : s.seqPending = some r) : seqTurn s = s := by
  rw [(seqTurn_playing hs).1, hr]
  rfl

theorem answer_keepsSequence (ok : Bool) (s : State) : KeepsSequence s (s.answer ok) := by
  cases hp : s.seqPending with
  | none =>
    rw [answer_none ok hp]
    exact (SameSeq.refl s).keepsSequence
  | some r =>
    cases ok with
    | true =>
      rw [answer_ok hp]
      exact ⟨rfl, rfl, rfl, Nat.le_succ _⟩
    | false =>
      rw [answer_fail hp]
      exact ⟨rfl, rfl, rfl, le_rfl⟩

theorem sameSeq_timerTurn (s : State) : SameSeq s (timerTurn s) := by
  unfold timerTurn
  split
  · exact sameSeq_hold _ s
  all_goals exact .refl s

theorem sameSeq_writeRegister (r : Register) (v : Word) (s : State) : SameSeq s (writeRegister r v s) := by
  cases r with
  | cmd =>
    rw [writeRegister]
    split <;> exact ⟨rfl, rfl, rfl, rfl, rfl, rfl, rfl, rfl, rfl⟩
  | _ => exact ⟨rfl, rfl, rfl, rfl, rfl, rfl, rfl, rfl, rfl⟩

/-- A host access that is not refused is held back, or is a read or a write of a register. -/
theorem hostTurn_cases {s t : State} {addr bytes : Nat} {v : Word}
    (h : hostReadTurn addr bytes s = .next t ∨ hostWriteTurn addr bytes v s = .next t) :
    t = s ∨ (∃ w, t = { s with busRead := w }) ∨ ∃ r, t = writeRegister r v s := by
  rcases h with h | h
  · unfold hostReadTurn at h
    split at h
    · cases h; exact .inl rfl
    · split at h
      · cases h
      · cases h; exact .inr (.inl ⟨_, rfl⟩)
  · unfold hostWriteTurn at h
    split at h
    · cases h; exact .inl rfl
    · split at h
      · cases h
      · cases h; exact .inr (.inr ⟨_, rfl⟩)

theorem sameSeq_host {s t : State} {addr bytes : Nat} {v : Word}
    (h : hostReadTurn addr bytes s = .next t ∨ hostWriteTurn addr bytes v s = .next t) : SameSeq s t := by
  rcases hostTurn_cases h with rfl | ⟨w, rfl⟩ | ⟨r, rfl⟩
  · exact .refl _
  · exact ⟨rfl, rfl, rfl, rfl, rfl, rfl, rfl, rfl, rfl⟩
  · exact sameSeq_writeRegister r v s

/-- While SEQ plays, an event that is no power-on reset keeps the sequence; while it waits, one that is no answer either changes nothing
of SEQ. -/
theorem eventTurn_playing {s t : State} {e : Event} (hi : Inv s) (hs : s.seqStage = .playing) (hpow : ∀ fb, e ≠ .powerOn fb)
    (h : eventTurn e s = .next t) :
    KeepsSequence s t ∧ ∀ r, s.seqPending = some r → (∀ ok, e ≠ .answer ok) → SameSeq s t := by
  have hsame : SameSeq s t → KeepsSequence s t ∧ ∀ r, s.seqPending = some r → (∀ ok, e ≠ .answer ok) → SameSeq s t :=
    fun hq => ⟨hq.keepsSequence, fun _ _ _ => hq⟩
  cases e with
  | proc => exact hsame (procTurn_undisturbed hi hs h)
  | procFine => cases h; exact hsame (procFineTurn_undisturbed hi hs)
  | seq => cases h; exact ⟨seqTurn_keepsSequence hs, fun r hr _ => by rw [seqTurn_pending hs hr]; exact .refl s⟩
  | seqFine =>
    cases h
    rw [(seqTurn_playing hs).2]
    exact ⟨seqTurn_keepsSequence hs, fun r hr _ => by rw [seqTurn_pending hs hr]; exact .refl s⟩
  | answer ok => cases h; exact ⟨answer_keepsSequence ok s, fun _ _ hans => absurd rfl (hans ok)⟩
  | timer => cases h; exact hsame (sameSeq_timerTurn s)
  | hostRead addr bytes => exact hsame (sameSeq_host (v := 0) (.inl h))
  | hostWrite addr bytes v => exact hsame (sameSeq_host (.inr h))
  | powerOn fb => exact absurd rfl (hpow fb)

/-- Settles O32: PROC's turns by `procTurn_undisturbed`, SEQ's and the answers by their own lemmas; the other agents do not touch SEQ. -/
theorem sequenceUndisturbed : Obligations.SequenceUndisturbed := by
  unfold Obligations.SequenceUndisturbed
  intro s t hi hs hpow hstep
  have hall : KeepsSequence s t ∧ ∀ r, s.seqPending = some r → (∀ ok, s.env.head? ≠ some (.answer ok)) → SameSeq s t := by
    rcases step_cases hstep with ⟨-, henabled, rfl⟩ | ⟨-, hturn⟩ | ⟨e, later, he, hturn⟩
    · refine ⟨seqTurn_keepsSequence hs, fun r hr _ => ?_⟩
      simp [seqEnabled, hs, hr] at henabled
    · have hq := procTurn_undisturbed hi hs hturn
      exact ⟨hq.keepsSequence, fun _ _ _ => hq⟩
    · rw [he] at hpow ⊢
      obtain ⟨hkeep, hwait⟩ := eventTurn_playing (hi.withEnv later) hs (fun fb hfb => hpow fb (congrArg some hfb)) hturn
      have hq : SameSeq s { s with env := later } := ⟨rfl, rfl, rfl, rfl, rfl, rfl, rfl, rfl, rfl⟩
      exact ⟨⟨hkeep.snap, hkeep.steps, hkeep.done, hkeep.pos⟩,
        fun r hr hans => hq.trans (hwait r hr fun ok hok => hans ok (congrArg some hok))⟩
  obtain ⟨⟨hsnap, hsteps, hdone, hpos⟩, hwait⟩ := hall
  refine ⟨hsnap, hsteps, hdone, hpos, fun r hr hans => ?_⟩
  have hq := hwait r hr hans
  exact ⟨hq.stage.trans hs, hq.pending.trans hr, hq.pos, hq.phase, hq.trace⟩

/-! ## SEQ and the framebuffer (R93) -/

theorem pushSeq_setFb (r : Resp) (s : State) (fb : Memory) : State.pushSeq r { s with fb := fb } = { s.pushSeq r with fb := fb } := by
  have hroom : State.respRoom { s with fb := fb } = s.respRoom := rfl
  simp only [State.pushSeq, hroom]
  split <;> rfl

/-- A completion action does not read or write `FB`, however its record is pushed. -/
theorem seqComplete_fb {push : Resp → State → State}
    (hpush : ∀ r (s : State) (fb : Memory), push r { s with fb := fb } = { push r s with fb := fb }) (ok : Bool) (s : State) (fb : Memory) :
    seqComplete push ok { s with fb := fb } = { seqComplete push ok s with fb := fb } := by
  cases hd : s.seqDone with
  | none => simp only [seqComplete, hd]
  | some d => cases d <;> simp only [seqComplete, hd, SeqDone.act, ← hpush]

theorem seqTurn_playing_fb {s : State} (hs : s.seqStage = .playing) (fb : Memory) :
    seqTurn { s with fb := fb } = { seqTurn s with fb := fb } := by
  rw [(seqTurn_playing hs).1, (seqTurn_playing (s := { s with fb := fb }) hs).1, playSteps_fb]
  by_cases hp : s.seqPending.isSome
  · rw [if_pos hp, if_pos hp]
  · rw [if_neg hp, if_neg hp]

theorem seqTurn_fb (s : State) (fb : Memory) : seqTurn { s with fb := fb } = { seqTurn s with fb := fb } := by
  cases hs : s.seqStage with
  | idle => simp only [seqTurn, hs]
  | pushed => simp only [seqTurn, hs]; rfl
  | playing => simpa only [hs] using seqTurn_playing_fb hs fb
  | returned ok => simpa only [seqTurn, hs] using seqComplete_fb pushSeq_setFb ok s fb
  | pushing r => simpa only [seqTurn, hs] using pushSeq_setFb r s fb

theorem seqFineTurn_pushing_fb {s : State} {r : Resp} (hs : s.seqStage = .pushing r) (fb : Memory) :
    seqFineTurn { s with fb := fb } = { seqFineTurn s with fb := fb } := by
  have hturn : ∀ u : State, u.seqStage = .pushing r →
      seqFineTurn u = if u.respRoom then { u with respq := u.respq ++ [r], seqStage := .pushed } else u := by
    intro u hu
    simp only [seqFineTurn, hu]
  have hroom : State.respRoom { s with fb := fb } = s.respRoom := rfl
  rw [hturn s hs, hturn { s with fb := fb } hs, hroom]
  by_cases h : s.respRoom
  · rw [if_pos h, if_pos h]
  · rw [if_neg h, if_neg h]

theorem seqFineTurn_fb (s : State) (fb : Memory) : seqFineTurn { s with fb := fb } = { seqFineTurn s with fb := fb } := by
  have hturn := seqTurn_fb s fb
  cases hs : s.seqStage with
  | idle | playing | pushed => simpa only [seqFineTurn, hs] using hturn
  | returned ok =>
    simpa only [seqFineTurn, hs] using
      seqComplete_fb (push := fun r s' => { s' with seqStage := .pushing r }) (fun _ _ _ => rfl) ok s fb
  | pushing r => simpa only [hs] using seqFineTurn_pushing_fb hs fb

theorem answer_fb (ok : Bool) (s : State) (fb : Memory) : State.answer ok { s with fb := fb } = { s.answer ok with fb := fb } := by
  rcases Option.eq_none_or_eq_some s.seqPending with hp | ⟨r, hp⟩
  · rw [answer_none ok hp, answer_none (s := { s with fb := fb }) ok hp]
  · cases ok with
    | true => rw [answer_ok hp, answer_ok (s := { s with fb := fb }) hp]
    | false => rw [answer_fail hp, answer_fail (s := { s with fb := fb }) hp]

/-- Settles O33: each turn of SEQ, and an answer, commutes with another framebuffer. -/
theorem sequencerIgnoresFb : Obligations.SequencerIgnoresFb :=
  fun s fb ok => ⟨seqTurn_fb s fb, seqFineTurn_fb s fb, answer_fb ok s fb⟩

/-! ## The reset hold (R163, R350) -/

/-- In a reset hold SEQ is idle with nothing pending, and the line is low. -/
theorem resetHold_facts {s : State} {j : Job} (hi : Inv s) (hp : s.proc = .executing (.jobTimer j)) :
    s.seqStage = .idle ∧ s.seqPending = none ∧ s.resetOut = false := by
  obtain ⟨-, k, ha⟩ := hi
  have hsafe := ha.proc_ok
  rw [hp] at hsafe
  obtain ⟨hidle, hlow, -, -⟩ := hsafe
  have hstage := ha.idle_ok hidle
  have hseq := ha.seq_ok
  rw [SeqOk, hstage] at hseq
  obtain ⟨-, -, -, hpending⟩ := hseq
  exact ⟨hstage, hpending, by rw [ha.line_ok, hlow]; rfl⟩

/-- Two states agree on where PROC stands, on `CTRL_STATE` and on the outputs. -/
structure SameHold (s t : State) : Prop where
  proc : t.proc = s.proc
  line : t.resetOut = s.resetOut
  trace : t.trace = s.trace
  ctrl : t.ctrl = s.ctrl

theorem SameHold.refl (s : State) : SameHold s s := ⟨rfl, rfl, rfl, rfl⟩

/-- A host write leaves a reset hold: only the end of a warning would touch PROC. -/
theorem writeRegister_resetHold {s : State} {j : Job} (hp : s.proc = .executing (.jobTimer j)) (r : Register) (v : Word) :
    SameHold s (writeRegister r v s) := by
  cases r with
  | cmd =>
    rw [writeRegister]
    split <;> exact ⟨rfl, rfl, rfl, rfl⟩
  | warn =>
    have hw : s.proc.warningOver = s.proc := by rw [hp]; rfl
    exact ⟨hw, rfl, rfl, rfl⟩
  | _ => exact ⟨rfl, rfl, rfl, rfl⟩

/-- In a reset hold no event but TIMER's report and the power-on reset goes on. -/
theorem eventTurn_resetHold {s t : State} {j : Job} {e : Event} (hi : Inv s) (hp : s.proc = .executing (.jobTimer j)) (htimer : e ≠ .timer)
    (hpow : ∀ fb, e ≠ .powerOn fb) (h : eventTurn e s = .next t) : SameHold s t := by
  obtain ⟨hstage, hpending, -⟩ := resetHold_facts hi hp
  have hhost : ∀ {addr bytes v}, (hostReadTurn addr bytes s = .next t ∨ hostWriteTurn addr bytes v s = .next t) → SameHold s t := by
    intro addr bytes v hturn
    rcases hostTurn_cases hturn with rfl | ⟨w, rfl⟩ | ⟨r, rfl⟩
    · exact .refl _
    · exact ⟨rfl, rfl, rfl, rfl⟩
    · exact writeRegister_resetHold hp r v
  cases e with
  | proc => simp only [eventTurn, procTurn, hp, resume] at h; cases h; exact .refl s
  | procFine => simp only [eventTurn, procFineTurn, hp] at h; cases h; exact .refl s
  | seq => simp only [eventTurn, seqTurn, hstage] at h; cases h; exact .refl s
  | seqFine => simp only [eventTurn, seqFineTurn, seqTurn, hstage] at h; cases h; exact .refl s
  | answer ok => rw [eventTurn, answer_none ok hpending] at h; cases h; exact .refl s
  | timer => exact absurd rfl htimer
  | hostRead addr bytes => exact hhost (v := 0) (.inl h)
  | hostWrite addr bytes v => exact hhost (.inr h)
  | powerOn fb => exact absurd rfl (hpow fb)

/-- A reset pulse that TIMER does not end at once drives the line low and holds. -/
theorem runPieces_resetPulse_holds {s : State} (he : s.env.head? ≠ some .timer) (rest : List Piece) (j : Job) :
    runPieces (resetPulse ++ rest) j s =
      State.hold (.jobTimer { j with todo := .effect (.resetOut true) :: rest })
        { s with resetOut := false, trace := .resetLine false :: s.trace } := by
  show runPieces (.effect (.resetOut false) :: .waitHold :: .effect (.resetOut true) :: rest) j s = _
  rw [runPieces_effect, runPieces_cons]
  rcases doPiece_waitHold (j.note (.resetOut false)) (.effect (.resetOut true) :: rest) ((Effect.resetOut false).apply s) with
    ⟨later, henv, -⟩ | ⟨-, hd⟩
  · have henv' : s.env = .timer :: later := henv
    exact absurd (by rw [henv']; rfl) he
  · rw [hd]
    rfl

/-- RESET and BEGIN begin with the same pieces. -/
theorem workOf_pulse {i : Instr} {tag : Byte} (hi : i = .reset tag ∨ i = .begin tag) (s : State) :
    refusalOf i s = none ∧ ∃ rest, workOf s i = .waitIdle :: .effect (.ctrl .resetting) :: (resetPulse ++ rest) := by
  rcases hi with rfl | rfl
  · exact ⟨rfl, _, rfl⟩
  · exact ⟨rfl, _, rfl⟩

/-- Settles O35: in the hold no agent has a step (`resetHold_facts`); the two commands reach it at the pulse; TIMER's report goes on as
`stepN_timer` has it. -/
theorem resetHold : Obligations.ResetHold := by
  unfold Obligations.ResetHold
  refine ⟨fun s t j hi hp htimer hpow hstep => ?inHold, fun s tag i hi hs he => ?entry, fun i s t j later hc h he hp => ?goesOn⟩
  case inHold =>
    obtain ⟨hstage, -, hline⟩ := resetHold_facts hi hp
    have hsame : SameHold s t := by
      rcases step_cases hstep with ⟨-, henabled, -⟩ | ⟨-, hturn⟩ | ⟨e, later, he, hturn⟩
      · simp [seqEnabled, hstage] at henabled
      · simp only [procTurn, hp, resume] at hturn
        cases hturn
        exact .refl s
      · rw [he] at htimer hpow
        obtain ⟨hproc, hout, htrace, hctrl⟩ := eventTurn_resetHold (hi.withEnv later) hp (fun h => htimer (congrArg some h))
          (fun fb h => hpow fb (congrArg some h)) hturn
        exact ⟨hproc, hout, htrace, hctrl⟩
    exact ⟨hline, hsame.proc, hsame.line.trans hline, hsame.trace, hsame.ctrl⟩
  case entry =>
    obtain ⟨hcheck, rest, hwork⟩ := workOf_pulse hi s
    rw [exec_runs hcheck, hwork, runPieces_waitIdle (seqBusy_of_idle hs), runPieces_effect,
      runPieces_resetPulse_holds (by rw [Effect.apply_env]; exact he)]
    exact ⟨_, rfl⟩
  case goesOn => exact stepN_timer hc h he hp later

end Sys2Proof.Machine
end

/-! Family other: the sequences of the sequencer, their runs and their completion actions (R152 to R162, R308). -/
section
namespace Sys2Proof.Machine

/-! ## The steps of the sequences (R161, R162) -/

/-- The column window of a full row starts at 28 and ends at `27 + WIDTH/4`. -/
theorem columnWindow_eq (c : Config) :
    columnWindow c =
      [.enterCmd, .tx [c.panel.setColumn], .enterData, .tx [28], .tx [BitVec.ofNat 8 (27 + c.width / 4)]] := by
  have hlast : colOffset + c.hc - 1 = 27 + c.width / 4 := by
    simp only [colOffset, Config.hc]
    omega
  rw [columnWindow, hlast]
  rfl

/-- The row window of all rows. -/
theorem rowWindow_eq (c : Config) :
    rowWindow c = [.enterCmd, .tx [c.panel.setRow], .enterData, .tx [0], .tx [BitVec.ofNat 8 (c.height - 1)]] := rfl

theorem updateSeq_eq (c : Config) :
    updateSeq c =
      [.enterCmd, .tx [c.panel.setColumn], .enterData, .tx [28], .tx [BitVec.ofNat 8 (27 + c.width / 4)],
        .enterCmd, .tx [c.panel.setRow], .enterData, .tx [0], .tx [BitVec.ofNat 8 (c.height - 1)],
        .enterCmd, .tx [c.panel.writeRam], .enterData, .txSnap] := by
  rw [updateSeq, columnWindow_eq, rowWindow_eq]
  rfl

/-- The requests of an update sequence, of which the last carries the snapshot. -/
theorem updateSeq_requests (c : Config) (snap : List Byte) :
    (updateSeq c).map (SeqStep.request snap) =
      [.setPhase .command, .write [c.panel.setColumn], .setPhase .data, .write [28], .write [BitVec.ofNat 8 (27 + c.width / 4)],
        .setPhase .command, .write [c.panel.setRow], .setPhase .data, .write [0], .write [BitVec.ofNat 8 (c.height - 1)],
        .setPhase .command, .write [c.panel.writeRam], .setPhase .data, .write snap] := by
  rw [updateSeq_eq]
  rfl

theorem length_bypassBytes (c : Config) (fb : Memory) (x y : Nat) (v : Intensity) : (bypassBytes c fb x y v).length = 2 := by
  simp only [bypassBytes]
  split <;> rfl

/-- The bytes of a bypass pixel's requests: seven of its groups and the two of its column group. -/
theorem length_bypassSeq_bytes (c : Config) (fb : Memory) (x y : Nat) (v : Intensity) (snap : List Byte) :
    (((bypassSeq c fb x y v).map (SeqStep.request snap)).flatMap Request.bytes).length = 9 := by
  have hsplit : ((bypassSeq c fb x y v).map (SeqStep.request snap)).flatMap Request.bytes =
      [c.panel.setColumn, byteOfNat (colOffset + x / 4), byteOfNat (colOffset + x / 4), c.panel.setRow, byteOfNat y, byteOfNat y,
        c.panel.writeRam] ++ (bypassBytes c fb x y v ++ []) := rfl
  rw [hsplit, List.append_nil, List.length_append, length_bypassBytes]
  rfl

/-- Settles O31: the steps as `updateSeq_eq` lists them; what is counted are the requests of listed steps. -/
theorem sequenceCounts : Obligations.SequenceCounts := by
  unfold Obligations.SequenceCounts
  intro c snap fb x y v b hsnap
  refine ⟨updateSeq_eq c, ?update, ⟨rfl, rfl⟩, ⟨rfl, rfl, rfl, rfl⟩, ?pixel, length_bypassSeq_bytes c fb x y v snap⟩
  case update =>
    rw [updateSeq_requests]
    exact ⟨rfl, rfl, rfl, by simp [Request.bytes, hsnap]⟩
  case pixel => rw [List.length_map, length_bypassSeq]

/-- Settles O37: the groups between the row window and display-on are the middle. -/
theorem initSequenceGroups : Obligations.InitSequenceGroups := by
  unfold Obligations.InitSequenceGroups
  intro c _
  refine ⟨Group.steps c.initGroups.clockDivisor ++ Group.steps c.initGroups.muxRatio ++ Group.steps c.initGroups.remap ++
    Group.steps c.initGroups.vdd ++ Group.steps c.initGroups.enhancement ++ Group.steps c.initGroups.contrast ++
    Group.steps c.initGroups.grayTable ++ Group.steps c.initGroups.phaseLength ++ Group.steps c.initGroups.precharge ++
    Group.steps c.initGroups.vcomh ++ Group.steps c.initGroups.displayNormal, ?_⟩
  rw [initSeq, columnWindow_eq, rowWindow_eq]
  simp only [group, List.append_assoc, List.isEmpty_nil, if_true, List.append_nil]

/-! ## Responses and a full queue (R308) -/

theorem respRoom_true {s : State} (h : s.respq.length < s.cfg.respFifoDepth) : s.respRoom = true := decide_eq_true h

theorem respRoom_false {s : State} (h : s.cfg.respFifoDepth ≤ s.respq.length) : s.respRoom = false := decide_eq_false h.not_gt

theorem pushSeq_room {r : Resp} {s : State} (h : s.respq.length < s.cfg.respFifoDepth) :
    s.pushSeq r = { s.releaseSeq with respq := s.respq ++ [r] } := if_pos (respRoom_true h)

theorem pushSeq_full {r : Resp} {s : State} (h : s.cfg.respFifoDepth ≤ s.respq.length) :
    s.pushSeq r = { s with seqStage := .pushing r } := if_neg (by rw [respRoom_false h]; exact Bool.false_ne_true)

/-- Settles O15: both pushers ask `respRoom`; without room each stands where it stood. -/
theorem fullResponseQueue : Obligations.FullResponseQueue := by
  unfold Obligations.FullResponseQueue
  refine ⟨fun s op tag st v hfull => State.pushProc_full (respRoom_false hfull), fun s r hfull => ?full, fun s r hroom => ?room⟩
  case full =>
    have hproc : State.pushProc r (s.hold (.push r)) = s.hold (.push r) := State.pushProc_full (s := s.hold (.push r)) (respRoom_false hfull)
    have hseq := pushSeq_full (r := r) (s := { s with seqStage := .pushing r }) hfull
    exact ⟨congrArg Host.Outcome.next hproc, hseq, rfl⟩
  case room =>
    have hproc := State.pushProc_room (r := r) (s := s.hold (.push r)) (respRoom_true hroom)
    have hseq := pushSeq_room (r := r) (s := { s with seqStage := .pushing r }) hroom
    exact ⟨congrArg Host.Outcome.next hproc, hseq⟩

/-! ## Completion actions (R156) -/

/-- SEQ's turn on a sequence that has returned: the writes of its completion action, then the push. -/
theorem step_completion {s s' : State} {later : List Event} {ok : Bool} {d : SeqDone} {r : Resp} (hc : s.cfg.Ok)
    (he : s.env = .seq :: later) (hs : s.seqStage = .returned ok) (hd : s.seqDone = some d)
    (hact : d.act ok { s with env := later } = (s', some r)) : step s = .next (s'.pushSeq r) := by
  rw [step_event hc he]
  simp only [eventTurn, seqTurn, hs, seqComplete, hd]
  rw [← hs, ← hd, hact]

/-- Settles O29: each action's writes are those of `SeqDone.act`, and its push asks for room. -/
theorem completionActions : Obligations.CompletionActions := by
  unfold Obligations.CompletionActions
  intro s later ok tag op hc he hs
  refine ⟨fun hroom => ⟨fun hd => ?_, fun hd => ?_, fun hd => ?_, fun hd => ?_⟩,
    fun hfull => ⟨fun hd => ?_, fun hd => ?_, fun hd => ?_, fun hd => ?_, fun r => rfl⟩⟩
  all_goals rw [step_completion hc he hs hd rfl]
  case refine_1 | refine_2 | refine_3 | refine_4 => exact congrArg Host.Outcome.next (pushSeq_room hroom)
  case refine_5 | refine_6 | refine_7 | refine_8 => exact congrArg Host.Outcome.next (pushSeq_full hfull)

/-! ## Runs of a sequence, and commands that wait for the answers (R152 to R156) -/

/-- SEQ's step, also a fine one, with no request pending: it plays the steps that are left. -/
theorem step_plays {s : State} {e : Event} {env : List Event} (hc : s.cfg.Ok) (hs : s.seqStage = .playing) (hp : s.seqPending = none)
    (he : e = .seq ∨ e = .seqFine) (henv : s.env = e :: env) :
    step s = .next (playSteps (s.seqSteps.drop s.seqPos) { s with env := env }).1 := by
  obtain ⟨hturn, hfine⟩ := seqTurn_playing (s := { s with env := env }) hs
  have hnone : ({ s with env := env } : State).seqPending.isSome = false := by simp [hp]
  rw [hnone, if_neg Bool.false_ne_true] at hturn
  rw [step_event hc henv]
  rcases he with rfl | rfl
  · exact congrArg Host.Outcome.next hturn
  · exact congrArg Host.Outcome.next (hfine.trans hturn)

/-- Text in the fixed font under bypass holds for the answer to each step of its cells. -/
theorem holdsForAnswers_puts {s : State} (tag : Byte) (v : Intensity) {size : BitVec 8} {text : List Char16} (hi : Inv s)
    (htr : s.transmitReady = true) (hs : s.seqIdle) (hsize : size ≠ 0) (hlen : text.length < 65536) (hcap : text.length ≤ s.cfg.textMax)
    (hfont : s.ffontValid = true) :
    HoldsForAnswers (.puts tag v true size text) s [] (bypassSteps s.cfg s.fb (textCells s size.toNat v s.cx text)).length := by
  rw [← plotsOf_text (hi.1.font_ok hfont)]
  exact holdsForAnswers_textual hs rfl (fun env => refusalOf_puts (s := { s with env := env }) tag v hsize hlen hcap (fun _ => htr) hfont)
    (fun env => textPieces_same (s := s) (t := { s with env := env }) rfl rfl rfl rfl _ _ _ _ _) (textPieces_textual _ _ _ _ _ _)

/-- Text in the hex font under bypass holds for the answer to each step of its cells. -/
theorem holdsForAnswers_uputs {s : State} (tag : Byte) (v : Intensity) {text : List Char16} (hi : Inv s) (htr : s.transmitReady = true)
    (hs : s.seqIdle) (hlen : text.length < 65536) (hcap : text.length ≤ s.cfg.textMax) (hfont : s.hfState = .loaded)
    (hvalid : s.cacheValid = true) (hcovers : ∀ ch ∈ text, (KeyMap.find ch s.cache).isSome = true) :
    HoldsForAnswers (.uputs tag v true text) s [] (bypassSteps s.cfg s.fb (unifontCells s v (unifontDraws s s.cx text))).length := by
  rw [← plotsOf_drawn, ← unifontPieces_drawn hi.1.cache_ok]
  exact holdsForAnswers_textual hs rfl
    (fun env => refusalOf_uputs (s := { s with env := env }) tag v hlen hcap (fun _ => htr) hfont hvalid hcovers)
    (fun env => unifontPieces_same (s := s) (t := { s with env := env }) rfl rfl rfl _ _ _) (unifontPieces_textual _ _ _ _)

/-- Settles O28: runs of steps by `playSteps_ok`, `playSteps_fail` and `playSteps_wait`; answers by their own laws; a command that holds by
`goesOnWhenAnswered`; and each blocking command holds for each answer. -/
theorem sequencePlays : Obligations.SequencePlays := by
  unfold Obligations.SequencePlays
  refine ⟨fun s later e steps hc hs hp hpos hsteps he => ?runs, fun s later r hc hp => ?answers,
    fun i s t j onFail hc hx he hp => goesOnWhenAnswered hc hx he hp,
    fun s tag hs => ⟨holdsForAnswers_begin tag hs, fun htr => holdsForAnswers_teardown tag htr hs⟩, fun s tag v hi htr hs => ?drawing⟩
  case runs =>
    subst hsteps
    have hlen : s.seqPos + (s.seqSteps.drop s.seqPos).length = s.seqSteps.length := by
      rw [List.length_drop]
      omega
    refine ⟨fun henv => ?accepted, fun k hk henv => ?refused, fun k st hk henv hl => ?waits⟩
    case accepted =>
      rw [step_plays hc hs hp he henv, playSteps_ok _ { s with env := _ } later rfl hp]
      simp only [hlen]
    case refused =>
      rw [step_plays hc hs hp he henv, playSteps_fail _ k hk { s with env := _ } later rfl]
      simp only [hp]
    case waits => rw [step_plays hc hs hp he henv, playSteps_wait hk { s with env := _ } rfl hl hp]
  case answers =>
    refine ⟨fun henv => ?_, fun henv => ?_⟩
    · rw [step_event hc henv, eventTurn, answer_ok (s := { s with env := later }) hp]
      cases r <;> rfl
    · rw [step_event hc henv, eventTurn, answer_fail (s := { s with env := later }) hp]
  case drawing =>
    exact ⟨fun x y => holdsForAnswers_draw htr hs (.inl ⟨x, y, rfl, rfl⟩),
      fun x0 y0 x1 y1 => holdsForAnswers_draw htr hs (.inr (.inl ⟨x0, y0, x1, y1, rfl, rfl⟩)),
      fun x y w h => holdsForAnswers_draw htr hs (.inr (.inr ⟨x, y, w, h, rfl, rfl⟩)),
      fun text hlen hcap => ⟨fun size hsize hfont => holdsForAnswers_puts tag v hi htr hs hsize hlen hcap hfont,
        fun hfont hvalid hcovers => holdsForAnswers_uputs tag v hi htr hs hlen hcap hfont hvalid hcovers⟩⟩

end Sys2Proof.Machine
end

/-! Family other: the display-control commands (R165 to R178). -/
section
namespace Sys2Proof.Machine

/-! ## Commands that start a sequence (R170 to R174) -/

/-- The update pseudocode from its IN_FLIGHT test on, with no update in flight and SEQ idle. -/
theorem runPieces_update {s : State} (hf : s.inFlight = false) (hb : s.seqBusy = false) (op : Op) (tag : Byte) (u : State) (j : Job) :
    runPieces (updatePieces op tag u) j s = { s with
      snap := s.fbBytes, inFlight := true, seqStage := .playing, seqSteps := updateSeq u.cfg, seqPos := 0
      seqDone := some (.update op.code tag), seqPending := none, proc := .idle } := by
  rw [updatePieces, runPieces_coalesce hf, runPieces_waitIdle hb, runPieces_effect, runPieces_effect, runPieces_startSeq]
  rfl

/-- Settles O40: the work of UPDATE is the update pseudocode; that of CLEAR is the same behind the fill. -/
theorem updateStarts : Obligations.UpdateStarts := by
  unfold Obligations.UpdateStarts
  intro s tag htr hf hb
  refine ⟨?update, ?clear⟩
  case update =>
    rw [exec_runs (refusalOf_control (.inl rfl) htr), workOf, runPieces_update hf hb]
    rfl
  case clear =>
    rw [exec_runs (refusalOf_control (.inr (.inl rfl)) htr), workOf, runPieces_effect,
      runPieces_update (s := Effect.fill.apply s) hf hb]
    simp only [State.fbBytes, Effect.apply, Memory.toBytes_nil]
    rfl

/-- The update pseudocode while an update is in flight. -/
theorem runPieces_coalesced {s : State} (hf : s.inFlight = true) (op : Op) (tag : Byte) (u : State) (j : Job) :
    runPieces (updatePieces op tag u) j s = s.pushProc ⟨j.op, j.tag, .okCoalesced, 0⟩ := by
  rw [updatePieces, runPieces_cons]
  rcases doPiece_coalesce j [.waitIdle, .effect .snapshot, .effect (.inFlight true), .startSeq (updateSeq u.cfg) (.update op.code tag)] s with
    ⟨hno, -⟩ | ⟨-, hd⟩
  · simp [hf] at hno
  · rw [hd]
    rfl

/-- Settles O41: the test of IN_FLIGHT answers at once; CLEAR's fill stands before it. -/
theorem updateCoalesces : Obligations.UpdateCoalesces := by
  unfold Obligations.UpdateCoalesces
  intro s tag hroom htr hf
  refine ⟨?update, ?clear⟩
  case update =>
    rw [exec_runs (refusalOf_control (.inl rfl) htr), workOf, runPieces_coalesced hf, State.pushProc_room (respRoom_true hroom)]
    rfl
  case clear =>
    rw [exec_runs (refusalOf_control (.inr (.inl rfl)) htr), workOf, runPieces_effect,
      runPieces_coalesced (s := Effect.fill.apply s) hf, State.pushProc_room (s := Effect.fill.apply s) (respRoom_true hroom)]
    rfl

/-- The low byte of a word is the byte of the integer the word stands for. -/
theorem contrastByte_eq (v : Word) : contrastByte v = BitVec.ofInt 8 v.toInt := by
  apply BitVec.eq_of_toNat_eq
  rw [contrastByte, BitVec.extractLsb'_toNat, BitVec.toNat_ofInt, BitVec.toInt_eq_toNat_cond]
  have hv := v.isLt
  split <;> omega

/-- Settles O42: the command has no refusal, waits for no one, and starts its sequence. -/
theorem setContrast : Obligations.SetContrast := by
  unfold Obligations.SetContrast
  intro s tag v htr hb h0 h1
  rw [exec_runs (refusalOf_contrast tag htr h0 h1), workOf, runPieces_waitIdle hb, runPieces_startSeq, contrastByte_eq]
  rfl

/-- Settles O43: DISPLAY_OFF fills before it waits; both then start their sequence. -/
theorem displayPower : Obligations.DisplayPower := by
  unfold Obligations.DisplayPower
  intro s tag htr hb
  refine ⟨?off, ?on⟩
  case off =>
    rw [exec_runs (refusalOf_control (.inr (.inr (.inl rfl))) htr), workOf, runPieces_effect,
      runPieces_waitIdle (s := Effect.fill.apply s) hb, runPieces_startSeq]
    rfl
  case on =>
    rw [exec_runs (refusalOf_control (.inr (.inr (.inr (.inl rfl)))) htr), workOf, runPieces_waitIdle hb, runPieces_startSeq]
    rfl

/-! ## RESET (R165) -/

/-- Settles O34: the pulse, its hold over at once, between the two writes of `CTRL_STATE`. -/
theorem resetCommand : Obligations.ResetCommand := by
  unfold Obligations.ResetCommand
  intro s tag later hroom hs he
  have hwork : workOf s (.reset tag) = .waitIdle :: .effect (.ctrl .resetting) :: (resetPulse ++ [.effect (.ctrl .uninit)]) := rfl
  rw [exec_runs rfl, hwork, runPieces_waitIdle (seqBusy_of_idle hs), runPieces_effect,
    runPieces_resetPulse (s := (Effect.ctrl .resetting).apply s) he, runPieces_effect, runPieces_nil]
  exact congrArg Host.Outcome.next (finishJob_done (s := { s with
    env := later, ctrl := .uninit, resetOut := true, trace := .resetLine true :: .resetLine false :: s.trace }) .reset tag hroom rfl rfl)

/-! ## BEGIN and TEARDOWN (R166, R177, R178) -/

/-- A job that fails ends with its last writes and TRANSPORT_FAIL. -/
theorem failJob_done {j : Job} {s : State} (l : List Effect) (o : Op) (tag : Byte) (hr : s.respq.length < s.cfg.respFifoDepth)
    (ho : j.op = o.code) (ht : j.tag = tag) :
    failJob l j s = State.done o tag .transportFail (BitVec.ofNat 32 j.result) (applyAll l s) := by
  have hq : (applyAll l s).respq = s.respq := applyAll_keeps (f := State.respq) (fun e _ t => Effect.apply_respq e t) s
  have hcfg : (applyAll l s).cfg = s.cfg := applyAll_keeps (f := State.cfg) (fun e _ t => Effect.apply_cfg e t) s
  exact finishJob_done (j := { j with failed := true }) o tag (by rw [hq, hcfg]; exact hr) ho ht

/-- The writes of BEGIN between its sequences. -/
theorem runPieces_zeroFrame {s : State} (rest : List Piece) {j : Job} :
    runPieces (.effect (.ctrl .ready) :: .effect .fill :: .effect (.inFlight true) :: .effect .snapshot :: rest) j s =
      runPieces rest j { s with ctrl := .ready, fb := [], inFlight := true, snap := List.replicate s.cfg.fbSize 0 } := by
  rw [runPieces_effect, runPieces_effect, runPieces_effect, runPieces_effect, ← Memory.toBytes_nil]
  rfl

/-- BEGIN behind an accepted `INIT_SEQ`: what is left is the update sequence of a zero frame. -/
theorem exec_begin_frame {s : State} {env : List Event} (tag : Byte) (hs : s.seqIdle)
    (he : s.env = .timer :: (oks (initSeq s.cfg).length ++ env)) :
    exec (.begin tag) s = .next (runPieces [.runSeq (updateSeq s.cfg) [.inFlight false], .effect (.inFlight false)]
      (newJob .begin tag false 0 (workOf s (.begin tag)))
      { s with
        env := env, ctrl := .ready, fb := [], inFlight := true, snap := List.replicate s.cfg.fbSize 0, resetOut := true
        phase := phaseAfter s.phase (initSeq s.cfg)
        trace := okTrace s.snap (initSeq s.cfg) ++ .resetLine true :: .resetLine false :: s.trace }) := by
  rw [exec_begin_head tag hs he, runPieces_runSeq_ok (later := env) (by rfl), releaseSeq_of_idle (by exact hs), runPieces_zeroFrame]

/-- TEARDOWN behind an accepted zero frame: what is left is display-off. -/
theorem exec_teardown_off {s : State} {env : List Event} (tag : Byte) (htr : s.transmitReady = true) (hs : s.seqIdle)
    (he : s.env = oks 14 ++ env) :
    exec (.teardown tag) s = .next (runPieces [.runSeq (group s.cfg.panel.displayOff []) [.ctrl .uninit], .effect (.ctrl .uninit)]
      (newJob .teardown tag false 0 (workOf s (.teardown tag)))
      { s with
        env := env, fb := [], inFlight := false, snap := List.replicate s.cfg.fbSize 0, phase := .data
        trace := okTrace (List.replicate s.cfg.fbSize 0) (updateSeq s.cfg) ++ s.trace }) := by
  rw [exec_teardown_head tag htr hs, runPieces_runSeq_ok (later := env) (by exact he), releaseSeq_of_idle (by exact hs), runPieces_effect]
  rfl

/-- Settles O36: `INIT_SEQ` and then the zero frame are accepted, so the last write clears IN_FLIGHT. -/
theorem beginCommand : Obligations.BeginCommand := by
  unfold Obligations.BeginCommand
  intro s tag later hroom hs he
  rw [oks_add, List.append_assoc] at he
  rw [exec_begin_frame tag hs he, runPieces_runSeq_ok (later := later) (by rfl), releaseSeq_of_idle (by exact hs), runPieces_effect,
    runPieces_nil, finishJob_done .begin tag (by exact hroom) rfl rfl, List.append_assoc]
  rfl

/-- Settles O39: the zero frame and then display-off are accepted. -/
theorem teardownCommand : Obligations.TeardownCommand := by
  unfold Obligations.TeardownCommand
  intro s tag later hroom htr hs he
  have henv : s.env = oks 14 ++ (oks 2 ++ later) := by rw [he, ← List.append_assoc, ← oks_add]
  rw [exec_teardown_off tag htr hs henv, runPieces_runSeq_ok (later := later) (by rfl), releaseSeq_of_idle (by exact hs), runPieces_effect,
    runPieces_nil, finishJob_done .teardown tag (by exact hroom) rfl rfl, List.append_assoc]
  rfl

/-- BEGIN with step `k` of `INIT_SEQ` refused. -/
theorem exec_begin_initFails {s : State} {later : List Event} {k : Nat} (tag : Byte) (hroom : s.respq.length < s.cfg.respFifoDepth)
    (hs : s.seqIdle) (hk : k < (initSeq s.cfg).length) (he : s.env = .timer :: (oks k ++ .answer false :: later)) :
    exec (.begin tag) s = .next (State.done .begin tag .transportFail 0 { s with
      env := later, ctrl := .uninit, resetOut := true, phase := phaseAfter s.phase ((initSeq s.cfg).take k)
      trace := failTrace s.snap (initSeq s.cfg) k ++ .resetLine true :: .resetLine false :: s.trace }) := by
  rw [exec_begin_head tag hs he, runPieces_runSeq_fail (later := later) hk (by rfl), releaseSeq_of_idle (by exact hs),
    failJob_done _ .begin tag (by exact hroom) rfl rfl]
  rfl

/-- BEGIN with step `k` of its zero frame refused. -/
theorem exec_begin_frameFails {s : State} {later : List Event} {k : Nat} (tag : Byte) (hroom : s.respq.length < s.cfg.respFifoDepth)
    (hs : s.seqIdle) (hk : k < (updateSeq s.cfg).length)
    (he : s.env = .timer :: (oks ((initSeq s.cfg).length + k) ++ .answer false :: later)) :
    exec (.begin tag) s = .next (State.done .begin tag .transportFail 0 { s with
      env := later, ctrl := .ready, fb := [], inFlight := false, snap := List.replicate s.cfg.fbSize 0, resetOut := true
      phase := phaseAfter s.phase (initSeq s.cfg ++ (updateSeq s.cfg).take k)
      trace := failTrace (List.replicate s.cfg.fbSize 0) (updateSeq s.cfg) k ++ okTrace s.snap (initSeq s.cfg) ++
        .resetLine true :: .resetLine false :: s.trace }) := by
  rw [oks_add, List.append_assoc] at he
  rw [exec_begin_frame tag hs he, runPieces_runSeq_fail (later := later) hk (by rfl), releaseSeq_of_idle (by exact hs),
    failJob_done _ .begin tag (by exact hroom) rfl rfl, phaseAfter_append, List.append_assoc]
  dsimp only [applyAll, Effect.apply, newJob]
  rfl

/-- TEARDOWN with step `k` of its zero frame refused. -/
theorem exec_teardown_frameFails {s : State} {later : List Event} {k : Nat} (tag : Byte) (hroom : s.respq.length < s.cfg.respFifoDepth)
    (hs : s.seqIdle) (htr : s.transmitReady = true) (hk : k < (updateSeq s.cfg).length) (he : s.env = oks k ++ .answer false :: later) :
    exec (.teardown tag) s = .next (State.done .teardown tag .transportFail 0 { s with
      env := later, ctrl := .uninit, fb := [], inFlight := false, snap := List.replicate s.cfg.fbSize 0
      phase := phaseAfter s.phase ((updateSeq s.cfg).take k)
      trace := failTrace (List.replicate s.cfg.fbSize 0) (updateSeq s.cfg) k ++ s.trace }) := by
  rw [exec_teardown_head tag htr hs, runPieces_runSeq_fail (later := later) hk (by exact he), releaseSeq_of_idle (by exact hs),
    failJob_done _ .teardown tag (by exact hroom) rfl rfl]
  rfl

/-- TEARDOWN with a step of display-off refused: the first step asks for the command phase. -/
theorem exec_teardown_offFails {s : State} {later : List Event} {k : Nat} (tag : Byte) (hroom : s.respq.length < s.cfg.respFifoDepth)
    (hs : s.seqIdle) (htr : s.transmitReady = true) (hk : k < 2) (he : s.env = oks (14 + k) ++ .answer false :: later) :
    exec (.teardown tag) s = .next (State.done .teardown tag .transportFail 0 { s with
      env := later, ctrl := .uninit, fb := [], inFlight := false, snap := List.replicate s.cfg.fbSize 0
      phase := if k = 0 then .data else .command
      trace := failTrace [] [.enterCmd, .tx [s.cfg.panel.displayOff]] k ++
        okTrace (List.replicate s.cfg.fbSize 0) (updateSeq s.cfg) ++ s.trace }) := by
  rw [oks_add, List.append_assoc] at he
  rw [exec_teardown_off tag htr hs he, runPieces_runSeq_fail (later := later) (k := k) (by exact hk) (by rfl),
    releaseSeq_of_idle (by exact hs), failJob_done _ .teardown tag (by exact hroom) rfl rfl, List.append_assoc]
  rcases k with _ | _ | k
  · rfl
  · rfl
  · omega

/-- Settles O38: each refusal falls in one of the four blocking sequences. -/
theorem blockingFailures : Obligations.BlockingFailures :=
  fun _ tag _ _ hroom hs => ⟨exec_begin_initFails tag hroom hs, exec_begin_frameFails tag hroom hs, exec_teardown_frameFails tag hroom hs,
    exec_teardown_offFails tag hroom hs⟩

end Sys2Proof.Machine
end

/-! Family other: pixels, lines and rectangles (R81, R210 to R217). -/
section
namespace Sys2Proof.Machine

/-! ## The pixel index -/

/-- The byte `a` of the framebuffer is that of column pair `a mod ROW_BYTES` of row `a / ROW_BYTES`. -/
theorem idx_divMod (c : Config) (a b : Nat) (hb : b < 2) :
    idx c (2 * (a % (c.hc * 2)) + b) (a / (c.hc * 2)) = a := by
  have hpair : (2 * (a % (c.hc * 2)) + b) / 2 = a % (c.hc * 2) := by omega
  rw [idx, hpair]
  exact Nat.mod_add_div a (c.hc * 2)

/-- Settles O17: `idx` is below `FB_SIZE` on the raster, division by `ROW_BYTES` gives the pair of a byte, and `idx_inj` says that it is
the only one. -/
theorem pixelIndexBijection : Obligations.PixelIndexBijection := by
  unfold Obligations.PixelIndexBijection
  intro c hc
  refine ⟨fun x y hx hy => idx_lt hc hx hy, fun a ha => ?_⟩
  have hwidth := width_eq hc
  have hcolumn : a % (c.hc * 2) < c.hc * 2 := Nat.mod_lt _ (by have := hc_pos hc; omega)
  have hraster : 2 * (a % (c.hc * 2)) < c.width := by omega
  refine ⟨a % (c.hc * 2), a / (c.hc * 2), ?column, ?row, ?even, ?odd, ?unique⟩
  case column => omega
  case row =>
    have : a < c.hc * 2 * c.height := by
      rwa [Nat.mul_comm c.hc 2]
    exact Nat.div_lt_of_lt_mul this
  case even => exact idx_divMod c a 0 (by omega)
  case odd => exact idx_divMod c a 1 (by omega)
  case unique =>
    intro k y hk _ he
    have hsame : idx c (2 * k) y = idx c (2 * (a % (c.hc * 2))) (a / (c.hc * 2)) := by
      rw [he]
      exact (idx_divMod c a 0 (by omega)).symm
    obtain ⟨hpair, hrow⟩ := (idx_inj hc (by omega) hraster).mp hsame
    exact ⟨by omega, hrow⟩

/-! ## Drawing without bypass -/

/-- A drawing command without bypass, whose pixels are `ps`, stores them and answers OK. -/
theorem exec_draw {i : Instr} {s : State} {v : Intensity} {tag : Byte} {ps : List (Int × Int)} {o : Op} (ho : i.op = o) (ht : i.tag = tag)
    (hi : o = .pixel ∨ o = .line ∨ o = .rect) (hb : i.colorBypass.2 = false) (hw : workOf s i = plots v ps) (hv : resultOf s i = 0)
    (hx : transmits i = false) (hroom : s.respq.length < s.cfg.respFifoDepth) :
    exec i s = .next (State.done o tag .ok 0 { s with fb := storePoints s.cfg v s.fb ps }) := by
  have hquiet := runPieces_quiet (plots_quiet v ps) [] (j := newJob i.op i.tag false 0 (plots v ps)) rfl s
  rw [List.append_nil, store_plots, noted_plots, runPieces_nil] at hquiet
  rw [exec_runs (refusalOf_draw (ho ▸ hi) (by simp [hx])), hb, hw, hv, hquiet]
  exact congrArg _ (finishJob_done o tag hroom (congrArg Op.code ho) ht)

/-- Settles O19: its only point is stored when it is on the raster. -/
theorem drawPixel : Obligations.DrawPixel := by
  unfold Obligations.DrawPixel
  intro s tag v x y hroom
  rw [exec_draw (ps := [(x.toInt, y.toInt)]) rfl rfl (.inl rfl) rfl rfl rfl rfl hroom]
  have hstore : storePoints s.cfg v s.fb [(x.toInt, y.toInt)] =
      if inBounds s.cfg x.toInt y.toInt then pixStore s.cfg s.fb x.toInt.toNat y.toInt.toNat v else s.fb := rfl
  rw [hstore]
  split
  next hin => rw [if_pos (inBounds_iff.mp hin)]; rfl
  next hout => rw [if_neg fun h => hout (inBounds_iff.mpr h)]; rfl

/-- Settles O20: the points of the line are stored, and stored points paint exactly themselves. -/
theorem drawLine : Obligations.DrawLine := by
  unfold Obligations.DrawLine
  intro s tag v x0 y0 x1 y1 hc hw hroom
  exact ⟨_, exec_draw rfl rfl (.inr (.inl rfl)) rfl rfl rfl rfl hroom, storePoints_painted hc v hw _⟩

/-- Settles O22: the points of the rectangle are stored, column by column. -/
theorem fillRect : Obligations.FillRect := by
  unfold Obligations.FillRect
  refine ⟨fun s tag v x y w h hc hw hroom => ?_, rectPoints_eq⟩
  refine ⟨_, exec_draw rfl rfl (.inr (.inr rfl)) rfl rfl rfl rfl hroom, ?_⟩
  exact (storePoints_painted hc v hw _).congr fun px py => mem_rectPoints

/-! ## Drawing under bypass -/

/-- Settles O25: pixel writes under bypass run to their end when XPORT accepts every request. -/
theorem bypassDrawing : Obligations.BypassDrawing := by
  unfold Obligations.BypassDrawing
  intro s tag v later i ps hroom htr hs hi he
  rw [exec_bypass v i tag ps htr hi]
  have hrun := runPieces_bypass (plots_textual v ps) [] (j := newJob i.op tag true 0 (plots v ps)) rfl hs
    (by rw [plotsOf_plots]; exact he)
  rw [List.append_nil, plotsOf_plots, effectsOf_plots, noted_plots, runPieces_nil] at hrun
  rw [hrun]
  exact congrArg _ (finishJob_done i.op tag hroom rfl rfl)

/-- Settles O26: pixel writes under bypass end at the step that XPORT refuses. -/
theorem bypassFailure : Obligations.BypassFailure := by
  unfold Obligations.BypassFailure
  intro s tag v later i ps k hroom htr hs hi hk he
  rw [exec_bypass v i tag ps htr hi, runPieces_plots_fail rfl hs hk he, failJob_done _ i.op tag (by exact hroom) rfl rfl]
  rfl

/-- The four columns of the group of a pixel are in its first byte and the next one. -/
theorem idx_group (c : Config) (x y j : Nat) : idx c (4 * (x / 4) + j) y = 2 * (x / 4) + c.rowBytes * y + j / 2 := by
  rw [idx, Config.rowBytes, Nat.mul_comm 2 c.hc]
  omega

/-- The bytes of the group of a pixel, with the pixel's own nibble put into the one that holds it. -/
theorem bypassBytes_eq (c : Config) (fb : Memory) (x y : Nat) (v : Intensity) :
    bypassBytes c fb x y v =
      [if x % 4 < 2 then putNibble (Memory.read fb (2 * (x / 4) + c.rowBytes * y)) x v else Memory.read fb (2 * (x / 4) + c.rowBytes * y),
        if x % 4 < 2 then Memory.read fb (2 * (x / 4) + c.rowBytes * y + 1)
        else putNibble (Memory.read fb (2 * (x / 4) + c.rowBytes * y + 1)) x v] := by
  have hgroup := idx_group c x y (x % 4)
  rw [show 4 * (x / 4) + x % 4 = x by omega] at hgroup
  rw [bypassBytes]
  split
  next hfirst => rw [if_pos (by omega), if_pos (by omega)]
  next hsecond => rw [if_neg (by omega), if_neg (by omega)]

/-- Column `j` of a byte that holds it, where the pixel's own nibble is put when that byte holds the pixel. -/
theorem nibbleOf_group {b : Byte} {x j : Nat} {v : Intensity} (_ : j < 4) (hhalf : x % 4 < 2 ↔ j < 2) :
    nibbleOf (putNibble b x v) j = if j = x % 4 then v else nibbleOf b j := by
  rw [nibbleOf_putNibble]
  split
  next hparity => rw [if_pos (by omega)]
  next hparity => rw [if_neg (by omega)]

/-- Settles O27: the two bytes are those of the pixel's group, and its columns are read by their halves. -/
theorem bypassPixelSteps : Obligations.BypassPixelSteps := by
  unfold Obligations.BypassPixelSteps
  intro c fb x y v _ _ _
  refine ⟨_, _, by rw [bypassSeq, bypassBytes_eq]; rfl, fun j hj => ?_⟩
  have hread : pixRead c fb (4 * (x / 4) + j) y = nibbleOf (Memory.read fb (2 * (x / 4) + c.rowBytes * y + j / 2)) j := by
    rw [pixRead, idx_group c x y j, nibbleOf, nibbleOf, show (4 * (x / 4) + j) % 2 = j % 2 by omega]
  rw [hread]
  by_cases hfirst : j < 2 <;> by_cases hx : x % 4 < 2
  · rw [if_pos hfirst, if_pos hx, nibbleOf_group hj (by omega), show j / 2 = 0 by omega, Nat.add_zero]
  · rw [if_pos hfirst, if_neg hx, if_neg (by omega), show j / 2 = 0 by omega, Nat.add_zero]
  · rw [if_neg hfirst, if_pos hx, if_neg (by omega), show j / 2 = 1 by omega]
  · rw [if_neg hfirst, if_neg hx, nibbleOf_group hj (by omega), show j / 2 = 1 by omega]

/-! ## The Bresenham line -/

/-- The direction of a step. -/
theorem direction_cases (a b : Int) : (if a < b then (1 : Int) else -1) = 1 ∨ (if a < b then (1 : Int) else -1) = -1 := by
  split
  · exact .inl rfl
  · exact .inr rfl

/-- A line along x: its length, its ends, its points by the distance moved, and its steps. The error term starts at half of `dx`, so
the error stays within half a pixel. -/
theorem linePoints_along_x {x0 y0 x1 y1 : Int} (hmajor : (y1 - y0).natAbs ≤ (x1 - x0).natAbs) (hpos : 0 < (x1 - x0).natAbs) :
    (linePoints x0 y0 x1 y1).length = (x1 - x0).natAbs + 1 ∧ (linePoints x0 y0 x1 y1).head? = some (x0, y0) ∧
      (linePoints x0 y0 x1 y1).getLast? = some (x1, y1) ∧
      (∀ (k : Nat) p, (linePoints x0 y0 x1 y1)[k]? = some p →
        ∃ m : Int, p = (x0 + (if x0 < x1 then 1 else -1) * k, y0 + (if y0 < y1 then 1 else -1) * m) ∧
          2 * (k * ((y1 - y0).natAbs : Int) - m * (x1 - x0).natAbs) ≤ (x1 - x0).natAbs ∧
          -((x1 - x0).natAbs : Int) < 2 * (k * ((y1 - y0).natAbs : Int) - m * (x1 - x0).natAbs)) ∧
      ∀ (k : Nat) p q, (linePoints x0 y0 x1 y1)[k]? = some p → (linePoints x0 y0 x1 y1)[k + 1]? = some q →
        q.1 = p.1 + (if x0 < x1 then 1 else -1) ∧ (q.2 = p.2 ∨ q.2 = p.2 + (if y0 < y1 then 1 else -1)) := by
  have hx := sgn_mul x0 x1
  have hy := sgn_mul y0 y1
  have hdir := direction_cases x0 x1
  rw [linePoints, Nat.max_eq_left hmajor, if_pos hmajor, truncHalf]
  generalize (if x0 < x1 then (1 : Int) else -1) = sx at *
  generalize (if y0 < y1 then (1 : Int) else -1) = sy at *
  generalize (x1 - x0).natAbs = dx at *
  generalize (y1 - y0).natAbs = dy at *
  have herr : ((dx : Int).tdiv 2) = dx / 2 := Int.tdiv_eq_ediv_of_nonneg (by omega)
  obtain ⟨hlength, hhead, hlast, hpoints, hsteps⟩ :=
    lineFrom_x dx dx dy sx sy x1 y1 x0 y0 (dx / 2) (by omega) (by omega) (by omega) hdir (by omega) (by omega) hx
      ⟨dy, hy, dx / 2, by omega, by omega, by rw [Int.mul_comm (dx : Int) dy]; omega⟩
  rw [herr]
  refine ⟨hlength, hhead, hlast, fun k p hp => ?_, hsteps⟩
  obtain ⟨m, hm, hlow, hhigh⟩ := hpoints k p hp
  exact ⟨m, hm, by omega, by omega⟩

/-- A line along y, as `linePoints_along_x`, with the error term from minus half of `dy`. -/
theorem linePoints_along_y {x0 y0 x1 y1 : Int} (hmajor : (x1 - x0).natAbs < (y1 - y0).natAbs) :
    (linePoints x0 y0 x1 y1).length = (y1 - y0).natAbs + 1 ∧ (linePoints x0 y0 x1 y1).head? = some (x0, y0) ∧
      (linePoints x0 y0 x1 y1).getLast? = some (x1, y1) ∧
      (∀ (k : Nat) p, (linePoints x0 y0 x1 y1)[k]? = some p →
        ∃ m : Int, p = (x0 + (if x0 < x1 then 1 else -1) * m, y0 + (if y0 < y1 then 1 else -1) * k) ∧
          2 * (k * ((x1 - x0).natAbs : Int) - m * (y1 - y0).natAbs) ≤ (y1 - y0).natAbs ∧
          -((y1 - y0).natAbs : Int) < 2 * (k * ((x1 - x0).natAbs : Int) - m * (y1 - y0).natAbs)) ∧
      ∀ (k : Nat) p q, (linePoints x0 y0 x1 y1)[k]? = some p → (linePoints x0 y0 x1 y1)[k + 1]? = some q →
        q.2 = p.2 + (if y0 < y1 then 1 else -1) ∧ (q.1 = p.1 ∨ q.1 = p.1 + (if x0 < x1 then 1 else -1)) := by
  have hx := sgn_mul x0 x1
  have hy := sgn_mul y0 y1
  have hdir := direction_cases y0 y1
  rw [linePoints, Nat.max_eq_right (by omega), if_neg (Nat.not_le.mpr hmajor), truncHalf, Int.neg_tdiv]
  generalize (if x0 < x1 then (1 : Int) else -1) = sx at *
  generalize (if y0 < y1 then (1 : Int) else -1) = sy at *
  generalize (x1 - x0).natAbs = dx at *
  generalize (y1 - y0).natAbs = dy at *
  have herr : ((dy : Int).tdiv 2) = dy / 2 := Int.tdiv_eq_ediv_of_nonneg (by omega)
  obtain ⟨hlength, hhead, hlast, hpoints, hsteps⟩ :=
    lineFrom_y dy dx dy sx sy x1 y1 x0 y0 (-(dy / 2)) (by omega) (by omega) hdir (by omega) (by omega) hy
      ⟨dx, hx, -(dy / 2), by omega, by omega, by rw [Int.mul_comm (dx : Int) dy]; omega⟩
  rw [herr]
  refine ⟨hlength, hhead, hlast, fun k p hp => ?_, hsteps⟩
  obtain ⟨m, hm, hlow, hhigh⟩ := hpoints k p hp
  exact ⟨m, hm, by omega, by omega⟩

/-- A line whose ends coincide is that point. -/
theorem linePoints_point (x y : Int) : linePoints x y x y = [(x, y)] := by
  simp [linePoints, lineFrom]

/-- Settles O21: along x, along y, and the line of one point. -/
theorem lineProperties : Obligations.LineProperties := by
  unfold Obligations.LineProperties
  intro x0 y0 x1 y1
  by_cases hmajor : (y1 - y0).natAbs ≤ (x1 - x0).natAbs
  · by_cases hpos : 0 < (x1 - x0).natAbs
    · obtain ⟨hlength, hhead, hlast, hpoints, hsteps⟩ := linePoints_along_x hmajor hpos
      refine ⟨by omega, hhead, hlast, nodup_of_strict Prod.fst x0 _ (direction_cases x0 x1) fun k p hp => ?_, fun k p q hp hq => ?_, ?_⟩
      · obtain ⟨m, rfl, -⟩ := hpoints k p hp
        rfl
      · obtain ⟨hx, hy⟩ := hsteps k p q hp hq
        exact ⟨.inr hx, hy, by rw [if_pos hmajor]; exact hx⟩
      · rintro k p sx sy dx dy hp rfl rfl rfl rfl
        obtain ⟨m, hm, hhigh, hlow⟩ := hpoints k p hp
        exact ⟨fun _ => ⟨m, hm, hhigh, fun _ => hlow⟩, fun h => by omega⟩
    · obtain ⟨rfl, rfl⟩ : x1 = x0 ∧ y1 = y0 := by omega
      rw [linePoints_point]
      refine ⟨by simp, rfl, rfl, List.nodup_singleton _, fun k p q _ hq => by simp at hq, ?_⟩
      intro k p sx sy dx dy hp _ _ hdx hdy
      obtain ⟨hk, rfl⟩ := List.getElem?_eq_some_iff.mp hp
      obtain rfl : k = 0 := by simpa using hk
      exact ⟨fun _ => ⟨0, by simp, by omega, by omega⟩, fun h => by omega⟩
  · obtain ⟨hlength, hhead, hlast, hpoints, hsteps⟩ := linePoints_along_y (by omega : (x1 - x0).natAbs < (y1 - y0).natAbs)
    refine ⟨by omega, hhead, hlast, nodup_of_strict Prod.snd y0 _ (direction_cases y0 y1) fun k p hp => ?_, fun k p q hp hq => ?_, ?_⟩
    · obtain ⟨m, rfl, -⟩ := hpoints k p hp
      rfl
    · obtain ⟨hy, hx⟩ := hsteps k p q hp hq
      exact ⟨hx, .inr hy, by rw [if_neg hmajor]; exact hy⟩
    · rintro k p sx sy dx dy hp rfl rfl rfl rfl
      obtain ⟨m, hm, hhigh, hlow⟩ := hpoints k p hp
      exact ⟨fun h => by omega, fun _ => ⟨m, hm, hhigh, hlow⟩⟩

end Sys2Proof.Machine
end

/-! Family other: text (R242 to R252, R260 to R263), with and without bypass, and the load of the hex font. -/
section
namespace Sys2Proof.Machine

/-! ## Locate -/

/-- `locate` finds a character at an index exactly when it is there and at no smaller one. -/
theorem locate_eq_some {ch : Char16} {alphabet : List Char16} {j : Nat} :
    locate ch alphabet = some j ↔ alphabet[j]? = some ch ∧ ∀ k, k < j → alphabet[k]? ≠ some ch := by
  induction alphabet generalizing j with
  | nil => simp [locate]
  | cons a rest ih =>
    rw [locate]
    split
    next hhead =>
      subst hhead
      constructor
      · rintro ⟨⟩
        exact ⟨rfl, fun k hk => absurd hk (Nat.not_lt_zero k)⟩
      · rintro ⟨-, hleast⟩
        cases j with
        | zero => rfl
        | succ j => exact absurd rfl (hleast 0 (Nat.succ_pos j))
    next hother =>
      cases j with
      | zero => simp [hother]
      | succ j =>
        have hshift : (locate ch rest).map (· + 1) = some (j + 1) ↔ locate ch rest = some j := by simp
        rw [hshift, ih, List.getElem?_cons_succ]
        refine and_congr_right fun _ => ⟨fun h k hk => ?_, fun h k hk => ?_⟩
        · cases k with
          | zero => simpa using hother
          | succ k => exact h k (Nat.lt_of_succ_lt_succ hk)
        · exact h (k + 1) (Nat.succ_lt_succ hk)

/-- `locate` finds nothing exactly when the alphabet lacks the character. -/
theorem locate_eq_none {ch : Char16} {alphabet : List Char16} : locate ch alphabet = none ↔ ch ∉ alphabet := by
  induction alphabet with
  | nil => simp [locate]
  | cons a rest ih =>
    rw [locate]
    split
    next hhead => simp [hhead]
    next hother => simp [ih, Ne.symm hother]

/-- Settles O45, by the two characterisations of `locate`. -/
theorem locateFirst : Obligations.LocateFirst := by
  unfold Obligations.LocateFirst
  exact fun _ _ => ⟨fun _ => locate_eq_some, locate_eq_none⟩

/-! ## WRITE_STRING -/

/-- The job of a text command with its count of characters and its missing characters noted. -/
def textJob (o : Op) (tag : Byte) (b : Bool) (todo : List Piece) (count : Nat) (missing : Bool) : Job :=
  { newJob o tag b 0 todo with result := 0 + count, missing := false || missing }

/-- The response of a text command that runs to its end. -/
theorem finishJob_textJob {o : Op} {s : State} {n : Nat} {m : Bool} (tag : Byte) (b : Bool) (todo : List Piece)
    (hroom : s.respq.length < s.cfg.respFifoDepth) :
    finishJob (textJob o tag b todo n m) s =
      State.done o tag (if m then .okMissingGlyph else .ok) (BitVec.ofNat 32 n) s := by
  rw [finishJob_done o tag hroom rfl rfl]
  simp [textJob, newJob]

/-- The job that WRITE_STRING leaves, with or without bypass: `textJob`. -/
theorem noted_text {s : State} {n : Nat} {v : Intensity} {b : Bool} {cx : BitVec 16} {text : List Char16} (tag : Byte) (b' : Bool)
    (todo : List Piece) :
    (textPieces s n v b cx text).foldl Piece.noted (newJob .puts tag b' 0 todo) =
      textJob .puts tag b' todo (located s text).length (!(unlocated s text).isEmpty) := by
  rw [noted_textPieces, textPieces_noted]
  rfl

/-- A WRITE_STRING that passes its checks runs the pieces of its text. -/
theorem exec_puts {s : State} (tag : Byte) (v : Intensity) {b : Bool} {size : BitVec 8} {text : List Char16} (hsize : size ≠ 0)
    (hlen : text.length < 65536) (hcap : text.length ≤ s.cfg.textMax) (hready : b = true → s.transmitReady = true)
    (hfont : s.ffontValid = true) :
    exec (.puts tag v b size text) s =
      .next (runPieces (textPieces s size.toNat v b s.cx text) (newJob .puts tag b 0 (textPieces s size.toNat v b s.cx text)) s) :=
  exec_runs (refusalOf_puts tag v hsize hlen hcap hready hfont)

/-- The status of a text, from the characters it lacks. -/
theorem textStatus (l : List Char16) :
    (if !l.isEmpty then Status.okMissingGlyph else .ok) = if l.isEmpty then .ok else .okMissingGlyph := by
  cases l.isEmpty <;> rfl

/-- Settles O46: the pieces of the text cannot hold, so they store their ink, move the cursor and warn. -/
theorem writeString : Obligations.WriteString := by
  unfold Obligations.WriteString
  intro s tag v size text hc hw hroom hsize hlen hcap hfont
  obtain ⟨fb', hstore, -, hpaint⟩ := textPieces_store s size.toNat v text s hc hw
  refine ⟨fb', ?_, hpaint⟩
  have hrun := runPieces_quiet (textPieces_quiet s size.toNat v s.cx text) []
    (j := newJob .puts tag false 0 (textPieces s size.toNat v false s.cx text)) rfl s
  rw [List.append_nil, hstore, noted_text, runPieces_nil, finishJob_textJob tag _ _ (by exact hroom), textStatus,
    ← List.getLastD_eq_getLast?] at hrun
  rw [exec_puts tag v hsize hlen hcap (by simp) hfont, hrun]
  rfl

/-! ## WRITE_UNIFONT -/

/-- The job that WRITE_UNIFONT leaves: `textJob`, nothing missing. -/
theorem noted_unifont {s : State} {v : Intensity} {cx : BitVec 16} {text : List Char16} (tag : Byte) (b : Bool) (todo : List Piece) :
    (unifontPieces s v cx text).foldl Piece.noted (newJob .uputs tag b 0 todo) =
      textJob .uputs tag b todo (unifontDraws s cx text).length false := by
  rw [unifontPieces_noted]
  rfl

/-- A WRITE_UNIFONT that passes its checks runs the pieces of its text. -/
theorem exec_uputs {s : State} (tag : Byte) (v : Intensity) {b : Bool} {text : List Char16} (hlen : text.length < 65536)
    (hcap : text.length ≤ s.cfg.textMax) (hready : b = true → s.transmitReady = true) (hfont : s.hfState = .loaded)
    (hvalid : s.cacheValid = true) (hcovers : ∀ ch ∈ text, (KeyMap.find ch s.cache).isSome = true) :
    exec (.uputs tag v b text) s =
      .next (runPieces (unifontPieces s v s.cx text) (newJob .uputs tag b 0 (unifontPieces s v s.cx text)) s) :=
  exec_runs (refusalOf_uputs tag v hlen hcap hready hfont hvalid hcovers)

/-- Settles O52: the pieces of the drawn characters cannot hold, so they store their ink and move the cursor. -/
theorem writeUnifont : Obligations.WriteUnifont := by
  unfold Obligations.WriteUnifont
  intro s tag v text hc hw hroom hlen hcap hfont hvalid hcovers
  obtain ⟨fb', hstore, -, hpaint⟩ := unifontPieces_store s v text s hc hw
  refine ⟨fb', ?_, hpaint⟩
  have hrun := runPieces_quiet (unifontPieces_quiet s v s.cx text) []
    (j := newJob .uputs tag false 0 (unifontPieces s v s.cx text)) rfl s
  rw [List.append_nil, hstore, noted_unifont, runPieces_nil, finishJob_textJob tag _ _ (by exact hroom)] at hrun
  rw [exec_uputs tag v hlen hcap (by simp) hfont hvalid hcovers, hrun]
  rfl

/-! ## Text under bypass -/

/-- A valid fixed font is in order. -/
theorem Inv.fontOk {s : State} (hi : Inv s) (hfont : s.ffontValid = true) :
    FontOk s.cfg s.ffWidth s.ffAlpha s.ffData = true := hi.1.font_ok hfont

/-- WRITE_STRING under bypass to its end. -/
theorem exec_puts_bypass {s : State} {later : List Event} (tag : Byte) (v : Intensity) {size : BitVec 8} {text : List Char16} (hi : Inv s)
    (hroom : s.respq.length < s.cfg.respFifoDepth) (htr : s.transmitReady = true) (hs : s.seqIdle) (hlen : text.length < 65536)
    (hcap : text.length ≤ s.cfg.textMax) (hsize : size ≠ 0) (hfont : s.ffontValid = true)
    (he : s.env = oks (bypassSteps s.cfg s.fb (textCells s size.toNat v s.cx text)).length ++ later) :
    exec (.puts tag v true size text) s =
      .next (State.done .puts tag (if (unlocated s text).isEmpty then .ok else .okMissingGlyph)
        (BitVec.ofNat 32 (located s text).length) { s with
          env := later
          phase := phaseAfter s.phase (bypassSteps s.cfg s.fb (textCells s size.toNat v s.cx text))
          trace := okTrace s.snap (bypassSteps s.cfg s.fb (textCells s size.toNat v s.cx text)) ++ s.trace
          cx := s.cx + BitVec.ofNat 16 ((located s text).length * (s.ffWidth.toNat * size.toNat + size.toNat))
          warnCount := BitVec.ofNat 16 (min (s.warnCount.toNat + (unlocated s text).length) 0xFFFF)
          lastMissing := (unlocated s text).getLastD s.lastMissing }) := by
  rw [← plotsOf_text (hi.fontOk hfont)] at he ⊢
  have hrun := runPieces_bypass (textPieces_textual s size.toNat v true s.cx text) []
    (j := newJob .puts tag true 0 (textPieces s size.toNat v true s.cx text)) rfl hs he
  rw [List.append_nil, applyAll_text, noted_text, runPieces_nil, finishJob_textJob tag _ _ (by exact hroom), textStatus,
    ← List.getLastD_eq_getLast?] at hrun
  rw [exec_puts tag v hsize hlen hcap (fun _ => htr) hfont, hrun]
  rfl

/-- WRITE_UNIFONT under bypass to its end. -/
theorem exec_uputs_bypass {s : State} {later : List Event} (tag : Byte) (v : Intensity) {text : List Char16} (hi : Inv s)
    (hroom : s.respq.length < s.cfg.respFifoDepth) (htr : s.transmitReady = true) (hs : s.seqIdle) (hlen : text.length < 65536)
    (hcap : text.length ≤ s.cfg.textMax) (hfont : s.hfState = .loaded) (hvalid : s.cacheValid = true)
    (hcovers : ∀ ch ∈ text, (KeyMap.find ch s.cache).isSome = true)
    (he : s.env = oks (bypassSteps s.cfg s.fb (unifontCells s v (unifontDraws s s.cx text))).length ++ later) :
    exec (.uputs tag v true text) s =
      .next (State.done .uputs tag .ok (BitVec.ofNat 32 (unifontDraws s s.cx text).length) { s with
        env := later
        phase := phaseAfter s.phase (bypassSteps s.cfg s.fb (unifontCells s v (unifontDraws s s.cx text)))
        trace := okTrace s.snap (bypassSteps s.cfg s.fb (unifontCells s v (unifontDraws s s.cx text))) ++ s.trace
        cx := cursorAfter s.cx (unifontDraws s s.cx text) }) := by
  rw [← plotsOf_drawn, ← unifontPieces_drawn hi.1.cache_ok] at he ⊢
  have hrun := runPieces_bypass (unifontPieces_textual s v s.cx text) []
    (j := newJob .uputs tag true 0 (unifontPieces s v s.cx text)) rfl hs he
  rw [List.append_nil, applyAll_unifont, noted_unifont, runPieces_nil, finishJob_textJob tag _ _ (by exact hroom)] at hrun
  rw [exec_uputs tag v hlen hcap (fun _ => htr) hfont hvalid hcovers, hrun]
  rfl

/-- Settles O53: the pieces of a text under bypass run to their end, and its plots are its cells. -/
theorem textUnderBypass : Obligations.TextUnderBypass := by
  unfold Obligations.TextUnderBypass
  intro s tag v size text later hi hroom htr hs hlen hcap
  constructor
  · rintro steps hsize hfont rfl he
    exact exec_puts_bypass tag v hi hroom htr hs hlen hcap hsize hfont he
  · rintro steps hfont hvalid hcovers rfl he
    exact exec_uputs_bypass tag v hi hroom htr hs hlen hcap hfont hvalid hcovers he

/-! ## Text under bypass that XPORT ends -/

/-- A character with cells has a glyph in the fixed font. -/
theorem located_of_steps {s : State} {n k : Nat} {v : Intensity} {cx : BitVec 16} {ch : Char16}
    (hk : k < (bypassSteps s.cfg s.fb (textCells s n v cx [ch])).length) : (locate ch s.ffAlpha).isSome = true := by
  cases hl : locate ch s.ffAlpha with
  | some j => rfl
  | none => simp [textCells, hl, bypassSteps] at hk

/-- WRITE_STRING under bypass whose step `k` of a character is refused. -/
theorem exec_puts_fails {s : State} {later : List Event} {k : Nat} {pre post : List Char16} {ch : Char16} {cx : BitVec 16} (tag : Byte)
    (v : Intensity) {size : BitVec 8} (hi : Inv s) (hroom : s.respq.length < s.cfg.respFifoDepth) (htr : s.transmitReady = true)
    (hs : s.seqIdle) (hlen : (pre ++ ch :: post).length < 65536) (hcap : (pre ++ ch :: post).length ≤ s.cfg.textMax) (hsize : size ≠ 0)
    (hfont : s.ffontValid = true)
    (hcx : cx = s.cx + BitVec.ofNat 16 ((located s pre).length * (s.ffWidth.toNat * size.toNat + size.toNat)))
    (hk : k < (bypassSteps s.cfg s.fb (textCells s size.toNat v cx [ch])).length)
    (he : s.env = oks ((bypassSteps s.cfg s.fb (textCells s size.toNat v s.cx pre)).length + k) ++ .answer false :: later) :
    exec (.puts tag v true size (pre ++ ch :: post)) s =
      .next (State.done .puts tag .transportFail (BitVec.ofNat 32 (located s pre).length) { s with
        env := later
        phase := phaseAfter s.phase (bypassSteps s.cfg s.fb (textCells s size.toNat v s.cx pre) ++
          (bypassSteps s.cfg s.fb (textCells s size.toNat v cx [ch])).take k)
        trace := failTrace s.snap (bypassSteps s.cfg s.fb (textCells s size.toNat v s.cx pre) ++
          bypassSteps s.cfg s.fb (textCells s size.toNat v cx [ch]))
          ((bypassSteps s.cfg s.fb (textCells s size.toNat v s.cx pre)).length + k) ++ s.trace
        cx := cx
        warnCount := BitVec.ofNat 16 (min (s.warnCount.toNat + (unlocated s pre).length) 0xFFFF)
        lastMissing := (unlocated s pre).getLastD s.lastMissing }) := by
  have hok := hi.fontOk hfont
  obtain ⟨rest, hrest⟩ := textPieces_located hok (post := post) (located_of_steps hk)
  have hwork : textPieces s size.toNat v true s.cx (pre ++ ch :: post) =
      textPieces s size.toNat v true s.cx pre ++ ((textCells s size.toNat v cx [ch]).map plotOf ++ rest) := by
    rw [textPieces_append, ← hcx, hrest]
  rw [exec_puts tag v hsize hlen hcap (fun _ => htr) hfont, hwork]
  rw [← plotsOf_text hok] at he
  rw [runPieces_bypass_fail (textPieces_textual s size.toNat v true s.cx pre) rest rfl hs hk he, applyAll_text, noted_text,
    failJob_done [] .puts tag (by exact hroom) rfl rfl, plotsOf_text hok, ← List.getLastD_eq_getLast?, hcx]
  simp only [textJob, Nat.zero_add]
  rfl

/-- WRITE_UNIFONT under bypass whose step `k` of a drawn glyph is refused. -/
theorem exec_uputs_fails {s : State} {later : List Event} {k : Nat} {text : List Char16} {pre post : List (BitVec 16 × CachedGlyph)}
    {d : BitVec 16 × CachedGlyph} (tag : Byte) (v : Intensity) (hi : Inv s) (hroom : s.respq.length < s.cfg.respFifoDepth)
    (htr : s.transmitReady = true) (hs : s.seqIdle) (hlen : text.length < 65536) (hcap : text.length ≤ s.cfg.textMax)
    (hfont : s.hfState = .loaded) (hvalid : s.cacheValid = true) (hcovers : ∀ ch ∈ text, (KeyMap.find ch s.cache).isSome = true)
    (hdraws : unifontDraws s s.cx text = pre ++ d :: post) (hk : k < (bypassSteps s.cfg s.fb (unifontCells s v [d])).length)
    (he : s.env = oks ((bypassSteps s.cfg s.fb (unifontCells s v pre)).length + k) ++ .answer false :: later) :
    exec (.uputs tag v true text) s =
      .next (State.done .uputs tag .transportFail (BitVec.ofNat 32 pre.length) { s with
        env := later
        phase := phaseAfter s.phase (bypassSteps s.cfg s.fb (unifontCells s v pre) ++
          (bypassSteps s.cfg s.fb (unifontCells s v [d])).take k)
        trace := failTrace s.snap (bypassSteps s.cfg s.fb (unifontCells s v pre) ++ bypassSteps s.cfg s.fb (unifontCells s v [d]))
          ((bypassSteps s.cfg s.fb (unifontCells s v pre)).length + k) ++ s.trace
        cx := cursorAfter s.cx pre }) := by
  have hwork : unifontPieces s v s.cx text = drawnPieces s v pre ++ ((unifontCells s v [d]).map plotOf ++
      (.effect (.advance d.2.gw) :: drawnPieces s v post)) := by
    rw [unifontPieces_drawn hi.1.cache_ok, hdraws]
    simp [drawnPieces, unifontCells]
  rw [exec_uputs tag v hlen hcap (fun _ => htr) hfont hvalid hcovers, hwork]
  rw [← plotsOf_drawn] at he
  rw [runPieces_bypass_fail (drawnPieces_textual s v pre) _ rfl hs hk he, applyAll_drawn, noted_drawn,
    failJob_done [] .uputs tag (by exact hroom) rfl rfl, plotsOf_drawn]
  simp only [newJob, Nat.zero_add]
  rfl

/-- Settles O54, by the two text commands. -/
theorem textBypassFailure : Obligations.TextBypassFailure := by
  unfold Obligations.TextBypassFailure
  intro s tag v size text later k hi hroom htr hs hlen hcap
  constructor
  · rintro pre post ch cx before here hsize hfont rfl hcx rfl rfl hk he
    exact exec_puts_fails tag v hi hroom htr hs hlen hcap hsize hfont hcx hk he
  · rintro pre post d before here hfont hvalid hcovers hdraws rfl rfl hk he
    exact exec_uputs_fails tag v hi hroom htr hs hlen hcap hfont hvalid hcovers hdraws hk he

/-! ## The load of the hex font -/

/-- HFONT_END has one check, that a load is on. -/
theorem refusalOf_hfend (tag : Byte) (s : State) :
    refusalOf (.hfend tag) s = if s.hfState = .loading then none else some .fontState := by
  simp [refusalOf, firstFailing, Instr.wf, tooLarge, transmits, preconditions]

/-- Settles O47: each command is one write, and HFONT_END checks first. -/
theorem hexFontLoad : Obligations.HexFontLoad := by
  unfold Obligations.HexFontLoad
  intro s tag hroom
  constructor
  · exact exec_oneEffect (e := .hfBegin) hroom rfl rfl fun _ => rfl
  · have hcheck := refusalOf_hfend tag s
    split
    next hloading =>
      rw [if_pos hloading] at hcheck
      exact exec_oneEffect (e := .hfEnd) hroom hcheck rfl fun _ => rfl
    next hother =>
      rw [if_neg hother] at hcheck
      exact exec_refused hroom hcheck

end Sys2Proof.Machine
end

/-! Family other: commands that hold while SEQ has a sequence (R157). -/
section
namespace Sys2Proof.Machine

/-! ## What a command that holds goes on to do -/

/-- The command executes, and does the same work, in every state that agrees with `s` on its inputs and in which it may transmit. -/
def SameWork (i : Instr) (s : State) : Prop :=
  ∀ u : State, SameInputs s u → (transmits i = true → u.transmitReady = true) →
    refusalOf i u = none ∧ workOf u i = workOf s i ∧ resultOf u i = resultOf s i

theorem SameInputs.refl (s : State) : SameInputs s s := ⟨rfl, rfl, rfl, rfl, rfl, rfl, rfl, rfl, rfl, rfl, rfl, rfl, rfl⟩

/-- A state that agrees with what passing pieces left, put back to the registers they started with, agrees with the state they started in. -/
theorem sameInputs_before {pre : List Piece} {s t : State} (hpre : ∀ q ∈ pre, q.passes s.cfg = true)
    (h : SameInputs (applyAll (effectsOf pre) s) t) :
    SameInputs s { t with fb := s.fb, cx := s.cx, warnCount := s.warnCount, lastMissing := s.lastMissing } := by
  have hkeeps := (applyAll_passes hpre s).1
  generalize applyAll (effectsOf pre) s = s' at h hkeeps
  obtain ⟨hcfg, -, -, hcy, hvalid, hwidth, halpha, hdata, hstate, hcvalid, hcache, -, -⟩ := h
  rw [hkeeps] at hcfg hcy hvalid hwidth halpha hdata hstate hcvalid hcache
  exact ⟨hcfg, rfl, rfl, hcy, hvalid, hwidth, halpha, hdata, hstate, hcvalid, hcache, rfl, rfl⟩

section
variable {i : Instr} {s : State} {pre rest : List Piece}

/-- A command whose work waits for SEQ after pieces that pass: `holdsForSeq`, its premises put on the state before. -/
theorem holdsForSeq_of_sameWork {p : Piece} (hsame : SameWork i s) (hready : transmits i = true → s.transmitReady = true)
    (hb : s.seqBusy = true) (hwork : workOf s i = pre ++ p :: rest) (hpre : ∀ q ∈ pre, q.passes s.cfg = true)
    (hcoalesce : .coalesce ∈ pre → s.inFlight = false) (hp : p.waits s.cfg i.colorBypass.2 = true) :
    HoldsForSeq i s (applyAll (effectsOf pre) s) := by
  refine holdsForSeq (hsame s (SameInputs.refl s) hready).1 hwork hpre hcoalesce hp hb ?_
  rintro t htr hin u rfl
  exact hsame _ (sameInputs_before hpre hin) htr

/-- A command under bypass whose work draws nothing on the raster before some cells, one of which is on it: it holds at the first such cell,
after the effects before the cells. -/
theorem holdsForSeq_cells {cells : List (Int × Int × Intensity)} (hsame : SameWork i s)
    (hready : transmits i = true → s.transmitReady = true) (hb : s.seqBusy = true) (hbypass : i.colorBypass.2 = true)
    (hwork : workOf s i = pre ++ (cells.map plotOf ++ rest)) (hpre : ∀ p ∈ pre, p.textual = true)
    (hoff : ∀ q ∈ plotsOf pre, inBounds s.cfg q.1 q.2.1 = false) (hon : ∃ q ∈ cells, inBounds s.cfg q.1 q.2.1 = true) :
    HoldsForSeq i s (applyAll (effectsOf pre) s) := by
  have htextual : ∀ p ∈ cells.map plotOf, p.textual = true := by
    intro p hp
    obtain ⟨q, -, rfl⟩ := List.mem_map.mp hp
    rfl
  obtain ⟨off, p, more, hsplit, hoffPasses, hwaits⟩ := exists_waits htextual (by rwa [plotsOf_cells])
  have hnoEffect : effectsOf (pre ++ off) = effectsOf pre := by
    have hcells : effectsOf (off ++ p :: more) = [] := hsplit ▸ effectsOf_cells cells
    rw [effectsOf, List.filterMap_append, List.append_eq_nil_iff] at hcells
    rw [effectsOf, List.filterMap_append, hcells.1, List.append_nil]
    rfl
  have hpasses : ∀ q ∈ pre ++ off, q.passes s.cfg = true := by
    intro q hq
    rcases List.mem_append.mp hq with hq | hq
    · exact passes_of_off hpre hoff q hq
    · exact hoffPasses q hq
  have hnoCoalesce : .coalesce ∉ pre ++ off := by
    intro hmem
    rcases List.mem_append.mp hmem with hmem | hmem
    · exact absurd (hpre _ hmem) (by simp [Piece.textual])
    · exact absurd (htextual _ (hsplit ▸ List.mem_append_left _ hmem)) (by simp [Piece.textual])
  have hheld := holdsForSeq_of_sameWork (p := p) (rest := more ++ rest) hsame hready hb (by rw [hwork, hsplit]; simp) hpasses
    (fun h => absurd h hnoCoalesce) (by rw [hbypass]; exact hwaits)
  rwa [hnoEffect] at hheld

end

/-! ## Commands of the display control -/

/-- What the commands of the display control do depends on the configuration alone. -/
theorem sameWork_control {i : Instr} {s : State}
    (hi : i.op = .reset ∨ i.op = .begin ∨ i.op = .teardown ∨ i.op = .dispon ∨ i.op = .dispoff ∨ i.op = .update ∨ i.op = .clear) :
    SameWork i s := by
  intro u hin hready
  cases i with
  | reset | begin => exact ⟨rfl, by simp only [workOf, hin.cfg], rfl⟩
  | update | clear => exact ⟨refusalOf_control (by simp [Instr.op]) (hready rfl), by simp only [workOf, updatePieces, hin.cfg], rfl⟩
  | dispoff | dispon | teardown => exact ⟨refusalOf_control (by simp [Instr.op]) (hready rfl), by simp only [workOf, hin.cfg], rfl⟩
  | _ => simp [Instr.op] at hi

/-- The fill of the framebuffer passes. -/
theorem fill_passes (c : Config) : ∀ q ∈ [Piece.effect .fill], q.passes c = true := by
  intro q hq
  obtain rfl := List.mem_singleton.mp hq
  rfl

/-- A command of the display control that waits for SEQ first. -/
theorem holdsForSeq_first {i : Instr} {s : State} {rest : List Piece} (hsame : SameWork i s)
    (hready : transmits i = true → s.transmitReady = true) (hb : s.seqBusy = true) (hwork : workOf s i = .waitIdle :: rest) :
    HoldsForSeq i s s :=
  holdsForSeq_of_sameWork (pre := []) hsame hready hb hwork (fun _ h => absurd h List.not_mem_nil)
    (fun h => absurd h List.not_mem_nil) rfl

theorem holdsForSeq_dispoff {s : State} (tag : Byte) (hready : s.transmitReady = true) (hb : s.seqBusy = true) :
    HoldsForSeq (.dispoff tag) s { s with fb := [] } :=
  holdsForSeq_of_sameWork (pre := [.effect .fill]) (sameWork_control (by simp [Instr.op])) (fun _ => hready) hb rfl (fill_passes _)
    (by simp) rfl

theorem holdsForSeq_update {s : State} (tag : Byte) (hready : s.transmitReady = true) (hb : s.seqBusy = true)
    (hflight : s.inFlight = false) : HoldsForSeq (.update tag) s s :=
  holdsForSeq_of_sameWork (pre := [.coalesce]) (sameWork_control (by simp [Instr.op])) (fun _ => hready) hb rfl
    (by simp [Piece.passes]) (fun _ => hflight) rfl

theorem holdsForSeq_clear {s : State} (tag : Byte) (hready : s.transmitReady = true) (hb : s.seqBusy = true)
    (hflight : s.inFlight = false) : HoldsForSeq (.clear tag) s { s with fb := [] } :=
  holdsForSeq_of_sameWork (pre := [.effect .fill, .coalesce]) (sameWork_control (by simp [Instr.op])) (fun _ => hready) hb rfl
    (by simp [Piece.passes, Effect.passes]) (fun _ => hflight) rfl

theorem holdsForSeq_contrast {s : State} (tag : Byte) {v : Word} (hready : s.transmitReady = true) (hb : s.seqBusy = true)
    (h0 : 0 ≤ v.toInt) (h1 : v.toInt ≤ 255) : HoldsForSeq (.contrast tag v) s s :=
  holdsForSeq_first (fun _ hin htr => ⟨refusalOf_contrast tag (htr rfl) h0 h1, by simp only [workOf, hin.cfg], rfl⟩) (fun _ => hready) hb rfl

/-! ## Drawing and text under bypass -/

/-- A drawing command under bypass holds at its first point on the raster. -/
theorem holdsForSeq_draw {i : Instr} {s : State} {v : Intensity} {ps : List (Int × Int)} (hi : i.op = .pixel ∨ i.op = .line ∨ i.op = .rect)
    (hbypass : i.colorBypass.2 = true) (hready : s.transmitReady = true) (hb : s.seqBusy = true)
    (hwork : ∀ u : State, workOf u i = plots v ps) (hon : ∃ p ∈ ps, inBounds s.cfg p.1 p.2 = true) : HoldsForSeq i s s := by
  have hresult : ∀ u : State, resultOf u i = 0 := by
    intro u
    cases i <;> simp [Instr.op] at hi <;> rfl
  obtain ⟨p, hp, hin⟩ := hon
  have hdot : (p.1, p.2, v) ∈ dots v ps := List.mem_map.mpr ⟨p, hp, rfl⟩
  exact holdsForSeq_cells (pre := []) (rest := []) (cells := dots v ps)
    (fun u _ htr => ⟨refusalOf_draw hi htr, by rw [hwork, hwork], by rw [hresult, hresult]⟩) (fun _ => hready) hb hbypass
    (by rw [hwork, plots_eq_cells, List.nil_append, List.append_nil]) (fun _ h => absurd h List.not_mem_nil)
    (fun _ h => absurd h List.not_mem_nil) ⟨_, hdot, hin⟩

/-- WRITE_STRING under bypass holds in the first character that has a cell on the raster. -/
theorem holdsForSeq_puts {s : State} {pre post : List Char16} {ch : Char16} {cx : BitVec 16} (tag : Byte) (v : Intensity)
    {size : BitVec 8} (hi : Inv s) (hready : s.transmitReady = true) (hb : s.seqBusy = true) (hsize : size ≠ 0)
    (hlen : (pre ++ ch :: post).length < 65536) (hcap : (pre ++ ch :: post).length ≤ s.cfg.textMax) (hfont : s.ffontValid = true)
    (hcx : cx = s.cx + BitVec.ofNat 16 ((located s pre).length * (s.ffWidth.toNat * size.toNat + size.toNat)))
    (hoff : ∀ p ∈ textCells s size.toNat v s.cx pre, inBounds s.cfg p.1 p.2.1 = false)
    (hon : ∃ p ∈ textCells s size.toNat v cx [ch], inBounds s.cfg p.1 p.2.1 = true) :
    HoldsForSeq (.puts tag v true size (pre ++ ch :: post)) s { s with
      cx := cx
      warnCount := BitVec.ofNat 16 (min (s.warnCount.toNat + (unlocated s pre).length) 0xFFFF)
      lastMissing := (unlocated s pre).getLastD s.lastMissing } := by
  have hok := hi.fontOk hfont
  have hlocated : (locate ch s.ffAlpha).isSome = true := by
    obtain ⟨p, hp, -⟩ := hon
    cases hl : locate ch s.ffAlpha with
    | some j => rfl
    | none => simp [textCells, hl] at hp
  obtain ⟨rest, hrest⟩ := textPieces_located hok (post := post) hlocated
  have hwork : textPieces s size.toNat v true s.cx (pre ++ ch :: post) =
      textPieces s size.toNat v true s.cx pre ++ ((textCells s size.toNat v cx [ch]).map plotOf ++ rest) := by
    rw [textPieces_append, ← hcx, hrest]
  have hsame : SameWork (.puts tag v true size (pre ++ ch :: post)) s := by
    intro u hin htr
    refine ⟨refusalOf_puts tag v hsize hlen (by rw [hin.cfg]; exact hcap) htr (by rw [hin.ffontValid]; exact hfont), ?_, rfl⟩
    rw [workOf, workOf, textPieces_same hin.ffAlpha hin.ffWidth hin.ffData hin.cy, hin.cx]
  have hheld := holdsForSeq_cells hsame (fun _ => hready) hb rfl hwork (textPieces_textual _ _ _ _ _ _)
    (by rw [plotsOf_text hok]; exact hoff) hon
  rw [applyAll_text, ← List.getLastD_eq_getLast?] at hheld
  rw [hcx]
  exact hheld

/-- WRITE_UNIFONT under bypass holds in the first glyph that has a cell on the raster. -/
theorem holdsForSeq_uputs {s : State} {text : List Char16} {pre post : List (BitVec 16 × CachedGlyph)} {d : BitVec 16 × CachedGlyph}
    (tag : Byte) (v : Intensity) (hi : Inv s) (hready : s.transmitReady = true) (hb : s.seqBusy = true) (hlen : text.length < 65536)
    (hcap : text.length ≤ s.cfg.textMax) (hfont : s.hfState = .loaded) (hvalid : s.cacheValid = true)
    (hcovers : ∀ ch ∈ text, (KeyMap.find ch s.cache).isSome = true) (hdraws : unifontDraws s s.cx text = pre ++ d :: post)
    (hoff : ∀ p ∈ unifontCells s v pre, inBounds s.cfg p.1 p.2.1 = false)
    (hon : ∃ p ∈ unifontCells s v [d], inBounds s.cfg p.1 p.2.1 = true) :
    HoldsForSeq (.uputs tag v true text) s { s with cx := cursorAfter s.cx pre } := by
  have hwork : unifontPieces s v s.cx text = drawnPieces s v pre ++ ((unifontCells s v [d]).map plotOf ++
      (.effect (.advance d.2.gw) :: drawnPieces s v post)) := by
    rw [unifontPieces_drawn hi.1.cache_ok, hdraws]
    simp [drawnPieces, unifontCells]
  have hsame : SameWork (.uputs tag v true text) s := by
    intro u hin htr
    refine ⟨refusalOf_uputs tag v hlen (by rw [hin.cfg]; exact hcap) htr (by rw [hin.hfState]; exact hfont)
      (by rw [hin.cacheValid]; exact hvalid) (by rw [hin.cache]; exact hcovers), ?_, rfl⟩
    rw [workOf, workOf, unifontPieces_same hin.cfg hin.cache hin.cy, hin.cx]
  have hheld := holdsForSeq_cells hsame (fun _ => hready) hb rfl hwork (drawnPieces_textual s v pre)
    (by rw [plotsOf_drawn]; exact hoff) hon
  rwa [applyAll_drawn] at hheld

/-- Settles O30: each command waits after pieces that a busy SEQ does not hold up, and its work is the same when it goes on. -/
theorem waitsForSequencer : Obligations.WaitsForSequencer := by
  unfold Obligations.WaitsForSequencer
  intro s tag hi hb
  refine ⟨holdsForSeq_first (sameWork_control (by simp [Instr.op])) (by simp [transmits]) hb rfl,
    holdsForSeq_first (sameWork_control (by simp [Instr.op])) (by simp [transmits]) hb rfl, fun hready => ?_⟩
  refine ⟨holdsForSeq_first (sameWork_control (by simp [Instr.op])) (fun _ => hready) hb rfl,
    holdsForSeq_first (sameWork_control (by simp [Instr.op])) (fun _ => hready) hb rfl, holdsForSeq_dispoff tag hready hb,
    fun hflight => ⟨holdsForSeq_update tag hready hb hflight, holdsForSeq_clear tag hready hb hflight⟩,
    fun v h0 h1 => holdsForSeq_contrast tag hready hb h0 h1, ?pixel, ?line, ?rect, ?puts, ?uputs⟩
  case pixel =>
    intro v x y hin
    exact holdsForSeq_draw (.inl rfl) rfl hready hb (ps := [(x.toInt, y.toInt)]) (fun _ => rfl) ⟨_, List.mem_singleton_self _, hin⟩
  case line => exact fun v x0 y0 x1 y1 hon => holdsForSeq_draw (.inr (.inl rfl)) rfl hready hb (fun _ => rfl) hon
  case rect => exact fun v x y w h hon => holdsForSeq_draw (.inr (.inr rfl)) rfl hready hb (fun _ => rfl) hon
  case puts =>
    rintro v size text pre post ch cx hsize hlen hcap hfont rfl hcx hoff hon
    exact holdsForSeq_puts tag v hi hready hb hsize hlen hcap hfont hcx hoff hon
  case uputs =>
    intro v text pre post d hlen hcap hfont hvalid hcovers hdraws hoff hon
    exact holdsForSeq_uputs tag v hi hready hb hlen hcap hfont hvalid hcovers hdraws hoff hon

end Sys2Proof.Machine
end

/-! Family other: refusals, responses and the frame of every command (R302 to R308, and who writes what). -/
section
namespace Sys2Proof.Machine

/-! ## What the work of a command consists of -/

/-- The operations whose rule has an effect. The single writes of a fine turn are no operation's. -/
def Effect.writers : Effect → List Op
  | .ctrl _ => [.reset, .begin, .teardown]
  | .inFlight _ | .snapshot => [.begin, .update, .clear, .teardown]
  | .resetOut _ => [.reset, .begin]
  | .fill => [.begin, .clear, .dispoff, .teardown]
  | .cursor _ _ => [.cursor]
  | .font _ _ _ => [.ffont]
  | .advance _ => [.puts, .uputs]
  | .warn _ => [.puts, .cache]
  | .hfBegin => [.hfbegin]
  | .hfGlyph _ _ => [.hfglyph]
  | .hfEnd => [.hfend]
  | .install _ => [.cache]
  | .cursorX _ | .cursorY _ | .countWarning | .lastMissing _ => []

/-- A piece is one that a command's rule may have. -/
def Piece.fits (i : Instr) : Piece → Prop
  | .effect e => i.op ∈ e.writers
  | .plot _ _ _ => i.op.drawing = true
  | .runSeq _ onFail => (i.op = .begin ∨ i.op = .teardown) ∧ ∀ e ∈ onFail, i.op ∈ e.writers
  | .coalesce => i.op = .update ∨ i.op = .clear
  | .startSeq _ d => completion i = some d
  | .waitHold => i.op = .reset ∨ i.op = .begin
  | .waitIdle => True

/-- Pixel writes fit a drawing command. -/
theorem plots_fit {i : Instr} (hi : i.op.drawing = true) (v : Intensity) (ps : List (Int × Int)) : ∀ p ∈ plots v ps, p.fits i := by
  intro p hp
  obtain ⟨q, -, rfl⟩ := List.mem_map.mp hp
  exact hi

/-- Pixel writes, cursor advances and warnings fit WRITE_STRING. -/
theorem fits_of_textual {i : Instr} (hi : i.op = .puts) {p : Piece} (hp : p.textual = true) : p.fits i := by
  have hdrawing : i.op.drawing = true := by rw [hi]; rfl
  cases p with
  | plot => exact hdrawing
  | effect e =>
    cases e with
    | advance | warn => simp [Piece.fits, Effect.writers, hi]
    | _ => cases hp
  | _ => cases hp

/-- The pieces of WRITE_UNIFONT are pixel writes and cursor advances. -/
theorem unifontPieces_fit {i : Instr} (hi : i.op = .uputs) (s : State) (v : Intensity) (cx : BitVec 16) (text : List Char16) :
    ∀ p ∈ unifontPieces s v cx text, p.fits i := by
  have hdrawing : i.op.drawing = true := by rw [hi]; rfl
  induction text generalizing cx with
  | nil => exact fun _ h => absurd h List.not_mem_nil
  | cons ch rest ih =>
    intro p hp
    rw [unifontPieces] at hp
    split at hp
    next => exact absurd hp List.not_mem_nil
    next =>
      split at hp
      next => exact absurd hp List.not_mem_nil
      next g _ =>
        rcases List.mem_append.mp hp with hp | hp
        · rw [cachedGlyphPieces_eq] at hp
          exact plots_fit hdrawing _ _ p hp
        · rcases List.mem_cons.mp hp with rfl | hp
          · simp [Piece.fits, Effect.writers, hi]
          · exact ih _ p hp

/-- The work of a command has only pieces that fit it. -/
theorem workOf_fits (i : Instr) (s : State) : ∀ p ∈ workOf s i, p.fits i := by
  cases i with
  | pixel =>
    intro p hp
    obtain rfl := List.mem_singleton.mp hp
    exact rfl
  | line | rect => exact fun p hp => plots_fit (by rfl) _ _ p hp
  | puts => exact fun p hp => fits_of_textual rfl (textPieces_textual _ _ _ _ _ _ p hp)
  | uputs => exact unifontPieces_fit rfl s _ _ _
  | cache tag text =>
    intro p hp
    rcases List.mem_append.mp hp with hp | hp
    · obtain ⟨ch, -, rfl⟩ := List.mem_map.mp hp
      simp [Piece.fits, Effect.writers, Instr.op]
    · obtain rfl := List.mem_singleton.mp hp
      simp [Piece.fits, Effect.writers, Instr.op]
  | rdpix => exact fun _ h => absurd h List.not_mem_nil
  | reset | begin | update | clear | contrast | dispoff | dispon | teardown =>
    simp [workOf, updatePieces, resetPulse, Piece.fits, Effect.writers, Instr.op, completion]
  | cursor | ffont | hfbegin | hfglyph | hfend => simp [workOf, Piece.fits, Effect.writers, Instr.op]

/-! ## Refusals and responses -/

/-- Settles O13, by the equation of refused commands. -/
theorem refusalsInOrder : Obligations.RefusalsInOrder := by
  unfold Obligations.RefusalsInOrder
  exact fun _ _ _ hroom hcheck => exec_refused hroom hcheck

theorem ok_mem_outcomes (i : Instr) : Status.ok ∈ outcomes i := by
  cases i with
  | pixel | line | rect | puts | uputs => rw [outcomes]; split <;> exact List.mem_cons_self
  | _ => exact List.mem_cons_self

theorem okCoalesced_mem_outcomes {i : Instr} (hi : i.op = .update ∨ i.op = .clear) : Status.okCoalesced ∈ outcomes i := by
  cases i with
  | update | clear => simp [outcomes]
  | _ => simp [Instr.op] at hi

theorem okMissingGlyph_mem_outcomes {i : Instr} (hi : i.op = .puts ∨ i.op = .cache) : Status.okMissingGlyph ∈ outcomes i := by
  cases i with
  | puts => rw [outcomes]; split <;> exact List.mem_cons_of_mem _ List.mem_cons_self
  | cache => simp [outcomes]
  | _ => simp [Instr.op] at hi

theorem transportFail_mem_outcomes {i : Instr} (hi : i.colorBypass.2 = true ∨ i.op = .begin ∨ i.op = .teardown) :
    Status.transportFail ∈ outcomes i := by
  cases i with
  | pixel | line | rect | puts | uputs =>
    obtain hb : _ = true := by simpa [Instr.op] using hi
    simp only [outcomes, Instr.colorBypass] at hb ⊢
    rw [if_pos hb]
    simp
  | begin | teardown => simp [outcomes]
  | _ => simp [Instr.op, Instr.colorBypass] at hi

/-- The status of a command that executes is one of its kind's. -/
theorem status_mem_outcomes {i : Instr} {s : State} {st : Status} {todo : List Piece} {result : Nat}
    (h : StatusOk (workOf s i) (newJob i.op i.tag i.colorBypass.2 result todo) st) : st ∈ outcomes i := by
  rcases h with rfl | ⟨rfl, hmem⟩ | ⟨rfl, hmissing | ⟨p, hmem, hp⟩⟩ | ⟨rfl, hfailed | ⟨hb, -⟩ | ⟨steps, onFail, hmem⟩⟩
  · exact ok_mem_outcomes i
  · exact okCoalesced_mem_outcomes (workOf_fits i s _ hmem)
  · cases hmissing
  · have hfits := workOf_fits i s p hmem
    cases p with
    | effect e =>
      cases e with
      | warn => exact okMissingGlyph_mem_outcomes (by simpa [Piece.fits, Effect.writers] using hfits)
      | lastMissing => exact absurd hfits List.not_mem_nil
      | _ => cases hp
    | _ => cases hp
  · cases hfailed
  · exact transportFail_mem_outcomes (.inl hb)
  · exact transportFail_mem_outcomes (.inr (workOf_fits i s _ hmem).1)

/-- Settles O14: a refused command pushes its refusal, or holds it; one that executes is answered as its pieces say. -/
theorem oneResponse : Obligations.OneResponse := by
  unfold Obligations.OneResponse
  intro i s t h
  rcases Option.eq_none_or_eq_some (refusalOf i s) with hcheck | ⟨st, hcheck⟩
  · rw [exec_runs hcheck] at h
    cases h
    rcases runPieces_answered (workOf s i) (newJob i.op i.tag i.colorBypass.2 (resultOf s i) (workOf s i)) s with
      ⟨r, hq, hidle, hop, htag, hst⟩ | ⟨hq, hhold | ⟨steps, d, hmem, hdone⟩⟩
    · exact .inl ⟨r, hq, hidle, hop, htag, .inr ⟨hcheck, status_mem_outcomes hst⟩⟩
    · exact .inr ⟨hq, .inl hhold⟩
    · have hcompletion : completion i = some d := workOf_fits i s _ hmem
      exact .inr ⟨hq, .inr ⟨by rw [hcompletion]; rfl, by rw [hcompletion]; exact hdone⟩⟩
  · rw [exec_eq, planOf_eq, hcheck] at h
    cases h
    rcases State.pushProc_cases ⟨i.op.code, i.tag, st, 0⟩ s with ⟨-, hpush⟩ | ⟨-, hpush⟩
    · refine .inl ⟨⟨i.op.code, i.tag, st, 0⟩, ?_, ?_, rfl, rfl, .inl hcheck⟩
      · exact congrArg State.respq hpush
      · exact congrArg State.proc hpush
    · exact .inr ⟨(congrArg State.respq hpush).trans rfl, .inl ⟨_, congrArg State.proc hpush⟩⟩

/-! ## The frame of every command -/

/-- A component that only some operations write is unchanged by the others. -/
theorem exec_keeps_unless {α : Type} {f : State → α} (hu : Untouched f) (ops : List Op)
    (heffects : ∀ e : Effect, (∀ s, f (e.apply s) = f s) ∨ ∀ o ∈ e.writers, o ∈ ops) {i : Instr} {s t : State}
    (hplots : i.op.drawing = true → i.colorBypass.2 = true ∨ ∀ (s : State) (fb : Memory), f { s with fb := fb } = f s)
    (hi : i.op ∉ ops) (h : exec i s = .next t) : f t = f s := by
  have heffect : ∀ e : Effect, i.op ∈ e.writers → ∀ s, f (e.apply s) = f s := fun e he =>
    (heffects e).resolve_right fun hall => hi (hall _ he)
  refine exec_keeps hu h fun p hp => ?_
  have hfits := workOf_fits i s p hp
  cases p with
  | effect e => exact heffect e hfits
  | plot => exact hplots hfits
  | runSeq steps onFail => exact fun e he => heffect e (hfits.2 e he)
  | waitIdle | waitHold | coalesce | startSeq => exact trivial

/-- A component that the frame of a rule keeps, apart from effects. -/
theorem untouched {α : Type} {f : State → α}
    (h : ∀ (s : State) (q : List Resp) (p : Proc) (env : List Event) (st : SeqStage) (steps : List SeqStep) (pos : Nat)
      (d : Option SeqDone) (r : Option Request) (ph : Phase) (tr : List TraceItem),
      f { s with
        respq := q, proc := p, env := env, seqStage := st, seqSteps := steps, seqPos := pos, seqDone := d, seqPending := r, phase := ph
        trace := tr } = f s) : Untouched f :=
  untouched_of
    (fun s q p => h s q p s.env s.seqStage s.seqSteps s.seqPos s.seqDone s.seqPending s.phase s.trace)
    (fun s env st steps pos d r ph tr => h s s.respq s.proc env st steps pos d r ph tr)

section
variable {i : Instr} {s t : State} (h : exec i s = .next t)
include h

theorem exec_cmdq : t.cmdq = s.cmdq :=
  exec_keeps_unless (f := State.cmdq) (untouched fun _ _ _ _ _ _ _ _ _ _ _ => rfl) [] (fun e => .inl (Effect.apply_cmdq e))
    (fun _ => .inr fun _ _ => rfl) List.not_mem_nil h

theorem exec_busWrite : t.busWrite = s.busWrite :=
  exec_keeps_unless (f := State.busWrite) (untouched fun _ _ _ _ _ _ _ _ _ _ _ => rfl) [] (fun e => .inl (Effect.apply_busWrite e))
    (fun _ => .inr fun _ _ => rfl) List.not_mem_nil h

theorem exec_respIE : t.respIE = s.respIE :=
  exec_keeps_unless (f := State.respIE) (untouched fun _ _ _ _ _ _ _ _ _ _ _ => rfl) [] (fun e => .inl (Effect.apply_respIE e))
    (fun _ => .inr fun _ _ => rfl) List.not_mem_nil h

theorem exec_busRead : t.busRead = s.busRead :=
  exec_keeps_unless (f := State.busRead) (untouched fun _ _ _ _ _ _ _ _ _ _ _ => rfl) [] (fun e => .inl (Effect.apply_busRead e))
    (fun _ => .inr fun _ _ => rfl) List.not_mem_nil h

/-- The framebuffer is written by the commands that fill it and by the drawing commands without bypass. -/
theorem exec_fb (hi : writesFb i = false) : t.fb = s.fb := by
  have hops : i.op ∉ [Op.begin, .clear, .dispoff, .teardown] := by
    cases i with
    | begin | clear | dispoff | teardown => cases hi
    | _ => simp [Instr.op]
  have hbypass : i.op.drawing = true → i.colorBypass.2 = true := by
    intro hdrawing
    cases i with
    | pixel | line | rect | puts | uputs => simpa [writesFb, Instr.colorBypass] using hi
    | _ => cases hdrawing
  refine exec_keeps_unless (f := State.fb) (untouched fun _ _ _ _ _ _ _ _ _ _ _ => rfl) _ (fun e => ?_) (fun hd => .inl (hbypass hd)) hops h
  cases e with
  | fill => exact .inr fun _ ho => ho
  | _ => exact .inl fun _ => rfl

theorem exec_cy (hi : i.op ≠ .cursor) : t.cy = s.cy := by
  refine exec_keeps_unless (f := State.cy) (untouched fun _ _ _ _ _ _ _ _ _ _ _ => rfl) [.cursor] (fun e => ?_)
    (fun _ => .inr fun _ _ => rfl) (by simpa using hi) h
  cases e with
  | cursor | cursorY => exact .inr (by simp [Effect.writers])
  | _ => exact .inl fun _ => rfl

theorem exec_cx (hi : i.op ∉ [Op.cursor, .puts, .uputs]) : t.cx = s.cx := by
  refine exec_keeps_unless (f := State.cx) (untouched fun _ _ _ _ _ _ _ _ _ _ _ => rfl) _ (fun e => ?_)
    (fun _ => .inr fun _ _ => rfl) hi h
  cases e with
  | cursor | cursorX | advance => exact .inr (by simp [Effect.writers])
  | _ => exact .inl fun _ => rfl

/-- The four parts of the fixed font. -/
theorem exec_font (hi : i.op ≠ .ffont) :
    (t.ffontValid, t.ffWidth, t.ffAlpha, t.ffData) = (s.ffontValid, s.ffWidth, s.ffAlpha, s.ffData) := by
  refine exec_keeps_unless (f := fun s => (s.ffontValid, s.ffWidth, s.ffAlpha, s.ffData)) (untouched fun _ _ _ _ _ _ _ _ _ _ _ => rfl)
    [.ffont] (fun e => ?_) (fun _ => .inr fun _ _ => rfl) (by simpa using hi) h
  cases e with
  | font => exact .inr (by simp [Effect.writers])
  | _ => exact .inl fun _ => rfl

theorem exec_hf (hi : i.op ∉ [Op.hfbegin, .hfglyph]) : t.hf = s.hf := by
  refine exec_keeps_unless (f := State.hf) (untouched fun _ _ _ _ _ _ _ _ _ _ _ => rfl) _ (fun e => ?_)
    (fun _ => .inr fun _ _ => rfl) hi h
  cases e with
  | hfBegin | hfGlyph => exact .inr (by simp [Effect.writers])
  | _ => exact .inl fun _ => rfl

theorem exec_hfState (hi : i.op ∉ [Op.hfbegin, .hfend]) : t.hfState = s.hfState := by
  refine exec_keeps_unless (f := State.hfState) (untouched fun _ _ _ _ _ _ _ _ _ _ _ => rfl) _ (fun e => ?_)
    (fun _ => .inr fun _ _ => rfl) hi h
  cases e with
  | hfBegin | hfEnd => exact .inr (by simp [Effect.writers])
  | _ => exact .inl fun _ => rfl

theorem exec_cache (hi : i.op ≠ .cache) : (t.cacheValid, t.cache) = (s.cacheValid, s.cache) := by
  refine exec_keeps_unless (f := fun s => (s.cacheValid, s.cache)) (untouched fun _ _ _ _ _ _ _ _ _ _ _ => rfl) [.cache] (fun e => ?_)
    (fun _ => .inr fun _ _ => rfl) (by simpa using hi) h
  cases e with
  | install => exact .inr (by simp [Effect.writers])
  | _ => exact .inl fun _ => rfl

theorem exec_warnings (hi : i.op ∉ [Op.puts, .cache]) : (t.warnCount, t.lastMissing) = (s.warnCount, s.lastMissing) := by
  refine exec_keeps_unless (f := fun s => (s.warnCount, s.lastMissing)) (untouched fun _ _ _ _ _ _ _ _ _ _ _ => rfl) _ (fun e => ?_)
    (fun _ => .inr fun _ _ => rfl) hi h
  cases e with
  | warn | countWarning | lastMissing => exact .inr (by simp [Effect.writers])
  | _ => exact .inl fun _ => rfl

theorem exec_resetOut (hi : i.op ∉ [Op.reset, .begin]) : t.resetOut = s.resetOut := by
  refine exec_keeps_unless (f := State.resetOut) (untouched fun _ _ _ _ _ _ _ _ _ _ _ => rfl) _ (fun e => ?_)
    (fun _ => .inr fun _ _ => rfl) hi h
  cases e with
  | resetOut => exact .inr fun _ ho => ho
  | _ => exact .inl fun _ => rfl

theorem exec_ctrl (hi : i.op ∉ [Op.reset, .begin, .teardown]) : t.ctrl = s.ctrl := by
  refine exec_keeps_unless (f := State.ctrl) (untouched fun _ _ _ _ _ _ _ _ _ _ _ => rfl) _ (fun e => ?_)
    (fun _ => .inr fun _ _ => rfl) hi h
  cases e with
  | ctrl => exact .inr fun _ ho => ho
  | _ => exact .inl fun _ => rfl

theorem exec_flight (hi : i.op ∉ [Op.begin, .update, .clear, .teardown]) : (t.inFlight, t.snap) = (s.inFlight, s.snap) := by
  refine exec_keeps_unless (f := fun s => (s.inFlight, s.snap)) (untouched fun _ _ _ _ _ _ _ _ _ _ _ => rfl) _ (fun e => ?_)
    (fun _ => .inr fun _ _ => rfl) hi h
  cases e with
  | inFlight | snapshot => exact .inr fun _ ho => ho
  | _ => exact .inl fun _ => rfl

end

/-! ## Commands that send nothing -/

/-- A job without bypass that plays no sequence leaves alone what its effects, its pushes and its holds leave alone. -/
theorem runPieces_local {α : Type} {f : State → α} (hpush : ∀ (s : State) (r : Resp), f (s.pushProc r) = f s)
    (hhold : ∀ (s : State) (k : Hold), f (s.hold k) = f s) (hfb : ∀ (s : State) (fb : Memory), f { s with fb := fb } = f s)
    {ps : List Piece} (hlater : .waitHold ∈ ps → ∀ (s : State) (env : List Event), f { s with env := env } = f s)
    (heffect : ∀ e, .effect e ∈ ps → ∀ s, f (Effect.apply e s) = f s)
    (hnone : ∀ p ∈ ps, ∀ steps l d, p ≠ .runSeq steps l ∧ p ≠ .coalesce ∧ p ≠ .startSeq steps d) {j : Job} (hb : j.bypass = false)
    (s : State) : f (runPieces ps j s) = f s := by
  induction ps generalizing j s with
  | nil => exact hpush s _
  | cons p ps ih =>
    have hrest : ∀ {j : Job}, j.bypass = false → ∀ s, f (runPieces ps j s) = f s := fun hb =>
      ih (fun hmem => hlater (List.mem_cons_of_mem _ hmem)) (fun e he => heffect e (List.mem_cons_of_mem _ he))
        (fun q hq => hnone q (List.mem_cons_of_mem _ hq)) hb
    rw [runPieces_cons]
    cases p with
    | effect e => exact (hrest (by rw [Job.note_bypass]; exact hb) _).trans (heffect e List.mem_cons_self s)
    | plot x y v =>
      rcases doPiece_plot j x y v ps s with ⟨-, hgo⟩ | ⟨-, -, hgo⟩ | ⟨-, hbypass, -⟩ | ⟨-, hbypass, -⟩
      · rw [hgo]
        exact hrest hb s
      · rw [hgo]
        exact (hrest hb _).trans (hfb s _)
      · rw [hb] at hbypass
        cases hbypass
      · rw [hb] at hbypass
        cases hbypass
    | waitIdle =>
      rcases doPiece_waitIdle j ps s with ⟨-, hgo⟩ | ⟨-, hgo⟩ <;> rw [hgo]
      · exact hrest hb s
      · exact hhold s _
    | waitHold =>
      rcases doPiece_waitHold j ps s with ⟨later, -, hgo⟩ | ⟨-, hgo⟩ <;> rw [hgo]
      · exact (hrest hb _).trans (hlater List.mem_cons_self s later)
      · exact hhold s _
    | runSeq steps l => exact absurd rfl (hnone _ List.mem_cons_self steps l (.contrast 0)).1
    | coalesce => exact absurd rfl (hnone _ List.mem_cons_self [] [] (.contrast 0)).2.1
    | startSeq steps d => exact absurd rfl (hnone _ List.mem_cons_self steps [] d).2.2

/-- A command that does not transmit, other than BEGIN, plays no sequence. -/
theorem workOf_plays_none {i : Instr} (hi : i.op ≠ .begin) (hx : transmits i = false) (s : State) :
    ∀ p ∈ workOf s i, ∀ steps l d, p ≠ .runSeq steps l ∧ p ≠ .coalesce ∧ p ≠ .startSeq steps d := by
  intro p hp steps l d
  have hfits := workOf_fits i s p hp
  refine ⟨?_, ?_, ?_⟩ <;> rintro rfl
  · rcases hfits.1 with hop | hop
    · exact hi hop
    · cases i <;> simp [Instr.op, transmits] at hop hx
  · rcases hfits with hop | hop <;> cases i <;> simp [Instr.op, transmits] at hop hx
  · have hcompletion : completion i = some d := hfits
    cases i <;> simp [completion, transmits] at hcompletion hx

/-- A command that does not transmit has no bypass. -/
theorem bypass_of_silent {i : Instr} (hx : transmits i = false) : i.colorBypass.2 = false := by
  cases i with
  | pixel | line | rect | puts | uputs => exact hx
  | _ => rfl

/-- A command that does not transmit, other than BEGIN, leaves alone what its effects leave alone. -/
theorem exec_silent {α : Type} {f : State → α} (hpush : ∀ (s : State) (r : Resp), f (s.pushProc r) = f s)
    (hhold : ∀ (s : State) (k : Hold), f (s.hold k) = f s) (hfb : ∀ (s : State) (fb : Memory), f { s with fb := fb } = f s)
    {i : Instr} (hlater : i.op = .reset → ∀ (s : State) (env : List Event), f { s with env := env } = f s)
    (heffect : ∀ e : Effect, i.op ∈ e.writers → ∀ s, f (e.apply s) = f s) (hi : i.op ≠ .begin) (hx : transmits i = false)
    {s t : State} (h : exec i s = .next t) : f t = f s := by
  rw [exec_eq, planOf_eq] at h
  cases h
  cases refusalOf i s with
  | some st => exact hpush s _
  | none =>
    exact runPieces_local hpush hhold hfb (fun hmem => hlater ((workOf_fits i s _ hmem).resolve_right hi))
      (fun e he => heffect e (workOf_fits i s _ he)) (workOf_plays_none hi hx s) (bypass_of_silent hx) s

/-- PHASE, the registers of SEQ and the requests to XPORT. -/
def seqView (s : State) : Phase × SeqStage × List SeqStep × Nat × Option SeqDone × Option Request × List Request :=
  (s.phase, s.seqStage, s.seqSteps, s.seqPos, s.seqDone, s.seqPending, requestsOf s.trace)

theorem exec_seqView {i : Instr} {s t : State} (hi : i.op ≠ .begin) (hx : transmits i = false) (h : exec i s = .next t) :
    seqView t = seqView s := by
  refine exec_silent (fun s r => by simp [seqView]) (fun _ _ => rfl) (fun _ _ => rfl) (fun _ _ _ => rfl) (fun e _ s => ?_) hi hx h
  cases e with
  | resetOut high => simp [seqView, Effect.apply, requestsOf, TraceItem.requested]
  | _ => rfl

theorem exec_outputs {i : Instr} {s t : State} (hi : i.op ≠ .begin) (hx : transmits i = false) (hreset : i.op ≠ .reset)
    (h : exec i s = .next t) : (t.trace, t.env) = (s.trace, s.env) := by
  refine exec_silent (f := fun s => (s.trace, s.env)) (fun s r => by simp) (fun _ _ => rfl) (fun _ _ => rfl) (fun h => absurd h hreset)
    (fun e he s => ?_) hi hx h
  cases e with
  | resetOut high => simp [Effect.writers, hi, hreset] at he
  | _ => rfl

/-- Settles O16, component by component. -/
theorem whoWritesWhat : Obligations.WhoWritesWhat := by
  unfold Obligations.WhoWritesWhat
  intro i s t h
  refine ⟨⟨exec_cfg h, exec_cmdq h, exec_busWrite h, exec_respIE h, exec_busRead h⟩, exec_fb h, exec_cy h,
    fun h1 h2 h3 => exec_cx h (by simp [h1, h2, h3]), fun h1 => by simpa using exec_font h h1,
    fun h1 h2 => exec_hf h (by simp [h1, h2]), fun h1 h2 => exec_hfState h (by simp [h1, h2]), fun h1 => by simpa using exec_cache h h1,
    fun h1 h2 => by simpa using exec_warnings h (by simp [h1, h2]), fun h1 h2 => exec_resetOut h (by simp [h1, h2]),
    fun h1 h2 h3 => exec_ctrl h (by simp [h1, h2, h3]),
    fun h1 h2 h3 h4 => by simpa using exec_flight h (by simp [h1, h2, h3, h4]), fun hi hx => ?_⟩
  have hview := exec_seqView hi hx h
  simp only [seqView, Prod.mk.injEq] at hview
  obtain ⟨hphase, hstage, hsteps, hpos, hdone, hpending, hrequests⟩ := hview
  exact ⟨hphase, hstage, hsteps, hpos, hdone, hpending, hrequests, fun hreset => by simpa using exec_outputs hi hx hreset h⟩

end Sys2Proof.Machine
end

/-! Family other: the register window of the host (R48 to R60, R89 to R92), STATUS and the outputs (R39, R52, R320). -/
section
namespace Sys2Proof.Machine

/-! ## Reads -/

/-- The words from 12 on are reserved. -/
theorem ofIndex_reserved {k : Nat} (h : 12 ≤ k) : Register.ofIndex k = .reserved := by
  match k, h with
  | _ + 12, _ => rfl

/-- Settles O55: the value of each register, one word at a time. -/
theorem windowReads : Obligations.WindowReads := by
  unfold Obligations.WindowReads
  refine ⟨⟨rfl, rfl, rfl, rfl, rfl, rfl, rfl, rfl, rfl, rfl, rfl, rfl, rfl⟩, fun s later k hc hb hk he => ?_⟩
  refine ⟨_, step_hostRead hc hb hk he, ?zero, ?resp0, ?resp1, ?status, ?level, ?cursor, ?warn, ?irqEn, ?irqStat, ?geometry, ?id⟩
  case zero =>
    rintro (rfl | rfl | hreserved)
    · rfl
    · rfl
    · rw [ofIndex_reserved hreserved]
      rfl
  case resp0 | resp1 =>
    rintro rfl
    cases hq : s.respq <;> simp [Register.ofIndex, readRegister, hq, Resp.word0, Resp.word1]
  case status | level | cursor | warn | geometry | id => rintro rfl; rfl
  case irqEn =>
    rintro rfl
    cases hie : s.respIE <;> simp [Register.ofIndex, readRegister, hie]
  case irqStat =>
    rintro rfl
    cases hq : s.respq <;> simp [Register.ofIndex, readRegister, State.respPending, hq]

/-! ## STATUS, the interrupt and the data/command line -/

/-- STATUS at the width that the widths of its fields add up to. -/
def statusFields (s : State) : BitVec (19 + 1 + 1 + 1 + 1 + 1 + 2 + 1 + 1 + 1 + 3) :=
  (0 : BitVec 19) ++ BitVec.ofBool s.resetOut ++ s.phase.bit ++ (0 : BitVec 1) ++
    BitVec.ofBool s.cacheValid ++ BitVec.ofBool s.ffontValid ++ s.hfState.code ++
    BitVec.ofBool s.procBusy ++ BitVec.ofBool s.seqBusy ++ BitVec.ofBool s.inFlight ++ s.ctrl.code

theorem getLsbD_statusWord (s : State) (k : Nat) : s.statusWord.getLsbD k = (statusFields s).getLsbD k := rfl

theorem extractLsb'_statusWord (s : State) (k n : Nat) : s.statusWord.extractLsb' k n = (statusFields s).extractLsb' k n := rfl

/-- Settles O56: the fields of the concatenation, and the outputs by their definitions. -/
theorem statusAndInterrupt : Obligations.StatusAndInterrupt := by
  unfold Obligations.StatusAndInterrupt
  refine ⟨⟨rfl, rfl, rfl, rfl, rfl, rfl, rfl, rfl, rfl, rfl⟩, fun s => ?_⟩
  refine ⟨?ctrl, ?inFlight, ?seqBusy, ?procBusy, ?hfState, ?ffontValid, ?cacheValid, ?bit10, ?phase, ?resetOut, ?high, ?irq,
    ?command, ?data⟩
  case ctrl => exact BitVec.extractLsb'_append_eq_right
  case hfState | phase | high =>
    rw [extractLsb'_statusWord, statusFields]
    simp only [BitVec.extractLsb'_append_eq_ite, Nat.reduceLT, Nat.reduceLeDiff, ↓reduceDIte, Nat.reduceSub]
    exact BitVec.extractLsb'_eq_self
  case inFlight | seqBusy | procBusy | ffontValid | cacheValid | bit10 | resetOut =>
    rw [getLsbD_statusWord, statusFields]
    simp only [BitVec.getLsbD_append, Nat.reduceLT, ↓reduceIte, Nat.reduceSub]
    simp [State.seqBusy, State.procBusy, bne, BEq.beq]
  case irq => simp [State.irq, State.respPending]
  case command | data =>
    intro hphase
    rw [State.dcLine, hphase]

/-! ## Writes -/

/-- What a write of `v` to word `k` does. -/
theorem step_write {s : State} {later : List Event} {k : Nat} {v : Word} (hc : s.cfg.Ok) (hb : s.busWrite = none) (hk : k < 16)
    (he : s.env = .hostWrite (s.cfg.base + 4 * k) 4 v :: later) {r : Register} (hr : Register.ofIndex k = r) :
    step s = .next (writeRegister r v { s with env := later }) := hr ▸ step_hostWrite hc hb hk he

/-- The words that a write has no effect on. -/
theorem writeRegister_inert {k : Nat} (h0 : k ≠ 0) (h3 : k ≠ 3) (h7 : k ≠ 7) (h8 : k ≠ 8) (v : Word) (s : State) :
    writeRegister (Register.ofIndex k) v s = s := by
  match k with
  | 0 => exact absurd rfl h0
  | 3 => exact absurd rfl h3
  | 7 => exact absurd rfl h7
  | 8 => exact absurd rfl h8
  | 1 | 2 | 4 | 5 | 6 | 9 | 10 | 11 | _ + 12 => rfl

/-- A write to WARN. -/
theorem step_writeWarn {s : State} {later : List Event} {v : Word} (hc : s.cfg.Ok) (hb : s.busWrite = none)
    (he : s.env = .hostWrite (s.cfg.base + 28) 4 v :: later) :
    step s = .next { s with env := later, warnCount := 0, lastMissing := 0, proc := s.proc.warningOver } :=
  step_write (k := 7) hc hb (by omega) he rfl

/-- A fine turn of PROC at an effect does its first write and leaves the writes after it. -/
theorem step_fineEffect {s : State} {later : List Event} {j : Job} {e : Effect} {rest : List Piece} (hc : s.cfg.Ok)
    (hp : s.proc = .executing (.job j)) (ht : j.todo = .effect e :: rest) (he : s.env = .procFine :: later) :
    step s = .next (State.hold (.job { j.note e.firstWrite.1 with todo := e.firstWrite.2.map .effect ++ rest })
      (e.firstWrite.1.apply { s with env := later })) := by
  rw [step_event hc he]
  simp only [eventTurn, procFineTurn, hp, jobPiece, ht]
  rfl

/-- A job that is not in the middle of a warning. -/
theorem warningOver_job {j : Job} (h : ∀ ch rest, j.todo ≠ .effect (.lastMissing ch) :: rest) :
    Proc.warningOver (.executing (.job j)) = .executing (.job j) := by
  refine warningOver_none (p := .executing (.job j)) fun j' ch rest hp => ?_
  obtain rfl : j = j' := by simpa using hp
  exact h ch rest

section
variable {s : State} {later : List Event} {v : Word} {j : Job} {ch : Char16} {rest : List Piece} (hc : s.cfg.Ok)
  (hb : s.busWrite = none) (hp : s.proc = .executing (.job j))
include hc hb hp

/-- The state after the first fine turn of a warning: it is counted, its character is still to be written. -/
def countedWarning (s : State) (j : Job) (ch : Char16) (rest : List Piece) (env : List Event) : State :=
  { s with env := env, warnCount := warnedOnce s.warnCount, proc := .executing (.job { j with todo := .effect (.lastMissing ch) :: rest }) }

/-- The state after a write to WARN behind a warning. -/
def clearedWarning (s : State) (j : Job) (rest : List Piece) (env : List Event) : State :=
  { s with
    env := env, warnCount := 0, lastMissing := 0, proc := .executing (.job { j with todo := rest, missing := true }) }

omit hb in
theorem step_countsWarning (ht : j.todo = .effect (.warn ch) :: rest) (he : s.env = .procFine :: later) :
    step s = .next (countedWarning s j ch rest later) := by
  rw [step_fineEffect hc hp ht he]
  rfl

/-- The write first, then the warning: the warning counts from 0. -/
theorem stepN_write_warning (ht : j.todo = .effect (.warn ch) :: rest)
    (he : s.env = .hostWrite (s.cfg.base + 28) 4 v :: .procFine :: .procFine :: later) :
    ∃ t, stepN 3 s = .next t ∧ t.warnCount = 1 ∧ t.lastMissing = ch := by
  have hover : s.proc.warningOver = .executing (.job j) := by
    rw [hp]
    exact warningOver_job (by simp [ht])
  have hwritten := step_writeWarn hc hb he
  rw [hover] at hwritten
  have hcounted := step_countsWarning (s := { s with
    env := .procFine :: .procFine :: later, warnCount := 0, lastMissing := 0, proc := .executing (.job j) }) hc rfl ht rfl
  rw [stepN_succ hwritten, stepN_succ hcounted, stepN_succ (step_fineEffect (by exact hc) rfl rfl rfl)]
  exact ⟨_, rfl, rfl, rfl⟩

/-- The write between the two writes of a warning: it ends the warning. -/
theorem stepN_warning_write_inside (ht : j.todo = .effect (.warn ch) :: rest)
    (he : s.env = .procFine :: .hostWrite (s.cfg.base + 28) 4 v :: later) :
    stepN 2 s = .next (clearedWarning s j rest later) := by
  rw [stepN_succ (step_countsWarning hc hp ht he), stepN_succ (step_writeWarn (s := countedWarning s j ch rest _) hc hb rfl)]
  rfl

/-- The write after both writes of a warning. -/
theorem stepN_warning_write (ht : j.todo = .effect (.warn ch) :: rest) (hrest : ∀ ch' rest', rest ≠ .effect (.lastMissing ch') :: rest')
    (he : s.env = .procFine :: .procFine :: .hostWrite (s.cfg.base + 28) 4 v :: later) :
    stepN 3 s = .next (clearedWarning s j rest later) := by
  have hover : Proc.warningOver (.executing (.job { j with todo := rest, missing := true })) =
      .executing (.job { j with todo := rest, missing := true }) :=
    warningOver_job (j := { j with todo := rest, missing := true }) hrest
  have hwritten : step (countedWarning s j ch rest (.procFine :: .hostWrite (s.cfg.base + 28) 4 v :: later)) = .next { s with
      env := .hostWrite (s.cfg.base + 28) 4 v :: later, warnCount := warnedOnce s.warnCount, lastMissing := ch
      proc := .executing (.job { j with todo := rest, missing := true }) } := by
    rw [step_fineEffect (by exact hc) rfl rfl rfl]
    rfl
  rw [stepN_succ (step_countsWarning hc hp ht he), stepN_succ hwritten, stepN_succ (step_writeWarn (by exact hc) (by exact hb) rfl)]
  exact congrArg (fun p => Host.Outcome.next { clearedWarning s j rest later with proc := p }) hover

end

/-- Settles O57: the register of each word, and the three places of a write to WARN around the two fine turns of a warning. -/
theorem windowWrites : Obligations.WindowWrites := by
  unfold Obligations.WindowWrites
  constructor
  · intro s later k v hc hb hk he
    refine ⟨?cmd, ?respPop, ?warn, ?warning, ?irqEn, ?others⟩
    case cmd =>
      rintro rfl hroom
      exact (step_write hc hb hk he rfl).trans (congrArg _ (if_pos hroom))
    case respPop =>
      rintro rfl
      rw [step_write hc hb hk he rfl, List.drop_one]
      rfl
    case warn =>
      rintro rfl hnone
      rw [step_writeWarn hc hb he, warningOver_none hnone]
    case warning =>
      rintro rfl j ch rest hp ht
      rw [step_writeWarn hc hb he, hp, warningOver_some ht]
    case irqEn =>
      rintro rfl
      exact step_write hc hb hk he rfl
    case others =>
      intro h0 h3 h7 h8
      rw [step_hostWrite hc hb hk he, writeRegister_inert h0 h3 h7 h8]
  · rintro s later v j ch rest write hc hb hp ht hrest rfl
    refine ⟨?_, clearedWarning s j rest later, ?_, ?_, rfl, rfl⟩
    · exact stepN_write_warning (s := { s with env := _ }) hc hb hp ht rfl
    · exact stepN_warning_write_inside (s := { s with env := _ }) hc hb hp ht rfl
    · exact stepN_warning_write (s := { s with env := _ }) hc hb hp ht hrest rfl

/-- A fine turn of PROC that pops a word changes the queue, and PROC by what the words so far decode to. -/
theorem fetchOne_pops {s : State} {w : Word} {rest : List Word} (hq : s.queue = w :: rest) :
    ∃ p, fetchOne s = { s with cmdq := rest, busWrite := none, proc := p } := by
  simp only [fetchOne, hq]
  split <;> exact ⟨_, rfl⟩

/-- PROC's fine turn fetches while it executes no command. -/
theorem procFineTurn_fetches {s : State} (hp : ∀ h, s.proc ≠ .executing h) : procFineTurn s = fetchOne s := by
  rw [procFineTurn]
  cases hproc : s.proc with
  | idle | collecting => rfl
  | executing h => exact absurd hproc (hp h)

/-- Settles O58: the write is kept in `busWrite`, behind the queue that PROC pops from. -/
theorem stalledWrite : Obligations.StalledWrite := by
  unfold Obligations.StalledWrite
  constructor
  · intro s later v hc hb hfull he
    exact (step_write (k := 0) hc hb (by omega) he rfl).trans (congrArg _ (if_neg (Nat.not_lt.mpr hfull)))
  · intro s later v w q hc hb hq hp he
    obtain ⟨p, hpop⟩ := fetchOne_pops (s := { s with env := later }) (w := w) (rest := q ++ [v]) (by simp [State.queue, hq, hb])
    refine ⟨p, ?_⟩
    rw [step_event hc he]
    exact congrArg Host.Outcome.next ((procFineTurn_fetches (s := { s with env := later }) hp).trans hpop)

/-! ## Refused accesses -/

/-- A step with a host access that the window refuses. -/
theorem step_badAccess {s : State} {later : List Event} {addr bytes : Nat} {v : Word} {r : Refusal} (hc : s.cfg.Ok) (hb : s.busWrite = none)
    (he : s.env = .hostRead addr bytes :: later ∨ s.env = .hostWrite addr bytes v :: later)
    (hbad : registerAt s.cfg.base addr bytes = .error r) : step s = .refused r := by
  rcases he with he | he <;> rw [step_event hc he]
  · simp only [eventTurn, hostReadTurn, hb, hbad]
    rfl
  · simp only [eventTurn, hostWriteTurn, hb, hbad]
    rfl

/-- Settles O59: the two refusals of `registerAt`, for reads and for writes. -/
theorem badAccesses : Obligations.BadAccesses := by
  unfold Obligations.BadAccesses
  intro s later addr bytes v hc hb he
  constructor
  · intro houtside
    exact step_badAccess hc hb he (if_pos houtside)
  · intro hlow hhigh hbad
    exact step_badAccess hc hb he (by rw [registerAt, if_neg (by omega), if_pos hbad])

end Sys2Proof.Machine
end

/-! Family other: the hex-font loader (R280 to R283). -/
section
namespace Sys2Proof.Machine

/-! ## The lines of a file -/

theorem hexFontLine_short {line : List Char} (h : line.length < 5) : hexFontLine line = none := by
  match line, h with
  | [], _ | [_], _ | [_, _], _ | [_, _, _], _ | [_, _, _, _], _ => rfl

/-- A line with a separator, by its first four characters and its payload. -/
theorem exists_separator {line : List Char} (h : 5 ≤ line.length) :
    ∃ a b c d e payload, line = a :: b :: c :: d :: e :: payload := by
  match line, h with
  | a :: b :: c :: d :: e :: payload, _ => exact ⟨a, b, c, d, e, payload, rfl⟩

/-- A line with a character that should be a digit and is none. -/
theorem hexFontLine_noDigit {line : List Char} (h : ∃ ch ∈ line.take 4 ++ line.drop 5, hexDigit ch = none) :
    hexFontLine line = none := by
  rcases Nat.lt_or_ge line.length 5 with hshort | hlong
  · exact hexFontLine_short hshort
  · obtain ⟨a, b, c, d, e, payload, rfl⟩ := exists_separator hlong
    obtain ⟨ch, hmem, hnone⟩ := h
    rw [hexFontLine]
    rcases List.mem_append.mp hmem with hmem | hmem
    · rw [digitsOf_none (l := [a, b, c, d]) ⟨ch, hmem, hnone⟩]
    · rw [digitsOf_none (l := payload) ⟨ch, hmem, hnone⟩]
      cases digitsOf hexDigit [a, b, c, d] <;> rfl

/-- A line of digits. -/
theorem hexFontLine_digits {line : List Char} {ns ds : List Nat} (hn : (line.take 4).map hexDigit = ns.map some)
    (hd : (line.drop 5).map hexDigit = ds.map some) (hlong : 5 ≤ line.length) :
    hexFontLine line = if numberOf 16 ns = 0 then none else some (BitVec.ofNat 16 (numberOf 16 ns), glyphOfDigits ds) := by
  obtain ⟨a, b, c, d, e, payload, rfl⟩ := exists_separator hlong
  have hpoint : digitsOf hexDigit [a, b, c, d] = some ns := digitsOf_eq hn
  have hpayload : digitsOf hexDigit payload = some ds := digitsOf_eq hd
  rw [hexFontLine, hpoint, hpayload]

theorem numberOf_four (n0 n1 n2 n3 : Nat) : numberOf 16 [n0, n1, n2, n3] = 4096 * n0 + 256 * n1 + 16 * n2 + n3 := by
  simp only [numberOf, List.foldl_cons, List.foldl_nil]
  omega

/-- The number of four digits, by their places. -/
theorem numberOf_of_length_four {ns : List Nat} (h : ns.length = 4) :
    numberOf 16 ns = 4096 * ns.getD 0 0 + 256 * ns.getD 1 0 + 16 * ns.getD 2 0 + ns.getD 3 0 := by
  match ns, h with
  | [n0, n1, n2, n3], _ => exact numberOf_four n0 n1 n2 n3

/-- A row of four digits. -/
theorem numberOf_row4 {ds : List Nat} {n : Nat} (h : n + 4 ≤ ds.length) :
    numberOf 16 ((ds.drop n).take 4) =
      4096 * ds.getD n 0 + 256 * ds.getD (n + 1) 0 + 16 * ds.getD (n + 2) 0 + ds.getD (n + 3) 0 := by
  rw [take_drop_getD, Nat.min_eq_left (by omega)]
  exact numberOf_four _ _ _ _

/-- A row of two digits, of one, or of none. -/
theorem numberOf_row2 (ds : List Nat) (n : Nat) :
    numberOf 16 ((ds.drop n).take 2) = if n + 1 < ds.length then 16 * ds.getD n 0 + ds.getD (n + 1) 0 else ds.getD n 0 := by
  rw [take_drop_getD]
  split
  next htwo =>
    rw [Nat.min_eq_left (by omega)]
    simp [numberOf, List.range_succ, Nat.mul_comm]
  next hless =>
    rcases Nat.lt_or_ge n ds.length with hone | hnone
    · rw [show min 2 (ds.length - n) = 1 by omega]
      simp [numberOf, List.range_succ]
    · rw [show min 2 (ds.length - n) = 0 by omega]
      simp [numberOf, List.getElem?_eq_none hnone]

theorem getD_map_range {α : Type} (f : Nat → α) (d : α) {n r : Nat} (h : r < n) : ((List.range n).map f).getD r d = f r := by
  simp [List.getD_eq_getElem?_getD, h]

theorem glyphOfDigits_wf (ds : List Nat) : (glyphOfDigits ds).wf = true := by
  rw [glyphOfDigits]
  split <;> simp [Glyph.wf]

/-- The glyph of an accepted line has the shape of its kind. -/
theorem hexFontLine_wf {line : List Char} {g : Char16 × Glyph} (h : hexFontLine line = some g) : g.2.wf = true := by
  rcases Nat.lt_or_ge line.length 5 with hshort | hlong
  · rw [hexFontLine_short hshort] at h
    cases h
  · obtain ⟨a, b, c, d, e, payload, rfl⟩ := exists_separator hlong
    rw [hexFontLine] at h
    split at h
    · split at h
      · cases h
      · cases h
        exact glyphOfDigits_wf _
    · cases h

/-! ## The calls of a file -/

/-- PROC fetches a well-formed command by its whole length and no less. -/
theorem fetchedWhole {i : Instr} (h : i.wf = true) : FetchedWhole i :=
  ⟨decode_encode h, fun _ _ hk => decode_encode_take h hk⟩

/-- HOST calls HFONT_BEGIN. -/
theorem stepN_hfbegin {s : State} {later : List Event} (hq : Quiet s) (he : s.env = hostCall s.cfg (.hfbegin 0) ++ later) :
    stepN (hostCall s.cfg (.hfbegin 0)).length s = .next { s with env := later, hf := [], hfState := .loading, busRead := 0 } := by
  have hroom : s.respq.length < s.cfg.respFifoDepth := by
    rw [hq.respq]
    exact hq.cfg.2.2.2.2.1
  exact stepN_hostCall (fetchedWhole rfl) hq.cfg hq.proc hq.bus hq.cmdq he
    (u := { s with hf := [], hfState := .loading }) (fun env => (hexFontLoad { s with env := env } 0 hroom).1) rfl hq.bus hq.respq hq.proc

/-- HOST calls HFONT_END in a load. -/
theorem stepN_hfend {s : State} {later : List Event} (hq : Quiet s) (hl : s.hfState = .loading)
    (he : s.env = hostCall s.cfg (.hfend 0) ++ later) :
    stepN (hostCall s.cfg (.hfend 0)).length s =
      .next { s with env := later, hfState := .loaded, busRead := BitVec.ofNat 32 s.hf.length } := by
  have hroom : s.respq.length < s.cfg.respFifoDepth := by
    rw [hq.respq]
    exact hq.cfg.2.2.2.2.1
  exact stepN_hostCall (fetchedWhole rfl) hq.cfg hq.proc hq.bus hq.cmdq he (u := { s with hfState := .loaded })
    (fun env => ((hexFontLoad { s with env := env } 0 hroom).2).trans (if_pos hl)) rfl hq.bus hq.respq hq.proc

/-- The commands that load the glyphs of a file. -/
def loadCommands (glyphs : List (Char16 × Glyph)) : List Instr :=
  Instr.hfbegin 0 :: (glyphs.map (fun g => Instr.hfglyph 0 g.1 g.2) ++ [Instr.hfend 0])

theorem loadHexFont_eq (text : List Char) :
    loadHexFont (some text) = some (loadCommands ((splitLines text).filterMap fun line => hexFontLine (stripCR line))) := rfl

/-- HOST calls the commands of a load in order: the hex font is the last glyph of each code point. -/
theorem stepN_load {s : State} {glyphs : List (Char16 × Glyph)} {later : List Event} (hq : Quiet s)
    (hg : ∀ g ∈ glyphs, g.2.wf = true) (hroom : glyphs.length ≤ s.cfg.hfMaxGlyphs)
    (he : s.env = hostRun s.cfg (loadCommands glyphs) ++ later) :
    ∃ m, stepN (hostRun s.cfg (loadCommands glyphs)).length s =
        .next { s with env := later, hf := m, hfState := .loaded, busRead := BitVec.ofNat 32 m.length } ∧
      ∀ cp, KeyMap.find cp m = lastGlyph glyphs cp := by
  have hrun : hostRun s.cfg (loadCommands glyphs) =
      hostCall s.cfg (.hfbegin 0) ++ (hostRun s.cfg (glyphs.map fun g => Instr.hfglyph 0 g.1 g.2) ++ hostCall s.cfg (.hfend 0)) := by
    simp [hostRun, loadCommands]
  rw [hrun] at he ⊢
  rw [List.append_assoc, List.append_assoc] at he
  have hbegun := stepN_hfbegin hq he
  obtain ⟨m, v, hglyphs, hfind⟩ := stepN_glyphs (s := { s with
      env := hostRun s.cfg (glyphs.map fun g => Instr.hfglyph 0 g.1 g.2) ++ (hostCall s.cfg (.hfend 0) ++ later)
      hf := [], hfState := .loading, busRead := 0 })
    (fun g hmem => fetchedWhole (hg g hmem)) hg ⟨hq.cfg, hq.proc, hq.bus, hq.cmdq, hq.respq⟩ rfl rfl (by simpa using hroom) rfl
  have hended := stepN_hfend (s := { s with
      env := hostCall s.cfg (.hfend 0) ++ later, hf := m, hfState := .loading, busRead := v }) (later := later)
    ⟨hq.cfg, hq.proc, hq.bus, hq.cmdq, hq.respq⟩ rfl rfl
  refine ⟨m, ?_, fun cp => by rw [hfind, KeyMap.find_nil, Option.or_none]⟩
  rw [List.length_append, List.length_append, stepN_add hbegun, stepN_add hglyphs]
  exact hended

/-- Settles O60: the digits, the lines by their digits, and the load by its calls. -/
theorem hexFontLoader : Obligations.HexFontLoader := by
  unfold Obligations.HexFontLoader
  refine ⟨⟨by decide, by decide, fun _ => hexDigit_none⟩, ?skipped, ?accepted, ?empty, fun _ => rfl, ?load⟩
  case skipped =>
    rintro line (hshort | hdigit)
    · exact hexFontLine_short hshort
    · exact hexFontLine_noDigit hdigit
  case accepted =>
    intro line ns ds cp hn hd hlong hcp
    have hlen : ns.length = 4 := by
      have := congrArg List.length hn
      simp at this
      omega
    have hline := hexFontLine_digits hn hd hlong
    rw [numberOf_of_length_four hlen, ← hcp] at hline
    refine ⟨fun h0 => ?zero, fun h0 h64 => ?wide, fun h0 h64 => ?narrow⟩
    case zero => rw [hline, if_pos h0]
    case wide =>
      rw [if_neg h0, glyphOfDigits, if_pos h64] at hline
      refine ⟨_, hline, by simp, fun r hr => ?_⟩
      rw [getD_map_range _ _ hr, numberOf_row4 (by omega)]
    case narrow =>
      rw [if_neg h0, glyphOfDigits, if_neg h64] at hline
      refine ⟨_, hline, by simp, fun r hr => ?_⟩
      rw [getD_map_range _ _ hr, numberOf_row2]
  case empty =>
    intro text hnone
    have hempty : (splitLines text).filterMap (fun line => hexFontLine (stripCR line)) = [] := List.filterMap_eq_nil_iff.mpr hnone
    rw [loadHexFont_eq, hempty]
    rfl
  case load =>
    rintro s text glyphs events later hc hproc hbus hcmdq hrespq rfl hroom hevents he
    obtain rfl := Option.some.inj hevents
    have hwf : ∀ g ∈ (splitLines text).filterMap (fun line => hexFontLine (stripCR line)), g.2.wf = true := by
      intro g hmem
      obtain ⟨line, -, hline⟩ := List.mem_filterMap.mp hmem
      exact hexFontLine_wf hline
    exact stepN_load ⟨hc, hproc, hbus, hcmdq, hrespq⟩ hwf hroom he

end Sys2Proof.Machine
end
